-- ==== Sys2Proof/Word.lean ====
section
/-!
DEFINITION. The plain value types of the engine: a bank word, a chain id, the three banks and a value
kept once per bank (00_scope.md R6, R8; 20_memory.md R41, R44).
-/

namespace Sys2Proof

/-- "an unsigned 32-bit value; the unit of bank storage" (20_memory.md R41). -/
abbrev Word := BitVec 32

/-- A bit sequence, head first (00_scope.md R8). Sequences and bit vectors are different things. -/
abbrev BitSeq := List Bool

/-- The three memory banks; their numbers are 0, 1, 2 (00_scope.md R6 `NBANK`). -/
inductive Bank where
  | main
  | input
  | output
deriving DecidableEq, Repr, Inhabited

/-- The bank number of 30_encoding.md R90. -/
def Bank.num : Bank → Nat
  | .main => 0
  | .input => 1
  | .output => 2

/-- The banks in the order of their numbers. -/
def Bank.all : List Bank := [.main, .input, .output]

/-- A value kept once for each bank. -/
structure PerBank (α : Type) where
  main : α
  input : α
  output : α
deriving DecidableEq, Repr, Inhabited

/-- The value of bank `b`. -/
def PerBank.get {α : Type} (p : PerBank α) : Bank → α
  | .main => p.main
  | .input => p.input
  | .output => p.output

/-- `p` with bank `b`'s value replaced. -/
def PerBank.set {α : Type} (p : PerBank α) (b : Bank) (v : α) : PerBank α :=
  match b with
  | .main => { p with main := v }
  | .input => { p with input := v }
  | .output => { p with output := v }

end Sys2Proof
end

