-- ==== Sys2Proof/Syntax.lean ====
section
/-!
DEFINITION. The instruction set (00_scope.md R3): the eight commands and the seven frame rows of
spec/opcode_table.json, one constructor each, and the words that carry them.
-/

namespace Sys2Proof

/-- The three-way length of 30_encoding.md R91: skip, the entire capacity, exactly N. -/
inductive Length where
  | none
  | all
  | exactly (n : BitVec 17)
deriving DecidableEq, Repr, Inhabited

/-- One constructor per row of spec/opcode_table.json. -/
inductive Instr where
  /-- `BRST`, 41_transactions.md R132 -/
  | brst
  /-- `CLEAR`, 41_transactions.md R133 -/
  | clear
  /-- `WRBANK bank`, 41_transactions.md R134 -/
  | wrbank (bank : Bank)
  /-- `RDBANK bank, length`, 41_transactions.md R136 -/
  | rdbank (bank : Bank) (len : Length)
  /-- `LOADS`, 42_sessions.md R150 -/
  | loads (hasInput : Bool)
  /-- `UNLOADS lm, li, lo`, 42_sessions.md R151 -/
  | unloads (lenMain lenInput lenOutput : Length)
  /-- `RUN timeout`, 42_sessions.md R152 -/
  | run (timeout : BitVec 32)
  /-- `CKCFG freq, ring`, 43_clockgen.md R160 -/
  | ckcfg (freq : BitVec 4) (ring : BitVec 3)
  /-- frame `PAY.WRITE`: enable 1, write 1, 30_encoding.md R82 -/
  | payWrite (addr : BitVec 16) (data : Word) (mask : BitVec 4)
  /-- frame `PAY.SETADDR`: enable 1, write 0 -/
  | paySetaddr (addr : BitVec 16) (data : Word) (mask : BitVec 4)
  /-- frame `PAY.DISABLE`: enable 0, write 0 -/
  | payDisable (addr : BitVec 16) (data : Word) (mask : BitVec 4)
  /-- frame `PAY.RESERVED`: enable 0, write 1, 30_encoding.md R96 -/
  | payReserved (addr : BitVec 16) (data : Word) (mask : BitVec 4)
  /-- frame `CHAINID8`, 30_encoding.md R83 -/
  | chainid8 (id : BitVec 8)
  /-- frame `READ32`, 30_encoding.md R84 -/
  | read32 (word : Word)
  /-- frame `CLKGEN18`: positions 1..14 and 15..18, position 1 and position 15 the most significant bits,
  30_encoding.md R85 -/
  | clkgen18 (freqPos : BitVec 14) (ringPos : BitVec 4)
deriving DecidableEq, Repr, Inhabited

/-- A frame as it stands in the table: its format and its bits, typed to the format's width (30_encoding.md R80). -/
inductive Frame where
  | payload54 (v : BitVec 54)
  | chainid8 (v : BitVec 8)
  | read32 (v : BitVec 32)
  | clkgen18 (v : BitVec 18)
deriving DecidableEq, Repr, Inhabited

/-- What the decoder reads: a command word (30_encoding.md R87) or a wire frame. -/
inductive Code where
  | command (w : BitVec 64)
  | frame (f : Frame)
deriving DecidableEq, Repr, Inhabited

end Sys2Proof
end

