-- ==== Sys2Proof/WellFormed.lean ====
section
/-!
DEFINITION. Which instructions are legal (30_encoding.md R90 to R95). Bank 3 and a wrong must-be-zero bit cannot be
written as an `Instr`; the decoder rejects their words. Every frame is legal at every field value: the RTM gives
each a meaning (20_memory.md R61 to R64), although the engine's own commands send only some of them (30 R96).
-/

namespace Sys2Proof

/-- "exactly N" takes `1 <= N <= 65536` (30_encoding.md R91). -/
def Length.wf : Length → Bool
  | .none => true
  | .all => true
  | .exactly n => decide (1 ≤ n.toNat) && decide (n.toNat ≤ 65536)

/-- `freq_select` legal 1 to 14 (30_encoding.md R94). -/
def freqLegal (freq : BitVec 4) : Bool := decide (1 ≤ freq.toNat) && decide (freq.toNat ≤ 14)

/-- `ring_osc_select` legal 1 to 4 (30_encoding.md R94). -/
def ringLegal (ring : BitVec 3) : Bool := decide (1 ≤ ring.toNat) && decide (ring.toNat ≤ 4)

/-- The legal instructions. -/
def Instr.wf : Instr → Bool
  | .brst => true
  | .clear => true
  | .wrbank _ => true
  | .rdbank _ len => len.wf
  | .loads _ => true
  | .unloads lm li lo => lm.wf && li.wf && lo.wf
  | .run _ => true
  | .ckcfg freq ring => freqLegal freq && ringLegal ring
  | .payWrite _ _ _ => true
  | .paySetaddr _ _ _ => true
  | .payDisable _ _ _ => true
  | .payReserved _ _ _ => true
  | .chainid8 _ => true
  | .read32 _ => true
  | .clkgen18 _ _ => true

/-- Which of the two layers an instruction belongs to (00_scope.md R3). -/
def Instr.isCommand : Instr → Bool
  | .brst => true
  | .clear => true
  | .wrbank _ => true
  | .rdbank _ _ => true
  | .loads _ => true
  | .unloads _ _ _ => true
  | .run _ => true
  | .ckcfg _ _ => true
  | .payWrite _ _ _ => false
  | .paySetaddr _ _ _ => false
  | .payDisable _ _ _ => false
  | .payReserved _ _ _ => false
  | .chainid8 _ => false
  | .read32 _ => false
  | .clkgen18 _ _ => false

end Sys2Proof
end

