-- ==== Sys2Proof/Decode.lean ====
section
/-!
DEFINITION. The decoder, total on every word and rejecting by name, and the encoder after it (30_encoding.md R81 to
R95). The opcode rows are the match and mask columns of spec/opcode_table.json.
-/

namespace Sys2Proof

/-- Why a command word is illegal (30_encoding.md R95; 93_implementation_defined.md U30 to U34). -/
inductive Reject where
  | unknownOpcode
  | operandBitsNotZero
  | reservedBank
  | reservedLength
  | selectOutOfRange
deriving DecidableEq, Repr

/-- The eight opcodes of 30_encoding.md R88. -/
inductive Opcode where
  | brst | clear | wrbank | rdbank | loads | unloads | run | ckcfg
deriving DecidableEq, Repr

/-- Bits 63:56 of the command word (30_encoding.md R88). -/
def Opcode.code : Opcode → BitVec 8
  | .brst => 0x10
  | .clear => 0x11
  | .wrbank => 0x12
  | .rdbank => 0x13
  | .loads => 0x20
  | .unloads => 0x21
  | .run => 0x22
  | .ckcfg => 0x30

/-- How many low bits of the word hold operands; the bits from there up to bit 55 must be zero
(30_encoding.md R89 to R94). -/
def Opcode.operandBits : Opcode → Nat
  | .brst => 0
  | .clear => 0
  | .wrbank => 2
  | .rdbank => 20
  | .loads => 1
  | .unloads => 54
  | .run => 32
  | .ckcfg => 7

/-- Every opcode, in the table's order. -/
def Opcode.all : List Opcode :=
  [.brst, .clear, .wrbank, .rdbank, .loads, .unloads, .run, .ckcfg]

/-- The table's "match" column: the opcode in bits 63:56. -/
def Opcode.matchBits (o : Opcode) : BitVec 64 := BitVec.ofNat 64 (o.code.toNat * 2 ^ 56)

/-- The table's "mask" column: every bit above the operands. -/
def Opcode.maskBits (o : Opcode) : BitVec 64 := BitVec.ofNat 64 (2 ^ 64 - 2 ^ o.operandBits)

/-- The bank of 30_encoding.md R90; 3 is reserved. -/
def decodeBank (v : BitVec 2) : Except Reject Bank :=
  if v = 0 then .ok .main
  else if v = 1 then .ok .input
  else if v = 2 then .ok .output
  else .error .reservedBank

/-- `LEN18` (30_encoding.md R91): bit 17 `present`, bits 16:0 the number. -/
def decodeLen (v : BitVec 18) : Except Reject Length :=
  let n := v.extractLsb' 0 17
  if v.getLsbD 17 then
    if n = 0 then .ok .all
    else if n.toNat ≤ 65536 then .ok (.exactly n)
    else .error .reservedLength
  else if n = 0 then .ok .none
  else .error .reservedLength

/-- The operands of an opcode whose must-be-zero bits are zero (30_encoding.md R89 to R94). -/
def decodeOperands (o : Opcode) (w : BitVec 64) : Except Reject Instr :=
  match o with
  | .brst => .ok .brst
  | .clear => .ok .clear
  | .wrbank =>
    match decodeBank (w.extractLsb' 0 2) with
    | .ok b => .ok (.wrbank b)
    | .error r => .error r
  | .rdbank =>
    match decodeBank (w.extractLsb' 0 2), decodeLen (w.extractLsb' 2 18) with
    | .ok b, .ok l => .ok (.rdbank b l)
    | .error r, _ => .error r
    | .ok _, .error r => .error r
  | .loads => .ok (.loads (w.getLsbD 0))
  | .unloads =>
    match decodeLen (w.extractLsb' 0 18), decodeLen (w.extractLsb' 18 18), decodeLen (w.extractLsb' 36 18) with
    | .ok lm, .ok li, .ok lo => .ok (.unloads lm li lo)
    | .error r, _, _ => .error r
    | .ok _, .error r, _ => .error r
    | .ok _, .ok _, .error r => .error r
  | .run => .ok (.run (w.extractLsb' 0 32))
  | .ckcfg =>
    let freq := w.extractLsb' 0 4
    let ring := w.extractLsb' 4 3
    if freqLegal freq && ringLegal ring then .ok (.ckcfg freq ring) else .error .selectOutOfRange

/-- A command word (30_encoding.md R87, R95): the opcode, the must-be-zero bits, the operands. -/
def decodeCommand (w : BitVec 64) : Except Reject Instr :=
  match Opcode.all.find? (fun o => decide (o.code = w.extractLsb' 56 8)) with
  | none => .error .unknownOpcode
  | some o =>
    if w &&& o.maskBits = o.matchBits then decodeOperands o w else .error .operandBitsNotZero

/-- A frame (30_encoding.md R81 to R85). The payload kind is its enable and write bits, `V[5]` and `V[4]` (R82). -/
def decodeFrame : Frame → Instr
  | .payload54 v =>
    let addr := v.extractLsb' 38 16
    let data := v.extractLsb' 6 32
    let mask := v.extractLsb' 0 4
    match v.getLsbD 5, v.getLsbD 4 with
    | true, true => .payWrite addr data mask
    | true, false => .paySetaddr addr data mask
    | false, false => .payDisable addr data mask
    | false, true => .payReserved addr data mask
  | .chainid8 v => .chainid8 v
  | .read32 v => .read32 v
  | .clkgen18 v => .clkgen18 (v.extractLsb' 4 14) (v.extractLsb' 0 4)

/-- The decoder: total, rejecting by name. -/
def decode : Code → Except Reject Instr
  | .command w => decodeCommand w
  | .frame f => .ok (decodeFrame f)

/-- `LEN18` of a length (30_encoding.md R91). -/
def encodeLen : Length → Nat
  | .none => 0x00000
  | .all => 0x20000
  | .exactly n => 0x20000 + n.toNat

/-- `V = addr * 2^38 + data * 2^6 + enable * 2^5 + write * 2^4 + mask` (30_encoding.md R81): the five fields side by
side, `addr` highest. -/
def payloadValue (addr : BitVec 16) (data : Word) (enable write : Bool) (mask : BitVec 4) : BitVec 54 :=
  addr ++ data ++ BitVec.ofBool enable ++ BitVec.ofBool write ++ mask

/-- A command word: the opcode in bits 63:56 and the operands below it (30_encoding.md R98's last column). -/
def commandWord (o : Opcode) (operands : Nat) : Code :=
  .command (BitVec.ofNat 64 (o.code.toNat * 2 ^ 56 + operands))

/-- The encoder: the word of a well-formed instruction (30_encoding.md R81 to R94, R98). -/
def encode : Instr → Code
  | .brst => commandWord .brst 0
  | .clear => commandWord .clear 0
  | .wrbank b => commandWord .wrbank b.num
  | .rdbank b l => commandWord .rdbank (encodeLen l * 4 + b.num)
  | .loads h => commandWord .loads h.toNat
  | .unloads lm li lo => commandWord .unloads (encodeLen lm + encodeLen li * 2 ^ 18 + encodeLen lo * 2 ^ 36)
  | .run t => commandWord .run t.toNat
  | .ckcfg f r => commandWord .ckcfg (r.toNat * 16 + f.toNat)
  | .payWrite a d m => .frame (.payload54 (payloadValue a d true true m))
  | .paySetaddr a d m => .frame (.payload54 (payloadValue a d true false m))
  | .payDisable a d m => .frame (.payload54 (payloadValue a d false false m))
  | .payReserved a d m => .frame (.payload54 (payloadValue a d false true m))
  | .chainid8 i => .frame (.chainid8 i)
  | .read32 w => .frame (.read32 w)
  | .clkgen18 f r => .frame (.clkgen18 (BitVec.ofNat 18 (f.toNat * 16 + r.toNat)))

/-- The code that a table row's word stands for: the width tells the format (30_encoding.md R80), 64 a command, 54
bits (7 bytes) a payload, 8 a chain id, 32 a read word, 18 bits (3 bytes) a clock-generator frame. A bit above the
format's width makes it no word of the format. -/
def Code.ofTableWord (nbits w : Nat) : Option Code :=
  if nbits = 64 then
    if w < 2 ^ 64 then some (.command (BitVec.ofNat 64 w)) else none
  else if nbits = 56 || nbits = 54 then
    if w < 2 ^ 54 then some (.frame (.payload54 (BitVec.ofNat 54 w))) else none
  else if nbits = 8 then
    if w < 2 ^ 8 then some (.frame (.chainid8 (BitVec.ofNat 8 w))) else none
  else if nbits = 32 then
    if w < 2 ^ 32 then some (.frame (.read32 (BitVec.ofNat 32 w))) else none
  else if nbits = 24 || nbits = 18 then
    if w < 2 ^ 18 then some (.frame (.clkgen18 (BitVec.ofNat 18 w))) else none
  else none

/-- The instruction the decoder reads from a table row's word of `nbits` bits, bit 0 the least significant. -/
def decodeTableWord (nbits w : Nat) : Option Instr :=
  match Code.ofTableWord nbits w with
  | none => none
  | some c =>
    match decode c with
    | .ok i => some i
    | .error _ => none

end Sys2Proof
end

