-- ==== Sys2Proof/Config.lean ====
section
/-!
DEFINITION. What an implementation fixes (00_scope.md R6: the configuration record) and the free values, which
the spec leaves open (93_implementation_defined.md `any value`). The record is held in State, so that a statement
about every state is a statement about every configuration.
-/

namespace Sys2Proof

/-- `CKCFG_ORDER`: the order in which `CKCFG` drives its 18 positions (43_clockgen.md R162). -/
inductive CkcfgOrder where
  | scanOrder   -- position 1 first, the default
  | tailFirst   -- position 18 first
deriving DecidableEq, Repr, Inhabited

/-- `WIRE_ORDER` has the single legal value `TAIL_FIRST` (90_conflicts.md C6). -/
inductive WireOrder where
  | tailFirst
deriving DecidableEq, Repr, Inhabited

/-- `LOAD_TICKS`: pulses before, during and after the load line is high (40_primitives.md R117). -/
structure LoadTicks where
  pre : Nat
  high : Nat
  post : Nat
deriving DecidableEq, Repr, Inhabited

/-- `POL[X]`: whether asserted is the high electrical level, for the lines described by assertion, and whether
`EXT` is the high level of the clock mux. Read by no rule (10_state.md R10, R14, R16 to R20). -/
structure Polarity where
  cse : Bool
  tm : Bool
  crst : Bool
  cgec : Bool
  cgge : Bool
  clksel : Bool
deriving DecidableEq, Repr, Inhabited

/-- The rows `first` to `last` of a bank, both included. -/
structure RowRange where
  bank : Bank
  first : BitVec 16
  last : BitVec 16
deriving DecidableEq, Repr, Inhabited

/-- `CHIP_EXEC`: the relation between the banks before and after a `RUN` (20_memory.md R66), a parameter of the
machine. DESIGN CHOICE (log 18): two families are written out row by row, and `relation n` is any relation that lets
some contents follow each: its contents are uninterpreted (`Config.chipExecResult`), so that a claim for a relation `R`
takes as its premise that `relation n` allows what `R` allows, and a claim for every `n` holds for every relation. -/
inductive ChipExec where
  /-- the listed rows stay as they were, every other row becomes any value -/
  | keeps (rows : List RowRange)
  /-- the listed rows become any value, every other row stays as it was -/
  | changesOnly (rows : List RowRange)
  /-- the `n`-th uninterpreted relation -/
  | relation (n : Nat)
deriving DecidableEq, Repr, Inhabited

/-- The default relation, "always true" (20_memory.md R66; 92 D28). -/
def ChipExec.any : ChipExec := .keeps []

/-- "the run leaves every row as it was (one legal" choice, that of program P2 of 95_test_vectors.md). -/
def ChipExec.unchanged : ChipExec := .changesOnly []

/-- The configuration record of 00_scope.md R6. -/
structure Config where
  /-- `CAP[b]`, a u32 row count -/
  cap : PerBank (BitVec 32)
  /-- `RD[b]`, a ChainId -/
  rd : PerBank (BitVec 4)
  /-- `WR[b]`, a ChainId -/
  wr : PerBank (BitVec 4)
  /-- `CKGEN_ID`, a ChainId, read by no rule but the validity check -/
  ckgenId : BitVec 4
  /-- `COLMUX[b]`, read by no rule -/
  colmux : PerBank Nat
  /-- `RESET_PULSES` -/
  resetPulses : BitVec 32
  /-- `LOAD_TICKS` -/
  loadTicks : LoadTicks
  /-- `WIRE_ORDER` -/
  wireOrder : WireOrder
  /-- `CKCFG_ORDER` -/
  ckcfgOrder : CkcfgOrder
  /-- `POL[X]` -/
  pol : Polarity
  /-- `CHIP_EXEC` -/
  chipExec : ChipExec
deriving DecidableEq, Repr, Inhabited

/-- `WORD_WIDTH`, `BANK[b].WIDTH`: 32, fixed (00_scope.md R6; 10_state.md R29). -/
def Config.wordWidth : Nat := 32

/-- `ID_WIDTH`, the width of the chain-id frame. -/
def Config.idWidth : Nat := 8

/-- `NCHAIN`, the size of the chain-id space: ids 0 to 8. -/
def Config.nchain : Nat := 9

/-- `TVCFG`, the configuration of 95_test_vectors.md section 0, with `COLMUX` 0 and every polarity high but `CGGE`'s.
DESIGN CHOICE (log 2): none of its numbers is a claim about the chip. -/
def Config.tvcfg : Config where
  cap := ⟨10, 4, 4⟩
  rd := ⟨0, 2, 4⟩
  wr := ⟨1, 3, 5⟩
  ckgenId := 6
  colmux := ⟨0, 0, 0⟩
  resetPulses := 4
  loadTicks := ⟨0, 1, 1⟩
  wireOrder := .tailFirst
  ckcfgOrder := .scanOrder
  pol := ⟨true, true, true, true, false, true⟩
  chipExec := .any

/-- What 20_memory.md R66 lets a `RUN` replace in the RTM: the values its rows take where `CHIP_EXEC` lets them be any,
which of the contents an uninterpreted relation allows it takes, `treg`, `selected`, `pay_sr`, `rd_sr`. -/
structure RunEffect where
  mem : List Host.Cell
  choice : Nat
  treg : PerBank (BitVec 54)
  selected : Option (BitVec 8)
  paySr : BitVec 54
  rdSr : Word
deriving DecidableEq, Repr, Inhabited

/-- FREE VALUE (log 9): one bit, for the n-th free draw: an answer on `DONE`, on `SDI` while `SVLD` is false, or any
sample an oracle environment answers (93_implementation_defined.md U14, U16). -/
opaque Config.freeBit : Nat → Bool

/-- FREE VALUE (log 9): one word, for the n-th free draw: a read past the capacity, a row after a partial-mask write,
a host read of an `RXBUF` entry that holds no value (93_implementation_defined.md U11, U17, U18). -/
opaque Config.freeWord : Nat → Word

/-- FREE VALUE (log 18): the `k`-th of the bank contents that the `n`-th relation allows after the contents given
(20_memory.md R66 `CHIP_EXEC`). -/
opaque Config.chipExecResult : Nat → List Host.Cell → Nat → List Host.Cell

/-- FREE VALUE (log 9): what the n-th free `RUN` leaves on the chip (93_implementation_defined.md U15). -/
opaque Config.freeRunEffect : Nat → RunEffect

end Sys2Proof
end

