-- ==== Sys2Proof/Machine/Types.lean ====
section
/-!
DEFINITION. The types State is made of: lines, events, phases, flags, outcome codes, working registers, the reference
target model, the environment's queues and the host's operations. Plain data only.
-/

namespace Sys2Proof.Machine

open Sys2Proof

/-- The ten output lines (10_state.md R10). -/
inductive OutLine where
  | sck | sdo | srst | cse | load | tm | clksel | crst | cgec | cgge
deriving DecidableEq, Repr, Inhabited

/-- The three input lines (10_state.md R21 to R23). -/
inductive InLine where
  | sdi | svld | done
deriving DecidableEq, Repr, Inhabited

/-- The levels last written (00_scope.md R8): high or asserted is `true`; `CLKSEL` is `true` for `INT`
(DESIGN CHOICE of the name only, log 21). -/
structure Lines where
  sck : Bool
  sdo : Bool
  srst : Bool
  cse : Bool
  load : Bool
  tm : Bool
  clksel : Bool
  crst : Bool
  cgec : Bool
  cgge : Bool
deriving DecidableEq, Repr, Inhabited

/-- `CLKSEL = EXT`, "the externally driven clock" (10_state.md R17). -/
def clkExt : Bool := false

/-- `CLKSEL = INT`, "the internally generated clock" (10_state.md R17). -/
def clkInt : Bool := true

/-- One entry of the trace: `W(X, v)` or `R(X, b)` (00_scope.md R8). -/
inductive Event where
  | w (x : OutLine) (v : Bool)
  | r (x : InLine) (b : Bool)
deriving DecidableEq, Repr, Inhabited

/-- `PHASE` (10_state.md R25). -/
inductive Phase where
  | idle | resetting | testMode | selected | shifting | testModeExit | polling | clkCfg
deriving DecidableEq, Repr, Inhabited

/-- `STATUS` (10_state.md R26); bits 31:3 hold nothing and read as 0. -/
structure Status where
  busy : Bool
  fault : Bool
  cfgerr : Bool
deriving DecidableEq, Repr, Inhabited

/-- `RESULT` (10_state.md R27; 60_exceptions.md R170); codes 6 and 7 are never written. -/
inductive Result where
  | ok | configurationError | capacityError | protocolFault | timedOut | illegalCommand
deriving DecidableEq, Repr, Inhabited

/-- The working registers of 10_state.md R33. -/
structure Work where
  shr : BitVec 54
  dsr : BitVec 32
  bitc : BitVec 6
  addrc : BitVec 17
  idc : BitVec 4
  cnt : BitVec 32
deriving DecidableEq, Repr, Inhabited

/-- The memory of the three banks: byte cells, a row of bank `b` being the four cells from
`(b * 65536 + row) * 4` (the order of the four is DESIGN CHOICE, unobservable, log 7). -/
abbrev Memory := List Host.Cell

/-- A host buffer, `TXBUF[b]` or `RXBUF[b]` (10_state.md R31, R32): word cells by index. -/
abbrev Buffer := List (Nat × Word)

/-- The RTM's state (20_memory.md R57), less the line levels, which are the engine's (log 26). -/
structure Chip where
  /-- `sel_sr`, the chain-select shift register -/
  selSr : BitVec 8
  /-- `sel_pend`: an id has been shifted and not yet latched -/
  selPend : Bool
  /-- `selected`, the current selection -/
  selected : Option (BitVec 8)
  /-- `pay_sr`, the payload shift register -/
  paySr : BitVec 54
  /-- `treg[WR[b]]`, the write-data register of bank `b`'s write target; held by bank, also when a re-construction
  gives the bank another id (DESIGN CHOICE, log 31) -/
  treg : PerBank (BitVec 54)
  /-- `rd_sr`, the read shift register -/
  rdSr : Word
  /-- `bank[b][a]` -/
  mem : Memory
deriving DecidableEq, Repr, Inhabited

/-- Which environment answers (20_memory.md R55): the reference target model, or one that answers anything. -/
inductive EnvKind where
  | rtm
  | oracle
deriving DecidableEq, Repr, Inhabited

/-- The outside world's pending answers, oldest first; where a list is empty the answer is a free value (log 8). -/
structure Env where
  kind : EnvKind
  /-- answers to the free bit draws: `DONE`, `SDI` while `SVLD` is false, every sample of an oracle -/
  bits : List Bool
  /-- answers to the free word draws: a read past the capacity, a row after a partial-mask write -/
  words : List Word
  /-- `true` forces the RTM's next `SVLD` sample to 0: "A test may override `SVLD` to 0" (20_memory.md R65) -/
  svldForce : List Bool
  /-- bits a `READ32` frame is presenting on `SDI`, ahead of the environment's own answers (log 13) -/
  sdiFrame : List Bool
  /-- what the next runs of the chip leave behind (20_memory.md R66) -/
  effects : List RunEffect
deriving DecidableEq, Repr, Inhabited

/-- What the engine's reset leaves unspecified (10_state.md R37), given as data: universally quantified in a
statement, named once in `Launch.unwritten` for the reset state (20_memory.md R67). -/
structure Launch where
  clksel : Bool
  crst : Bool
  cgec : Bool
  cgge : Bool
  cmd : BitVec 64
  txlen : PerBank (BitVec 17)
  txbuf : PerBank Buffer
  rxbuf : PerBank Buffer
  work : Work
  hostData : BitVec 64
deriving DecidableEq, Repr, Inhabited

/-- What the host does next (10_state.md R34; 41_transactions.md R130; 70_reset_and_hazards.md R200). -/
inductive HostOp where
  /-- write `v` to register number `n`; register 0 is `CMD` -/
  | write (n : Nat) (v : BitVec 64)
  /-- read register number `n` -/
  | read (n : Nat)
  /-- one frame of the wire layer, run alone (log 11); no host of the spec can ask for this -/
  | wire (f : Frame)
  /-- the engine's reset: construction with a configuration (70_reset_and_hazards.md R200) -/
  | construct (c : Config) (l : Launch)
deriving DecidableEq, Repr, Inhabited

/-- A register by its name (10_state.md R34). -/
inductive Reg where
  | cmd | status | result | elapsed | phase | resetPulses
  | txlen (b : Bank) | rxlen (b : Bank) | cap (b : Bank) | rd (b : Bank) | wr (b : Bank)
  | txbuf (b : Bank) (k : BitVec 16) | rxbuf (b : Bank) (k : BitVec 16)
deriving DecidableEq, Repr, Inhabited

end Sys2Proof.Machine
end

