-- ==== Sys2Proof/Machine/Flags.lean ====
section
/-!
DEFINITION. Every flag and check of the spec: the validity of a configuration (00_scope.md R7), the capacity test
(41_transactions.md R134), the three STATUS flags (10_state.md R26) and the numeric codes the host reads.
-/

namespace Sys2Proof.Machine

open Sys2Proof

/-- The seven named chain ids (20_memory.md R44). -/
def Config.namedIds (c : Config) : List (BitVec 4) :=
  [c.rd.main, c.wr.main, c.rd.input, c.wr.input, c.rd.output, c.wr.output, c.ckgenId]

/-- `WR[b] = RD[b] + 1`, as numbers. -/
def Config.targetsPaired (c : Config) (b : Bank) : Bool :=
  decide ((c.wr.get b).toNat = (c.rd.get b).toNat + 1)

/-- "A configuration is valid when ..." (00_scope.md R7). -/
def Config.valid (c : Config) : Bool :=
  Bank.all.all (Config.targetsPaired c)
    && decide (Config.wordWidth % 8 = 0)
    && decide (Config.namedIds c).Nodup
    && (Config.namedIds c).all (fun i => decide (i.toNat < Config.nchain))
    && Bank.all.all (fun b => decide ((c.cap.get b).toNat ≤ 65536))

/-- The capacity test `TXLEN[b] >= CAP[b]` (40_primitives.md R120 (c); 41_transactions.md R134). -/
def capacityExceeded (n : BitVec 17) (cap : BitVec 32) : Bool := decide (cap.toNat ≤ n.toNat)

/-- `BUSY` is 1 from the acceptance of a command to its end. -/
def Status.accept (s : Status) : Status := { s with busy := true }

/-- `BUSY <- 0`. -/
def Status.endBusy (s : Status) : Status := { s with busy := false }

/-- `STATUS.FAULT <- 1` (60_exceptions.md R173). -/
def Status.setFault (s : Status) : Status := { s with fault := true }

/-- `STATUS.FAULT <- 0`, the end of `bus_reset` (41_transactions.md R132). -/
def Status.clearFault (s : Status) : Status := { s with fault := false }

/-- The word the host reads: bit 0 `BUSY`, bit 1 `FAULT`, bit 2 `CFGERR`, bits 31:3 zero (10_state.md R26). -/
def Status.toWord (s : Status) : BitVec 32 :=
  BitVec.ofNat 32 (s.busy.toNat + s.fault.toNat * 2 + s.cfgerr.toNat * 4)

/-- The outcome codes (10_state.md R27). -/
def Result.code : Result → BitVec 3
  | .ok => 0
  | .configurationError => 1
  | .capacityError => 2
  | .protocolFault => 3
  | .timedOut => 4
  | .illegalCommand => 5

/-- The phase values (10_state.md R25). -/
def Phase.code : Phase → BitVec 3
  | .idle => 0
  | .resetting => 1
  | .testMode => 2
  | .selected => 3
  | .shifting => 4
  | .testModeExit => 5
  | .polling => 6
  | .clkCfg => 7

end Sys2Proof.Machine
end

