-- ==== Sys2Proof/Machine/Store.lean ====
section
/-!
DEFINITION. Memory and buffers: association lists in one canonical form (keys strictly rising, no entry equal to what
an unlisted key reads as), the banks' rows over byte cells, and the host buffers over word cells.
-/

namespace Sys2Proof.Machine

open Sys2Proof

/-- The value at key `k`, `d k` where nothing is listed. -/
def Cells.read {α : Type} (d : Nat → α) : List (Nat × α) → Nat → α
  | [], k => d k
  | (k', v) :: rest, k => if k = k' then v else Cells.read d rest k

/-- Write `v` at key `k`, keeping the canonical form: writing the unlisted value removes the entry. -/
def Cells.write {α : Type} [DecidableEq α] (d : Nat → α) : List (Nat × α) → Nat → α → List (Nat × α)
  | [], k, v => if v = d k then [] else [(k, v)]
  | (k', v') :: rest, k, v =>
    if k < k' then
      if v = d k then (k', v') :: rest else (k, v) :: (k', v') :: rest
    else if k = k' then
      if v = d k then rest else (k, v) :: rest
    else (k', v') :: Cells.write d rest k v

/-- The canonical form. -/
def Cells.wf {α : Type} [DecidableEq α] (d : Nat → α) : List (Nat × α) → Bool
  | [] => true
  | (k, v) :: rest => decide (v ≠ d k) && rest.all (fun c => decide (k < c.1)) && Cells.wf d rest

/-- The low-byte-first packing of 20_memory.md R48, `t0 + t1*2^8 + t2*2^16 + t3*2^24`. -/
def packBytes (t0 t1 t2 t3 : BitVec 8) : Word :=
  BitVec.ofNat 32 (t0.toNat + t1.toNat * 2 ^ 8 + t2.toNat * 2 ^ 16 + t3.toNat * 2 ^ 24)

/-- Byte `i` of a word in that packing. -/
def byteOf (w : Word) (i : Nat) : BitVec 8 := w.extractLsb' (8 * i) 8

/-- How many byte addresses the three banks have at most: 3 x 65536 rows of four bytes. -/
def Memory.size : Nat := 3 * 65536 * 4

/-- What a row nothing has written reads as: `0xDEAD0000 + a`, the launch contents of 95_test_vectors.md section 0.
DESIGN CHOICE, unsafe (log 6): the spec gives no value (93_implementation_defined.md U1). -/
def launchRow (a : Nat) : Word := BitVec.ofNat 32 (0xDEAD0000 + a)

/-- What an unlisted byte address reads as. -/
def Memory.unlisted (addr : Nat) : BitVec 8 := byteOf (launchRow (addr / 4 % 65536)) (addr % 4)

/-- The canonical form of a memory, with no address outside the banks. -/
def Memory.wf (m : Memory) : Bool :=
  Cells.wf Memory.unlisted m && m.all (fun c => decide (c.1 < Memory.size))

/-- The read of one byte. -/
def Memory.readByte (m : Memory) (addr : Nat) : BitVec 8 := Cells.read Memory.unlisted m addr

/-- The write of one byte. -/
def Memory.writeByte (m : Memory) (addr : Nat) (v : BitVec 8) : Memory := Cells.write Memory.unlisted m addr v

/-- The first byte address of row `a` of bank `b`: three separate banks (20_memory.md R41). -/
def rowAddr (b : Bank) (a : BitVec 16) : Nat := (b.num * 65536 + a.toNat) * 4

/-- `bank[b][a]`, one whole word (20_memory.md R43). -/
def Memory.readRow (m : Memory) (b : Bank) (a : BitVec 16) : Word :=
  packBytes (m.readByte (rowAddr b a)) (m.readByte (rowAddr b a + 1)) (m.readByte (rowAddr b a + 2))
    (m.readByte (rowAddr b a + 3))

/-- `bank[b][a] <- w`. -/
def Memory.writeRow (m : Memory) (b : Bank) (a : BitVec 16) (w : Word) : Memory :=
  (((m.writeByte (rowAddr b a) (byteOf w 0)).writeByte (rowAddr b a + 1) (byteOf w 1)).writeByte
    (rowAddr b a + 2) (byteOf w 2)).writeByte (rowAddr b a + 3) (byteOf w 3)

/-- Any list of cells as a memory in canonical form; a cell outside the banks is dropped. -/
def Memory.ofCells : List Host.Cell → Memory
  | [] => []
  | (addr, v) :: rest =>
    if addr < Memory.size then (Memory.ofCells rest).writeByte addr v else Memory.ofCells rest

/-- Is row `a` of bank `b` in the range? -/
def rangeHas (r : RowRange) (b : Bank) (a : BitVec 16) : Bool :=
  decide (r.bank = b ∧ r.first.toNat ≤ a.toNat ∧ a.toNat ≤ r.last.toNat)

/-- Is row `a` of bank `b` in one of the ranges? -/
def rangesHave (rs : List RowRange) (b : Bank) (a : BitVec 16) : Bool := rs.any fun r => rangeHas r b a

/-- `m` with the `n` rows of bank `b` from row `a` on as they are in `src`. -/
def Memory.copyRows (src : Memory) (b : Bank) (a : BitVec 16) : Nat → Memory → Memory
  | 0, m => m
  | n + 1, m => Memory.copyRows src b (a + 1) n (m.writeRow b a (src.readRow b a))

/-- `m` with the rows of the ranges as they are in `src`. -/
def Memory.copyRanges (src : Memory) : List RowRange → Memory → Memory
  | [], m => m
  | r :: rs, m =>
    Memory.copyRanges src rs (Memory.copyRows src r.bank r.first (r.last.toNat + 1 - r.first.toNat) m)

/-- What a buffer entry nothing has written reads as: all ones. DESIGN CHOICE, unsafe (log 4). -/
def Buffer.unlisted (_ : Nat) : Word := 0xFFFFFFFF

/-- The canonical form of a buffer of 65536 entries. -/
def Buffer.wf (m : Buffer) : Bool :=
  Cells.wf Buffer.unlisted m && m.all (fun c => decide (c.1 < 65536))

/-- The entry at index `k`. -/
def Buffer.read (m : Buffer) (k : BitVec 16) : Word := Cells.read Buffer.unlisted m k.toNat

/-- Write the entry at index `k`. -/
def Buffer.write (m : Buffer) (k : BitVec 16) (w : Word) : Buffer := Cells.write Buffer.unlisted m k.toNat w

end Sys2Proof.Machine
end

