-- ==== Sys2Proof/Machine/State.lean ====
section
/-!
DEFINITION. The machine's state, the reasons it can stop, and the state right after reset (10_state.md; 20_memory.md
R57, R67; 70_reset_and_hazards.md R200).
-/

namespace Sys2Proof.Machine

open Sys2Proof

/-- Where the RTM gives a trace no meaning and has no next state, "stuck" (20_memory.md R69; 93 U22). All safe: the
model stops where no claim is made. No command of a valid configuration raises one (20_memory.md R69); a frame of the
wire layer run alone out of its context can (log 10). -/
inductive Fault where
  /-- rising `SCK` outside test mode with `CSE`, `LOAD` or a pending selection (20_memory.md R60); safe -/
  | rtmOutsideTestMode
  /-- rising `SCK` with `CSE` and `LOAD` both asserted (20_memory.md R61); safe -/
  | rtmLoadDuringSelect
  /-- rising `SCK` with `LOAD` high while a selection is pending (20_memory.md R62); safe -/
  | rtmLoadBeforeLatch
  /-- a capture with nothing selected (20_memory.md R63); safe -/
  | rtmCaptureUnselected
  /-- a captured write at a row at or past the capacity (20_memory.md R63); safe -/
  | rtmWriteBeyondCapacity
deriving DecidableEq, Repr, Inhabited

/-- What the model declines by name. -/
inductive Refusal where
  /-- raised by exec's arms for an instruction without a meaning yet; safe -/
  | notModelled (mnemonic : String)
  /-- raised by a host read of the write-only `CMD` (10_state.md R34); safe -/
  | cmdIsWriteOnly
  /-- raised by a host write of a value its register cannot hold (10_state.md R31; 92 D14); safe -/
  | hostValueOutOfRange
  /-- raised by a host write or command while `STATUS.BUSY = 1`, which "cannot happen" (10_state.md R34); safe -/
  | hostWriteWhileBusy
deriving DecidableEq, Repr, Inhabited

/-- Everything the spec gives the machine, and the four model's own fields at the end. -/
structure State where
  /-- the configuration registers (10_state.md R29, R30) -/
  cfg : Config
  /-- the output lines (10_state.md R10) -/
  lines : Lines
  /-- `PHASE` (10_state.md R25) -/
  phase : Phase
  /-- `STATUS` (10_state.md R26) -/
  status : Status
  /-- `RESULT` (10_state.md R27) -/
  result : Result
  /-- `ELAPSED` (10_state.md R28) -/
  elapsed : BitVec 32
  /-- `CMD`, the command word last written (10_state.md R34) -/
  cmd : BitVec 64
  /-- `TXLEN[b]` (10_state.md R31) -/
  txlen : PerBank (BitVec 17)
  /-- `TXBUF[b]` (10_state.md R31) -/
  txbuf : PerBank Buffer
  /-- `RXLEN[b]` (10_state.md R32) -/
  rxlen : PerBank (BitVec 17)
  /-- `RXBUF[b]` (10_state.md R32) -/
  rxbuf : PerBank Buffer
  /-- the working registers (10_state.md R33) -/
  work : Work
  /-- `TRACE`, newest event first (00_scope.md R8; log 24) -/
  log : List Event
  /-- the RTM (20_memory.md R57) -/
  chip : Chip
  /-- the environment's kind and pending answers (20_memory.md R55) -/
  env : Env
  /-- host operations not yet performed, oldest first -/
  host : List HostOp
  /-- what the last host register read returned -/
  hostData : BitVec 64
  /-- how many free values have been drawn -/
  freeCount : Nat
deriving DecidableEq, Repr, Inhabited

/-- The trace in order (00_scope.md R8). -/
def State.trace (s : State) : List Event := s.log.reverse

/-- The engine's reset (10_state.md R37; 70_reset_and_hazards.md R200): the six scan lines 0, the four chip-level lines
and the buffers as the launch says, `CFGERR` from the configuration check, no event. The chip and the environment are
as they were (70_reset_and_hazards.md R201). -/
def State.construct (c : Config) (l : Launch) (chip : Chip) (env : Env) : State where
  cfg := c
  lines :=
    { sck := false, sdo := false, srst := false, cse := false, load := false, tm := false,
      clksel := l.clksel, crst := l.crst, cgec := l.cgec, cgge := l.cgge }
  phase := .idle
  status := { busy := false, fault := false, cfgerr := !Config.valid c }
  result := .ok
  elapsed := 0
  cmd := l.cmd
  txlen := l.txlen
  txbuf := l.txbuf
  rxlen := ⟨0, 0, 0⟩
  rxbuf := l.rxbuf
  work := l.work
  log := []
  chip := chip
  env := env
  host := []
  hostData := l.hostData
  freeCount := 0

/-- The values the reset state takes where the spec gives none. DESIGN CHOICE, unsafe (logs 3, 4): nowhere 0, which
10_state.md R37 says a model must not pick; `TXLEN` the largest length, so that a `WRBANK` before the host has written
`TXLEN` is turned away (41_transactions.md R134). -/
def Launch.unwritten : Launch where
  clksel := clkInt
  crst := true
  cgec := true
  cgge := true
  cmd := 0xFFFFFFFFFFFFFFFF
  txlen := ⟨65536, 65536, 65536⟩
  txbuf := ⟨[], [], []⟩
  rxbuf := ⟨[], [], []⟩
  work :=
    { shr := 0x3FFFFFFFFFFFFF, dsr := 0xFFFFFFFF, bitc := 63, addrc := 0x1FFFF, idc := 15, cnt := 0xFFFFFFFF }
  hostData := 0xFFFFFFFFFFFFFFFF

/-- The RTM launch state of 95_test_vectors.md section 0. DESIGN CHOICE, unsafe (log 5): the spec says `any value`. -/
def Chip.launch : Chip where
  selSr := 0
  selPend := false
  selected := none
  paySr := 0
  treg := ⟨0, 0, 0⟩
  rdSr := 0
  mem := []

/-- The RTM with no answer queued. DESIGN CHOICE (log 8). -/
def Env.quiet : Env where
  kind := .rtm
  bits := []
  words := []
  svldForce := []
  sdiFrame := []
  effects := []

/-- The machine right after reset: the start state of 95_test_vectors.md section 0, where nothing runs until the host
writes `CMD` (70_reset_and_hazards.md R200). -/
def State.reset : State := State.construct Config.tvcfg Launch.unwritten Chip.launch Env.quiet

end Sys2Proof.Machine
end

