-- ==== Sys2Proof/Machine/Operands.lean ====
section
/-!
DEFINITION. Operand forms: bit sequences (00_scope.md R8), the payload codec (40_primitives.md R113, R114), the chain-id
and clock-generator sequences (30_encoding.md R83, R85), the read length (41_transactions.md R135) and the host
register numbers (10_state.md R34).
-/

namespace Sys2Proof.Machine

open Sys2Proof

/-- `bin_W(v)`: zero-padded binary, most significant bit at the head (00_scope.md R8). -/
def bin {W : Nat} (v : BitVec W) : BitSeq := (List.range W).map (fun i => v.getLsbD (W - 1 - i))

/-- `ubig(s)`: the unsigned integer a sequence spells, head most significant (00_scope.md R8). -/
def ubig (s : BitSeq) : Nat := s.foldl (fun acc b => 2 * acc + b.toNat) 0

/-- `bin_W(v)` of a number below `2^W`. -/
def binNat (W v : Nat) : BitSeq := bin (BitVec.ofNat W v)

/-- One bit into a register of width `W` at its top, `(b << (W-1)) | (p >> 1)` (20_memory.md R61, R64; the sampled bits
of 40_primitives.md R112 collect the same way). -/
def pushTop {W : Nat} (p : BitVec W) (b : Bool) : BitVec W := (BitVec.ofBool b).setWidth W <<< (W - 1) ||| p >>> 1

/-- The codec's packer (40_primitives.md R113). -/
def encodePayload (addr : BitVec 16) (data : Word) (enable write : Bool) (mask : BitVec 4) : BitSeq :=
  bin addr ++ bin data ++ [enable] ++ [write] ++ bin mask

/-- The fields of a payload (30_encoding.md R81). -/
structure Payload where
  addr : BitVec 16
  data : Word
  enable : Bool
  write : Bool
  mask : BitVec 4
deriving DecidableEq, Repr, Inhabited

/-- The codec's unpacker, the split at the same fixed offsets (40_primitives.md R114). -/
def decodePayload (s : BitSeq) : Payload where
  addr := BitVec.ofNat 16 (ubig (s.take 16))
  data := BitVec.ofNat 32 (ubig ((s.drop 16).take 32))
  enable := s.getD 48 false
  write := s.getD 49 false
  mask := BitVec.ofNat 4 (ubig ((s.drop 50).take 4))

/-- The all-ones mask, which every command sends (20_memory.md R43). -/
def maskAll : BitVec 4 := 15

/-- The clock-generator sequence, position 1 at the head: positions `15 - freq` and `19 - ring` are 1, the other 16 are
0 (43_clockgen.md R160, R161). -/
def clkgenSeq (freq : BitVec 4) (ring : BitVec 3) : BitSeq :=
  (List.range 18).map
    (fun i => decide (i + 1 = 15 - freq.toNat) || decide (i + 1 = 19 - ring.toNat))

/-- The sequence a `CLKGEN18` frame spells: positions 1 to 14, then 15 to 18 (30_encoding.md R85). -/
def clkgenFrameSeq (freqPos : BitVec 14) (ringPos : BitVec 4) : BitSeq := bin freqPos ++ bin ringPos

/-- The order on the wire (43_clockgen.md R162). -/
def clkgenWire (o : CkcfgOrder) (c : BitSeq) : BitSeq :=
  match o with
  | .scanOrder => c
  | .tailFirst => c.reverse

/-- `resolve(b, len)` (41_transactions.md R135): skip, the capacity, or exactly N. -/
def resolveLength (cap : BitVec 32) : Length → Option Nat
  | .none => none
  | .all => some cap.toNat
  | .exactly n => some n.toNat

/-- The bank whose read target is `id`. -/
def bankOfRead (c : Config) (id : BitVec 8) : Option Bank :=
  Bank.all.find? (fun b => decide ((c.rd.get b).setWidth 8 = id))

/-- The bank whose write target is `id`. -/
def bankOfWrite (c : Config) (id : BitVec 8) : Option Bank :=
  Bank.all.find? (fun b => decide ((c.wr.get b).setWidth 8 = id))

/-- The bank with number `n`. -/
def bankOfNum (n : Nat) : Option Bank := Bank.all.find? (fun b => decide (b.num = n))

/-- The register with number `n` (10_state.md R34); `none` where the number is reserved. -/
def Reg.ofNumber (n : Nat) : Option Reg :=
  if n = 0 then some .cmd
  else if n = 1 then some .status
  else if n = 2 then some .result
  else if n = 3 then some .elapsed
  else if n = 4 then some .phase
  else if 8 ≤ n ∧ n ≤ 10 then (bankOfNum (n - 8)).map .txlen
  else if 12 ≤ n ∧ n ≤ 14 then (bankOfNum (n - 12)).map .rxlen
  else if 16 ≤ n ∧ n ≤ 18 then (bankOfNum (n - 16)).map .cap
  else if 20 ≤ n ∧ n ≤ 22 then (bankOfNum (n - 20)).map .rd
  else if 24 ≤ n ∧ n ≤ 26 then (bankOfNum (n - 24)).map .wr
  else if n = 28 then some .resetPulses
  else if 0x10000 ≤ n ∧ n < 0x40000 then
    (bankOfNum (n / 0x10000 - 1)).map (fun b => .txbuf b (BitVec.ofNat 16 (n % 0x10000)))
  else if 0x50000 ≤ n ∧ n < 0x80000 then
    (bankOfNum (n / 0x10000 - 5)).map (fun b => .rxbuf b (BitVec.ofNat 16 (n % 0x10000)))
  else none

end Sys2Proof.Machine
end

