-- ==== Sys2Proof/Machine/Environment.lean ====
section
/-!
DEFINITION. The environment on the other side of the lines (20_memory.md R55): its draws, its answers to the samples
(R65, R66), the reference target model's reaction to a rising scan clock (R58 to R64) and what a RUN leaves behind (R66).
-/

namespace Sys2Proof.Machine

open Sys2Proof

/-- How a micro-step ends: the command goes on, the command ends with an outcome, or the RTM is stuck. -/
inductive Flow where
  | go (s : State)
  | stop (s : State) (e : Result)
  | stuck (f : Fault)
deriving DecidableEq, Repr

/-- Go on with `k` where the command goes on. -/
def Flow.bind (r : Flow) (k : State → Flow) : Flow :=
  match r with
  | .go s => k s
  | .stop s e => .stop s e
  | .stuck f => .stuck f

/-- A free bit: the next queued answer, else a free value (93_implementation_defined.md U14, U16). -/
def drawBit (s : State) : Bool × State :=
  match s.env.bits with
  | b :: rest => (b, { s with env := { s.env with bits := rest } })
  | [] => (Config.freeBit s.freeCount, { s with freeCount := s.freeCount + 1 })

/-- A free word: the next queued answer, else a free value (93_implementation_defined.md U17, U18). -/
def drawWord (s : State) : Word × State :=
  match s.env.words with
  | w :: rest => (w, { s with env := { s.env with words := rest } })
  | [] => (Config.freeWord s.freeCount, { s with freeCount := s.freeCount + 1 })

/-- What a run of the chip leaves behind: the next queued effect, else a free value (93_implementation_defined.md U15). -/
def drawEffect (s : State) : RunEffect × State :=
  match s.env.effects with
  | e :: rest => (e, { s with env := { s.env with effects := rest } })
  | [] => (Config.freeRunEffect s.freeCount, { s with freeCount := s.freeCount + 1 })

/-- The RTM's `SVLD` level: 1 exactly when `TM = 1` and a read target is selected (20_memory.md R65). -/
def rtmValid (s : State) : Bool :=
  s.lines.tm &&
    match s.chip.selected with
    | some id => (bankOfRead s.cfg id).isSome
    | none => false

/-- The answer on `SDI`: a frame being presented first, then the environment's: the RTM's `rd_sr[0]` while `SVLD` would
read 1, else any bit (20_memory.md R65). -/
def answerSdi (s : State) : Bool × State :=
  match s.env.sdiFrame with
  | b :: rest => (b, { s with env := { s.env with sdiFrame := rest } })
  | [] =>
    match s.env.kind with
    | .rtm => if rtmValid s then (s.chip.rdSr.getLsbD 0, s) else drawBit s
    | .oracle => drawBit s

/-- The answer on `SVLD`: the RTM's level, unless a test forces it to 0 (20_memory.md R65). -/
def answerSvld (s : State) : Bool × State :=
  match s.env.kind with
  | .rtm =>
    match s.env.svldForce with
    | f :: rest => (rtmValid s && !f, { s with env := { s.env with svldForce := rest } })
    | [] => (rtmValid s, s)
  | .oracle => drawBit s

/-- The environment's answer on an input line; every answer on `DONE` is a free draw (20_memory.md R66). -/
def answer (x : InLine) (s : State) : Bool × State :=
  match x with
  | .sdi => answerSdi s
  | .svld => answerSvld s
  | .done => drawBit s

/-- `sample(X)`: ask the environment, append `R(X, b)` to the trace, return `b` (00_scope.md R8). -/
def sample (x : InLine) (s : State) : Bool × State :=
  ((answer x s).1, { (answer x s).2 with log := .r x (answer x s).1 :: s.log })

/-- Rising `SCK` with `SRST = 1` (20_memory.md R59): the scan logic is reset, nothing is selected; `treg`, `rd_sr` and
the banks are unchanged. -/
def rtmReset (s : State) : Flow :=
  .go { s with chip := { s.chip with selSr := 0, selPend := false, selected := none, paySr := 0 } }

/-- The select register shifts, the new bit entering at bit 7 (20_memory.md R61). -/
def rtmSelectShift (s : State) : Flow :=
  .go { s with chip := { s.chip with
    selSr := pushTop s.chip.selSr s.lines.sdo, selPend := true } }

/-- The row the write target's register of bank `b` names (20_memory.md R62). -/
def tregRow (s : State) (b : Bank) : BitVec 16 := (decodePayload (bin (s.chip.treg.get b))).addr

/-- The selection latches; on a read target the read register loads the row the write target's register names, any
value where that row is at or past the capacity (20_memory.md R62). -/
def rtmLatch (s : State) : Flow :=
  let s1 := { s with chip := { s.chip with selected := some s.chip.selSr, selPend := false } }
  match bankOfRead s.cfg s.chip.selSr with
  | none => .go s1
  | some b =>
    let a := tregRow s b
    if a.toNat < (s.cfg.cap.get b).toNat then
      .go { s1 with chip := { s1.chip with rdSr := s.chip.mem.readRow b a } }
    else
      let d := drawWord s1
      .go { d.2 with chip := { d.2.chip with rdSr := d.1 } }

/-- The write a captured payload makes: the row becomes the data, or any value under a mask other than `1111`; a row at
or past the capacity has no meaning (20_memory.md R63). -/
def rtmWriteRow (s : State) (b : Bank) (p : Payload) : Flow :=
  if (s.cfg.cap.get b).toNat ≤ p.addr.toNat then .stuck .rtmWriteBeyondCapacity
  else if p.mask = maskAll then
    .go { s with chip := { s.chip with mem := s.chip.mem.writeRow b p.addr p.data } }
  else
    let d := drawWord s
    .go { d.2 with chip := { d.2.chip with mem := d.2.chip.mem.writeRow b p.addr d.1 } }

/-- Capture (20_memory.md R63): the selected write target's register takes the payload, and an enabled write changes its
row; on any other target nothing changes. -/
def rtmCapture (s : State) : Flow :=
  match s.chip.selected with
  | none => .stuck .rtmCaptureUnselected
  | some id =>
    match bankOfWrite s.cfg id with
    | none => .go s
    | some b =>
      let s1 := { s with chip := { s.chip with treg := s.chip.treg.set b s.chip.paySr } }
      let p := decodePayload (bin s.chip.paySr)
      if p.enable && p.write then rtmWriteRow s1 b p else .go s1

/-- Shift (20_memory.md R64): the payload register, the new bit entering at bit 53; and, while a read target is selected,
the read register, zero entering at bit 31. -/
def rtmShift (s : State) : Flow :=
  let reading :=
    match s.chip.selected with
    | some id => (bankOfRead s.cfg id).isSome
    | none => false
  .go { s with chip := { s.chip with
    paySr := pushTop s.chip.paySr s.lines.sdo,
    rdSr := if reading then s.chip.rdSr >>> 1 else s.chip.rdSr } }

/-- The RTM at a rising `SCK`: the case is decided by `SRST`, `TM`, `CSE`, `sel_pend` and `LOAD`, in the order of
20_memory.md R59 to R64. -/
def rtmRise (s : State) : Flow :=
  if s.lines.srst then rtmReset s
  else if !s.lines.tm then
    if s.lines.cse || s.chip.selPend || s.lines.load then .stuck .rtmOutsideTestMode else .go s
  else if s.lines.cse then
    if s.lines.load then .stuck .rtmLoadDuringSelect else rtmSelectShift s
  else if s.chip.selPend then
    if s.lines.load then .stuck .rtmLoadBeforeLatch else rtmLatch s
  else if s.lines.load then rtmCapture s
  else rtmShift s

/-- The environment at a rising `SCK`. An oracle's reaction is in its later answers only. -/
def envRise (s : State) : Flow :=
  match s.env.kind with
  | .rtm => rtmRise s
  | .oracle => .go s

/-- The bank contents after a `RUN` that began with the contents `m`: the effect `e` chooses among those that
`CHIP_EXEC` allows (20_memory.md R66; log 18). -/
def contentsAfterRun (c : ChipExec) (m : Memory) (e : RunEffect) : Memory :=
  match c with
  | .keeps rows => Memory.copyRanges m rows (Memory.ofCells e.mem)
  | .changesOnly rows => Memory.copyRanges (Memory.ofCells e.mem) rows m
  | .relation n => Memory.ofCells (Config.chipExecResult n m e.choice)

/-- What the end of a `RUN` does to the RTM (20_memory.md R66): the banks become any contents `CHIP_EXEC` allows, and
`treg`, `selected`, `pay_sr`, `rd_sr` any values. -/
def chipAfterRun (s : State) : State :=
  match s.env.kind with
  | .oracle => s
  | .rtm =>
    let d := drawEffect s
    { d.2 with chip := { d.2.chip with
        mem := contentsAfterRun s.cfg.chipExec s.chip.mem d.1
        treg := d.1.treg, selected := d.1.selected, paySr := d.1.paySr, rdSr := d.1.rdSr } }

end Sys2Proof.Machine
end

