-- ==== Sys2Proof/Machine/Ops.lean ====
section
/-!
DEFINITION. The engine's shared operations. A command is a microprogram, a list of micro-steps `Act` built from its
operands by the same pseudocode as the spec's (40_primitives.md R110 to R118), and `runActs` performs it. Here too:
how a command is accepted, how an error ends it (60_exceptions.md R176) and how the engine recovers (R178).
-/

namespace Sys2Proof.Machine

open Sys2Proof

/-! ### Line writes -/

/-- Give line `X` the level `v`. -/
def Lines.set (x : OutLine) (v : Bool) (l : Lines) : Lines :=
  match x with
  | .sck => { l with sck := v }
  | .sdo => { l with sdo := v }
  | .srst => { l with srst := v }
  | .cse => { l with cse := v }
  | .load => { l with load := v }
  | .tm => { l with tm := v }
  | .clksel => { l with clksel := v }
  | .crst => { l with crst := v }
  | .cgec => { l with cgec := v }
  | .cgge => { l with cgge := v }

/-- The level of line `X`. -/
def Lines.get (x : OutLine) (l : Lines) : Bool :=
  match x with
  | .sck => l.sck
  | .sdo => l.sdo
  | .srst => l.srst
  | .cse => l.cse
  | .load => l.load
  | .tm => l.tm
  | .clksel => l.clksel
  | .crst => l.crst
  | .cgec => l.cgec
  | .cgge => l.cgge

/-- Record the write: the level and the event `W(X, v)`, also when the level is the old one (00_scope.md R8). -/
def recordWrite (x : OutLine) (v : Bool) (s : State) : State :=
  { s with lines := s.lines.set x v, log := .w x v :: s.log }

/-- `line[X] <- v`: the environment sees the write at once, and only a rising `SCK` moves it (20_memory.md R55, R58). -/
def setLine (x : OutLine) (v : Bool) (s : State) : Flow :=
  match x with
  | .sck => if v && !s.lines.sck then envRise (recordWrite .sck v s) else .go (recordWrite .sck v s)
  | x => .go (recordWrite x v s)

/-! ### Ending a command: the outcome, the error, the recovery -/

/-- The end of a command, however reached (41_transactions.md R130): `RESULT` written, `PHASE <- Idle`, `BUSY <- 0`. -/
def endCommand (r : Result) (s : State) : State :=
  { s with result := r, phase := .idle, status := s.status.endBusy }

/-- `raise E` (60_exceptions.md R176): no line is restored, nothing is saved, control goes nowhere; `RESULT <- E`, a
`ProtocolFault` sets `STATUS.FAULT`, `PHASE <- Idle`, `BUSY <- 0`. -/
def raiseError (e : Result) (s : State) : State :=
  match e with
  | .protocolFault => endCommand .protocolFault { s with status := s.status.setFault }
  | e => endCommand e s

/-- How a command that stops before its last step ends: `Ok` and `TimedOut` are outcomes, not raises (00_scope.md R8). -/
def finish (e : Result) (s : State) : State :=
  match e with
  | .ok => endCommand .ok s
  | .timedOut => endCommand .timedOut s
  | e => raiseError e s

/-- Recovery (60_exceptions.md R178): the completion of a `bus_reset` clears `STATUS.FAULT`. -/
def recoverFault (s : State) : State := { s with status := s.status.clearFault }

/-! ### Micro-steps -/

/-- One micro-step of a command. -/
inductive Act where
  /-- `PHASE <- p` (41_transactions.md R131) -/
  | phase (p : Phase)
  /-- `line[X] <- v` -/
  | set (x : OutLine) (v : Bool)
  /-- `SHR` takes the sequence's value and `BITC` its length (10_state.md R33) -/
  | loadShift (v : BitVec 54) (n : BitVec 6)
  /-- `line[SDO] <- b`, `left` bits remaining -/
  | out (b : Bool) (left : BitVec 6)
  /-- one iteration of `pulse`: `SCK` high then low, `left` pulses remaining (40_primitives.md R110) -/
  | tick (left : BitVec 32)
  /-- start a `shift_in` of `n` cycles: no bit sampled yet -/
  | startRead (n : BitVec 6)
  /-- one sampling cycle less its pulse (40_primitives.md R112), `left` cycles remaining -/
  | cycle (left : BitVec 6)
  /-- the row counter -/
  | row (a : BitVec 17)
  /-- the chain-id counter of `CLEAR` -/
  | ident (i : BitVec 4)
  /-- `STATUS.FAULT <- 0` -/
  | clearFault
  /-- `RXLEN[b] <- 0` -/
  | rxClear (b : Bank)
  /-- `RXBUF[b][a] <- ` the word sampled, `RXLEN[b] <- a + 1` (41_transactions.md R136) -/
  | rxStore (b : Bank) (a : Nat)
  /-- `polls <- 0` -/
  | startPolls
  /-- one poll of `DONE` (42_sessions.md R152) -/
  | poll
  /-- the poll budget is used up -/
  | timeout
  /-- `raise E` -/
  | raise (e : Result)
deriving DecidableEq, Repr

/-- One pulse: "set the scan-clock line high then low" (40_primitives.md R110). -/
def actTick (left : BitVec 32) (s : State) : Flow :=
  (setLine .sck true s).bind fun s1 =>
    (setLine .sck false s1).bind fun s2 => .go { s2 with work := { s2.work with cnt := left } }

/-- One sampling cycle: `SDI`, then `SVLD`; a false `SVLD` raises `ProtocolFault`; else the bit is appended. The first
bit sampled ends as bit 0 of the word (40_primitives.md R112; 20_memory.md R46). -/
def actCycle (left : BitVec 6) (s : State) : Flow :=
  let d := sample .sdi s
  let v := sample .svld d.2
  if v.1 then
    .go { v.2 with work := { v.2.work with
      dsr := pushTop v.2.work.dsr d.1, bitc := left } }
  else .stop v.2 .protocolFault

/-- One poll (42_sessions.md R152): count it, and on a true `DONE` end the run with `ELAPSED` the polls made. -/
def actPoll (s : State) : Flow :=
  let d := sample .done s
  let polls := d.2.work.cnt + 1
  let s1 := { d.2 with work := { d.2.work with cnt := polls } }
  if d.1 then .stop (chipAfterRun { s1 with elapsed := polls }) .ok else .go s1

/-- What a micro-step does. -/
def act : Act → State → Flow
  | .phase p, s => .go { s with phase := p }
  | .set x v, s => setLine x v s
  | .loadShift v n, s => .go { s with work := { s.work with shr := v, bitc := n } }
  | .out b left, s =>
    (setLine .sdo b s).bind fun s1 => .go { s1 with work := { s1.work with bitc := left } }
  | .tick left, s => actTick left s
  | .startRead n, s => .go { s with work := { s.work with dsr := 0, bitc := n } }
  | .cycle left, s => actCycle left s
  | .row a, s => .go { s with work := { s.work with addrc := a } }
  | .ident i, s => .go { s with work := { s.work with idc := i } }
  | .clearFault, s => .go (recoverFault s)
  | .rxClear b, s => .go { s with rxlen := s.rxlen.set b 0 }
  | .rxStore b a, s =>
    .go { s with
      rxbuf := s.rxbuf.set b ((s.rxbuf.get b).write (BitVec.ofNat 16 a) s.work.dsr),
      rxlen := s.rxlen.set b (BitVec.ofNat 17 (a + 1)) }
  | .startPolls, s => .go { s with work := { s.work with cnt := 0 } }
  | .poll, s => actPoll s
  | .timeout, s => .stop (chipAfterRun { s with elapsed := s.work.cnt }) .timedOut
  | .raise e, s => .stop s e

/-- Perform a microprogram: its steps in order, ending at the first that ends the command. -/
def runActs : List Act → State → Flow
  | [], s => .go s
  | a :: rest, s => (act a s).bind (runActs rest)

/-! ### Micro-operations (40_primitives.md) -/

/-- `pulse(count)` (40_primitives.md R110). -/
def pulse : Nat → List Act
  | 0 => []
  | n + 1 => .tick (BitVec.ofNat 32 n) :: pulse n

/-- Drive bits in the order given, one pulse each. -/
def driveBits : BitSeq → List Act
  | [] => []
  | b :: rest => .out b (BitVec.ofNat 6 rest.length) :: .tick 0 :: driveBits rest

/-- A sequence into the shift register and onto the wire in the order `wire`. -/
def driveSeq (s wire : BitSeq) : List Act :=
  .loadShift (BitVec.ofNat 54 (ubig s)) (BitVec.ofNat 6 s.length) :: driveBits wire

/-- `shift_out(s, W)`: tail first (40_primitives.md R111). -/
def shiftOut (s : BitSeq) : List Act := driveSeq s s.reverse

/-- The cycles of `shift_in`, each a sample and a pulse. -/
def shiftInCycles : Nat → List Act
  | 0 => []
  | n + 1 => .cycle (BitVec.ofNat 6 n) :: .tick 0 :: shiftInCycles n

/-- `shift_in(cycles)` (40_primitives.md R112), its first step entering `Shifting` (41_transactions.md R131). -/
def shiftIn (cycles : Nat) : List Act :=
  .phase .shifting :: .startRead (BitVec.ofNat 6 cycles) :: shiftInCycles cycles

/-- `select(id)` (40_primitives.md R116) of the 8-bit field `id`. -/
def select (id : BitVec 8) : List Act :=
  [.phase .selected, .set .cse true] ++ shiftOut (bin id) ++ [.set .cse false] ++ pulse 1

/-- `select` of a ChainId (40_primitives.md R116). -/
def selectChain (id : BitVec 4) : List Act := select (id.setWidth 8)

/-- The load sequence (40_primitives.md R117). -/
def loadSequence (t : LoadTicks) : List Act :=
  pulse t.pre ++ [.set .load true] ++ pulse t.high ++ [.set .load false] ++ pulse t.post

/-- `write_payload(addr, data, enable, write, mask)` (40_primitives.md R117). -/
def writePayload (t : LoadTicks) (addr : BitVec 16) (data : Word) (enable write : Bool) (mask : BitVec 4) : List Act :=
  [.phase .shifting] ++ shiftOut (encodePayload addr data enable write mask) ++ loadSequence t

/-- `tm_enter()` (40_primitives.md R118). -/
def tmEnter : List Act := [.phase .testMode, .set .tm true]

/-- `tm_exit()` (40_primitives.md R118). -/
def tmExit : List Act := [.phase .testModeExit, .set .tm false]

/-- The two enable lines and the 18 positions of a clock-generator frame (43_clockgen.md R160, R162). -/
def driveClkgen (o : CkcfgOrder) (c : BitSeq) : List Act :=
  [.phase .clkCfg, .set .cgec true, .set .cgge false] ++ driveSeq c (clkgenWire o c)

/-! ### Commands and frames as steps of the machine -/

/-- A command (41_transactions.md R130): `BUSY <- 1`; the two checks; then its microprogram; then the end. An operand the
encoding reserves is an illegal command (30_encoding.md R95). -/
def command (legal : Bool) (program : List Act) (s : State) : Host.Outcome State Fault Refusal :=
  let s1 := { s with status := s.status.accept }
  if s.status.cfgerr then .next (raiseError .configurationError s1)
  else if !legal then .next (raiseError .illegalCommand s1)
  else
    match runActs program s1 with
    | .go s2 => .next (endCommand .ok s2)
    | .stop s2 e => .next (finish e s2)
    | .stuck f => .fault f

/-- An illegal command word (60_exceptions.md R175): the same entry with no program. -/
def illegalCommand (s : State) : Host.Outcome State Fault Refusal := command false [] s

/-- A frame of the wire layer run alone (log 11): the micro-operation's lines, samples and phases; no `BUSY`, no `RESULT`
unless it raises, `PHASE` back to `Idle` because no command is running. With `CFGERR` set nothing reaches the lines
(60_exceptions.md R171). -/
def frame (program : List Act) (s : State) : Host.Outcome State Fault Refusal :=
  if s.status.cfgerr then .next (raiseError .configurationError s)
  else
    match runActs program s with
    | .go s2 => .next { s2 with phase := .idle }
    | .stop s2 e => .next (finish e s2)
    | .stuck f => .fault f

end Sys2Proof.Machine
end

