-- ==== Sys2Proof/Machine/Clockgen.lean ====
section
/-!
DEFINITION. The clock-generator configurator `CKCFG` (43_clockgen.md). It selects no chain id, enters no test mode and
restores neither enable line (R163).
-/

namespace Sys2Proof.Machine

open Sys2Proof

/-- `configure(freq, ring)` (43_clockgen.md R160). -/
def configure (c : Config) (freq : BitVec 4) (ring : BitVec 3) : List Act :=
  driveClkgen c.ckcfgOrder (clkgenSeq freq ring)

/-- `CKCFG freq, ring`; a select out of range is an illegal command (43_clockgen.md R160, R164). -/
def execCkcfg (freq : BitVec 4) (ring : BitVec 3) (s : State) : Host.Outcome State Fault Refusal :=
  command (Instr.ckcfg freq ring).wf (configure s.cfg freq ring) s

end Sys2Proof.Machine
end

