-- ==== Sys2Proof/Machine/Frames.lean ====
section
/-!
DEFINITION. The seven frame rows of the opcode table: the micro-operation that puts exactly that frame on the wire, run
alone (40_primitives.md R112, R116, R117; 43_clockgen.md R160; log 11). The engine's own commands send only some of
these (30_encoding.md R96); what the RTM does with the others is 20_memory.md R61 to R64 (log 15).
-/

namespace Sys2Proof.Machine

open Sys2Proof

/-- `PAY.WRITE` (30_encoding.md R82): one payload with enable 1, write 1 into the selected target. -/
def execPayWrite (addr : BitVec 16) (data : Word) (mask : BitVec 4) (s : State) : Host.Outcome State Fault Refusal :=
  frame (writePayload s.cfg.loadTicks addr data true true mask) s

/-- `PAY.SETADDR` (30_encoding.md R82): enable 1, write 0. -/
def execPaySetaddr (addr : BitVec 16) (data : Word) (mask : BitVec 4) (s : State) : Host.Outcome State Fault Refusal :=
  frame (writePayload s.cfg.loadTicks addr data true false mask) s

/-- `PAY.DISABLE` (30_encoding.md R82): enable 0, write 0. -/
def execPayDisable (addr : BitVec 16) (data : Word) (mask : BitVec 4) (s : State) : Host.Outcome State Fault Refusal :=
  frame (writePayload s.cfg.loadTicks addr data false false mask) s

/-- `PAY.RESERVED` (30_encoding.md R96 (b)): enable 0, write 1. Never sent by a command; the RTM captures it and changes
no row (20_memory.md R63; 93 U19). -/
def execPayReserved (addr : BitVec 16) (data : Word) (mask : BitVec 4) (s : State) : Host.Outcome State Fault Refusal :=
  frame (writePayload s.cfg.loadTicks addr data false true mask) s

/-- `CHAINID8` (30_encoding.md R83; 40_primitives.md R116). Ids 9 to 255 are never sent by a command; the RTM accepts
them as reserved ids (93 U21). -/
def execChainid8 (id : BitVec 8) (s : State) : Host.Outcome State Fault Refusal :=
  frame (select id) s

/-- The chip presents the word on `SDI`, least significant bit first (30_encoding.md R84). -/
def presentFrame (word : Word) (s : State) : State :=
  { s with env := { s.env with sdiFrame := (bin word).reverse } }

/-- Nothing is presented any more. -/
def endFrame (s : State) : State := { s with env := { s.env with sdiFrame := [] } }

/-- `READ32` (30_encoding.md R84; 40_primitives.md R112): the chip presents the word and the engine's deserializer takes
it into `DSR`; `SVLD` is the environment's, and a false one raises `ProtocolFault` (log 13). -/
def execRead32 (word : Word) (s : State) : Host.Outcome State Fault Refusal :=
  match frame (shiftIn Config.wordWidth) (presentFrame word s) with
  | .next s2 => .next (endFrame s2)
  | .fault f => .fault f
  | .refused r => .refused r

/-- `CLKGEN18` (30_encoding.md R85; 43_clockgen.md R160): the two enable lines, then the 18 positions in
`CKCFG_ORDER`. -/
def execClkgen18 (freqPos : BitVec 14) (ringPos : BitVec 4) (s : State) : Host.Outcome State Fault Refusal :=
  frame (driveClkgen s.cfg.ckcfgOrder (clkgenFrameSeq freqPos ringPos)) s

end Sys2Proof.Machine
end

