-- ==== Sys2Proof/Machine/Transactions.lean ====
section
/-!
DEFINITION. The transaction commands `BRST`, `CLEAR`, `WRBANK`, `RDBANK` (41_transactions.md). Each is its microprogram
and one call of `command`. No micro-step writes the configuration, `TXBUF` or `TXLEN`, so a program reads them once, at
the command's start.
-/

namespace Sys2Proof.Machine

open Sys2Proof

/-- `bus_reset()` (41_transactions.md R132). -/
def busReset (c : Config) : List Act :=
  [.phase .resetting, .set .srst true] ++ pulse c.resetPulses.toNat ++ [.set .srst false] ++ pulse 1 ++ [.clearFault]

/-- One target of the chain clear: select it and send `PAY.DISABLE` (41_transactions.md R133). -/
def clearTarget (c : Config) (id : Nat) : List Act :=
  [.ident (BitVec.ofNat 4 id)] ++ selectChain (BitVec.ofNat 4 id) ++ writePayload c.loadTicks 0 0 false false maskAll

/-- `full_chain_clear()`: all nine ids in ascending order (41_transactions.md R133). -/
def fullChainClear (c : Config) : List Act :=
  busReset c ++ tmEnter ++ (List.range Config.nchain).flatMap (clearTarget c) ++ [.ident 9] ++ tmExit

/-- One word of a bank write: `PAY.WRITE` of row `a` (41_transactions.md R134). -/
def writeWord (s : State) (b : Bank) (a : Nat) : List Act :=
  [.row (BitVec.ofNat 17 a)] ++
    writePayload s.cfg.loadTicks (BitVec.ofNat 16 a) ((s.txbuf.get b).read (BitVec.ofNat 16 a)) true true maskAll

/-- The transaction of `write_bank` past its check, of `n` words (41_transactions.md R134). -/
def writeBody (s : State) (b : Bank) (n : Nat) : List Act :=
  busReset s.cfg ++ tmEnter ++ selectChain (s.cfg.wr.get b) ++ (List.range n).flatMap (writeWord s b)
    ++ [.row (BitVec.ofNat 17 n)] ++ tmExit

/-- `write_bank(b)`: the capacity is checked up front, `>=` as observed (41_transactions.md R134; 70 R211). -/
def writeBank (s : State) (b : Bank) : List Act :=
  if capacityExceeded (s.txlen.get b) (s.cfg.cap.get b) then [.raise .capacityError]
  else writeBody s b (s.txlen.get b).toNat

/-- One word of a bank read: set the address through the write target, then sample the read target
(41_transactions.md R136 (a), (b); 20_memory.md R49). -/
def readWord (c : Config) (b : Bank) (a : Nat) : List Act :=
  [.row (BitVec.ofNat 17 a)] ++ selectChain (c.wr.get b)
    ++ writePayload c.loadTicks (BitVec.ofNat 16 a) 0 true false maskAll
    ++ selectChain (c.rd.get b) ++ shiftIn Config.wordWidth ++ [.rxStore b a]

/-- The transaction of `read_bank` for `n` words, the erratum step after the loop (41_transactions.md R136, R138). -/
def readBody (c : Config) (b : Bank) (n : Nat) : List Act :=
  [.rxClear b] ++ busReset c ++ tmEnter ++ (List.range n).flatMap (readWord c b) ++ [.row (BitVec.ofNat 17 n)]
    ++ selectChain (c.wr.get .main) ++ tmExit

/-- `read_bank(b, len)`: `none` touches only `RXLEN[b]` (41_transactions.md R135, R136). -/
def readBank (c : Config) (b : Bank) (len : Length) : List Act :=
  match resolveLength (c.cap.get b) len with
  | none => [.rxClear b]
  | some n => readBody c b n

/-- `BRST` (41_transactions.md R132). -/
def execBrst (s : State) : Host.Outcome State Fault Refusal :=
  command (Instr.brst).wf (busReset s.cfg) s

/-- `CLEAR` (41_transactions.md R133). -/
def execClear (s : State) : Host.Outcome State Fault Refusal :=
  command (Instr.clear).wf (fullChainClear s.cfg) s

/-- `WRBANK bank` (41_transactions.md R134). -/
def execWrbank (bank : Bank) (s : State) : Host.Outcome State Fault Refusal :=
  command (Instr.wrbank bank).wf (writeBank s bank) s

/-- `RDBANK bank, len` (41_transactions.md R136). -/
def execRdbank (bank : Bank) (len : Length) (s : State) : Host.Outcome State Fault Refusal :=
  command (Instr.rdbank bank len).wf (readBank s.cfg bank len) s

end Sys2Proof.Machine
end

