-- ==== Sys2Proof/Machine/Sessions.lean ====
section
/-!
DEFINITION. The session commands `LOADS`, `UNLOADS`, `RUN` (42_sessions.md): orchestrations over the transactions.
-/

namespace Sys2Proof.Machine

open Sys2Proof

/-- The external clock and the asserted chip reset that open a load or unload (42_sessions.md R150, R151). -/
def holdChip : List Act := [.set .clksel clkExt, .set .crst true]

/-- `load_session(has_input)`: the checks stand where the nested `write_bank`s put them (42_sessions.md R150, R153). -/
def loadSession (s : State) (hasInput : Bool) : List Act :=
  holdChip ++ fullChainClear s.cfg ++ writeBank s .main ++ (if hasInput then writeBank s .input else [])

/-- `unload_session(lm, li, lo)`: main, input, output in that fixed order (42_sessions.md R151). -/
def unloadSession (c : Config) (lm li lo : Length) : List Act :=
  holdChip ++ readBank c .main lm ++ readBank c .input li ++ readBank c .output lo

/-- `run_program(timeout)`: the internal clock, the chip out of reset, then at most `timeout` polls (42_sessions.md
R152). -/
def runProgram (timeout : Nat) : List Act :=
  [.phase .polling, .set .clksel clkInt, .set .crst false, .startPolls] ++ List.replicate timeout .poll ++ [.timeout]

/-- `LOADS` (42_sessions.md R150). -/
def execLoads (hasInput : Bool) (s : State) : Host.Outcome State Fault Refusal :=
  command (Instr.loads hasInput).wf (loadSession s hasInput) s

/-- `UNLOADS lm, li, lo` (42_sessions.md R151). -/
def execUnloads (lm li lo : Length) (s : State) : Host.Outcome State Fault Refusal :=
  command (Instr.unloads lm li lo).wf (unloadSession s.cfg lm li lo) s

/-- `RUN timeout` (42_sessions.md R152). -/
def execRun (timeout : BitVec 32) (s : State) : Host.Outcome State Fault Refusal :=
  command (Instr.run timeout).wf (runProgram timeout.toNat) s

end Sys2Proof.Machine
end

