-- ==== Sys2Proof/Machine/Dispatch.lean ====
section
/-! DEFINITION. The meaning of every instruction: one arm per constructor of `Instr`, one direct call each. -/

namespace Sys2Proof.Machine

open Sys2Proof

def exec (i : Instr) (s : State) : Host.Outcome State Fault Refusal :=
  match i with
  | .brst => Sys2Proof.Machine.execBrst s
  | .clear => Sys2Proof.Machine.execClear s
  | .wrbank bank => Sys2Proof.Machine.execWrbank bank s
  | .rdbank bank len => Sys2Proof.Machine.execRdbank bank len s
  | .loads hasInput => Sys2Proof.Machine.execLoads hasInput s
  | .unloads lm li lo => Sys2Proof.Machine.execUnloads lm li lo s
  | .run timeout => Sys2Proof.Machine.execRun timeout s
  | .ckcfg freq ring => Sys2Proof.Machine.execCkcfg freq ring s
  | .payWrite addr data mask => Sys2Proof.Machine.execPayWrite addr data mask s
  | .paySetaddr addr data mask => Sys2Proof.Machine.execPaySetaddr addr data mask s
  | .payDisable addr data mask => Sys2Proof.Machine.execPayDisable addr data mask s
  | .payReserved addr data mask => Sys2Proof.Machine.execPayReserved addr data mask s
  | .chainid8 id => Sys2Proof.Machine.execChainid8 id s
  | .read32 word => Sys2Proof.Machine.execRead32 word s
  | .clkgen18 freqPos ringPos => Sys2Proof.Machine.execClkgen18 freqPos ringPos s

end Sys2Proof.Machine
end

