-- ==== Sys2Proof/Machine/HostPort.lean ====
section
/-!
DEFINITION. The host's command port: reading and writing registers by number (10_state.md R34), re-construction
(70_reset_and_hazards.md R200) and what a fetch does with the next host operation (log 12).
-/

namespace Sys2Proof.Machine

open Sys2Proof

/-- The value a read of a register returns, widened with zeros, and the state after it. `CMD` is write-only; an `RXBUF`
entry at or above `RXLEN` holds no value, so its read is a free value (10_state.md R32; log 17). -/
def readReg (r : Reg) (s : State) : Host.Outcome (BitVec 64 × State) Fault Refusal :=
  match r with
  | .cmd => .refused .cmdIsWriteOnly
  | .status => .next (s.status.toWord.setWidth 64, s)
  | .result => .next ((Result.code s.result).setWidth 64, s)
  | .elapsed => .next (s.elapsed.setWidth 64, s)
  | .phase => .next ((Phase.code s.phase).setWidth 64, s)
  | .resetPulses => .next (s.cfg.resetPulses.setWidth 64, s)
  | .txlen b => .next ((s.txlen.get b).setWidth 64, s)
  | .rxlen b => .next ((s.rxlen.get b).setWidth 64, s)
  | .cap b => .next ((s.cfg.cap.get b).setWidth 64, s)
  | .rd b => .next ((s.cfg.rd.get b).setWidth 64, s)
  | .wr b => .next ((s.cfg.wr.get b).setWidth 64, s)
  | .txbuf b k => .next (((s.txbuf.get b).read k).setWidth 64, s)
  | .rxbuf b k =>
    if k.toNat < (s.rxlen.get b).toNat then .next (((s.rxbuf.get b).read k).setWidth 64, s)
    else
      let d := drawWord s
      .next (d.1.setWidth 64, d.2)

/-- A host read of register number `n`: a reserved number reads 0 (10_state.md R34). -/
def hostRead (n : Nat) (s : State) : Host.Outcome State Fault Refusal :=
  match Reg.ofNumber n with
  | none => .next { s with hostData := 0 }
  | some r =>
    match readReg r s with
    | .next (v, s1) => .next { s1 with hostData := v }
    | .fault f => .fault f
    | .refused q => .refused q

/-- A host write of a register that is not `CMD`: `TXLEN` takes 0..65536 and `TXBUF` 32 bits, a wider value cannot be
written (10_state.md R31; 92 D14); a write to a read-only or reserved number is ignored (10_state.md R34; log 16). -/
def writeReg (r : Option Reg) (v : BitVec 64) (s : State) : Host.Outcome State Fault Refusal :=
  match r with
  | some (.txlen b) =>
    if v.toNat ≤ 65536 then .next { s with txlen := s.txlen.set b (v.setWidth 17) }
    else .refused .hostValueOutOfRange
  | some (.txbuf b k) =>
    if v.toNat < 2 ^ 32 then .next { s with txbuf := s.txbuf.set b ((s.txbuf.get b).write k (v.setWidth 32)) }
    else .refused .hostValueOutOfRange
  | _ => .next s

/-- Whether a write to the register needs `BUSY = 0` (10_state.md R34: `CMD`, `TXLEN`, `TXBUF`). -/
def needsIdle (r : Option Reg) : Bool :=
  match r with
  | some .cmd => true
  | some (.txlen _) => true
  | some (.txbuf _ _) => true
  | _ => false

/-- The engine's reset: the engine's own state anew; the chip, the environment and the host's queue as they were
(70_reset_and_hazards.md R200 to R202; log 25). DESIGN CHOICE (log 31): where `c` has other ids or capacities, which
R201 does not speak of, the RTM goes by them at once, and each write-data register and row stays with its bank. -/
def reconstruct (c : Config) (l : Launch) (s : State) : State :=
  { State.construct c l s.chip s.env with host := s.host, freeCount := s.freeCount }

/-- What the next host operation is: an instruction to decode, or port traffic to perform. -/
inductive Fetched where
  | code (c : Code)
  | traffic

/-- A write of register 0 is a command word; a wire frame is itself (10_state.md R34). -/
def fetch : HostOp → Fetched
  | .write n v => if n = 0 then .code (.command v) else .traffic
  | .read _ => .traffic
  | .wire f => .code (.frame f)
  | .construct _ _ => .traffic

/-- Port traffic. -/
def traffic (op : HostOp) (s : State) : Host.Outcome State Fault Refusal :=
  match op with
  | .write n v =>
    if needsIdle (Reg.ofNumber n) && s.status.busy then .refused .hostWriteWhileBusy
    else writeReg (Reg.ofNumber n) v s
  | .read n => hostRead n s
  | .wire _ => .next s
  | .construct c l => .next (reconstruct c l s)

/-- Accept a code: a command word is latched in `CMD`. -/
def latch (c : Code) (s : State) : State :=
  match c with
  | .command w => { s with cmd := w }
  | .frame _ => s

/-- Where a frame can be told apart on the wire (30_encoding.md R80): test mode for a chain id; test mode and a selected
write target for a payload; test mode and a selected read target for a read word. A command and a clock-generator
frame need nothing (log 12). -/
def frameContext (f : Frame) (s : State) : State :=
  match f with
  | .payload54 _ =>
    { s with lines := s.lines.set .tm true, chip := { s.chip with selected := some ((s.cfg.wr.get .main).setWidth 8) } }
  | .chainid8 _ => { s with lines := s.lines.set .tm true }
  | .read32 _ =>
    { s with lines := s.lines.set .tm true, chip := { s.chip with selected := some ((s.cfg.rd.get .main).setWidth 8) } }
  | .clkgen18 _ => s

/-- The host operation that carries a code. -/
def hostOpOf : Code → HostOp
  | .command w => .write 0 w
  | .frame f => .wire f

end Sys2Proof.Machine
end

