-- ==== Sys2Proof/Machine/Step.lean ====
section
/-!
DEFINITION. One step: the next host operation (10_state.md R34; 41_transactions.md R130). With none pending the engine is
idle and nothing changes: "nothing runs until the host writes `CMD`" (70_reset_and_hazards.md R200).
-/

namespace Sys2Proof.Machine

open Sys2Proof

/-- Decode and run a code; an illegal word ends `IllegalCommand` (30_encoding.md R95). -/
def issue (c : Code) (s : State) : Host.Outcome State Fault Refusal :=
  if s.status.busy then .refused .hostWriteWhileBusy
  else
    match decode c with
    | .ok i => exec i (latch c s)
    | .error _ => illegalCommand (latch c s)

/-- One step. -/
def step (s : State) : Host.Outcome State Fault Refusal :=
  match s.host with
  | [] => .next s
  | op :: rest =>
    let s1 := { s with host := rest }
    match fetch op with
    | .code c => issue c s1
    | .traffic => traffic op s1

/-- `s` with a code put before the host's other operations, in the context its format needs. -/
def State.withCode (s : State) (c : Code) : State :=
  let s1 :=
    match c with
    | .command _ => s
    | .frame f => frameContext f s
  { s1 with host := hostOpOf c :: s.host }

/-- `s` with a table row's word of `nbits` bits as the very next thing to run. -/
def State.withFetchWord (s : State) (nbits w : Nat) : State :=
  match Code.ofTableWord nbits w with
  | none => s
  | some c => s.withCode c

end Sys2Proof.Machine
end

