-- ==== Sys2Proof/Safety.lean ====
section
/-!
DEFINITION. The terms claims are stated in: counts over a trace (70_reset_and_hazards.md R214), the events of each
operation written out from its rule (40_primitives.md, 41_transactions.md, 43_clockgen.md), the invariant of every
reachable state, when a command is ready to run, and what an instruction may leave unchanged.
-/

namespace Sys2Proof.Machine

open Sys2Proof

/-! ### Counts over a trace -/

/-- Is the event a rising scan clock of the engine's pulses? -/
def isPulse : Event → Bool
  | .w .sck true => true
  | _ => false

/-- How many pulses a list of events holds: rising edges of `SCK` (95_test_vectors.md section 0). -/
def pulseCount (es : List Event) : Nat := es.countP isPulse

/-- What one event does to the line levels (00_scope.md R8: a level is the one last written). -/
def lineEvent (l : Lines) : Event → Lines
  | .w x v => l.set x v
  | .r _ _ => l

/-- The events a step has added, in order. -/
def newEvents (s t : State) : List Event := t.trace.drop s.trace.length

/-! ### The events of each operation, from its rule -/

/-- `pulse(n)` (40_primitives.md R110). -/
def pulseEvents (n : Nat) : List Event := (List.replicate n [Event.w .sck true, .w .sck false]).flatten

/-- Bits in wire order, one pulse each (40_primitives.md R111). -/
def bitEvents (bits : BitSeq) : List Event := bits.flatMap fun b => [.w .sdo b, .w .sck true, .w .sck false]

/-- `select(id)` (40_primitives.md R116). -/
def selectEvents (id : BitVec 8) : List Event :=
  [.w .cse true] ++ bitEvents (bin id).reverse ++ [.w .cse false] ++ pulseEvents 1

/-- `write_payload` (40_primitives.md R117). -/
def payloadEvents (t : LoadTicks) (addr : BitVec 16) (data : Word) (enable write : Bool) (mask : BitVec 4) :
    List Event :=
  bitEvents (encodePayload addr data enable write mask).reverse ++ pulseEvents t.pre ++ [.w .load true]
    ++ pulseEvents t.high ++ [.w .load false] ++ pulseEvents t.post

/-- `bus_reset()` (41_transactions.md R132). -/
def busResetEvents (c : Config) : List Event :=
  [.w .srst true] ++ pulseEvents c.resetPulses.toNat ++ [.w .srst false] ++ pulseEvents 1

/-- `full_chain_clear()` (41_transactions.md R133). -/
def clearEvents (c : Config) : List Event :=
  busResetEvents c ++ [.w .tm true]
    ++ (List.range 9).flatMap (fun id =>
        selectEvents (BitVec.ofNat 8 id) ++ payloadEvents c.loadTicks 0 0 false false maskAll)
    ++ [.w .tm false]

/-- The write payload of row `a` (41_transactions.md R134). -/
def writeWordEvents (c : Config) (w : Word) (a : Nat) : List Event :=
  payloadEvents c.loadTicks (BitVec.ofNat 16 a) w true true maskAll

/-- `write_bank(b)` past its check, of the words `ws` from row 0 (41_transactions.md R134). -/
def writeEvents (c : Config) (b : Bank) (ws : List Word) : List Event :=
  busResetEvents c ++ [.w .tm true] ++ selectEvents ((c.wr.get b).setWidth 8)
    ++ (ws.zipIdx.flatMap fun p => writeWordEvents c p.1 p.2) ++ [.w .tm false]

/-- `shift_in` of a word's first `n` bits, all valid (40_primitives.md R112). -/
def sampleEvents (w : Word) (n : Nat) : List Event :=
  (List.range n).flatMap fun k => [.r .sdi (w.getLsbD k), .r .svld true, .w .sck true, .w .sck false]

/-- The events of row `a` of a read up to its samples (41_transactions.md R136 (a), (b)). -/
def readAddrEvents (c : Config) (b : Bank) (a : Nat) : List Event :=
  selectEvents ((c.wr.get b).setWidth 8)
    ++ payloadEvents c.loadTicks (BitVec.ofNat 16 a) 0 true false maskAll
    ++ selectEvents ((c.rd.get b).setWidth 8)

/-- The events of row `a` of a read that answers the word `w`. -/
def readWordEvents (c : Config) (b : Bank) (w : Word) (a : Nat) : List Event :=
  readAddrEvents c b a ++ sampleEvents w 32

/-- `read_bank(b, len)` that answers the words `ws` from row 0, the erratum step included (41_transactions.md R136,
R138). -/
def readEvents (c : Config) (b : Bank) (ws : List Word) : List Event :=
  busResetEvents c ++ [.w .tm true] ++ (ws.zipIdx.flatMap fun p => readWordEvents c b p.1 p.2)
    ++ selectEvents ((c.wr.get .main).setWidth 8) ++ [.w .tm false]

/-- `read_bank` that faults in cycle `k` of the row after the completed rows `ws`; `w` is the word being sampled
(41_transactions.md R137; 40_primitives.md R112). -/
def faultedReadEvents (c : Config) (b : Bank) (ws : List Word) (w : Word) (k : Nat) : List Event :=
  busResetEvents c ++ [.w .tm true] ++ (ws.zipIdx.flatMap fun p => readWordEvents c b p.1 p.2)
    ++ readAddrEvents c b ws.length ++ sampleEvents w k ++ [.r .sdi (w.getLsbD k), .r .svld false]

/-- The two enable lines and 18 positions of a clock-generator frame (43_clockgen.md R160, R162). -/
def clkgenEvents (o : CkcfgOrder) (c : BitSeq) : List Event :=
  [.w .cgec true, .w .cgge false] ++ bitEvents (clkgenWire o c)

/-! ### Words and buffers -/

/-- The words a `WRBANK b` writes: `TXBUF[b][0 .. TXLEN[b]-1]` (41_transactions.md R134). -/
def State.txWords (s : State) (b : Bank) : List Word :=
  (List.range (s.txlen.get b).toNat).map fun a => (s.txbuf.get b).read (BitVec.ofNat 16 a)

/-- The words a read has appended: `RXBUF[b][0 .. RXLEN[b]-1]` (41_transactions.md R136). -/
def State.rxWords (s : State) (b : Bank) : List Word :=
  (List.range (s.rxlen.get b).toNat).map fun a => (s.rxbuf.get b).read (BitVec.ofNat 16 a)

/-- Row `a` of bank `b` on the chip. -/
def State.row (s : State) (b : Bank) (a : Nat) : Word := s.chip.mem.readRow b (BitVec.ofNat 16 a)

/-- How many words a read of length `len` asks for, 0 for `none` (41_transactions.md R135). -/
def readCount (cap : BitVec 32) (len : Length) : Nat := (resolveLength cap len).getD 0

/-! ### The invariant -/

/-- Buffers in canonical form and lengths in range, in a launch. -/
def Launch.wf (l : Launch) : Bool :=
  Bank.all.all (fun b => (l.txbuf.get b).wf && (l.rxbuf.get b).wf && decide ((l.txlen.get b).toNat ≤ 65536))

/-- A pending re-construction has a well-formed launch. -/
def HostOp.wf : HostOp → Bool
  | .construct _ l => l.wf
  | _ => true

/-- What holds between any two steps. -/
structure State.Inv (s : State) : Prop where
  /-- the banks' memory is in canonical form -/
  mem : s.chip.mem.wf = true
  /-- the transmit buffers are in canonical form -/
  txbuf : ∀ b, (s.txbuf.get b).wf = true
  /-- the receive buffers are in canonical form -/
  rxbuf : ∀ b, (s.rxbuf.get b).wf = true
  /-- `TXLEN[b]` in 0..65536 (10_state.md R31) -/
  txlen : ∀ b, (s.txlen.get b).toNat ≤ 65536
  /-- `RXLEN[b]` in 0..65536 (10_state.md R32) -/
  rxlen : ∀ b, (s.rxlen.get b).toNat ≤ 65536
  /-- no command in progress (41_transactions.md R130) -/
  busy : s.status.busy = false
  /-- `PHASE = Idle` (10_state.md R25) -/
  phase : s.phase = .idle
  /-- `STATUS.CFGERR` is the configuration check's answer (10_state.md R26; 60_exceptions.md R171) -/
  cfgerr : s.status.cfgerr = !Config.valid s.cfg
  /-- "`SCK = 0`" (40_primitives.md R119) -/
  sck : s.lines.sck = false
  /-- `SRST = 0` (40_primitives.md R119) -/
  srst : s.lines.srst = false
  /-- `CSE = 0` (40_primitives.md R119) -/
  cse : s.lines.cse = false
  /-- `LOAD = 0` (40_primitives.md R119) -/
  load : s.lines.load = false
  /-- no selection waits to be latched -/
  selPend : s.chip.selPend = false
  /-- no read frame is being presented -/
  sdiFrame : s.env.sdiFrame = []
  /-- pending re-constructions are well formed -/
  host : ∀ op ∈ s.host, HostOp.wf op = true

/-- A state in which the engine accepts a command and the RTM, where it is the environment, conforms: the invariant, a
valid configuration, and "(with `LOAD_TICKS = (0,1,1)`)" (20_memory.md section 6, R68; 40_primitives.md R117). -/
structure State.Ready (s : State) : Prop where
  inv : s.Inv
  valid : s.status.cfgerr = false
  ticks : s.env.kind = .rtm → s.cfg.loadTicks = ⟨0, 1, 1⟩

/-- The answer to the `j`-th draw of a bit from here, counted from 0: a queued answer, then free values. -/
def drawnBit (s : State) (j : Nat) : Bool :=
  (s.env.bits[j]?).getD (Config.freeBit (s.freeCount + (j - s.env.bits.length)))

/-- What the environment answers to the `j`-th sample of `SVLD` from here, counted from 0, of reads that begin here: in the
RTM 1 unless it is overridden (20_memory.md R65), in an oracle what is drawn after that cycle's `SDI` (R55;
40_primitives.md R112). -/
def State.validAnswer (s : State) (j : Nat) : Bool :=
  match s.env.kind with
  | .rtm => !(s.env.svldForce.getD j false)
  | .oracle => drawnBit s (2 * j + 1)

/-- The next `n` samples of `SVLD` are answered 1. -/
def State.Answers (s : State) (n : Nat) : Prop := ∀ j, j < n → s.validAnswer j = true

/-- The next sample of `SVLD` answered 0 is sample `n` from here, counted from 0. -/
structure State.FaultsAt (s : State) (n : Nat) : Prop where
  before : s.Answers n
  at_ : s.validAnswer n = false

/-- Test mode is asserted and `id` is selected in the RTM: where a payload or a read word can be told apart
(30_encoding.md R80). -/
structure State.OnTarget (s : State) (id : BitVec 8) : Prop where
  ready : s.Ready
  kind : s.env.kind = .rtm
  tm : s.lines.tm = true
  selected : s.chip.selected = some id

/-- The command words that are legal, in numbers, from the layouts of 30_encoding.md R88 to R95. -/
def lengthFieldLegal (l : Nat) : Bool := decide (l = 0 ∨ (0x20000 ≤ l ∧ l ≤ 0x30000))

/-- `w` is none of the illegal words of 30_encoding.md R95: `x` is bits 55:0. -/
def wordLegal (w : BitVec 64) : Bool :=
  let x := w.toNat % 2 ^ 56
  let op := w.toNat / 2 ^ 56
  if op = 0x10 then decide (x = 0)
  else if op = 0x11 then decide (x = 0)
  else if op = 0x12 then decide (x < 3)
  else if op = 0x13 then decide (x < 2 ^ 20) && decide (x % 4 < 3) && lengthFieldLegal (x / 4)
  else if op = 0x20 then decide (x < 2)
  else if op = 0x21 then
    decide (x < 2 ^ 54) && lengthFieldLegal (x % 2 ^ 18) && lengthFieldLegal (x / 2 ^ 18 % 2 ^ 18)
      && lengthFieldLegal (x / 2 ^ 36)
  else if op = 0x22 then decide (x < 2 ^ 32)
  else if op = 0x30 then decide (x < 2 ^ 7) && decide (1 ≤ x % 16 ∧ x % 16 ≤ 14) && decide (1 ≤ x / 16 ∧ x / 16 ≤ 4)
  else false

/-- The payload instruction with these enable and write bits (30_encoding.md R82). -/
def payloadInstr (enable write : Bool) (addr : BitVec 16) (data : Word) (mask : BitVec 4) : Instr :=
  match enable, write with
  | true, true => .payWrite addr data mask
  | true, false => .paySetaddr addr data mask
  | false, false => .payDisable addr data mask
  | false, true => .payReserved addr data mask

/-! ### What stays unchanged -/

/-- What no instruction writes: the configuration registers, `CMD`, the transmit side, the host's queue and its last
read (10_state.md R29 to R31, R34). -/
structure HostSideSame (s t : State) : Prop where
  cfg : t.cfg = s.cfg
  cmd : t.cmd = s.cmd
  txlen : t.txlen = s.txlen
  txbuf : t.txbuf = s.txbuf
  host : t.host = s.host
  hostData : t.hostData = s.hostData

/-- The receive side (10_state.md R32). -/
structure RxSame (s t : State) : Prop where
  rxlen : t.rxlen = s.rxlen
  rxbuf : t.rxbuf = s.rxbuf

/-- Every byte of every bank reads as before. -/
def MemSame (s t : State) : Prop := ∀ addr, t.chip.mem.readByte addr = s.chip.mem.readByte addr

/-- `CHIP_EXEC(bank, bank')` (20_memory.md R66): may a `RUN` that began with the contents `m` leave `m'`? -/
def chipExecAllows (c : ChipExec) (m m' : Memory) : Prop :=
  match c with
  | .keeps rows => ∀ b a, rangesHave rows b a = true → m'.readRow b a = m.readRow b a
  | .changesOnly rows => ∀ b a, rangesHave rows b a = false → m'.readRow b a = m.readRow b a
  | .relation n => ∃ k, m' = Memory.ofCells (Config.chipExecResult n m k)

/-- `addr` is one of the four bytes of a row `0 .. n-1` of bank `b`. -/
def inRows (b : Bank) (n : Nat) (addr : Nat) : Prop :=
  ∃ a, a < n ∧ rowAddr b (BitVec.ofNat 16 a) ≤ addr ∧ addr < rowAddr b (BitVec.ofNat 16 a) + 4

/-- Every byte that is in none of the rows `0 .. n b - 1` of any bank `b` reads as before. -/
def MemSameOutside (s t : State) (n : Bank → Nat) : Prop :=
  ∀ addr, (∀ b, ¬ inRows b (n b) addr) → t.chip.mem.readByte addr = s.chip.mem.readByte addr

/-- How a command that ran to its end leaves the sequencing registers: `RESULT`, `PHASE <- Idle`, `BUSY <- 0`, and the
flags `FAULT` and `CFGERR` as named (41_transactions.md R130). -/
structure Ended (s t : State) (r : Result) (fault : Bool) : Prop where
  result : t.result = r
  phase : t.phase = .idle
  status : t.status = { busy := false, fault := fault, cfgerr := s.status.cfgerr }

/-- A command that ended with `r`, `FAULT` as named, having added exactly the events `es`, the host's side untouched. -/
structure Ran (s t : State) (r : Result) (fault : Bool) (es : List Event) : Prop where
  ended : Ended s t r fault
  hostSide : HostSideSame s t
  trace : t.trace = s.trace ++ es

/-- A frame that completed, having added exactly the events `es`: no outcome, no flag, no receive register written
(log 11). -/
structure Framed (s t : State) (es : List Event) : Prop where
  result : t.result = s.result
  status : t.status = s.status
  phase : t.phase = .idle
  elapsed : t.elapsed = s.elapsed
  hostSide : HostSideSame s t
  rx : RxSame s t
  trace : t.trace = s.trace ++ es

/-- The scan lines as a transaction leaves them: all at rest but `SDO`, the chip-level lines as they were. -/
def Lines.atRest (l : Lines) (sdo : Bool) : Lines :=
  { l with sck := false, sdo := sdo, srst := false, cse := false, load := false, tm := false }

/-- `SDO` after a bank write of `n` words: bit 15 of the last row written, or bit 7 of the id (70 R216). -/
def lastWriteBit (n : Nat) : Bool := decide (32768 < n)

/-- What the write-data register of bank `b` holds after a bank write of `TXLEN[b]` words: the last payload, or what it
held, `old`, where no word is written (41_transactions.md R134; 20_memory.md R63). -/
def State.lastWrite (s : State) (b : Bank) (old : BitVec 54) : BitVec 54 :=
  let n := (s.txlen.get b).toNat
  if n = 0 then old
  else payloadValue (BitVec.ofNat 16 (n - 1)) ((s.txbuf.get b).read (BitVec.ofNat 16 (n - 1))) true true maskAll

/-- What it holds after a bank read of `n` rows: the last address payload (20_memory.md R49). -/
def lastAddress (n : Nat) (old : BitVec 54) : BitVec 54 :=
  if n = 0 then old else payloadValue (BitVec.ofNat 16 (n - 1)) 0 true false maskAll

/-- The events of a `read_bank` of length `len` that answers `ws`: none for `none` (41_transactions.md R136). -/
def readOpEvents (c : Config) (b : Bank) (len : Length) (ws : List Word) : List Event :=
  if len = .none then [] else readEvents c b ws

/-- The two line writes that open `LOADS` and `UNLOADS` (42_sessions.md R150, R151). -/
def holdEvents : List Event := [.w .clksel clkExt, .w .crst true]

/-- The first `n` bits of `w` are what the environment answers on `SDI` for row `a` of a read of bank `b` that begins
`first` rows from here: in the RTM the row's, where it is inside the capacity, else any (20_memory.md R62, R65); in an
oracle what is drawn before each cycle's `SVLD`, the first bit bit 0 (R46, R55; 40_primitives.md R112). -/
def RowAnswered (s : State) (b : Bank) (first a : Nat) (w : Word) (n : Nat) : Prop :=
  match s.env.kind with
  | .rtm => a < (s.cfg.cap.get b).toNat → w = s.row b a
  | .oracle => ∀ k, k < n → w.getLsbD k = drawnBit s (2 * (32 * (first + a) + k))

/-- The answers `ws` of a bank read that begins `first` rows from here, from row 0. -/
def Answered (s : State) (b : Bank) (first : Nat) (ws : List Word) : Prop :=
  ∀ a w, ws[a]? = some w → RowAnswered s b first a w 32

/-- Bank `b`'s receive side after a read of `ws`: exactly those words, and the entries past them as they were
(41_transactions.md R136; 10_state.md R32). -/
structure Received (s t : State) (b : Bank) (ws : List Word) : Prop where
  words : t.rxWords b = ws
  rxlen : (t.rxlen.get b).toNat = ws.length
  rest : ∀ k : BitVec 16, ws.length ≤ k.toNat → (t.rxbuf.get b).read k = (s.rxbuf.get b).read k

/-- Bank `b`'s receive side as it was. -/
structure RxSameAt (s t : State) (b : Bank) : Prop where
  rxlen : t.rxlen.get b = s.rxlen.get b
  rxbuf : t.rxbuf.get b = s.rxbuf.get b

/-- Does the instruction sample an input line? -/
def Instr.samples : Instr → Bool
  | .brst => false
  | .clear => false
  | .wrbank _ => false
  | .rdbank _ len => decide (len ≠ .none)
  | .loads _ => false
  | .unloads lm li lo => decide (lm ≠ .none) || decide (li ≠ .none) || decide (lo ≠ .none)
  | .run _ => true
  | .ckcfg _ _ => false
  | .payWrite _ _ _ => false
  | .paySetaddr _ _ _ => false
  | .payDisable _ _ _ => false
  | .payReserved _ _ _ => false
  | .chainid8 _ => false
  | .read32 _ => true
  | .clkgen18 _ _ => false

/-- `p` pulses and `e` events were added (70_reset_and_hazards.md R214). -/
structure Added (s t : State) (p e : Nat) : Prop where
  pulses : pulseCount (newEvents s t) = p
  events : (newEvents s t).length = e

end Sys2Proof.Machine
end

