-- ==== Sys2Proof/Certificates/Slice0/Obligations.lean ====
section
/-!
DEFINITION. The statements for the provers, from the numbered rules of spec/. `Ready`, `OnTarget`, `Answers`, the event
lists and the frames they use are Sys2Proof/Safety.lean's.
-/

open Sys2Proof Sys2Proof.Machine

/-! ### Encodings -/

/-- 30_encoding.md R81 to R94: the word of every legal instruction, at every operand value, is read back as it. -/
def Obligations.DecodeOfEncode : Prop :=
  ∀ i : Instr, i.wf = true → decode (encode i) = .ok i

/-- 30_encoding.md R87 to R95: what the decoder accepts is legal, and is the encoder's own word for it, so that no two
words mean the same instruction and no bit of a word is ignored. -/
def Obligations.EncodeOfDecode : Prop :=
  ∀ (c : Code) (i : Instr), decode c = .ok i → i.wf = true ∧ encode i = c

/-- 30_encoding.md R95: the decoder accepts exactly the words that none of the listed conditions makes illegal. -/
def Obligations.LegalWordsAreDecoded : Prop :=
  ∀ w : BitVec 64, (∃ i, decode (.command w) = .ok i) ↔ wordLegal w = true

/-- Words written out from 30_encoding.md R81 to R94: one of each opcode and of each frame. -/
def Obligations.SampleWordsDecode : Prop :=
  decode (.command 0x1000000000000000) = .ok .brst ∧
  decode (.command 0x1100000000000000) = .ok .clear ∧
  decode (.command 0x1200000000000002) = .ok (.wrbank .output) ∧
  decode (.command 0x130000000008000C) = .ok (.rdbank .main (.exactly 3)) ∧
  decode (.command 0x2000000000000001) = .ok (.loads true) ∧
  decode (.command 0x2100000800020002) = .ok (.unloads (.exactly 2) .all .none) ∧
  decode (.command 0x2200000000000005) = .ok (.run 5) ∧
  decode (.command 0x3000000000000027) = .ok (.ckcfg 7 2) ∧
  decode (.frame (.payload54 0x000080000000FF)) = .ok (.payWrite 2 3 15) ∧
  decode (.frame (.payload54 0x0002400000002F)) = .ok (.paySetaddr 9 0 15) ∧
  decode (.frame (.payload54 0x0000000000000F)) = .ok (.payDisable 0 0 15) ∧
  decode (.frame (.payload54 0x0000000000001F)) = .ok (.payReserved 0 0 15) ∧
  decode (.frame (.chainid8 0x05)) = .ok (.chainid8 5) ∧
  decode (.frame (.read32 0xDEADBEEF)) = .ok (.read32 0xDEADBEEF) ∧
  decode (.frame (.clkgen18 0x00402)) = .ok (.clkgen18 0x040 2)

/-- 40_primitives.md R115: the codec laws. -/
def Obligations.CodecLaws : Prop :=
  (∀ (a : BitVec 16) (d : Word) (e w : Bool) (m : BitVec 4),
    decodePayload (encodePayload a d e w m) = ⟨a, d, e, w, m⟩ ∧ (encodePayload a d e w m).length = 54 ∧
      ubig (encodePayload a d e w m) =
        a.toNat * 2 ^ 38 + d.toNat * 2 ^ 6 + e.toNat * 2 ^ 5 + w.toNat * 2 ^ 4 + m.toNat) ∧
  ∀ s : BitSeq, s.length = 54 →
    encodePayload (decodePayload s).addr (decodePayload s).data (decodePayload s).enable (decodePayload s).write
      (decodePayload s).mask = s

/-- 30_encoding.md R81, 40_primitives.md R111: the fields of a payload at their bits of `V` and their positions of `P`,
and what `shift_out(P)` does on the wire: 54 pulses, `V[t]` the level written to `SDO` before pulse `t`. -/
def Obligations.PayloadLayout : Prop :=
  ∀ (a : BitVec 16) (d : Word) (e w : Bool) (m : BitVec 4),
    (payloadValue a d e w m).toNat =
        a.toNat * 2 ^ 38 + d.toNat * 2 ^ 6 + e.toNat * 2 ^ 5 + w.toNat * 2 ^ 4 + m.toNat ∧
      ubig (encodePayload a d e w m) = (payloadValue a d e w m).toNat ∧
      (∀ k, k < 16 → (encodePayload a d e w m)[k]? = some (a.getLsbD (15 - k)) ∧
        (payloadValue a d e w m).getLsbD (38 + k) = a.getLsbD k) ∧
      (∀ k, k < 32 → (encodePayload a d e w m)[16 + k]? = some (d.getLsbD (31 - k)) ∧
        (payloadValue a d e w m).getLsbD (6 + k) = d.getLsbD k) ∧
      (encodePayload a d e w m)[48]? = some e ∧ (payloadValue a d e w m).getLsbD 5 = e ∧
      (encodePayload a d e w m)[49]? = some w ∧ (payloadValue a d e w m).getLsbD 4 = w ∧
      (∀ k, k < 4 → (encodePayload a d e w m)[50 + k]? = some (m.getLsbD (3 - k)) ∧
        (payloadValue a d e w m).getLsbD k = m.getLsbD k) ∧
      ∀ s u : State, runActs (shiftOut (encodePayload a d e w m)) s = .go u →
        u.trace = s.trace ++ (List.range 54).flatMap fun t =>
          [.w .sdo ((payloadValue a d e w m).getLsbD t), .w .sck true, .w .sck false]

/-- 43_clockgen.md R161: the two high positions of a clock-generator frame, numbered from 1. -/
def Obligations.ClockPositions : Prop :=
  ∀ (f : BitVec 4) (r : BitVec 3), freqLegal f = true → ringLegal r = true →
    (clkgenSeq f r).length = 18 ∧ (clkgenSeq f r).countP id = 2 ∧
      1 ≤ 15 - f.toNat ∧ 15 - f.toNat ≤ 14 ∧ 15 ≤ 14 + (5 - r.toNat) ∧ 14 + (5 - r.toNat) ≤ 18 ∧
      ∀ p, 1 ≤ p → p ≤ 18 →
        (clkgenSeq f r)[p - 1]? = some (decide (p = 15 - f.toNat ∨ p = 14 + (5 - r.toNat)))

/-! ### The step, the host's registers and reset -/

/-- 10_state.md R34, 41_transactions.md R130: a step runs the decoded instruction. A command word written to `CMD` is
latched there; a wire frame, and the host's table word, are run likewise (log 12). -/
def Obligations.StepRunsTheDecodedInstruction : Prop :=
  ∀ (s : State) (rest : List HostOp), s.status.busy = false →
    (∀ (w : BitVec 64) (i : Instr), s.host = .write 0 w :: rest → decode (.command w) = .ok i →
      step s = exec i { s with host := rest, cmd := w }) ∧
    (∀ (f : Frame) (i : Instr), s.host = .wire f :: rest → decode (.frame f) = .ok i →
      step s = exec i { s with host := rest }) ∧
    ∀ (nbits w : Nat) (i : Instr), decodeTableWord nbits w = some i →
      (∃ v, Code.ofTableWord nbits w = some (.command v) ∧
        step (s.withFetchWord nbits w) = exec i { s with cmd := v }) ∨
      ∃ f, Code.ofTableWord nbits w = some (.frame f) ∧
        step (s.withFetchWord nbits w) = exec i (frameContext f s)

/-- 70_reset_and_hazards.md R200: nothing runs until the host writes `CMD`. -/
def Obligations.NothingRunsWithoutTheHost : Prop :=
  ∀ s : State, s.host = [] → step s = .next s

/-- 30_encoding.md R95, 60_exceptions.md R175: an illegal word written to `CMD` changes `RESULT` and nothing else. -/
def Obligations.IllegalWordsAreRefused : Prop :=
  ∀ (s : State) (w : BitVec 64) (rest : List HostOp), s.Inv → s.status.cfgerr = false →
    s.host = .write 0 w :: rest → wordLegal w = false →
      step s = .next { s with host := rest, cmd := w, result := .illegalCommand }

/-- 10_state.md R34, with R25 to R28, R31 and R32: what a host read of each register number returns, and that reading
changes nothing else. An `RXBUF` entry at or above `RXLEN` reads as any value (log 17); a read of the write-only `CMD`
is declined (log 16). -/
def Obligations.HostReads : Prop :=
  ∀ (s : State) (n : Nat) (rest : List HostOp), s.host = .read n :: rest →
    let reads (v : BitVec 64) : Prop := step s = .next { s with host := rest, hostData := v }
    (n = 0 → step s = .refused .cmdIsWriteOnly) ∧
    (n = 1 → reads (BitVec.ofNat 64 (s.status.busy.toNat + 2 * s.status.fault.toNat + 4 * s.status.cfgerr.toNat))) ∧
    (n = 2 → reads (
      match s.result with
      | .ok => 0
      | .configurationError => 1
      | .capacityError => 2
      | .protocolFault => 3
      | .timedOut => 4
      | .illegalCommand => 5)) ∧
    (n = 3 → reads (BitVec.ofNat 64 s.elapsed.toNat)) ∧
    (n = 4 → reads (
      match s.phase with
      | .idle => 0
      | .resetting => 1
      | .testMode => 2
      | .selected => 3
      | .shifting => 4
      | .testModeExit => 5
      | .polling => 6
      | .clkCfg => 7)) ∧
    (n = 28 → reads (BitVec.ofNat 64 s.cfg.resetPulses.toNat)) ∧
    (∀ b : Bank,
      (n = 8 + b.num → reads (BitVec.ofNat 64 (s.txlen.get b).toNat)) ∧
      (n = 12 + b.num → reads (BitVec.ofNat 64 (s.rxlen.get b).toNat)) ∧
      (n = 16 + b.num → reads (BitVec.ofNat 64 (s.cfg.cap.get b).toNat)) ∧
      (n = 20 + b.num → reads (BitVec.ofNat 64 (s.cfg.rd.get b).toNat)) ∧
      (n = 24 + b.num → reads (BitVec.ofNat 64 (s.cfg.wr.get b).toNat)) ∧
      ∀ k : BitVec 16,
        (n = 0x10000 * (b.num + 1) + k.toNat →
          reads (BitVec.ofNat 64 ((s.txbuf.get b).read k).toNat)) ∧
        (n = 0x10000 * (b.num + 5) + k.toNat →
          (k.toNat < (s.rxlen.get b).toNat →
            reads (BitVec.ofNat 64 ((s.rxbuf.get b).read k).toNat)) ∧
          ((s.rxlen.get b).toNat ≤ k.toNat → ∃ (v : Word) (e : Env) (c : Nat),
            step s = .next
              { s with host := rest, hostData := BitVec.ofNat 64 v.toNat, env := e, freeCount := c }))) ∧
    ((5 ≤ n ∧ n < 8) ∨ n = 11 ∨ n = 15 ∨ n = 19 ∨ n = 23 ∨ n = 27 ∨ (29 ≤ n ∧ n < 0x10000) ∨
        (0x40000 ≤ n ∧ n < 0x50000) ∨ 0x80000 ≤ n →
      reads 0)

/-- 10_state.md R31, R34: a host write of `TXLEN` or `TXBUF` writes that register and nothing else; a write of a
reserved or, as the model chooses (log 16), of a read-only number is ignored; a value too wide for its register is
declined (log 16). -/
def Obligations.HostWrites : Prop :=
  ∀ (s : State) (n : Nat) (v : BitVec 64) (rest : List HostOp), s.Inv → s.host = .write n v :: rest →
    (∀ b : Bank,
      (n = 8 + b.num → v.toNat ≤ 65536 → ∃ t, step s = .next t ∧ t = { s with host := rest, txlen := t.txlen } ∧
        (t.txlen.get b).toNat = v.toNat ∧ ∀ c, c ≠ b → t.txlen.get c = s.txlen.get c) ∧
      (n = 8 + b.num → 65536 < v.toNat → step s = .refused .hostValueOutOfRange) ∧
      ∀ k : BitVec 16, n = 0x10000 * (b.num + 1) + k.toNat →
        (v.toNat < 2 ^ 32 → ∃ t, step s = .next t ∧ t = { s with host := rest, txbuf := t.txbuf } ∧
          ((t.txbuf.get b).read k).toNat = v.toNat ∧
          (∀ j, j ≠ k → (t.txbuf.get b).read j = (s.txbuf.get b).read j) ∧
          ∀ c, c ≠ b → t.txbuf.get c = s.txbuf.get c) ∧
        (2 ^ 32 ≤ v.toNat → step s = .refused .hostValueOutOfRange)) ∧
    ((1 ≤ n ∧ n < 8) ∨ (11 ≤ n ∧ n < 0x10000) ∨ 0x40000 ≤ n → step s = .next { s with host := rest })

/-- 70_reset_and_hazards.md R200, R201, 10_state.md R37: what construction with any configuration leaves, whatever the
unspecified values, and that it changes nothing on the chip. That each write-data register stays with its bank, also
under another id, is the model's choice (log 31), and that the host's queue and the counter go on is too (log 25). -/
def Obligations.ConstructionLeaves : Prop :=
  ∀ (s : State) (c : Config) (l : Launch) (rest : List HostOp), s.host = .construct c l :: rest →
    ∃ t, step s = .next t ∧ t.cfg = c ∧
      t.lines.sck = false ∧ t.lines.sdo = false ∧ t.lines.srst = false ∧ t.lines.cse = false ∧
      t.lines.load = false ∧ t.lines.tm = false ∧
      t.lines.clksel = l.clksel ∧ t.lines.crst = l.crst ∧ t.lines.cgec = l.cgec ∧ t.lines.cgge = l.cgge ∧
      t.phase = .idle ∧ t.status = { busy := false, fault := false, cfgerr := !Config.valid c } ∧
      t.result = .ok ∧ t.elapsed = 0 ∧ (∀ b, t.rxlen.get b = 0) ∧
      t.txlen = l.txlen ∧ t.txbuf = l.txbuf ∧ t.rxbuf = l.rxbuf ∧ t.work = l.work ∧ t.cmd = l.cmd ∧
      t.hostData = l.hostData ∧ t.trace = [] ∧ t.chip = s.chip ∧ t.env = s.env ∧ t.host = rest ∧
      t.freeCount = s.freeCount

/-- 10_state.md R37: the values the spec gives the reset state. The model's other values there are its choices (logs 2
to 6) and are not stated. -/
def Obligations.ResetLeaves : Prop :=
  State.reset.lines.sck = false ∧ State.reset.lines.sdo = false ∧ State.reset.lines.srst = false ∧
    State.reset.lines.cse = false ∧ State.reset.lines.load = false ∧ State.reset.lines.tm = false ∧
    State.reset.phase = .idle ∧ State.reset.status.busy = false ∧ State.reset.status.fault = false ∧
    State.reset.status.cfgerr = !Config.valid State.reset.cfg ∧ State.reset.result = .ok ∧
    State.reset.elapsed = 0 ∧ (∀ b, State.reset.rxlen.get b = 0) ∧ State.reset.trace = [] ∧
    State.reset.chip.selected = none ∧ State.reset.chip.selPend = false

/-- The invariant holds after reset. -/
def Obligations.ResetMeetsTheInvariant : Prop := State.reset.Inv

/-- Every step keeps the invariant, in any environment and for every instruction, host access and re-construction. -/
def Obligations.StepKeepsTheInvariant : Prop :=
  ∀ s t : State, s.Inv → step s = .next t → t.Inv

/-! ### Errors, flags and what no instruction writes -/

/-- 00_scope.md R7: when a configuration is valid, and that construction with an invalid one raises the configuration
error (60_exceptions.md R171: `STATUS.CFGERR`). -/
def Obligations.ValidConfigurations : Prop :=
  (∀ c : Config, Config.valid c = true ↔
    (∀ b, (c.wr.get b).toNat = (c.rd.get b).toNat + 1) ∧ 8 ∣ Config.wordWidth ∧
      List.Pairwise (fun x y : BitVec 4 => x.toNat ≠ y.toNat)
        [c.rd.main, c.wr.main, c.rd.input, c.wr.input, c.rd.output, c.wr.output, c.ckgenId] ∧
      (∀ b, (c.rd.get b).toNat ≤ 8 ∧ (c.wr.get b).toNat ≤ 8) ∧ c.ckgenId.toNat ≤ 8 ∧
      ∀ b, (c.cap.get b).toNat ≤ 65536) ∧
  ∀ (s : State) (c : Config) (l : Launch) (rest : List HostOp), s.host = .construct c l :: rest →
    Config.valid c = false → ∃ t, step s = .next t ∧ t.status.cfgerr = true

/-- 60_exceptions.md R171: an invalid configuration sets `CFGERR` at construction, no instruction clears it, and while
it is set every command word, legal or not, is refused with nothing written but `RESULT`. -/
def Obligations.ConfigurationErrorRefusesAll : Prop :=
  (∀ (s : State) (c : Config) (l : Launch) (rest : List HostOp), s.host = .construct c l :: rest →
    ∃ t, step s = .next t ∧ t.status.cfgerr = !Config.valid c) ∧
  (∀ (s : State) (w : BitVec 64) (rest : List HostOp), s.Inv → s.status.cfgerr = true →
    s.host = .write 0 w :: rest →
      step s = .next { s with host := rest, cmd := w, result := .configurationError }) ∧
  ∀ (i : Instr) (s t : State), exec i s = .next t → t.status.cfgerr = s.status.cfgerr

/-- 60_exceptions.md R170, R177 and 41_transactions.md R130: every command that ends leaves one of its own outcomes in
`RESULT`, `PHASE = Idle` and `BUSY = 0`, the configuration error first and an illegal operand second. -/
def Obligations.EveryCommandEndsWithItsOutcome : Prop :=
  ∀ (i : Instr) (s t : State), i.isCommand = true → exec i s = .next t →
    t.phase = .idle ∧ t.status.busy = false ∧
      if s.status.cfgerr = true then t.result = .configurationError
      else if i.wf = false then t.result = .illegalCommand
      else
        match i with
        | .brst => t.result = .ok
        | .clear => t.result = .ok
        | .wrbank _ => t.result = .ok ∨ t.result = .capacityError
        | .rdbank _ _ => t.result = .ok ∨ t.result = .protocolFault
        | .loads _ => t.result = .ok ∨ t.result = .capacityError
        | .unloads _ _ _ => t.result = .ok ∨ t.result = .protocolFault
        | .run _ => t.result = .ok ∨ t.result = .timedOut
        | .ckcfg _ _ => t.result = .ok
        | _ => False

/-- 10_state.md R26, 60_exceptions.md R173, R178: `FAULT` is set by a command that ends in `ProtocolFault`, cleared by
every completed `bus_reset`, and written by nothing else. -/
def Obligations.FaultFlag : Prop :=
  ∀ (i : Instr) (s t : State), i.isCommand = true → i.wf = true → s.status.cfgerr = false → exec i s = .next t →
    (t.result = .protocolFault → t.status.fault = true) ∧
    (t.result ≠ .protocolFault → t.status.fault =
      match i with
      | .brst => false
      | .clear => false
      | .wrbank _ => if t.result = .ok then false else s.status.fault
      | .rdbank _ len => if len = .none then s.status.fault else false
      | .loads _ => false
      | .unloads lm li lo => if lm = .none ∧ li = .none ∧ lo = .none then s.status.fault else false
      | .run _ => s.status.fault
      | .ckcfg _ _ => s.status.fault
      | _ => false)

/-- 40_primitives.md R119, second sentence, as an invariant of the commands: `FAULT` is never set with test mode
deasserted, and the scan clock, scan reset, chain select and load lines are at rest. (A bare `BRST` clears `FAULT` and
leaves `TM` asserted, so that the first sentence's clause on `TM` is not stated: log 19.) -/
def Obligations.FaultLeavesTestModeAsserted : Prop :=
  ∀ (i : Instr) (s t : State), i.isCommand = true → s.Inv → (s.status.fault = true → s.lines.tm = true) →
    exec i s = .next t →
      (t.status.fault = true → t.lines.tm = true) ∧ (t.result = .protocolFault → t.lines.tm = true) ∧
        t.lines.sck = false ∧ t.lines.srst = false ∧ t.lines.cse = false ∧ t.lines.load = false

/-- 10_state.md R29, R30, R31, R34: no instruction writes a configuration register, `CMD`, a transmit register or
the host's side, whatever the state and the environment. -/
def Obligations.NoInstructionWritesTheHostSide : Prop :=
  ∀ (i : Instr) (s t : State), exec i s = .next t → HostSideSame s t

/-- 10_state.md R28: `ELAPSED` is the polls a `RUN` made; every other instruction leaves it. -/
def Obligations.ElapsedIsWrittenByRunAlone : Prop :=
  ∀ (i : Instr) (s t : State), exec i s = .next t → s.status.cfgerr = false →
    match i with
    | .run n => (newEvents s t).countP (fun e => decide (e = .r .done true ∨ e = .r .done false)) = t.elapsed.toNat ∧
        t.elapsed.toNat ≤ n.toNat
    | _ => t.elapsed = s.elapsed

/-- 00_scope.md R8: the trace only grows, and every line holds the level last written in it. -/
def Obligations.TheTraceSaysWhatTheLinesAre : Prop :=
  ∀ (i : Instr) (s t : State), exec i s = .next t →
    t.trace = s.trace ++ newEvents s t ∧ t.lines = (newEvents s t).foldl lineEvent s.lines

/-- 20_memory.md R55: what an instruction that samples nothing does to the engine does not depend on the environment. -/
def Obligations.TheEngineDoesNotDependOnTheEnvironment : Prop :=
  ∀ (i : Instr) (s t t' : State) (c : Chip) (e : Env) (n : Nat), Instr.samples i = false →
    exec i s = .next t → exec i { s with chip := c, env := e, freeCount := n } = .next t' →
      t' = { t with chip := t'.chip, env := t'.env, freeCount := t'.freeCount }

/-- 20_memory.md R41, R43: a row is one word, read back as written, and rows of one bank and of different banks are
different; the memory's form stays canonical and says its contents. -/
def Obligations.RowsAreSeparateWords : Prop :=
  ∀ (m : Memory) (b : Bank) (a : BitVec 16) (w : Word), m.wf = true →
    (m.writeRow b a w).wf = true ∧ (m.writeRow b a w).readRow b a = w ∧
      (∀ (c : Bank) (e : BitVec 16), (c, e) ≠ (b, a) → (m.writeRow b a w).readRow c e = m.readRow c e) ∧
      ∀ m' : Memory, m'.wf = true → (∀ addr, m'.readByte addr = m.readByte addr) → m' = m

/-! ### The commands -/

/-- 41_transactions.md R132, 20_memory.md R59, 70_reset_and_hazards.md R206: `BRST`. -/
def Obligations.BrstRuns : Prop :=
  ∀ s : State, s.Ready → ∃ t, exec .brst s = .next t ∧ Ran s t .ok false (busResetEvents s.cfg) ∧ RxSame s t ∧
    t.elapsed = s.elapsed ∧ t.lines = s.lines ∧ t.work = { s.work with cnt := 0 } ∧ MemSame s t ∧
    t.chip.treg = s.chip.treg ∧ (s.env.kind = .oracle → t.chip = s.chip) ∧
    (s.env.kind = .rtm → s.cfg.resetPulses ≠ 0 → t.chip.selected = none)

/-- 41_transactions.md R133, 70_reset_and_hazards.md R206: `CLEAR`; in the RTM every write-data register then holds
`PAY.DISABLE` and id 8 is selected. -/
def Obligations.ClearRuns : Prop :=
  ∀ s : State, s.Ready → ∃ t, exec .clear s = .next t ∧ Ran s t .ok false (clearEvents s.cfg) ∧ RxSame s t ∧
    t.elapsed = s.elapsed ∧ t.lines = s.lines.atRest false ∧ t.work.dsr = s.work.dsr ∧
    t.work.addrc = s.work.addrc ∧ MemSame s t ∧ (s.env.kind = .oracle → t.chip = s.chip) ∧
    (s.env.kind = .rtm → t.chip.selected = some 8 ∧ ∀ b, t.chip.treg.get b = 0x0000000000000F)

/-- 41_transactions.md R134: `WRBANK` with fewer words than the capacity writes exactly those words, from row 0. -/
def Obligations.WrbankRuns : Prop :=
  ∀ (s : State) (b : Bank), s.Ready → (s.txlen.get b).toNat < (s.cfg.cap.get b).toNat →
    ∃ t, exec (.wrbank b) s = .next t ∧ Ran s t .ok false (writeEvents s.cfg b (s.txWords b)) ∧ RxSame s t ∧
      t.elapsed = s.elapsed ∧ t.lines = s.lines.atRest (lastWriteBit (s.txlen.get b).toNat) ∧
      t.work.dsr = s.work.dsr ∧ t.work.idc = s.work.idc ∧ (s.env.kind = .oracle → t.chip = s.chip) ∧
      (s.env.kind = .rtm →
        (∀ a, a < (s.txlen.get b).toNat → t.row b a = (s.txbuf.get b).read (BitVec.ofNat 16 a)) ∧
        MemSameOutside s t (fun c => if c = b then (s.txlen.get b).toNat else 0) ∧
        t.chip.selected = some ((s.cfg.wr.get b).setWidth 8) ∧
        t.chip.treg.get b = s.lastWrite b (s.chip.treg.get b) ∧
        ∀ c, c ≠ b → t.chip.treg.get c = s.chip.treg.get c)

/-- 60_exceptions.md R172, 41_transactions.md R134: `WRBANK` with `TXLEN` at or above the capacity ends
`CapacityError` with nothing else written. -/
def Obligations.WrbankAtCapacityIsRefused : Prop :=
  ∀ (s : State) (b : Bank), s.Inv → s.status.cfgerr = false → (s.cfg.cap.get b).toNat ≤ (s.txlen.get b).toNat →
    exec (.wrbank b) s = .next { s with result := .capacityError }

/-- 41_transactions.md R135, R136: `RDBANK none` makes no event and empties the result. -/
def Obligations.RdbankNoneReadsNothing : Prop :=
  ∀ (s : State) (b : Bank), s.Inv → s.status.cfgerr = false →
    exec (.rdbank b .none) s = .next { s with result := .ok, rxlen := s.rxlen.set b 0 }

/-- 41_transactions.md R135, R136, R138, 20_memory.md R46, R49, R62: `RDBANK` whose every sample of `SVLD` is true, in
the RTM and in an oracle (20_memory.md R55). -/
def Obligations.RdbankRuns : Prop :=
  ∀ (s : State) (b : Bank) (len : Length), s.Ready → len.wf = true → len ≠ .none →
    s.Answers (32 * readCount (s.cfg.cap.get b) len) →
    ∃ t ws, exec (.rdbank b len) s = .next t ∧ ws.length = readCount (s.cfg.cap.get b) len ∧ Answered s b 0 ws ∧
      Ran s t .ok false (readEvents s.cfg b ws) ∧ Received s t b ws ∧ (∀ c, c ≠ b → RxSameAt s t c) ∧
      t.elapsed = s.elapsed ∧ t.lines = s.lines.atRest false ∧ t.work.idc = s.work.idc ∧ MemSame s t ∧
      (s.env.kind = .oracle → t.chip = s.chip) ∧
      (s.env.kind = .rtm → t.chip.selected = some ((s.cfg.wr.get .main).setWidth 8) ∧
        t.chip.treg.get b = lastAddress ws.length (s.chip.treg.get b) ∧
        ∀ c, c ≠ b → t.chip.treg.get c = s.chip.treg.get c)

/-- 41_transactions.md R137, 40_primitives.md R112: `RDBANK` whose `SVLD` is first false in cycle `k` of row `a`, in the
RTM and in an oracle (20_memory.md R55). -/
def Obligations.RdbankFaults : Prop :=
  ∀ (s : State) (b : Bank) (len : Length) (a k : Nat), s.Ready → len.wf = true →
    a < readCount (s.cfg.cap.get b) len → k < 32 → s.FaultsAt (32 * a + k) →
    ∃ t ws w, exec (.rdbank b len) s = .next t ∧ ws.length = a ∧ Answered s b 0 ws ∧
      RowAnswered s b 0 a w (k + 1) ∧
      Ran s t .protocolFault true (faultedReadEvents s.cfg b ws w k) ∧ Received s t b ws ∧
      (∀ c, c ≠ b → RxSameAt s t c) ∧ t.elapsed = s.elapsed ∧
      t.lines = { s.lines.atRest false with tm := true } ∧ t.work.idc = s.work.idc ∧ MemSame s t ∧
      (s.env.kind = .oracle → t.chip = s.chip) ∧
      (s.env.kind = .rtm → t.chip.selected = some ((s.cfg.rd.get b).setWidth 8) ∧
        t.chip.treg.get b = payloadValue (BitVec.ofNat 16 a) 0 true false maskAll ∧
        ∀ c, c ≠ b → t.chip.treg.get c = s.chip.treg.get c)

/-- 42_sessions.md R150, R154: `LOADS` with both lengths below their capacities. -/
def Obligations.LoadsRuns : Prop :=
  ∀ (s : State) (h : Bool), s.Ready → (s.txlen.get .main).toNat < (s.cfg.cap.get .main).toNat →
    (h = true → (s.txlen.get .input).toNat < (s.cfg.cap.get .input).toNat) →
    ∃ t, exec (.loads h) s = .next t ∧
      Ran s t .ok false (holdEvents ++ clearEvents s.cfg ++ writeEvents s.cfg .main (s.txWords .main) ++
        if h = true then writeEvents s.cfg .input (s.txWords .input) else []) ∧
      RxSame s t ∧ t.elapsed = s.elapsed ∧
      t.lines = { s.lines with clksel := clkExt, crst := true }.atRest
        (lastWriteBit (s.txlen.get (if h = true then .input else .main)).toNat) ∧
      t.work.dsr = s.work.dsr ∧ (s.env.kind = .oracle → t.chip = s.chip) ∧
      (s.env.kind = .rtm →
        (∀ a, a < (s.txlen.get .main).toNat → t.row .main a = (s.txbuf.get .main).read (BitVec.ofNat 16 a)) ∧
        (h = true → ∀ a, a < (s.txlen.get .input).toNat →
          t.row .input a = (s.txbuf.get .input).read (BitVec.ofNat 16 a)) ∧
        MemSameOutside s t (fun
          | .main => (s.txlen.get .main).toNat
          | .input => if h = true then (s.txlen.get .input).toNat else 0
          | .output => 0) ∧
        t.chip.selected = some ((s.cfg.wr.get (if h = true then .input else .main)).setWidth 8) ∧
        t.chip.treg.get .main = s.lastWrite .main 0x0000000000000F ∧
        t.chip.treg.get .input =
          (if h = true then s.lastWrite .input 0x0000000000000F else 0x0000000000000F) ∧
        t.chip.treg.get .output = 0x0000000000000F)

/-- 42_sessions.md R150, R153: `LOADS` whose main length meets the capacity ends `CapacityError` after the two line
writes and the whole chain clear, no row written. -/
def Obligations.LoadsMainOverCapacity : Prop :=
  ∀ (s : State) (h : Bool), s.Ready → (s.cfg.cap.get .main).toNat ≤ (s.txlen.get .main).toNat →
    ∃ t, exec (.loads h) s = .next t ∧ Ran s t .capacityError false (holdEvents ++ clearEvents s.cfg) ∧
      RxSame s t ∧ t.elapsed = s.elapsed ∧
      t.lines = { s.lines with clksel := clkExt, crst := true }.atRest false ∧ MemSame s t ∧
      t.work.dsr = s.work.dsr ∧ t.work.addrc = s.work.addrc ∧
      (s.env.kind = .oracle → t.chip = s.chip) ∧
      (s.env.kind = .rtm → t.chip.selected = some 8 ∧ ∀ b, t.chip.treg.get b = 0x0000000000000F)

/-- 42_sessions.md R150, R153: `LOADS` whose input length meets the capacity ends `CapacityError` with the main bank
written and no row of the input bank. -/
def Obligations.LoadsInputOverCapacity : Prop :=
  ∀ s : State, s.Ready → (s.txlen.get .main).toNat < (s.cfg.cap.get .main).toNat →
    (s.cfg.cap.get .input).toNat ≤ (s.txlen.get .input).toNat →
    ∃ t, exec (.loads true) s = .next t ∧
      Ran s t .capacityError false
        (holdEvents ++ clearEvents s.cfg ++ writeEvents s.cfg .main (s.txWords .main)) ∧
      RxSame s t ∧ t.elapsed = s.elapsed ∧
      t.lines = { s.lines with clksel := clkExt, crst := true }.atRest (lastWriteBit (s.txlen.get .main).toNat) ∧
      t.work.dsr = s.work.dsr ∧
      (s.env.kind = .oracle → t.chip = s.chip) ∧
      (s.env.kind = .rtm →
        (∀ a, a < (s.txlen.get .main).toNat → t.row .main a = (s.txbuf.get .main).read (BitVec.ofNat 16 a)) ∧
        MemSameOutside s t (fun c => if c = .main then (s.txlen.get .main).toNat else 0) ∧
        t.chip.selected = some ((s.cfg.wr.get .main).setWidth 8) ∧
        t.chip.treg.get .main = s.lastWrite .main 0x0000000000000F ∧
        t.chip.treg.get .input = 0x0000000000000F ∧ t.chip.treg.get .output = 0x0000000000000F)

/-- 42_sessions.md R151, R154: `UNLOADS` whose every sample of `SVLD` is true, for every choice of the three lengths, in
the RTM and in an oracle (20_memory.md R55). -/
def Obligations.UnloadsRuns : Prop :=
  ∀ (s : State) (lm li lo : Length), s.Ready → lm.wf = true → li.wf = true → lo.wf = true →
    s.Answers (32 * (readCount s.cfg.cap.main lm + readCount s.cfg.cap.input li + readCount s.cfg.cap.output lo)) →
    ∃ t wm wi wo, exec (.unloads lm li lo) s = .next t ∧
      wm.length = readCount s.cfg.cap.main lm ∧ wi.length = readCount s.cfg.cap.input li ∧
      wo.length = readCount s.cfg.cap.output lo ∧
      Answered s .main 0 wm ∧ Answered s .input wm.length wi ∧ Answered s .output (wm.length + wi.length) wo ∧
      Ran s t .ok (if lm = .none ∧ li = .none ∧ lo = .none then s.status.fault else false)
        (holdEvents ++ readOpEvents s.cfg .main lm wm ++ readOpEvents s.cfg .input li wi
          ++ readOpEvents s.cfg .output lo wo) ∧
      Received s t .main wm ∧ Received s t .input wi ∧ Received s t .output wo ∧ t.elapsed = s.elapsed ∧
      t.lines = (if lm = .none ∧ li = .none ∧ lo = .none then { s.lines with clksel := clkExt, crst := true }
        else { s.lines with clksel := clkExt, crst := true }.atRest false) ∧
      t.work.idc = s.work.idc ∧ MemSame s t ∧ (s.env.kind = .oracle → t.chip = s.chip) ∧
      (s.env.kind = .rtm →
        t.chip.selected = (if lm = .none ∧ li = .none ∧ lo = .none then s.chip.selected
          else some ((s.cfg.wr.get .main).setWidth 8)) ∧
        t.chip.treg.get .main = lastAddress wm.length (s.chip.treg.get .main) ∧
        t.chip.treg.get .input = lastAddress wi.length (s.chip.treg.get .input) ∧
        t.chip.treg.get .output = lastAddress wo.length (s.chip.treg.get .output))

/-- 42_sessions.md R151, R153, 41_transactions.md R137: an `UNLOADS` whose `SVLD` is first false in cycle `k` of row `a`
of the main bank reads no other bank. -/
def Obligations.UnloadsFaultsInMain : Prop :=
  ∀ (s : State) (lm li lo : Length) (a k : Nat), s.Ready → lm.wf = true → li.wf = true → lo.wf = true →
    a < readCount s.cfg.cap.main lm → k < 32 → s.FaultsAt (32 * a + k) →
    ∃ t ws w, exec (.unloads lm li lo) s = .next t ∧ ws.length = a ∧ Answered s .main 0 ws ∧
      RowAnswered s .main 0 a w (k + 1) ∧
      Ran s t .protocolFault true (holdEvents ++ faultedReadEvents s.cfg .main ws w k) ∧
      Received s t .main ws ∧ RxSameAt s t .input ∧ RxSameAt s t .output ∧
      t.elapsed = s.elapsed ∧
      t.lines = { { s.lines with clksel := clkExt, crst := true }.atRest false with tm := true } ∧
      t.work.idc = s.work.idc ∧ MemSame s t ∧ (s.env.kind = .oracle → t.chip = s.chip) ∧
      (s.env.kind = .rtm → t.chip.selected = some ((s.cfg.rd.get .main).setWidth 8) ∧
        t.chip.treg.get .main = payloadValue (BitVec.ofNat 16 a) 0 true false maskAll ∧
        t.chip.treg.get .input = s.chip.treg.get .input ∧ t.chip.treg.get .output = s.chip.treg.get .output)

/-- 42_sessions.md R151, R153, 41_transactions.md R137: an `UNLOADS` whose `SVLD` is first false in cycle `k` of row `a`
of the input bank keeps the main bank's result and does not read the output bank. -/
def Obligations.UnloadsFaultsInInput : Prop :=
  ∀ (s : State) (lm li lo : Length) (a k : Nat), s.Ready → lm.wf = true → li.wf = true → lo.wf = true →
    a < readCount s.cfg.cap.input li → k < 32 → s.FaultsAt (32 * (readCount s.cfg.cap.main lm + a) + k) →
    ∃ t wm ws w, exec (.unloads lm li lo) s = .next t ∧ wm.length = readCount s.cfg.cap.main lm ∧ ws.length = a ∧
      Answered s .main 0 wm ∧ Answered s .input wm.length ws ∧ RowAnswered s .input wm.length a w (k + 1) ∧
      Ran s t .protocolFault true
        (holdEvents ++ readOpEvents s.cfg .main lm wm ++ faultedReadEvents s.cfg .input ws w k) ∧
      Received s t .main wm ∧ Received s t .input ws ∧ RxSameAt s t .output ∧
      t.elapsed = s.elapsed ∧
      t.lines = { { s.lines with clksel := clkExt, crst := true }.atRest false with tm := true } ∧
      t.work.idc = s.work.idc ∧ MemSame s t ∧ (s.env.kind = .oracle → t.chip = s.chip) ∧
      (s.env.kind = .rtm → t.chip.selected = some ((s.cfg.rd.get .input).setWidth 8) ∧
        t.chip.treg.get .main = lastAddress wm.length (s.chip.treg.get .main) ∧
        t.chip.treg.get .input = payloadValue (BitVec.ofNat 16 a) 0 true false maskAll ∧
        t.chip.treg.get .output = s.chip.treg.get .output)

/-- 42_sessions.md R151, R153, 41_transactions.md R137: an `UNLOADS` whose `SVLD` is first false in cycle `k` of row `a`
of the output bank keeps the two other banks' results. -/
def Obligations.UnloadsFaultsInOutput : Prop :=
  ∀ (s : State) (lm li lo : Length) (a k : Nat), s.Ready → lm.wf = true → li.wf = true → lo.wf = true →
    a < readCount s.cfg.cap.output lo → k < 32 →
    s.FaultsAt (32 * (readCount s.cfg.cap.main lm + readCount s.cfg.cap.input li + a) + k) →
    ∃ t wm wi ws w, exec (.unloads lm li lo) s = .next t ∧ wm.length = readCount s.cfg.cap.main lm ∧
      wi.length = readCount s.cfg.cap.input li ∧ ws.length = a ∧ Answered s .main 0 wm ∧
      Answered s .input wm.length wi ∧ Answered s .output (wm.length + wi.length) ws ∧
      RowAnswered s .output (wm.length + wi.length) a w (k + 1) ∧
      Ran s t .protocolFault true (holdEvents ++ readOpEvents s.cfg .main lm wm ++ readOpEvents s.cfg .input li wi
        ++ faultedReadEvents s.cfg .output ws w k) ∧
      Received s t .main wm ∧ Received s t .input wi ∧ Received s t .output ws ∧
      t.elapsed = s.elapsed ∧
      t.lines = { { s.lines with clksel := clkExt, crst := true }.atRest false with tm := true } ∧
      t.work.idc = s.work.idc ∧ MemSame s t ∧ (s.env.kind = .oracle → t.chip = s.chip) ∧
      (s.env.kind = .rtm → t.chip.selected = some ((s.cfg.rd.get .output).setWidth 8) ∧
        t.chip.treg.get .main = lastAddress wm.length (s.chip.treg.get .main) ∧
        t.chip.treg.get .input = lastAddress wi.length (s.chip.treg.get .input) ∧
        t.chip.treg.get .output = payloadValue (BitVec.ofNat 16 a) 0 true false maskAll)

/-- 42_sessions.md R152, 60_exceptions.md R184: `RUN` whose poll `p` is the first to read `DONE` true. In the RTM the
chip is then what the run left (20_memory.md R66); how `CHIP_EXEC` and the queued effect say what that is, and that an
oracle's chip and the select register stay, is the model's choice (log 18). -/
def Obligations.RunCompletes : Prop :=
  ∀ (s : State) (timeout : BitVec 32) (p : Nat), s.Ready → 0 < p → p ≤ timeout.toNat →
    (∀ j, j < p - 1 → drawnBit s j = false) → drawnBit s (p - 1) = true →
    ∃ t, exec (.run timeout) s = .next t ∧
      Ran s t .ok s.status.fault ([.w .clksel clkInt, .w .crst false] ++ List.replicate (p - 1) (.r .done false)
        ++ [.r .done true]) ∧
      RxSame s t ∧ t.elapsed.toNat = p ∧ t.lines = { s.lines with clksel := clkInt, crst := false } ∧
      t.work = { s.work with cnt := BitVec.ofNat 32 p } ∧ (s.env.kind = .oracle → t.chip = s.chip) ∧
      (s.cfg.chipExec = .unchanged → MemSame s t) ∧
      (s.env.kind = .rtm → ∀ e rest, s.env.effects = e :: rest →
        (s.cfg.chipExec = .any → t.chip.mem = Memory.ofCells e.mem) ∧
        (∀ r, s.cfg.chipExec = .relation r →
          t.chip.mem = Memory.ofCells (Config.chipExecResult r s.chip.mem e.choice)) ∧
        t.chip.treg = e.treg ∧ t.chip.selected = e.selected ∧ t.chip.paySr = e.paySr ∧ t.chip.rdSr = e.rdSr ∧
        t.chip.selSr = s.chip.selSr ∧ t.chip.selPend = s.chip.selPend)

/-- 42_sessions.md R152, 60_exceptions.md R174: `RUN` that polls `DONE` false to the end of its budget. In the RTM the
chip is then what the run left, as after a run that completes (20_memory.md R66); how `CHIP_EXEC` and the queued effect
say what that is, and that an oracle's chip and the select register stay, is the model's choice (log 18). -/
def Obligations.RunTimesOut : Prop :=
  ∀ (s : State) (timeout : BitVec 32), s.Ready → (∀ j, j < timeout.toNat → drawnBit s j = false) →
    ∃ t, exec (.run timeout) s = .next t ∧
      Ran s t .timedOut s.status.fault
        ([.w .clksel clkInt, .w .crst false] ++ List.replicate timeout.toNat (.r .done false)) ∧
      RxSame s t ∧ t.elapsed = timeout ∧ t.lines = { s.lines with clksel := clkInt, crst := false } ∧
      t.work = { s.work with cnt := timeout } ∧ (s.env.kind = .oracle → t.chip = s.chip) ∧
      (s.cfg.chipExec = .unchanged → MemSame s t) ∧
      (s.env.kind = .rtm → ∀ e rest, s.env.effects = e :: rest →
        (s.cfg.chipExec = .any → t.chip.mem = Memory.ofCells e.mem) ∧
        (∀ r, s.cfg.chipExec = .relation r →
          t.chip.mem = Memory.ofCells (Config.chipExecResult r s.chip.mem e.choice)) ∧
        t.chip.treg = e.treg ∧ t.chip.selected = e.selected ∧ t.chip.paySr = e.paySr ∧ t.chip.rdSr = e.rdSr ∧
        t.chip.selSr = s.chip.selSr ∧ t.chip.selPend = s.chip.selPend)

/-- 20_memory.md R66, 92_eei_decisions.md D28: in the RTM every `RUN`, however it ends, leaves bank contents that
`CHIP_EXEC` allows after those it began with, and can leave any such contents, with any `treg`, `selected`, `pay_sr` and
`rd_sr`. That a queued effect makes the choice is the model's (log 18). -/
def Obligations.RunsLeaveWhatChipExecAllows : Prop :=
  (∀ (s t : State) (timeout : BitVec 32), s.Ready → s.env.kind = .rtm → exec (.run timeout) s = .next t →
    chipExecAllows s.cfg.chipExec s.chip.mem t.chip.mem) ∧
  ∀ (s : State) (timeout : BitVec 32) (m : Memory) (treg : PerBank (BitVec 54)) (selected : Option (BitVec 8))
    (paySr : BitVec 54) (rdSr : Word), s.Ready → s.env.kind = .rtm → m.wf = true →
    chipExecAllows s.cfg.chipExec s.chip.mem m →
    ∃ e t, exec (.run timeout) { s with env := { s.env with effects := [e] } } = .next t ∧
      (∀ b a, t.chip.mem.readRow b a = m.readRow b a) ∧ t.chip.treg = treg ∧ t.chip.selected = selected ∧
      t.chip.paySr = paySr ∧ t.chip.rdSr = rdSr

/-- 43_clockgen.md R160, R162, R163: `CKCFG`. Outside test mode the RTM's chip does not change (20_memory.md R60). -/
def Obligations.CkcfgRuns : Prop :=
  ∀ (s : State) (f : BitVec 4) (r : BitVec 3), s.Ready → freqLegal f = true → ringLegal r = true →
    ∃ t, exec (.ckcfg f r) s = .next t ∧
      Ran s t .ok s.status.fault ([.w .cgec true, .w .cgge false] ++ bitEvents
        (match s.cfg.ckcfgOrder with
          | .scanOrder => clkgenSeq f r
          | .tailFirst => (clkgenSeq f r).reverse)) ∧
      RxSame s t ∧ t.elapsed = s.elapsed ∧
      t.lines = { s.lines with
        cgec := true, cgge := false,
        sdo := match s.cfg.ckcfgOrder with
          | .scanOrder => decide (r = 1)
          | .tailFirst => decide (f = 14) } ∧
      t.work.dsr = s.work.dsr ∧ t.work.addrc = s.work.addrc ∧ t.work.idc = s.work.idc ∧ MemSame s t ∧
      t.chip.treg = s.chip.treg ∧ t.chip.selected = s.chip.selected ∧
      (s.env.kind = .oracle ∨ s.lines.tm = false → t.chip = s.chip)

/-! ### The frames of the wire layer, run alone (log 11) -/

/-- 30_encoding.md R82, 20_memory.md R63, R64: a `PAY.WRITE` frame with the full mask, into a selected write target,
writes its row. -/
def Obligations.PayWriteWritesItsRow : Prop :=
  ∀ (s : State) (b : Bank) (a : BitVec 16) (d : Word), s.OnTarget ((s.cfg.wr.get b).setWidth 8) →
    a.toNat < (s.cfg.cap.get b).toNat →
    ∃ t, exec (.payWrite a d 15) s = .next t ∧ Framed s t (payloadEvents s.cfg.loadTicks a d true true 15) ∧
      t.chip.mem.readRow b a = d ∧
      (∀ addr, addr < rowAddr b a ∨ rowAddr b a + 4 ≤ addr →
        t.chip.mem.readByte addr = s.chip.mem.readByte addr) ∧
      t.chip.treg.get b = payloadValue a d true true 15 ∧
      (∀ c, c ≠ b → t.chip.treg.get c = s.chip.treg.get c) ∧ t.chip.selected = s.chip.selected ∧
      t.lines = { s.lines with sdo := a.getLsbD 15 } ∧ t.work.dsr = s.work.dsr ∧
      t.work.addrc = s.work.addrc ∧ t.work.idc = s.work.idc

/-- 20_memory.md R63: a `PAY.WRITE` frame with any other mask leaves any value in its row (log 9), here the answer the
environment has queued where it has one, and changes no other row. -/
def Obligations.PayWritePartialMask : Prop :=
  ∀ (s : State) (b : Bank) (a : BitVec 16) (d : Word) (m : BitVec 4), m ≠ 15 →
    s.OnTarget ((s.cfg.wr.get b).setWidth 8) → a.toNat < (s.cfg.cap.get b).toNat →
    ∃ t, exec (.payWrite a d m) s = .next t ∧ Framed s t (payloadEvents s.cfg.loadTicks a d true true m) ∧
      (∀ w rest, s.env.words = w :: rest → t.chip.mem.readRow b a = w) ∧
      (∀ addr, addr < rowAddr b a ∨ rowAddr b a + 4 ≤ addr →
        t.chip.mem.readByte addr = s.chip.mem.readByte addr) ∧
      t.chip.treg.get b = payloadValue a d true true m ∧
      (∀ c, c ≠ b → t.chip.treg.get c = s.chip.treg.get c) ∧ t.chip.selected = s.chip.selected ∧
      t.lines = { s.lines with sdo := a.getLsbD 15 } ∧ t.work.dsr = s.work.dsr ∧
      t.work.addrc = s.work.addrc ∧ t.work.idc = s.work.idc

/-- 30_encoding.md R82, R96, 20_memory.md R63: `PAY.SETADDR`, `PAY.DISABLE` and the reserved kind, into a selected write
target, are captured and change no row. -/
def Obligations.OtherPayloadsChangeNoRow : Prop :=
  ∀ (s : State) (b : Bank) (e w : Bool) (a : BitVec 16) (d : Word) (m : BitVec 4), (e && w) = false →
    s.OnTarget ((s.cfg.wr.get b).setWidth 8) →
    ∃ t, exec (payloadInstr e w a d m) s = .next t ∧ Framed s t (payloadEvents s.cfg.loadTicks a d e w m) ∧
      MemSame s t ∧ t.chip.treg.get b = payloadValue a d e w m ∧
      (∀ c, c ≠ b → t.chip.treg.get c = s.chip.treg.get c) ∧ t.chip.selected = s.chip.selected ∧
      t.lines = { s.lines with sdo := a.getLsbD 15 } ∧ t.work.dsr = s.work.dsr ∧
      t.work.addrc = s.work.addrc ∧ t.work.idc = s.work.idc

/-- 20_memory.md R63, R55: no payload changes a row, a write-data register or the selection when the selected target is
no bank's write target (a read target, the clock generator, a reserved id or 9 to 255), and in an oracle none changes
the chip. (The RTM's shift registers and `SDO` do change, R64.) -/
def Obligations.PayloadsElsewhereChangeNoRow : Prop :=
  ∀ (s : State) (e w : Bool) (a : BitVec 16) (d : Word) (m : BitVec 4),
    (∃ id, s.OnTarget id ∧ ∀ b, id ≠ (s.cfg.wr.get b).setWidth 8) ∨ s.Ready ∧ s.env.kind = .oracle →
    ∃ t, exec (payloadInstr e w a d m) s = .next t ∧ Framed s t (payloadEvents s.cfg.loadTicks a d e w m) ∧
      MemSame s t ∧ t.chip.treg = s.chip.treg ∧ t.chip.selected = s.chip.selected ∧
      (s.env.kind = .oracle → t.chip = s.chip) ∧ t.lines = { s.lines with sdo := a.getLsbD 15 } ∧
      t.work.dsr = s.work.dsr ∧ t.work.addrc = s.work.addrc ∧ t.work.idc = s.work.idc

/-- 20_memory.md R60, R63, R69: where the RTM gives a frame run alone no meaning, the step is a named fault. -/
def Obligations.FramesWithoutMeaningFault : Prop :=
  ∀ (s : State) (e w : Bool) (a : BitVec 16) (d : Word) (m : BitVec 4), s.Ready → s.env.kind = .rtm →
    (s.lines.tm = false → exec (payloadInstr e w a d m) s = .fault .rtmOutsideTestMode ∧
      ∀ id, exec (.chainid8 id) s = .fault .rtmOutsideTestMode) ∧
    (s.lines.tm = true → s.chip.selected = none →
      exec (payloadInstr e w a d m) s = .fault .rtmCaptureUnselected) ∧
    ∀ b, s.lines.tm = true → s.chip.selected = some ((s.cfg.wr.get b).setWidth 8) →
      (s.cfg.cap.get b).toNat ≤ a.toNat → exec (.payWrite a d m) s = .fault .rtmWriteBeyondCapacity

/-- 40_primitives.md R116, 20_memory.md R61, R62: a `CHAINID8` frame selects its id, whatever the id, and on a read
target loads the row the write target's register names; in an oracle (20_memory.md R55) it makes the same events and
leaves the chip. -/
def Obligations.Chainid8Selects : Prop :=
  ∀ (s : State) (id : BitVec 8), s.Ready → (s.env.kind = .rtm → s.lines.tm = true) →
    ∃ t, exec (.chainid8 id) s = .next t ∧ Framed s t (selectEvents id) ∧ MemSame s t ∧
      t.chip.treg = s.chip.treg ∧ t.lines = { s.lines with sdo := id.getLsbD 7 } ∧ t.work.dsr = s.work.dsr ∧
      t.work.addrc = s.work.addrc ∧ t.work.idc = s.work.idc ∧ (s.env.kind = .oracle → t.chip = s.chip) ∧
      (s.env.kind = .rtm → t.chip.selected = some id ∧
        ∀ b, id = (s.cfg.rd.get b).setWidth 8 →
          ((s.chip.treg.get b).extractLsb' 38 16).toNat < (s.cfg.cap.get b).toNat →
          t.chip.rdSr = s.chip.mem.readRow b ((s.chip.treg.get b).extractLsb' 38 16))

/-- 40_primitives.md R112, 30_encoding.md R84: a `READ32` frame whose every sample of `SVLD` is true is taken into `DSR`,
its first bit bit 0: in the RTM with a read target selected in test mode, and in an oracle (20_memory.md R55), which draws
`SVLD` alone because the frame is what `SDI` answers (log 13). -/
def Obligations.Read32IsDeserialized : Prop :=
  ∀ (s : State) (w : Word), s.Ready →
    (∃ b, s.OnTarget ((s.cfg.rd.get b).setWidth 8)) ∧ s.Answers 32 ∨
      s.env.kind = .oracle ∧ (∀ j, j < 32 → drawnBit s j = true) →
    ∃ t, exec (.read32 w) s = .next t ∧ Framed s t (sampleEvents w 32) ∧ t.work.dsr = w ∧ t.lines = s.lines ∧
      t.work.addrc = s.work.addrc ∧ t.work.idc = s.work.idc ∧ t.work.shr = s.work.shr ∧ MemSame s t ∧
      t.chip.treg = s.chip.treg ∧ t.chip.selected = s.chip.selected ∧ (s.env.kind = .oracle → t.chip = s.chip)

/-- 40_primitives.md R112, 20_memory.md R65: a `READ32` frame whose `SVLD` is first false in cycle `k`, by an override in
the RTM, by the answer of an oracle (20_memory.md R55; log 13), or because no read target is selected in test mode, raises
`ProtocolFault` with `k` pulses made. -/
def Obligations.Read32Faults : Prop :=
  ∀ (s : State) (w : Word), s.Ready →
    (∀ k, k < 32 → (∃ b, s.OnTarget ((s.cfg.rd.get b).setWidth 8)) ∧ s.FaultsAt k ∨
        s.env.kind = .oracle ∧ (∀ j, j < k → drawnBit s j = true) ∧ drawnBit s k = false →
      ∃ t, exec (.read32 w) s = .next t ∧
        Ran s t .protocolFault true (sampleEvents w k ++ [.r .sdi (w.getLsbD k), .r .svld false]) ∧
        RxSame s t ∧ t.elapsed = s.elapsed ∧ t.lines = s.lines ∧ MemSame s t ∧ t.chip.treg = s.chip.treg ∧
        t.chip.selected = s.chip.selected ∧ (s.env.kind = .oracle → t.chip = s.chip) ∧ t.work.shr = s.work.shr ∧
        t.work.addrc = s.work.addrc ∧ t.work.idc = s.work.idc) ∧
    (s.env.kind = .rtm →
      s.lines.tm = false ∨ (∀ b, s.chip.selected ≠ some ((s.cfg.rd.get b).setWidth 8)) →
      ∃ t, exec (.read32 w) s = .next t ∧
        Ran s t .protocolFault true [.r .sdi (w.getLsbD 0), .r .svld false] ∧
        RxSame s t ∧ t.elapsed = s.elapsed ∧ t.lines = s.lines ∧ t.chip = s.chip ∧ t.work.shr = s.work.shr ∧
        t.work.addrc = s.work.addrc ∧ t.work.idc = s.work.idc)

/-- 30_encoding.md R85, 43_clockgen.md R162: a `CLKGEN18` frame of any pattern drives its 18 positions. -/
def Obligations.Clkgen18Drives : Prop :=
  ∀ (s : State) (f : BitVec 14) (r : BitVec 4), s.Ready →
    ∃ t, exec (.clkgen18 f r) s = .next t ∧
      Framed s t ([.w .cgec true, .w .cgge false] ++ bitEvents
        (match s.cfg.ckcfgOrder with
          | .scanOrder => bin f ++ bin r
          | .tailFirst => (bin f ++ bin r).reverse)) ∧
      t.lines = { s.lines with
        cgec := true, cgge := false,
        sdo := match s.cfg.ckcfgOrder with
          | .scanOrder => r.getLsbD 0
          | .tailFirst => f.getLsbD 13 } ∧
      t.work.dsr = s.work.dsr ∧ t.work.addrc = s.work.addrc ∧ t.work.idc = s.work.idc ∧ MemSame s t ∧
      t.chip.treg = s.chip.treg ∧ t.chip.selected = s.chip.selected ∧
      (s.env.kind = .oracle ∨ s.lines.tm = false → t.chip = s.chip)

/-! ### The whole machine -/

/-- 20_memory.md R68, R69: no command of a valid configuration is ever stuck, whatever the environment answers. -/
def Obligations.NoCommandIsStuck : Prop :=
  ∀ (i : Instr) (s : State), i.isCommand = true → i.wf = true → s.Ready → ∃ t, exec i s = .next t

/-- 70_reset_and_hazards.md R214: pulse and event counts, exact. -/
def Obligations.PulseAndEventCounts : Prop :=
  ∀ s t : State, s.Ready → s.cfg.loadTicks = ⟨0, 1, 1⟩ →
    (∀ c, runActs (pulse c) s = .go t → Added s t c (2 * c)) ∧
    (∀ q : BitSeq, runActs (shiftOut q) s = .go t → Added s t q.length (3 * q.length)) ∧
    (runActs (shiftIn 32) s = .go t → Added s t 32 128) ∧
    (∀ id, runActs (select id) s = .go t → Added s t 9 28) ∧
    (∀ a d e w m, runActs (writePayload s.cfg.loadTicks a d e w m) s = .go t → Added s t 56 168) ∧
    (runActs tmEnter s = .go t ∨ runActs tmExit s = .go t → Added s t 0 1) ∧
    (runActs (busReset s.cfg) s = .go t ∨ exec .brst s = .next t →
      Added s t (s.cfg.resetPulses.toNat + 1) (2 * s.cfg.resetPulses.toNat + 4)) ∧
    (exec .clear s = .next t →
      Added s t (s.cfg.resetPulses.toNat + 586) (2 * s.cfg.resetPulses.toNat + 1770)) ∧
    (∀ b, exec (.wrbank b) s = .next t → t.result = .ok →
      Added s t (s.cfg.resetPulses.toNat + 10 + 56 * (s.txlen.get b).toNat)
        (2 * s.cfg.resetPulses.toNat + 34 + 168 * (s.txlen.get b).toNat)) ∧
    (∀ b, exec (.rdbank b .none) s = .next t → Added s t 0 0) ∧
    (∀ b len, len.wf = true → len ≠ .none → exec (.rdbank b len) s = .next t → t.result = .ok →
      Added s t (s.cfg.resetPulses.toNat + 10 + 106 * readCount (s.cfg.cap.get b) len)
        (2 * s.cfg.resetPulses.toNat + 34 + 352 * readCount (s.cfg.cap.get b) len)) ∧
    (∀ b len a k, len.wf = true → a < readCount (s.cfg.cap.get b) len → k < 32 → s.FaultsAt (32 * a + k) →
      exec (.rdbank b len) s = .next t →
      Added s t (s.cfg.resetPulses.toNat + 1 + 106 * a + 74 + k)
        (2 * s.cfg.resetPulses.toNat + 5 + 352 * a + 224 + 4 * k + 2)) ∧
    (∀ h, exec (.loads h) s = .next t → t.result = .ok →
      Added s t
        (s.cfg.resetPulses.toNat + 586 + (s.cfg.resetPulses.toNat + 10 + 56 * (s.txlen.get .main).toNat) +
          if h = true then s.cfg.resetPulses.toNat + 10 + 56 * (s.txlen.get .input).toNat else 0)
        (2 + (2 * s.cfg.resetPulses.toNat + 1770) +
          (2 * s.cfg.resetPulses.toNat + 34 + 168 * (s.txlen.get .main).toNat) +
          if h = true then 2 * s.cfg.resetPulses.toNat + 34 + 168 * (s.txlen.get .input).toNat else 0)) ∧
    (∀ lm li lo, lm.wf = true → li.wf = true → lo.wf = true → exec (.unloads lm li lo) s = .next t →
      t.result = .ok →
      let pulses (b : Bank) (len : Length) : Nat :=
        if len = .none then 0 else s.cfg.resetPulses.toNat + 10 + 106 * readCount (s.cfg.cap.get b) len
      let events (b : Bank) (len : Length) : Nat :=
        if len = .none then 0 else 2 * s.cfg.resetPulses.toNat + 34 + 352 * readCount (s.cfg.cap.get b) len
      Added s t (pulses .main lm + pulses .input li + pulses .output lo)
        (2 + events .main lm + events .input li + events .output lo)) ∧
    (∀ n, exec (.run n) s = .next t → Added s t 0 (2 + t.elapsed.toNat)) ∧
    (∀ f r, freqLegal f = true → ringLegal r = true → exec (.ckcfg f r) s = .next t → Added s t 18 56)

/-- 20_memory.md R56 (a), R68: in the RTM, what `WRBANK` wrote, `RDBANK` of that many words returns. -/
def Obligations.WriteThenReadReturnsTheWords : Prop :=
  ∀ (s : State) (b : Bank), s.Ready → s.env.kind = .rtm → 1 ≤ (s.txlen.get b).toNat →
    (s.txlen.get b).toNat < (s.cfg.cap.get b).toNat → s.Answers (32 * (s.txlen.get b).toNat) →
    ∃ t u, exec (.wrbank b) s = .next t ∧ exec (.rdbank b (.exactly (s.txlen.get b))) t = .next u ∧
      u.result = .ok ∧ u.rxWords b = s.txWords b

/-- 20_memory.md R49, R56 (b), R68: in the RTM, two reads of a whole bank both end `Ok` with the same words. -/
def Obligations.RepeatedReadsAgree : Prop :=
  ∀ (s : State) (b : Bank), s.Ready → s.env.kind = .rtm → s.Answers (64 * (s.cfg.cap.get b).toNat) →
    ∃ t u, exec (.rdbank b .all) s = .next t ∧ exec (.rdbank b .all) t = .next u ∧ t.result = .ok ∧
      u.result = .ok ∧ u.rxWords b = t.rxWords b

/-- 20_memory.md R49, R66: outside `RUN` only `WRBANK` and `LOADS` change a bank, however the command ends. -/
def Obligations.OnlyWritesAndRunsChangeBanks : Prop :=
  ∀ (i : Instr) (s t : State), i.isCommand = true → i.wf = true → s.Ready → exec i s = .next t →
    (∀ b, i ≠ .wrbank b) → (∀ h, i ≠ .loads h) → (∀ n, i ≠ .run n) → MemSame s t

/-- 70_reset_and_hazards.md R211, 20_memory.md R42: a `WRBANK` accepts at most `CAP - 1` words, no command but a `RUN`
changes a bank's last row, and `RDBANK all` reads it. -/
def Obligations.TheLastRowIsNeverWritten : Prop :=
  (∀ (s t : State) (b : Bank), s.Ready → exec (.wrbank b) s = .next t →
    (t.result = .ok ↔ (s.txlen.get b).toNat + 1 ≤ (s.cfg.cap.get b).toNat)) ∧
  (∀ (i : Instr) (s t : State) (b : Bank), i.isCommand = true → i.wf = true → (∀ n, i ≠ .run n) → s.Ready →
    exec i s = .next t → 0 < (s.cfg.cap.get b).toNat →
      t.row b ((s.cfg.cap.get b).toNat - 1) = s.row b ((s.cfg.cap.get b).toNat - 1)) ∧
  ∀ (s : State) (b : Bank), s.Ready → s.env.kind = .rtm → 0 < (s.cfg.cap.get b).toNat →
    s.Answers (32 * (s.cfg.cap.get b).toNat) →
    ∃ t, exec (.rdbank b .all) s = .next t ∧
      (t.rxWords b)[(s.cfg.cap.get b).toNat - 1]? = some (s.row b ((s.cfg.cap.get b).toNat - 1))
end

