-- ==== Sys2Proof/Laws/Codec.lean ====
section
/-!
SUPPORT. Bit sequences and the payload codec: lengths, elements, the number a sequence spells, and a shift register
filled from the top (00_scope.md R8; 30_encoding.md R81; 40_primitives.md R113 to R115).
-/

namespace Sys2Proof.Machine

open Sys2Proof

/-! ### `bin` and `ubig` -/

@[simp] theorem length_bin {W : Nat} (v : BitVec W) : (bin v).length = W := by simp [bin]

theorem getElem_bin {W : Nat} (v : BitVec W) (i : Nat) (h : i < (bin v).length) :
    (bin v)[i] = v.getLsbD (W - 1 - i) := by simp [bin]

/-- The head of `bin_W(v)` is the most significant bit. -/
theorem head?_bin {W : Nat} (v : BitVec W) (h : 0 < W) : (bin v).head? = some (v.getLsbD (W - 1)) := by
  rw [List.head?_eq_getElem?, List.getElem?_eq_getElem (by simpa using h), getElem_bin]
  simp

/-- Sent tail first, a sequence ends with its head. -/
theorem getLastD_reverse_of_head? {l : BitSeq} {b x : Bool} (h : l.head? = some b) : l.reverse.getLastD x = b := by
  cases l with
  | nil => simp at h
  | cons c l =>
    simp only [List.head?_cons, Option.some.injEq] at h
    simp [h]

@[simp] theorem ubig_nil : ubig [] = 0 := rfl

theorem ubig_concat (l : BitSeq) (b : Bool) : ubig (l ++ [b]) = 2 * ubig l + b.toNat := by
  simp [ubig, List.foldl_append]

/-- Bit `j` of the number a sequence spells is the sequence's bit `j` from the tail. -/
theorem testBit_ubig (l : BitSeq) (j : Nat) : (ubig l).testBit j = l.reverse.getD j false := by
  induction l using List.reverseRecOn generalizing j with
  | nil => simp
  | append_singleton l b ih =>
    rw [ubig_concat]
    cases j with
    | zero => cases b <;> simp [Nat.testBit_zero]
    | succ j =>
      have : (2 * ubig l + b.toNat) / 2 = ubig l := by cases b <;> (simp; try omega)
      rw [Nat.testBit_succ, this, ih]
      simp

theorem ubig_lt (l : BitSeq) : ubig l < 2 ^ l.length := by
  induction l using List.reverseRecOn with
  | nil => simp
  | append_singleton l b ih =>
    rw [ubig_concat, List.length_append, List.length_singleton, pow_succ]
    cases b <;> simp <;> omega

/-- A sequence of length `W` is `bin_W` of the number it spells. -/
theorem bin_ubig {W : Nat} (l : BitSeq) (h : l.length = W) : bin (BitVec.ofNat W (ubig l)) = l := by
  subst h
  apply List.ext_getElem (by simp)
  intro i h1 h2
  rw [getElem_bin]
  simp only [length_bin] at h1
  have h3 : l.length - 1 - i < l.length := by omega
  have h4 : l.length - 1 - (l.length - 1 - i) = i := by omega
  rw [BitVec.getLsbD_ofNat, testBit_ubig, List.getD_eq_getElem?_getD, List.getElem?_reverse h3]
  simp [h3, h4, h2]

/-- `ubig(bin_W(v)) = v` (00_scope.md R8). -/
theorem ubig_bin {W : Nat} (v : BitVec W) : ubig (bin v) = v.toNat := by
  apply Nat.eq_of_testBit_eq
  intro j
  rw [testBit_ubig, List.getD_eq_getElem?_getD]
  by_cases h : j < W
  · rw [List.getElem?_reverse (by simpa using h)]
    have h2 : W - 1 - j < W := by omega
    have h4 : W - 1 - (W - 1 - j) = j := by omega
    simp [getElem_bin, h2, h4, BitVec.getLsbD]
  · rw [List.getElem?_eq_none (by simpa using h)]
    simp only [Option.getD_none]
    have : v.toNat < 2 ^ j := lt_of_lt_of_le v.isLt (Nat.pow_le_pow_right (by omega) (by omega))
    exact (Nat.testBit_lt_two_pow this).symm

@[simp] theorem ofNat_ubig_bin {W : Nat} (v : BitVec W) : BitVec.ofNat W (ubig (bin v)) = v := by
  simp [ubig_bin]

/-! ### The payload codec -/

@[simp] theorem length_encodePayload (a : BitVec 16) (d : Word) (e w : Bool) (m : BitVec 4) :
    (encodePayload a d e w m).length = 54 := by simp [encodePayload]

theorem head?_encodePayload (a : BitVec 16) (d : Word) (e w : Bool) (m : BitVec 4) :
    (encodePayload a d e w m).head? = some (a.getLsbD 15) := by
  simp [encodePayload, List.head?_append, head?_bin]

/-- The unpacker reads back every field at its offset. -/
theorem decodePayload_append (s1 s2 s3 : BitSeq) (e w : Bool) (h1 : s1.length = 16) (h2 : s2.length = 32) :
    decodePayload (s1 ++ s2 ++ [e] ++ [w] ++ s3) =
      ⟨BitVec.ofNat 16 (ubig s1), BitVec.ofNat 32 (ubig s2), e, w, BitVec.ofNat 4 (ubig (s3.take 4))⟩ := by
  have e48 : (s1 ++ s2 ++ [e] ++ [w] ++ s3)[48]? = some e := by
    rw [List.append_assoc, List.append_assoc, List.getElem?_append_right (by simp [h1, h2])]
    simp [h1, h2]
  have e49 : (s1 ++ s2 ++ [e] ++ [w] ++ s3)[49]? = some w := by
    rw [List.append_assoc, List.getElem?_append_right (by simp [h1, h2])]
    simp [h1, h2]
  have t1 : (s1 ++ s2 ++ [e] ++ [w] ++ s3).take 16 = s1 := by
    simp [h1]
  have t2 : ((s1 ++ s2 ++ [e] ++ [w] ++ s3).drop 16).take 32 = s2 := by
    simp [h1, h2]
  have t3 : (s1 ++ s2 ++ [e] ++ [w] ++ s3).drop 50 = s3 := by
    have d1 : List.drop 50 s1 = [] := List.drop_eq_nil_of_le (by omega)
    have d2 : List.drop 34 s2 = [] := List.drop_eq_nil_of_le (by omega)
    simp [List.drop_append, h1, h2, d1, d2]
  unfold decodePayload
  rw [t1, t2, t3, List.getD_eq_getElem?_getD, List.getD_eq_getElem?_getD, e48, e49]
  rfl

/-- The number a payload spells (30_encoding.md R81). -/
theorem payloadValue_toNat (a : BitVec 16) (d : Word) (e w : Bool) (m : BitVec 4) :
    (payloadValue a d e w m).toNat =
      a.toNat * 2 ^ 38 + d.toNat * 2 ^ 6 + e.toNat * 2 ^ 5 + w.toNat * 2 ^ 4 + m.toNat := by
  have h1 := a.isLt
  have h2 := d.isLt
  have h3 := m.isLt
  have h4 : e.toNat ≤ 1 := Bool.toNat_le e
  have h5 : w.toNat ≤ 1 := Bool.toNat_le w
  have h6 : (BitVec.ofBool e).toNat = e.toNat := by cases e <;> rfl
  have h7 : (BitVec.ofBool w).toNat = w.toNat := by cases w <;> rfl
  have side : ∀ (x y k : Nat), y < 2 ^ k → x <<< k ||| y = x * 2 ^ k + y := by
    intro x y k h
    rw [← Nat.shiftLeft_add_eq_or_of_lt h, Nat.shiftLeft_eq]
  rw [payloadValue, BitVec.toNat_append, BitVec.toNat_append, BitVec.toNat_append, BitVec.toNat_append, h6, h7,
    side _ _ 4 h3, side _ _ 1 (by omega), side _ _ 1 (by omega), side _ _ 32 h2]
  omega

theorem ubig_append (l r : BitSeq) : ubig (l ++ r) = ubig l * 2 ^ r.length + ubig r := by
  induction r using List.reverseRecOn with
  | nil => simp
  | append_singleton r b ih =>
    rw [← List.append_assoc, ubig_concat, ih, ubig_concat, List.length_append, List.length_singleton, pow_succ]
    ring

/-! ### A shift register filled from the top -/

theorem getLsbD_pushTop {W : Nat} (p : BitVec W) (b : Bool) (j : Nat) (h : j < W) :
    (pushTop p b).getLsbD j = if j = W - 1 then b else p.getLsbD (j + 1) := by
  unfold pushTop
  rw [BitVec.getLsbD_or, BitVec.getLsbD_shiftLeft, BitVec.getLsbD_ushiftRight]
  by_cases h2 : j = W - 1
  · subst h2
    have h5 : ¬ (1 + (W - 1) < W) := by omega
    have : p.getLsbD (1 + (W - 1)) = false := BitVec.getLsbD_of_ge _ _ (by omega)
    have hW : 0 < W := by omega
    cases b <;> simp [h, this, hW]
  · have h3 : j < W - 1 := by omega
    simp [h, h3, h2, Nat.add_comm]

/-- A register of width `W` after `W` bits holds them, first bit lowest, whatever it held (20_memory.md R64). -/
theorem foldl_pushTop_getLsbD {W : Nat} (l : BitSeq) (p : BitVec W) (hl : l.length ≤ W) (j : Nat) (hj : j < W) :
    (l.foldl pushTop p).getLsbD j =
      if j < W - l.length then p.getLsbD (j + l.length) else l.getD (j - (W - l.length)) false := by
  induction l using List.reverseRecOn generalizing j with
  | nil => simp [hj]
  | append_singleton l b ih =>
    simp only [List.length_append, List.length_singleton] at hl
    rw [List.foldl_append, List.foldl_cons, List.foldl_nil, getLsbD_pushTop _ _ _ hj]
    simp only [List.length_append, List.length_singleton]
    by_cases h1 : j = W - 1
    · subst h1
      have h2 : ¬ (W - 1 < W - (l.length + 1)) := by omega
      have h3 : W - 1 - (W - (l.length + 1)) = l.length := by omega
      simp [h2, h3]
    · rw [if_neg h1, ih (by omega) (j + 1) (by omega)]
      by_cases h2 : j + 1 < W - l.length
      · rw [if_pos h2, if_pos (by omega)]
        congr 1
        omega
      · rw [if_neg h2, if_neg (by omega)]
        have h3 : j + 1 - (W - l.length) = j - (W - (l.length + 1)) := by omega
        rw [h3, List.getD_eq_getElem?_getD, List.getD_eq_getElem?_getD, List.getElem?_append_left (by omega)]

/-- Sent tail first, a sequence as long as the register ends as the number it spells (20_memory.md R45, R64). -/
theorem foldl_pushTop_reverse {W : Nat} (s : BitSeq) (p : BitVec W) (h : s.length = W) :
    s.reverse.foldl pushTop p = BitVec.ofNat W (ubig s) := by
  subst h
  apply BitVec.eq_of_getLsbD_eq
  intro j hj
  rw [foldl_pushTop_getLsbD _ _ (by simp) _ hj, BitVec.getLsbD_ofNat, testBit_ubig]
  simp [hj]

end Sys2Proof.Machine
end

