-- ==== Sys2Proof/Laws/State.lean ====
section
/-!
SUPPORT. One lemma per field per named update, true by rfl and simp, so that no later proof unfolds a record update;
and the same for the values kept per bank and for the lines.
-/

namespace Sys2Proof.Machine

open Sys2Proof

/-! ### Values kept per bank -/

@[simp] theorem PerBank_get_set_same {α : Type} (p : PerBank α) (b : Bank) (v : α) : (p.set b v).get b = v := by
  cases b <;> rfl

theorem PerBank_get_set_other {α : Type} (p : PerBank α) {b c : Bank} (v : α) (h : c ≠ b) :
    (p.set b v).get c = p.get c := by
  cases b <;> cases c <;> first | rfl | exact absurd rfl h

@[simp] theorem PerBank_set_set {α : Type} (p : PerBank α) (b : Bank) (v w : α) : (p.set b v).set b w = p.set b w := by
  cases b <;> rfl

/-! ### The lines -/

@[simp] theorem Lines_get_set_same (x : OutLine) (v : Bool) (l : Lines) : (l.set x v).get x = v := by
  cases x <;> rfl

theorem Lines_get_set_other {x y : OutLine} (v : Bool) (l : Lines) (h : y ≠ x) : (l.set x v).get y = l.get y := by
  cases x <;> cases y <;> first | rfl | exact absurd rfl h

/-! ### `recordWrite` -/

@[simp] theorem recordWrite_cfg (x : OutLine) (v : Bool) (s : State) : (recordWrite x v s).cfg = s.cfg := rfl

@[simp] theorem recordWrite_lines (x : OutLine) (v : Bool) (s : State) : (recordWrite x v s).lines = s.lines.set x v := rfl

@[simp] theorem recordWrite_phase (x : OutLine) (v : Bool) (s : State) : (recordWrite x v s).phase = s.phase := rfl

@[simp] theorem recordWrite_status (x : OutLine) (v : Bool) (s : State) : (recordWrite x v s).status = s.status := rfl

@[simp] theorem recordWrite_result (x : OutLine) (v : Bool) (s : State) : (recordWrite x v s).result = s.result := rfl

@[simp] theorem recordWrite_elapsed (x : OutLine) (v : Bool) (s : State) : (recordWrite x v s).elapsed = s.elapsed := rfl

@[simp] theorem recordWrite_cmd (x : OutLine) (v : Bool) (s : State) : (recordWrite x v s).cmd = s.cmd := rfl

@[simp] theorem recordWrite_txlen (x : OutLine) (v : Bool) (s : State) : (recordWrite x v s).txlen = s.txlen := rfl

@[simp] theorem recordWrite_txbuf (x : OutLine) (v : Bool) (s : State) : (recordWrite x v s).txbuf = s.txbuf := rfl

@[simp] theorem recordWrite_rxlen (x : OutLine) (v : Bool) (s : State) : (recordWrite x v s).rxlen = s.rxlen := rfl

@[simp] theorem recordWrite_rxbuf (x : OutLine) (v : Bool) (s : State) : (recordWrite x v s).rxbuf = s.rxbuf := rfl

@[simp] theorem recordWrite_work (x : OutLine) (v : Bool) (s : State) : (recordWrite x v s).work = s.work := rfl

@[simp] theorem recordWrite_log (x : OutLine) (v : Bool) (s : State) : (recordWrite x v s).log = .w x v :: s.log := rfl

@[simp] theorem recordWrite_chip (x : OutLine) (v : Bool) (s : State) : (recordWrite x v s).chip = s.chip := rfl

@[simp] theorem recordWrite_env (x : OutLine) (v : Bool) (s : State) : (recordWrite x v s).env = s.env := rfl

@[simp] theorem recordWrite_host (x : OutLine) (v : Bool) (s : State) : (recordWrite x v s).host = s.host := rfl

@[simp] theorem recordWrite_hostData (x : OutLine) (v : Bool) (s : State) : (recordWrite x v s).hostData = s.hostData := rfl

@[simp] theorem recordWrite_freeCount (x : OutLine) (v : Bool) (s : State) : (recordWrite x v s).freeCount = s.freeCount := rfl

/-! ### `endCommand` -/

@[simp] theorem endCommand_cfg (r : Result) (s : State) : (endCommand r s).cfg = s.cfg := rfl

@[simp] theorem endCommand_lines (r : Result) (s : State) : (endCommand r s).lines = s.lines := rfl

@[simp] theorem endCommand_phase (r : Result) (s : State) : (endCommand r s).phase = .idle := rfl

@[simp] theorem endCommand_status (r : Result) (s : State) : (endCommand r s).status = s.status.endBusy := rfl

@[simp] theorem endCommand_result (r : Result) (s : State) : (endCommand r s).result = r := rfl

@[simp] theorem endCommand_elapsed (r : Result) (s : State) : (endCommand r s).elapsed = s.elapsed := rfl

@[simp] theorem endCommand_cmd (r : Result) (s : State) : (endCommand r s).cmd = s.cmd := rfl

@[simp] theorem endCommand_txlen (r : Result) (s : State) : (endCommand r s).txlen = s.txlen := rfl

@[simp] theorem endCommand_txbuf (r : Result) (s : State) : (endCommand r s).txbuf = s.txbuf := rfl

@[simp] theorem endCommand_rxlen (r : Result) (s : State) : (endCommand r s).rxlen = s.rxlen := rfl

@[simp] theorem endCommand_rxbuf (r : Result) (s : State) : (endCommand r s).rxbuf = s.rxbuf := rfl

@[simp] theorem endCommand_work (r : Result) (s : State) : (endCommand r s).work = s.work := rfl

@[simp] theorem endCommand_log (r : Result) (s : State) : (endCommand r s).log = s.log := rfl

@[simp] theorem endCommand_chip (r : Result) (s : State) : (endCommand r s).chip = s.chip := rfl

@[simp] theorem endCommand_env (r : Result) (s : State) : (endCommand r s).env = s.env := rfl

@[simp] theorem endCommand_host (r : Result) (s : State) : (endCommand r s).host = s.host := rfl

@[simp] theorem endCommand_hostData (r : Result) (s : State) : (endCommand r s).hostData = s.hostData := rfl

@[simp] theorem endCommand_freeCount (r : Result) (s : State) : (endCommand r s).freeCount = s.freeCount := rfl

/-! ### `recoverFault` -/

@[simp] theorem recoverFault_cfg (s : State) : (recoverFault s).cfg = s.cfg := rfl

@[simp] theorem recoverFault_lines (s : State) : (recoverFault s).lines = s.lines := rfl

@[simp] theorem recoverFault_phase (s : State) : (recoverFault s).phase = s.phase := rfl

@[simp] theorem recoverFault_status (s : State) : (recoverFault s).status = s.status.clearFault := rfl

@[simp] theorem recoverFault_result (s : State) : (recoverFault s).result = s.result := rfl

@[simp] theorem recoverFault_elapsed (s : State) : (recoverFault s).elapsed = s.elapsed := rfl

@[simp] theorem recoverFault_cmd (s : State) : (recoverFault s).cmd = s.cmd := rfl

@[simp] theorem recoverFault_txlen (s : State) : (recoverFault s).txlen = s.txlen := rfl

@[simp] theorem recoverFault_txbuf (s : State) : (recoverFault s).txbuf = s.txbuf := rfl

@[simp] theorem recoverFault_rxlen (s : State) : (recoverFault s).rxlen = s.rxlen := rfl

@[simp] theorem recoverFault_rxbuf (s : State) : (recoverFault s).rxbuf = s.rxbuf := rfl

@[simp] theorem recoverFault_work (s : State) : (recoverFault s).work = s.work := rfl

@[simp] theorem recoverFault_log (s : State) : (recoverFault s).log = s.log := rfl

@[simp] theorem recoverFault_chip (s : State) : (recoverFault s).chip = s.chip := rfl

@[simp] theorem recoverFault_env (s : State) : (recoverFault s).env = s.env := rfl

@[simp] theorem recoverFault_host (s : State) : (recoverFault s).host = s.host := rfl

@[simp] theorem recoverFault_hostData (s : State) : (recoverFault s).hostData = s.hostData := rfl

@[simp] theorem recoverFault_freeCount (s : State) : (recoverFault s).freeCount = s.freeCount := rfl

/-! ### `presentFrame` -/

@[simp] theorem presentFrame_cfg (w : Word) (s : State) : (presentFrame w s).cfg = s.cfg := rfl

@[simp] theorem presentFrame_lines (w : Word) (s : State) : (presentFrame w s).lines = s.lines := rfl

@[simp] theorem presentFrame_phase (w : Word) (s : State) : (presentFrame w s).phase = s.phase := rfl

@[simp] theorem presentFrame_status (w : Word) (s : State) : (presentFrame w s).status = s.status := rfl

@[simp] theorem presentFrame_result (w : Word) (s : State) : (presentFrame w s).result = s.result := rfl

@[simp] theorem presentFrame_elapsed (w : Word) (s : State) : (presentFrame w s).elapsed = s.elapsed := rfl

@[simp] theorem presentFrame_cmd (w : Word) (s : State) : (presentFrame w s).cmd = s.cmd := rfl

@[simp] theorem presentFrame_txlen (w : Word) (s : State) : (presentFrame w s).txlen = s.txlen := rfl

@[simp] theorem presentFrame_txbuf (w : Word) (s : State) : (presentFrame w s).txbuf = s.txbuf := rfl

@[simp] theorem presentFrame_rxlen (w : Word) (s : State) : (presentFrame w s).rxlen = s.rxlen := rfl

@[simp] theorem presentFrame_rxbuf (w : Word) (s : State) : (presentFrame w s).rxbuf = s.rxbuf := rfl

@[simp] theorem presentFrame_work (w : Word) (s : State) : (presentFrame w s).work = s.work := rfl

@[simp] theorem presentFrame_log (w : Word) (s : State) : (presentFrame w s).log = s.log := rfl

@[simp] theorem presentFrame_chip (w : Word) (s : State) : (presentFrame w s).chip = s.chip := rfl

@[simp] theorem presentFrame_host (w : Word) (s : State) : (presentFrame w s).host = s.host := rfl

@[simp] theorem presentFrame_hostData (w : Word) (s : State) : (presentFrame w s).hostData = s.hostData := rfl

@[simp] theorem presentFrame_freeCount (w : Word) (s : State) : (presentFrame w s).freeCount = s.freeCount := rfl

/-! ### `endFrame` -/

@[simp] theorem endFrame_cfg (s : State) : (endFrame s).cfg = s.cfg := rfl

@[simp] theorem endFrame_lines (s : State) : (endFrame s).lines = s.lines := rfl

@[simp] theorem endFrame_phase (s : State) : (endFrame s).phase = s.phase := rfl

@[simp] theorem endFrame_status (s : State) : (endFrame s).status = s.status := rfl

@[simp] theorem endFrame_result (s : State) : (endFrame s).result = s.result := rfl

@[simp] theorem endFrame_elapsed (s : State) : (endFrame s).elapsed = s.elapsed := rfl

@[simp] theorem endFrame_cmd (s : State) : (endFrame s).cmd = s.cmd := rfl

@[simp] theorem endFrame_txlen (s : State) : (endFrame s).txlen = s.txlen := rfl

@[simp] theorem endFrame_txbuf (s : State) : (endFrame s).txbuf = s.txbuf := rfl

@[simp] theorem endFrame_rxlen (s : State) : (endFrame s).rxlen = s.rxlen := rfl

@[simp] theorem endFrame_rxbuf (s : State) : (endFrame s).rxbuf = s.rxbuf := rfl

@[simp] theorem endFrame_work (s : State) : (endFrame s).work = s.work := rfl

@[simp] theorem endFrame_log (s : State) : (endFrame s).log = s.log := rfl

@[simp] theorem endFrame_chip (s : State) : (endFrame s).chip = s.chip := rfl

@[simp] theorem endFrame_host (s : State) : (endFrame s).host = s.host := rfl

@[simp] theorem endFrame_hostData (s : State) : (endFrame s).hostData = s.hostData := rfl

@[simp] theorem endFrame_freeCount (s : State) : (endFrame s).freeCount = s.freeCount := rfl

/-! ### The end of a command -/

/-- `raise` ends the command as any end does, and a `ProtocolFault` also sets `FAULT` (60_exceptions.md R176). -/
theorem raiseError_eq (e : Result) (s : State) :
    raiseError e s = endCommand e (if e = .protocolFault then { s with status := s.status.setFault } else s) := by
  cases e <;> rfl

theorem finish_eq (e : Result) (s : State) :
    finish e s = endCommand e (if e = .protocolFault then { s with status := s.status.setFault } else s) := by
  cases e <;> rfl

@[simp] theorem finish_cfg (e : Result) (s : State) : (finish e s).cfg = s.cfg := by cases e <;> rfl

@[simp] theorem raiseError_cfg (e : Result) (s : State) : (raiseError e s).cfg = s.cfg := by cases e <;> rfl

@[simp] theorem finish_lines (e : Result) (s : State) : (finish e s).lines = s.lines := by cases e <;> rfl

@[simp] theorem raiseError_lines (e : Result) (s : State) : (raiseError e s).lines = s.lines := by cases e <;> rfl

@[simp] theorem finish_phase (e : Result) (s : State) : (finish e s).phase = .idle := by cases e <;> rfl

@[simp] theorem raiseError_phase (e : Result) (s : State) : (raiseError e s).phase = .idle := by cases e <;> rfl

@[simp] theorem finish_result (e : Result) (s : State) : (finish e s).result = e := by cases e <;> rfl

@[simp] theorem raiseError_result (e : Result) (s : State) : (raiseError e s).result = e := by cases e <;> rfl

@[simp] theorem finish_elapsed (e : Result) (s : State) : (finish e s).elapsed = s.elapsed := by cases e <;> rfl

@[simp] theorem raiseError_elapsed (e : Result) (s : State) : (raiseError e s).elapsed = s.elapsed := by cases e <;> rfl

@[simp] theorem finish_cmd (e : Result) (s : State) : (finish e s).cmd = s.cmd := by cases e <;> rfl

@[simp] theorem raiseError_cmd (e : Result) (s : State) : (raiseError e s).cmd = s.cmd := by cases e <;> rfl

@[simp] theorem finish_txlen (e : Result) (s : State) : (finish e s).txlen = s.txlen := by cases e <;> rfl

@[simp] theorem raiseError_txlen (e : Result) (s : State) : (raiseError e s).txlen = s.txlen := by cases e <;> rfl

@[simp] theorem finish_txbuf (e : Result) (s : State) : (finish e s).txbuf = s.txbuf := by cases e <;> rfl

@[simp] theorem raiseError_txbuf (e : Result) (s : State) : (raiseError e s).txbuf = s.txbuf := by cases e <;> rfl

@[simp] theorem finish_rxlen (e : Result) (s : State) : (finish e s).rxlen = s.rxlen := by cases e <;> rfl

@[simp] theorem raiseError_rxlen (e : Result) (s : State) : (raiseError e s).rxlen = s.rxlen := by cases e <;> rfl

@[simp] theorem finish_rxbuf (e : Result) (s : State) : (finish e s).rxbuf = s.rxbuf := by cases e <;> rfl

@[simp] theorem raiseError_rxbuf (e : Result) (s : State) : (raiseError e s).rxbuf = s.rxbuf := by cases e <;> rfl

@[simp] theorem finish_work (e : Result) (s : State) : (finish e s).work = s.work := by cases e <;> rfl

@[simp] theorem raiseError_work (e : Result) (s : State) : (raiseError e s).work = s.work := by cases e <;> rfl

@[simp] theorem finish_log (e : Result) (s : State) : (finish e s).log = s.log := by cases e <;> rfl

@[simp] theorem raiseError_log (e : Result) (s : State) : (raiseError e s).log = s.log := by cases e <;> rfl

@[simp] theorem finish_chip (e : Result) (s : State) : (finish e s).chip = s.chip := by cases e <;> rfl

@[simp] theorem raiseError_chip (e : Result) (s : State) : (raiseError e s).chip = s.chip := by cases e <;> rfl

@[simp] theorem finish_env (e : Result) (s : State) : (finish e s).env = s.env := by cases e <;> rfl

@[simp] theorem raiseError_env (e : Result) (s : State) : (raiseError e s).env = s.env := by cases e <;> rfl

@[simp] theorem finish_host (e : Result) (s : State) : (finish e s).host = s.host := by cases e <;> rfl

@[simp] theorem raiseError_host (e : Result) (s : State) : (raiseError e s).host = s.host := by cases e <;> rfl

@[simp] theorem finish_hostData (e : Result) (s : State) : (finish e s).hostData = s.hostData := by cases e <;> rfl

@[simp] theorem raiseError_hostData (e : Result) (s : State) : (raiseError e s).hostData = s.hostData := by cases e <;> rfl

@[simp] theorem finish_freeCount (e : Result) (s : State) : (finish e s).freeCount = s.freeCount := by cases e <;> rfl

@[simp] theorem raiseError_freeCount (e : Result) (s : State) : (raiseError e s).freeCount = s.freeCount := by cases e <;> rfl

@[simp] theorem finish_busy (e : Result) (s : State) : (finish e s).status.busy = false := by cases e <;> rfl

@[simp] theorem finish_cfgerr (e : Result) (s : State) : (finish e s).status.cfgerr = s.status.cfgerr := by cases e <;> rfl

theorem finish_fault (e : Result) (s : State) :
    (finish e s).status.fault = (decide (e = .protocolFault) || s.status.fault) := by cases e <;> rfl

@[simp] theorem raiseError_busy (e : Result) (s : State) : (raiseError e s).status.busy = false := by cases e <;> rfl

@[simp] theorem raiseError_cfgerr (e : Result) (s : State) : (raiseError e s).status.cfgerr = s.status.cfgerr := by cases e <;> rfl

theorem raiseError_fault (e : Result) (s : State) :
    (raiseError e s).status.fault = (decide (e = .protocolFault) || s.status.fault) := by cases e <;> rfl

end Sys2Proof.Machine
end

