-- ==== Sys2Proof/Laws/Ops.lean ====
section
/-!
SUPPORT. What a microprogram can do, said once. The engine's own part of a run never depends on the environment
(`runActs_pure`): the environment is a `World` that only rising clocks and samples touch.
-/

namespace Sys2Proof.Machine

open Sys2Proof

/-! ### Flow and programs -/

@[simp] theorem Flow.bind_go (s : State) (k : State → Flow) : (Flow.go s).bind k = k s := rfl
@[simp] theorem Flow.bind_stop (s : State) (e : Result) (k : State → Flow) : (Flow.stop s e).bind k = .stop s e := rfl
@[simp] theorem Flow.bind_stuck (f : Fault) (k : State → Flow) : (Flow.stuck f).bind k = .stuck f := rfl

theorem Flow.bind_assoc (r : Flow) (k l : State → Flow) : (r.bind k).bind l = r.bind fun s => (k s).bind l := by
  cases r <;> rfl

theorem Flow.bind_eq_go {r : Flow} {k : State → Flow} {t : State} :
    r.bind k = .go t ↔ ∃ s, r = .go s ∧ k s = .go t := by
  cases r <;> simp

@[simp] theorem runActs_nil (s : State) : runActs [] s = .go s := rfl

@[simp] theorem runActs_cons (a : Act) (p : List Act) (s : State) :
    runActs (a :: p) s = (act a s).bind (runActs p) := rfl

theorem runActs_append (p q : List Act) (s : State) : runActs (p ++ q) s = (runActs p s).bind (runActs q) := by
  induction p generalizing s with
  | nil => rfl
  | cons a p ih =>
    rw [List.cons_append, runActs_cons, runActs_cons, Flow.bind_assoc]
    congr 1
    funext s1
    exact ih s1

theorem runActs_append_go {p q : List Act} {s t : State} (h : runActs p s = .go t) :
    runActs (p ++ q) s = runActs q t := by
  rw [runActs_append, h]
  rfl

/-! ### The world: the part of State that the environment moves -/

/-- The RTM, the queued answers and the free-value counter. -/
structure World where
  chip : Chip
  env : Env
  freeCount : Nat

/-- The world of a state. -/
def State.world (s : State) : World := ⟨s.chip, s.env, s.freeCount⟩

/-- A state in another world. -/
def State.withWorld (s : State) (w : World) : State :=
  { s with chip := w.chip, env := w.env, freeCount := w.freeCount }

@[simp] theorem withWorld_world (s : State) : s.withWorld s.world = s := rfl
@[simp] theorem world_withWorld (s : State) (w : World) : (s.withWorld w).world = w := rfl
@[simp] theorem withWorld_withWorld (s : State) (v w : World) : (s.withWorld v).withWorld w = s.withWorld w := rfl
@[simp] theorem world_chip (s : State) : s.world.chip = s.chip := rfl
@[simp] theorem world_env (s : State) : s.world.env = s.env := rfl
@[simp] theorem world_freeCount (s : State) : s.world.freeCount = s.freeCount := rfl
@[simp] theorem withWorld_cfg (s : State) (w : World) : (s.withWorld w).cfg = s.cfg := rfl
@[simp] theorem withWorld_lines (s : State) (w : World) : (s.withWorld w).lines = s.lines := rfl
@[simp] theorem withWorld_phase (s : State) (w : World) : (s.withWorld w).phase = s.phase := rfl
@[simp] theorem withWorld_status (s : State) (w : World) : (s.withWorld w).status = s.status := rfl
@[simp] theorem withWorld_result (s : State) (w : World) : (s.withWorld w).result = s.result := rfl
@[simp] theorem withWorld_elapsed (s : State) (w : World) : (s.withWorld w).elapsed = s.elapsed := rfl
@[simp] theorem withWorld_cmd (s : State) (w : World) : (s.withWorld w).cmd = s.cmd := rfl
@[simp] theorem withWorld_txlen (s : State) (w : World) : (s.withWorld w).txlen = s.txlen := rfl
@[simp] theorem withWorld_txbuf (s : State) (w : World) : (s.withWorld w).txbuf = s.txbuf := rfl
@[simp] theorem withWorld_rxlen (s : State) (w : World) : (s.withWorld w).rxlen = s.rxlen := rfl
@[simp] theorem withWorld_rxbuf (s : State) (w : World) : (s.withWorld w).rxbuf = s.rxbuf := rfl
@[simp] theorem withWorld_work (s : State) (w : World) : (s.withWorld w).work = s.work := rfl
@[simp] theorem withWorld_log (s : State) (w : World) : (s.withWorld w).log = s.log := rfl
@[simp] theorem withWorld_host (s : State) (w : World) : (s.withWorld w).host = s.host := rfl
@[simp] theorem withWorld_hostData (s : State) (w : World) : (s.withWorld w).hostData = s.hostData := rfl
@[simp] theorem withWorld_chip (s : State) (w : World) : (s.withWorld w).chip = w.chip := rfl
@[simp] theorem withWorld_env (s : State) (w : World) : (s.withWorld w).env = w.env := rfl
@[simp] theorem withWorld_freeCount (s : State) (w : World) : (s.withWorld w).freeCount = w.freeCount := rfl

theorem drawWord_world (s : State) : (drawWord s).2 = s.withWorld (drawWord s).2.world := by
  unfold drawWord
  split <;> rfl

/-- A word draw, on the world alone. -/
def World.draw (w : World) : Word × World :=
  match w.env.words with
  | x :: rest => (x, { w with env := { w.env with words := rest } })
  | [] => (Config.freeWord w.freeCount, { w with freeCount := w.freeCount + 1 })

theorem drawWord_eq (s : State) : drawWord s = (s.world.draw.1, s.withWorld s.world.draw.2) := by
  unfold drawWord World.draw
  simp only [world_env]
  cases s.env.words <;> rfl

theorem World.draw_chip (w : World) (c : Chip) :
    ({ w with chip := c } : World).draw = (w.draw.1, { w.draw.2 with chip := c }) := by
  unfold World.draw
  dsimp only
  cases w.env.words <;> rfl

theorem drawBit_world (s : State) : (drawBit s).2 = s.withWorld (drawBit s).2.world := by
  unfold drawBit
  split <;> rfl

theorem drawEffect_world (s : State) : (drawEffect s).2 = s.withWorld (drawEffect s).2.world := by
  unfold drawEffect
  split <;> rfl

/-- A draw never touches the chip. -/
@[simp] theorem drawWord_chip (s : State) : (drawWord s).2.chip = s.chip := by
  unfold drawWord
  split <;> rfl

@[simp] theorem drawBit_chip (s : State) : (drawBit s).2.chip = s.chip := by
  unfold drawBit
  split <;> rfl

@[simp] theorem drawEffect_chip (s : State) : (drawEffect s).2.chip = s.chip := by
  unfold drawEffect
  split <;> rfl

/-- A rising clock moves the world only. -/
theorem envRise_world {s t : State} (h : envRise s = .go t) : t = s.withWorld t.world := by
  unfold envRise at h
  split at h
  · unfold rtmRise at h
    repeat' split at h
    · cases h; rfl
    · cases h
    · cases h; rfl
    · cases h
    · cases h; rfl
    · cases h
    · unfold rtmLatch at h
      dsimp only at h
      split at h
      · cases h; rfl
      · split at h
        · cases h; rfl
        · cases h
          rw [drawWord_world]
          rfl
    · unfold rtmCapture at h
      dsimp only at h
      split at h
      · cases h
      · split at h
        · cases h; rfl
        · split at h
          · unfold rtmWriteRow at h
            dsimp only at h
            repeat' split at h
            · cases h
            · cases h; rfl
            · cases h
              rw [drawWord_world]
              rfl
          · cases h; rfl
    · cases h; rfl
  · cases h; rfl

/-- An answer moves the world only. -/
theorem answer_world (x : InLine) (s : State) : (answer x s).2 = s.withWorld (answer x s).2.world := by
  cases x
  · unfold answer answerSdi
    dsimp only
    split
    · rfl
    · split
      · split
        · rfl
        · exact drawBit_world s
      · exact drawBit_world s
  · unfold answer answerSvld
    dsimp only
    split
    · split <;> rfl
    · exact drawBit_world s
  · exact drawBit_world s

/-- A sample moves the world and appends its event. -/
theorem sample_world (x : InLine) (s : State) :
    (sample x s).2 = { s.withWorld (sample x s).2.world with log := .r x (sample x s).1 :: s.log } := by
  unfold sample
  rw [answer_world]
  rfl

theorem chipAfterRun_world (s : State) : chipAfterRun s = s.withWorld (chipAfterRun s).world := by
  unfold chipAfterRun
  split
  · rfl
  · dsimp only
    rw [drawEffect_world]
    rfl

/-! ### The engine's own part of a micro-step -/

/-- The micro-steps that sample nothing and end nothing. -/
def Act.isPure : Act → Bool
  | .cycle _ => false
  | .poll => false
  | .timeout => false
  | .raise _ => false
  | _ => true

/-- What a pure micro-step does to everything but the world. -/
def engineAct : Act → State → State
  | .phase p, s => { s with phase := p }
  | .set x v, s => recordWrite x v s
  | .loadShift v n, s => { s with work := { s.work with shr := v, bitc := n } }
  | .out b left, s => { recordWrite .sdo b s with work := { s.work with bitc := left } }
  | .tick left, s =>
    { recordWrite .sck false (recordWrite .sck true s) with work := { s.work with cnt := left } }
  | .startRead n, s => { s with work := { s.work with dsr := 0, bitc := n } }
  | .row a, s => { s with work := { s.work with addrc := a } }
  | .ident i, s => { s with work := { s.work with idc := i } }
  | .clearFault, s => recoverFault s
  | .rxClear b, s => { s with rxlen := s.rxlen.set b 0 }
  | .rxStore b a, s =>
    { s with
      rxbuf := s.rxbuf.set b ((s.rxbuf.get b).write (BitVec.ofNat 16 a) s.work.dsr),
      rxlen := s.rxlen.set b (BitVec.ofNat 17 (a + 1)) }
  | .startPolls, s => { s with work := { s.work with cnt := 0 } }
  | .cycle _, s => s
  | .poll, s => s
  | .timeout, s => s
  | .raise _, s => s

/-- The engine's own part of a program. -/
def engineRun (p : List Act) (s : State) : State := p.foldl (fun s a => engineAct a s) s

@[simp] theorem engineRun_nil (s : State) : engineRun [] s = s := rfl

@[simp] theorem engineRun_cons (a : Act) (p : List Act) (s : State) :
    engineRun (a :: p) s = engineRun p (engineAct a s) := rfl

theorem engineRun_append (p q : List Act) (s : State) : engineRun (p ++ q) s = engineRun q (engineRun p s) := by
  simp [engineRun, List.foldl_append]

theorem engineAct_withWorld (a : Act) (s : State) (w : World) :
    engineAct a (s.withWorld w) = (engineAct a s).withWorld w := by
  cases a <;> rfl

theorem engineRun_withWorld (p : List Act) (s : State) (w : World) :
    engineRun p (s.withWorld w) = (engineRun p s).withWorld w := by
  induction p generalizing s with
  | nil => rfl
  | cons a p ih => rw [engineRun_cons, engineAct_withWorld, ih, engineRun_cons]

@[simp] theorem engineAct_world (a : Act) (s : State) : (engineAct a s).world = s.world := by cases a <;> rfl

@[simp] theorem engineRun_world (p : List Act) (s : State) : (engineRun p s).world = s.world := by
  induction p generalizing s with
  | nil => rfl
  | cons a p ih => rw [engineRun_cons, ih, engineAct_world]

theorem engineRun_chip (p : List Act) (s : State) : (engineRun p s).chip = s.chip :=
  congrArg World.chip (engineRun_world p s)

/-- A line write moves the line, the trace and, on a rising `SCK`, the world. -/
theorem setLine_go {x : OutLine} {v : Bool} {s t : State} (h : setLine x v s = .go t) :
    t = (recordWrite x v s).withWorld t.world := by
  unfold setLine at h
  cases x
  case sck =>
    dsimp only at h
    split at h
    · exact envRise_world h
    · cases h; rfl
  all_goals (cases h; rfl)

/-- A pure micro-step that goes on does the engine's part and moves the world. -/
theorem act_pure {a : Act} {s t : State} (ha : a.isPure = true) (h : act a s = .go t) :
    t = (engineAct a s).withWorld t.world := by
  cases a
  case set x v => exact setLine_go h
  case out b left => cases h; rfl
  case tick left =>
    change actTick left s = .go t at h
    unfold actTick at h
    obtain ⟨s1, h1, h2⟩ := Flow.bind_eq_go.1 h
    obtain ⟨s2, h3, h4⟩ := Flow.bind_eq_go.1 h2
    cases h4
    rw [setLine_go h3, setLine_go h1]
    rfl
  case cycle => simp [Act.isPure] at ha
  case poll => simp [Act.isPure] at ha
  case timeout => simp [Act.isPure] at ha
  case raise => simp [Act.isPure] at ha
  all_goals (cases h; rfl)

/-- THE ENGINE DOES NOT DEPEND ON THE ENVIRONMENT: a pure program that goes on leaves the engine's own state as
`engineRun` says, whatever the world does. -/
theorem runActs_pure {p : List Act} {s t : State} (hp : p.all Act.isPure = true) (h : runActs p s = .go t) :
    t = (engineRun p s).withWorld t.world := by
  induction p generalizing s with
  | nil => cases h; rfl
  | cons a p ih =>
    simp only [List.all_cons, Bool.and_eq_true] at hp
    obtain ⟨s1, h1, h2⟩ := Flow.bind_eq_go.1 h
    have e1 := act_pure hp.1 h1
    have e2 := ih hp.2 h2
    rw [e2, e1, engineRun_withWorld]
    rfl

end Sys2Proof.Machine
end

