-- ==== Sys2Proof/Laws/Engine.lean ====
section
/-!
SUPPORT. The engine's own part of each micro-operation: the events it appends, how many, how many of them are pulses,
and the line levels it leaves (40_primitives.md R110 to R118; 70_reset_and_hazards.md R214).
-/

namespace Sys2Proof.Machine

open Sys2Proof

/-! ### Events of a pure program -/

/-- The events of a pure micro-step, in order. -/
def actEvents : Act → List Event
  | .set x v => [.w x v]
  | .out b _ => [.w .sdo b]
  | .tick _ => [.w .sck true, .w .sck false]
  | _ => []

/-- The events of a pure program, in order. -/
def progEvents (p : List Act) : List Event := p.flatMap actEvents

@[simp] theorem progEvents_nil : progEvents [] = [] := rfl

@[simp] theorem progEvents_cons (a : Act) (p : List Act) : progEvents (a :: p) = actEvents a ++ progEvents p := rfl

@[simp] theorem progEvents_append (p q : List Act) : progEvents (p ++ q) = progEvents p ++ progEvents q := by
  simp [progEvents]

theorem progEvents_flatMap {α : Type} (l : List α) (f : α → List Act) :
    progEvents (l.flatMap f) = l.flatMap (fun a => progEvents (f a)) := by
  simp [progEvents, List.flatMap_assoc]

/-- A pure program appends its events. -/
theorem engineRun_log (p : List Act) (s : State) : (engineRun p s).log = (progEvents p).reverse ++ s.log := by
  induction p generalizing s with
  | nil => rfl
  | cons a p ih =>
    rw [engineRun_cons, ih, progEvents_cons, List.reverse_append, List.append_assoc]
    congr 1
    cases a <;> rfl

/-- The lines are what the events say. -/
theorem engineRun_lines (p : List Act) (s : State) :
    (engineRun p s).lines = (progEvents p).foldl lineEvent s.lines := by
  induction p generalizing s with
  | nil => rfl
  | cons a p ih =>
    rw [engineRun_cons, ih, progEvents_cons, List.foldl_append]
    congr 1
    cases a <;> rfl

@[simp] theorem pulseCount_nil : pulseCount [] = 0 := rfl
@[simp] theorem pulseCount_append (l r : List Event) : pulseCount (l ++ r) = pulseCount l + pulseCount r := by
  simp [pulseCount]
@[simp] theorem pulseCount_reverse (l : List Event) : pulseCount l.reverse = pulseCount l := by
  simp [pulseCount]

/-! ### The micro-operations -/

theorem pulse_events (n : Nat) : progEvents (pulse n) = (List.replicate n [Event.w .sck true, .w .sck false]).flatten := by
  induction n with
  | zero => rfl
  | succ n ih => simp [pulse, ih, actEvents, List.replicate_succ]

@[simp] theorem length_pulse_events (n : Nat) : (progEvents (pulse n)).length = 2 * n := by
  rw [pulse_events]
  simp
  omega

@[simp] theorem pulseCount_pulse (n : Nat) : pulseCount (progEvents (pulse n)) = n := by
  induction n with
  | zero => rfl
  | succ n ih =>
    simp only [pulse, progEvents_cons, actEvents, pulseCount_append, ih]
    exact Nat.add_comm 1 n

theorem driveBits_events (l : BitSeq) :
    progEvents (driveBits l) = l.flatMap (fun b => [Event.w .sdo b, .w .sck true, .w .sck false]) := by
  induction l with
  | nil => rfl
  | cons b l ih => simp [driveBits, ih, actEvents]

@[simp] theorem length_driveBits_events (l : BitSeq) : (progEvents (driveBits l)).length = 3 * l.length := by
  induction l with
  | nil => rfl
  | cons b l ih =>
    simp only [driveBits, progEvents_cons, actEvents, List.length_append, ih, List.length_cons, List.length_nil]
    omega

@[simp] theorem pulseCount_driveBits (l : BitSeq) : pulseCount (progEvents (driveBits l)) = l.length := by
  induction l with
  | nil => rfl
  | cons b l ih =>
    simp only [driveBits, progEvents_cons, actEvents, pulseCount_append, ih, List.length_cons]
    change 0 + (1 + l.length) = l.length + 1
    omega

@[simp] theorem driveSeq_events (s l : BitSeq) : progEvents (driveSeq s l) = progEvents (driveBits l) := rfl

@[simp] theorem shiftOut_events (s : BitSeq) : progEvents (shiftOut s) = progEvents (driveBits s.reverse) := rfl

theorem select_events (id : BitVec 8) :
    progEvents (select id) =
      Event.w .cse true :: (progEvents (driveBits (bin id).reverse) ++ [.w .cse false, .w .sck true, .w .sck false]) := by
  simp [select, actEvents, pulse]

@[simp] theorem length_select_events (id : BitVec 8) : (progEvents (select id)).length = 28 := by
  simp [select_events]

@[simp] theorem pulseCount_select (id : BitVec 8) : pulseCount (progEvents (select id)) = 9 := by
  rw [select_events, ← List.singleton_append, pulseCount_append, pulseCount_append, pulseCount_driveBits,
    List.length_reverse, length_bin]
  rfl

@[simp] theorem length_writePayload_events (a : BitVec 16) (d : Word) (e w : Bool) (m : BitVec 4) :
    (progEvents (writePayload ⟨0, 1, 1⟩ a d e w m)).length = 168 := by
  simp [writePayload, loadSequence, actEvents, pulse]

@[simp] theorem pulseCount_writePayload (a : BitVec 16) (d : Word) (e w : Bool) (m : BitVec 4) :
    pulseCount (progEvents (writePayload ⟨0, 1, 1⟩ a d e w m)) = 56 := by
  simp only [writePayload, loadSequence, progEvents_append, pulseCount_append, pulseCount_pulse, shiftOut_events,
    pulseCount_driveBits, progEvents_cons, progEvents_nil, actEvents, List.append_nil]
  simp [pulseCount, isPulse]

@[simp] theorem length_busReset_events (c : Config) :
    (progEvents (busReset c)).length = 2 * c.resetPulses.toNat + 4 := by
  simp [busReset, actEvents, pulse]

@[simp] theorem pulseCount_busReset (c : Config) : pulseCount (progEvents (busReset c)) = c.resetPulses.toNat + 1 := by
  simp only [busReset, progEvents_append, pulseCount_append, pulseCount_pulse, progEvents_cons, progEvents_nil,
    actEvents, List.append_nil, List.nil_append]
  simp [pulseCount, isPulse]

/-! ### Purity -/

@[simp] theorem pulse_pure (n : Nat) : (pulse n).all Act.isPure = true := by
  induction n with
  | zero => rfl
  | succ n ih => simp [pulse, ih, Act.isPure]

@[simp] theorem driveBits_pure (l : BitSeq) : (driveBits l).all Act.isPure = true := by
  induction l with
  | nil => rfl
  | cons b l ih => simp [driveBits, ih, Act.isPure]

@[simp] theorem driveSeq_pure (s l : BitSeq) : (driveSeq s l).all Act.isPure = true := by
  simp [driveSeq, Act.isPure]

@[simp] theorem select_pure (id : BitVec 8) : (select id).all Act.isPure = true := by
  simp [select, shiftOut, Act.isPure]

@[simp] theorem selectChain_pure (id : BitVec 4) : (selectChain id).all Act.isPure = true := select_pure _

@[simp] theorem writePayload_pure (t : LoadTicks) (a : BitVec 16) (d : Word) (e w : Bool) (m : BitVec 4) :
    (writePayload t a d e w m).all Act.isPure = true := by
  simp [writePayload, loadSequence, shiftOut, Act.isPure]

@[simp] theorem busReset_pure (c : Config) : (busReset c).all Act.isPure = true := by
  simp [busReset, Act.isPure]

@[simp] theorem tmEnter_pure : tmEnter.all Act.isPure = true := rfl

@[simp] theorem tmExit_pure : tmExit.all Act.isPure = true := rfl

theorem flatMap_pure {α : Type} (l : List α) (f : α → List Act) (h : ∀ a ∈ l, (f a).all Act.isPure = true) :
    (l.flatMap f).all Act.isPure = true := by
  simp only [List.all_flatMap, List.all_eq_true]
  intro a ha b hb
  exact List.all_eq_true.1 (h a ha) b hb

@[simp] theorem fullChainClear_pure (c : Config) : (fullChainClear c).all Act.isPure = true := by
  simp only [fullChainClear, List.all_append, busReset_pure, tmEnter_pure, tmExit_pure, Bool.and_true, Bool.true_and]
  rw [flatMap_pure _ _ (fun a _ => by simp [clearTarget, Act.isPure])]
  rfl

@[simp] theorem writeBody_pure (s : State) (b : Bank) (n : Nat) : (writeBody s b n).all Act.isPure = true := by
  simp only [writeBody, List.all_append, busReset_pure, tmEnter_pure, tmExit_pure, selectChain_pure, Bool.and_true,
    Bool.true_and]
  rw [flatMap_pure _ _ (fun a _ => by simp [writeWord, Act.isPure])]
  rfl

@[simp] theorem driveClkgen_pure (o : CkcfgOrder) (c : BitSeq) : (driveClkgen o c).all Act.isPure = true := by
  simp [driveClkgen, Act.isPure]

/-! ### Line levels after the micro-operations -/

theorem foldl_pulse_events (n : Nat) (l : Lines) (h : l.sck = false) :
    (progEvents (pulse n)).foldl lineEvent l = l := by
  induction n generalizing l with
  | zero => rfl
  | succ n ih =>
    simp only [pulse, progEvents_cons, actEvents, List.foldl_append, List.foldl_cons, List.foldl_nil, lineEvent]
    have : (l.set .sck true).set .sck false = l := by
      cases l
      simp only at h
      subst h
      rfl
    rw [this]
    exact ih l h

theorem foldl_driveBits_events (bs : BitSeq) (l : Lines) (h : l.sck = false) :
    (progEvents (driveBits bs)).foldl lineEvent l = l.set .sdo (bs.getLastD l.sdo) := by
  induction bs generalizing l with
  | nil => cases l; rfl
  | cons b bs ih =>
    simp only [driveBits, progEvents_cons, actEvents, List.foldl_append, List.foldl_cons, List.foldl_nil, lineEvent]
    have e : ((l.set .sdo b).set .sck true).set .sck false = l.set .sdo b := by
      cases l
      simp only at h
      subst h
      rfl
    rw [e, ih _ (by cases l; exact h)]
    cases bs <;> rfl

/-- After a selection: `SDO` holds the id's head, `CSE` and `SCK` are low. -/
theorem foldl_select_events (id : BitVec 8) (l : Lines) (h : l.sck = false) :
    (progEvents (select id)).foldl lineEvent l = (l.set .sdo (id.getLsbD 7)).set .cse false := by
  rw [select_events, List.foldl_cons, List.foldl_append]
  have h1 : (lineEvent l (.w .cse true)).sck = false := by cases l; exact h
  rw [foldl_driveBits_events _ _ h1]
  have : ((bin id).reverse).getLastD (lineEvent l (.w .cse true)).sdo = id.getLsbD 7 :=
    getLastD_reverse_of_head? (head?_bin id (by omega))
  rw [this]
  cases l
  simp only at h
  subst h
  rfl

/-- After a payload: `SDO` holds address bit 15, `LOAD` and `SCK` are low. -/
theorem foldl_writePayload_events (t : LoadTicks) (a : BitVec 16) (d : Word) (e w : Bool) (m : BitVec 4) (l : Lines)
    (h : l.sck = false) :
    (progEvents (writePayload t a d e w m)).foldl lineEvent l = (l.set .sdo (a.getLsbD 15)).set .load false := by
  simp only [writePayload, loadSequence, progEvents_append, progEvents_cons, progEvents_nil, actEvents, List.append_nil,
    List.nil_append, List.foldl_append, shiftOut_events, List.foldl_cons, List.foldl_nil, lineEvent]
  have hl : (encodePayload a d e w m).reverse.getLastD l.sdo = a.getLsbD 15 :=
    getLastD_reverse_of_head? (head?_encodePayload a d e w m)
  rw [foldl_driveBits_events _ _ h, hl]
  have h1 : (l.set .sdo (a.getLsbD 15)).sck = false := by cases l; exact h
  rw [foldl_pulse_events _ _ h1]
  have h2 : ((l.set .sdo (a.getLsbD 15)).set .load true).sck = false := by cases l; exact h
  rw [foldl_pulse_events _ _ h2]
  have h3 : (((l.set .sdo (a.getLsbD 15)).set .load true).set .load false).sck = false := by cases l; exact h
  rw [foldl_pulse_events _ _ h3]
  rfl

/-- After a bus reset: `SRST` and `SCK` are low, nothing else has moved. -/
theorem foldl_busReset_events (c : Config) (l : Lines) (h : l.sck = false) :
    (progEvents (busReset c)).foldl lineEvent l = l.set .srst false := by
  simp only [busReset, progEvents_append, progEvents_cons, progEvents_nil, actEvents, List.append_nil, List.nil_append,
    List.foldl_append, List.foldl_cons, List.foldl_nil, lineEvent]
  have h1 : (l.set .srst true).sck = false := by cases l; exact h
  rw [foldl_pulse_events _ _ h1]
  have h2 : ((l.set .srst true).set .srst false).sck = false := by cases l; exact h
  rw [foldl_pulse_events _ _ h2]
  rfl

end Sys2Proof.Machine
end

