-- ==== Sys2Proof/Laws/Store.lean ====
section
/-!
SUPPORT. The laws of memory and buffers: what a read gives after a write, that every write keeps the canonical form, that
equal contents are equal data, and the same for a bank's rows.
-/

namespace Sys2Proof.Machine

open Sys2Proof

section Cells

variable {α : Type} [DecidableEq α] {d : Nat → α}

/-- Every key of the list is above `k`. -/
def Cells.above (k : Nat) (l : List (Nat × α)) : Prop := ∀ c ∈ l, k < c.1

theorem Cells.wf_cons {k : Nat} {v : α} {rest : List (Nat × α)} :
    Cells.wf d ((k, v) :: rest) = true ↔ v ≠ d k ∧ Cells.above k rest ∧ Cells.wf d rest = true := by
  simp [Cells.wf, Cells.above, and_assoc]

omit [DecidableEq α] in
theorem Cells.read_of_above {k : Nat} {l : List (Nat × α)} (h : Cells.above k l) : Cells.read d l k = d k := by
  induction l with
  | nil => rfl
  | cons c rest ih =>
    obtain ⟨k', v⟩ := c
    have h1 : k < k' := h (k', v) (by simp)
    rw [Cells.read, if_neg (by omega)]
    exact ih fun c hc => h c (by simp [hc])

theorem Cells.above_write {j k : Nat} {v : α} {l : List (Nat × α)} (h : Cells.above j l) (hk : j < k) :
    Cells.above j (Cells.write d l k v) := by
  induction l with
  | nil =>
    unfold Cells.write
    split
    · exact h
    · intro c hc
      simp only [List.mem_singleton] at hc
      subst hc
      exact hk
  | cons c rest ih =>
    obtain ⟨k', v'⟩ := c
    have hr : Cells.above j rest := fun c hc => h c (by simp [hc])
    have h' : j < k' := h (k', v') (by simp)
    unfold Cells.write
    split
    · split
      · exact h
      · intro c hc
        rcases List.mem_cons.1 hc with rfl | hc
        · exact hk
        · exact h c hc
    · split
      · split
        · exact hr
        · intro c hc
          rcases List.mem_cons.1 hc with rfl | hc
          · exact hk
          · exact hr c hc
      · intro c hc
        rcases List.mem_cons.1 hc with rfl | hc
        · exact h'
        · exact ih hr c hc

/-- A write keeps the canonical form. -/
theorem Cells.wf_write {k : Nat} {v : α} {l : List (Nat × α)} (h : Cells.wf d l = true) :
    Cells.wf d (Cells.write d l k v) = true := by
  induction l with
  | nil =>
    unfold Cells.write
    split
    · rfl
    · rename_i hv
      exact Cells.wf_cons.2 ⟨hv, by intro c hc; simp at hc, rfl⟩
  | cons c rest ih =>
    obtain ⟨k', v'⟩ := c
    obtain ⟨h1, h2, h3⟩ := Cells.wf_cons.1 h
    unfold Cells.write
    split
    · rename_i hk
      split
      · exact h
      · rename_i hv
        refine Cells.wf_cons.2 ⟨hv, ?_, h⟩
        intro c hc
        rcases List.mem_cons.1 hc with rfl | hc
        · exact hk
        · exact lt_trans hk (h2 c hc)
    · split
      · rename_i hk
        subst hk
        split
        · exact h3
        · rename_i hv
          exact Cells.wf_cons.2 ⟨hv, h2, h3⟩
      · rename_i hlt hne
        exact Cells.wf_cons.2 ⟨h1, Cells.above_write h2 (by omega), ih h3⟩

/-- A read at the written key gives the written value. -/
theorem Cells.read_write_same {k : Nat} {v : α} {l : List (Nat × α)} (h : Cells.wf d l = true) :
    Cells.read d (Cells.write d l k v) k = v := by
  induction l with
  | nil =>
    unfold Cells.write
    split
    · rename_i hv
      simp [Cells.read, hv]
    · simp [Cells.read]
  | cons c rest ih =>
    obtain ⟨k', v'⟩ := c
    obtain ⟨-, h2, h3⟩ := Cells.wf_cons.1 h
    unfold Cells.write
    split
    · rename_i hk
      split
      · rename_i hv
        rw [hv]
        refine Cells.read_of_above ?_
        intro c hc
        rcases List.mem_cons.1 hc with rfl | hc
        · exact hk
        · exact lt_trans hk (h2 c hc)
      · simp [Cells.read]
    · split
      · rename_i hk
        subst hk
        split
        · rename_i hv
          rw [hv]
          exact Cells.read_of_above h2
        · simp [Cells.read]
      · rename_i hne
        rw [Cells.read, if_neg hne]
        exact ih h3

/-- A write leaves every other key alone. -/
theorem Cells.read_write_other {j k : Nat} {v : α} {l : List (Nat × α)} (hne : j ≠ k) :
    Cells.read d (Cells.write d l k v) j = Cells.read d l j := by
  induction l with
  | nil =>
    unfold Cells.write
    split
    · rfl
    · simp [Cells.read, hne]
  | cons c rest ih =>
    obtain ⟨k', v'⟩ := c
    unfold Cells.write
    split
    · split
      · rfl
      · rw [Cells.read, if_neg hne]
    · split
      · rename_i hk
        subst hk
        split
        · rw [Cells.read, if_neg hne]
        · rw [Cells.read, if_neg hne, Cells.read, if_neg hne]
      · rw [Cells.read, Cells.read, ih]

/-- A write adds at most its own key. -/
theorem Cells.mem_write {k : Nat} {v : α} {l : List (Nat × α)} {c : Nat × α} (h : c ∈ Cells.write d l k v) :
    c ∈ l ∨ c = (k, v) := by
  induction l with
  | nil =>
    unfold Cells.write at h
    split at h
    · exact .inl h
    · exact .inr (by simpa using h)
  | cons c' rest ih =>
    obtain ⟨k', v'⟩ := c'
    unfold Cells.write at h
    split at h
    · split at h
      · exact .inl h
      · rcases List.mem_cons.1 h with h | h
        · exact .inr h
        · exact .inl h
    · split at h
      · split at h
        · exact .inl (List.mem_cons_of_mem _ h)
        · rcases List.mem_cons.1 h with h | h
          · exact .inr h
          · exact .inl (List.mem_cons_of_mem _ h)
      · rcases List.mem_cons.1 h with h | h
        · exact .inl (by simp [h])
        · rcases ih h with h | h
          · exact .inl (List.mem_cons_of_mem _ h)
          · exact .inr h

/-- Canonical lists with equal contents are equal. -/
theorem Cells.ext_of_wf {l r : List (Nat × α)} (hl : Cells.wf d l = true) (hr : Cells.wf d r = true)
    (h : ∀ k, Cells.read d l k = Cells.read d r k) : l = r := by
  induction l generalizing r with
  | nil =>
    cases r with
    | nil => rfl
    | cons c rest =>
      obtain ⟨k, v⟩ := c
      exact absurd (by simpa [Cells.read] using (h k).symm) (Cells.wf_cons.1 hr).1
  | cons c rest ih =>
    obtain ⟨k, v⟩ := c
    obtain ⟨h1, h2, h3⟩ := Cells.wf_cons.1 hl
    cases r with
    | nil => exact absurd (by simpa [Cells.read] using h k) h1
    | cons c' rest' =>
      obtain ⟨k', v'⟩ := c'
      obtain ⟨h1', h2', h3'⟩ := Cells.wf_cons.1 hr
      have hk : k = k' := by
        rcases Nat.lt_trichotomy k k' with hlt | heq | hgt
        · exfalso
          have := h k
          rw [Cells.read, if_pos rfl, Cells.read, if_neg (by omega),
            Cells.read_of_above (fun c hc => lt_trans hlt (h2' c hc))] at this
          exact h1 this
        · exact heq
        · exfalso
          have := h k'
          rw [Cells.read, if_neg (by omega), Cells.read, if_pos rfl,
            Cells.read_of_above (fun c hc => lt_trans hgt (h2 c hc))] at this
          exact h1' this.symm
      subst hk
      have hv : v = v' := by simpa [Cells.read] using h k
      subst hv
      rw [ih h3 h3']
      intro j
      by_cases hj : j = k
      · subst hj
        rw [Cells.read_of_above h2, Cells.read_of_above h2']
      · simpa [Cells.read, hj] using h j

end Cells

/-! ### Bytes and rows of the banks -/

theorem Memory.wf_iff (m : Memory) :
    m.wf = true ↔ Cells.wf Memory.unlisted m = true ∧ ∀ c ∈ m, c.1 < Memory.size := by
  simp [Memory.wf]

theorem Memory.wf_writeByte {m : Memory} {addr : Nat} {v : BitVec 8} (h : m.wf = true) (ha : addr < Memory.size) :
    (m.writeByte addr v).wf = true := by
  rw [Memory.wf_iff] at h ⊢
  refine ⟨Cells.wf_write h.1, fun c hc => ?_⟩
  rcases Cells.mem_write hc with hc | rfl
  · exact h.2 c hc
  · exact ha

theorem Memory.readByte_writeByte_same {m : Memory} {addr : Nat} {v : BitVec 8} (h : m.wf = true) :
    (m.writeByte addr v).readByte addr = v :=
  Cells.read_write_same ((Memory.wf_iff m).1 h).1

theorem Memory.readByte_writeByte_other {m : Memory} {j addr : Nat} {v : BitVec 8} (h : j ≠ addr) :
    (m.writeByte addr v).readByte j = m.readByte j :=
  Cells.read_write_other h

theorem Bank.num_lt (b : Bank) : b.num < 3 := by cases b <;> decide

theorem Bank.num_inj {b c : Bank} (h : b.num = c.num) : b = c := by cases b <;> cases c <;> simp [Bank.num] at h ⊢

theorem rowAddr_lt (b : Bank) (a : BitVec 16) : rowAddr b a + 3 < Memory.size := by
  have h1 := Bank.num_lt b
  have h2 := a.isLt
  simp only [rowAddr, Memory.size]
  omega

theorem Memory.wf_writeRow {m : Memory} {b : Bank} {a : BitVec 16} {w : Word} (h : m.wf = true) :
    (m.writeRow b a w).wf = true := by
  have h3 := rowAddr_lt b a
  unfold Memory.writeRow
  exact Memory.wf_writeByte (Memory.wf_writeByte (Memory.wf_writeByte (Memory.wf_writeByte h (by omega)) (by omega))
    (by omega)) h3

/-- A row write touches the row's four bytes only. -/
theorem Memory.readByte_writeRow_other {m : Memory} {b : Bank} {a : BitVec 16} {w : Word} {j : Nat}
    (h : j < rowAddr b a ∨ rowAddr b a + 3 < j) : (m.writeRow b a w).readByte j = m.readByte j := by
  unfold Memory.writeRow
  rw [Memory.readByte_writeByte_other (by omega), Memory.readByte_writeByte_other (by omega),
    Memory.readByte_writeByte_other (by omega), Memory.readByte_writeByte_other (by omega)]

theorem byteOf_toNat (w : Word) (i : Nat) : (byteOf w i).toNat = w.toNat / 2 ^ (8 * i) % 256 := by
  simp [byteOf, BitVec.extractLsb'_toNat, Nat.shiftRight_eq_div_pow]

theorem packBytes_byteOf (w : Word) : packBytes (byteOf w 0) (byteOf w 1) (byteOf w 2) (byteOf w 3) = w := by
  apply BitVec.eq_of_toNat_eq
  have := w.isLt
  simp only [packBytes, byteOf_toNat, BitVec.toNat_ofNat]
  omega

/-- A row reads back as the word written. -/
theorem Memory.readRow_writeRow_same {m : Memory} {b : Bank} {a : BitVec 16} {w : Word} (h : m.wf = true) :
    (m.writeRow b a w).readRow b a = w := by
  have h3 := rowAddr_lt b a
  have w1 := Memory.wf_writeByte (v := byteOf w 0) h (show rowAddr b a < Memory.size by omega)
  have w2 := Memory.wf_writeByte (v := byteOf w 1) w1 (show rowAddr b a + 1 < Memory.size by omega)
  have w3 := Memory.wf_writeByte (v := byteOf w 2) w2 (show rowAddr b a + 2 < Memory.size by omega)
  unfold Memory.readRow Memory.writeRow
  simp only [Memory.readByte_writeByte_same w3, Memory.readByte_writeByte_same w2,
    Memory.readByte_writeByte_same w1, Memory.readByte_writeByte_same h,
    Memory.readByte_writeByte_other (m := _) (j := rowAddr b a) (addr := rowAddr b a + 1) (by omega),
    Memory.readByte_writeByte_other (m := _) (j := rowAddr b a) (addr := rowAddr b a + 2) (by omega),
    Memory.readByte_writeByte_other (m := _) (j := rowAddr b a) (addr := rowAddr b a + 3) (by omega),
    Memory.readByte_writeByte_other (m := _) (j := rowAddr b a + 1) (addr := rowAddr b a + 2) (by omega),
    Memory.readByte_writeByte_other (m := _) (j := rowAddr b a + 1) (addr := rowAddr b a + 3) (by omega),
    Memory.readByte_writeByte_other (m := _) (j := rowAddr b a + 2) (addr := rowAddr b a + 3) (by omega)]
  exact packBytes_byteOf w

/-- Different rows have disjoint bytes. -/
theorem rowAddr_disjoint {b c : Bank} {a e : BitVec 16} (h : (b, a) ≠ (c, e)) :
    rowAddr b a + 3 < rowAddr c e ∨ rowAddr c e + 3 < rowAddr b a := by
  have h1 := a.isLt
  have h2 := e.isLt
  have hne : b.num ≠ c.num ∨ a.toNat ≠ e.toNat := by
    by_contra hc
    push Not at hc
    exact h (by rw [Bank.num_inj hc.1, BitVec.eq_of_toNat_eq hc.2])
  simp only [rowAddr]
  omega

/-- A row write leaves every other row alone. -/
theorem Memory.readRow_writeRow_other {m : Memory} {b c : Bank} {a e : BitVec 16} {w : Word} (h : (b, a) ≠ (c, e)) :
    (m.writeRow c e w).readRow b a = m.readRow b a := by
  have := rowAddr_disjoint h
  unfold Memory.readRow
  rw [Memory.readByte_writeRow_other (by omega), Memory.readByte_writeRow_other (by omega),
    Memory.readByte_writeRow_other (by omega), Memory.readByte_writeRow_other (by omega)]

theorem Memory.wf_ofCells (l : List Host.Cell) : (Memory.ofCells l).wf = true := by
  induction l with
  | nil => rfl
  | cons c rest ih =>
    obtain ⟨addr, v⟩ := c
    unfold Memory.ofCells
    split
    · exact Memory.wf_writeByte ih ‹_›
    · exact ih

/-- A canonical memory is the memory of its own cells. -/
theorem Memory.ofCells_of_wf {m : Memory} (h : m.wf = true) : Memory.ofCells m = m := by
  rw [Memory.wf_iff] at h
  obtain ⟨h1, h2⟩ := h
  induction m with
  | nil => rfl
  | cons c rest ih =>
    obtain ⟨addr, v⟩ := c
    obtain ⟨hv, ha, hr⟩ := Cells.wf_cons.1 h1
    have h3 : Memory.ofCells rest = rest := ih hr fun d hd => h2 d (List.mem_cons_of_mem _ hd)
    unfold Memory.ofCells
    rw [if_pos (h2 _ List.mem_cons_self), h3]
    unfold Memory.writeByte
    cases rest with
    | nil => exact if_neg hv
    | cons d rest => 
      have hlt : addr < d.1 := ha d List.mem_cons_self
      unfold Cells.write
      rw [if_pos hlt, if_neg hv]

/-! ### Rows copied from another memory -/

theorem Memory.wf_copyRows {src : Memory} {b : Bank} {n : Nat} {a : BitVec 16} {m : Memory} (h : m.wf = true) :
    (Memory.copyRows src b a n m).wf = true := by
  induction n generalizing a m with
  | zero => exact h
  | succ n ih => exact ih (Memory.wf_writeRow h)

/-- A row after a copy: the source's where it is copied, else as it was. -/
theorem Memory.readRow_copyRows {src : Memory} {b c : Bank} {n : Nat} {a e : BitVec 16} {m : Memory} (h : m.wf = true)
    (hn : a.toNat + n ≤ 65536) : (Memory.copyRows src b a n m).readRow c e =
      if b = c ∧ a.toNat ≤ e.toNat ∧ e.toNat < a.toNat + n then src.readRow c e else m.readRow c e := by
  induction n generalizing a m with
  | zero => rw [if_neg (by omega)]; rfl
  | succ n ih =>
    rcases Nat.eq_zero_or_pos n with rfl | hpos
    · change (m.writeRow b a (src.readRow b a)).readRow c e = _
      by_cases he : (c, e) = (b, a)
      · cases he
        rw [Memory.readRow_writeRow_same h, if_pos ⟨rfl, by omega, by omega⟩]
      · rw [Memory.readRow_writeRow_other he, if_neg]
        rintro ⟨rfl, h1, h2⟩
        exact he (congrArg (Prod.mk b) (BitVec.eq_of_toNat_eq (by omega)))
    · have hs : (a + 1).toNat = a.toNat + 1 := by
        rw [BitVec.toNat_add]
        exact Nat.mod_eq_of_lt (by change a.toNat + 1 < _; omega)
      change (Memory.copyRows src b (a + 1) n _).readRow c e = _
      rw [ih (Memory.wf_writeRow h) (by omega), hs]
      by_cases he : (c, e) = (b, a)
      · cases he
        rw [if_neg (by omega), Memory.readRow_writeRow_same h, if_pos ⟨rfl, by omega, by omega⟩]
      · rw [Memory.readRow_writeRow_other he]
        have hne : b = c → e.toNat ≠ a.toNat := by
          rintro rfl hh
          exact he (congrArg (Prod.mk b) (BitVec.eq_of_toNat_eq hh))
        refine if_congr ⟨fun hh => ⟨hh.1, by omega, by omega⟩, fun hh => ⟨hh.1, ?_, by omega⟩⟩ rfl rfl
        have := hne hh.1
        omega

theorem Memory.wf_copyRanges {src : Memory} {rs : List RowRange} {m : Memory} (h : m.wf = true) :
    (Memory.copyRanges src rs m).wf = true := by
  induction rs generalizing m with
  | nil => exact h
  | cons r rs ih => exact ih (Memory.wf_copyRows h)

/-- A row after the rows of some ranges are copied: the source's in the ranges, elsewhere as it was. -/
theorem Memory.readRow_copyRanges {src : Memory} {rs : List RowRange} {b : Bank} {a : BitVec 16} {m : Memory}
    (h : m.wf = true) : (Memory.copyRanges src rs m).readRow b a =
      if rangesHave rs b a = true then src.readRow b a else m.readRow b a := by
  induction rs generalizing m with
  | nil => rfl
  | cons r rs ih =>
    have hlast := r.last.isLt
    have hfirst := r.first.isLt
    change (Memory.copyRanges src rs _).readRow b a = _
    have hc : rangesHave (r :: rs) b a = (rangeHas r b a || rangesHave rs b a) := rfl
    rw [ih (Memory.wf_copyRows h), hc]
    by_cases h1 : rangesHave rs b a = true
    · rw [if_pos h1, h1, Bool.or_true, if_pos rfl]
    · rw [if_neg h1, Bool.eq_false_iff.2 h1, Bool.or_false]
      by_cases h0 : r.first.toNat ≤ r.last.toNat
      · rw [Memory.readRow_copyRows h (by omega)]
        refine if_congr ?_ rfl rfl
        unfold rangeHas
        rw [decide_eq_true_iff]
        exact ⟨fun hh => ⟨hh.1, hh.2.1, by omega⟩, fun hh => ⟨hh.1, hh.2.1, by omega⟩⟩
      · rw [show r.last.toNat + 1 - r.first.toNat = 0 by omega, if_neg]
        · rfl
        · unfold rangeHas
          rw [decide_eq_true_iff]
          omega

/-! ### Buffers -/

theorem Buffer.wf_iff (m : Buffer) :
    m.wf = true ↔ Cells.wf Buffer.unlisted m = true ∧ ∀ c ∈ m, c.1 < 65536 := by
  simp [Buffer.wf]

theorem Buffer.wf_write {m : Buffer} {k : BitVec 16} {w : Word} (h : m.wf = true) : (m.write k w).wf = true := by
  rw [Buffer.wf_iff] at h ⊢
  refine ⟨Cells.wf_write h.1, fun c hc => ?_⟩
  rcases Cells.mem_write hc with hc | rfl
  · exact h.2 c hc
  · exact k.isLt

theorem Buffer.read_write_same {m : Buffer} {k : BitVec 16} {w : Word} (h : m.wf = true) : (m.write k w).read k = w :=
  Cells.read_write_same ((Buffer.wf_iff m).1 h).1

theorem Buffer.read_write_other {m : Buffer} {j k : BitVec 16} {w : Word} (h : j ≠ k) :
    (m.write k w).read j = m.read j :=
  Cells.read_write_other (fun hc => h (BitVec.eq_of_toNat_eq hc))

end Sys2Proof.Machine
end

