-- ==== Sys2Proof/Laws/Rtm.lean ====
section
/-!
SUPPORT. The reference target model under each micro-operation (20_memory.md R58 to R65, R68): one lemma per
micro-operation, saying the exact next state where the RTM is the environment.
-/

namespace Sys2Proof.Machine

open Sys2Proof

/-- The RTM is the environment, `SCK` is low, and the levels that decide the RTM's case (20_memory.md R58). -/
structure InCtx (s : State) (srst tm cse load pend : Bool) : Prop where
  kind : s.env.kind = .rtm
  sck : s.lines.sck = false
  srst : s.lines.srst = srst
  tm : s.lines.tm = tm
  cse : s.lines.cse = cse
  load : s.lines.load = load
  pend : s.chip.selPend = pend

/-- One pulse, once the rising edge's effect on the world is known. -/
theorem act_tick_go {s : State} {n : BitVec 32} {w : World} (hs : s.lines.sck = false)
    (h : envRise (recordWrite .sck true s) = .go ((recordWrite .sck true s).withWorld w)) :
    act (.tick n) s = .go ((engineAct (.tick n) s).withWorld w) := by
  change actTick n s = _
  unfold actTick
  have h1 : setLine .sck true s = .go ((recordWrite .sck true s).withWorld w) := by
    unfold setLine
    simp only [hs, Bool.not_false, Bool.and_self, if_true]
    exact h
  rw [h1]
  rfl

/-- One pulse, where the rising edge gets the RTM stuck. -/
theorem act_tick_stuck {s : State} {n : BitVec 32} {f : Fault} (hs : s.lines.sck = false)
    (h : envRise (recordWrite .sck true s) = .stuck f) : act (.tick n) s = .stuck f := by
  change actTick n s = _
  unfold actTick
  have h1 : setLine .sck true s = .stuck f := by
    unfold setLine
    simp only [hs, Bool.not_false, Bool.and_self, if_true]
    exact h
  rw [h1]
  rfl

/-! ### The rising edge, case by case -/

/-- The levels the RTM's case is decided by, at a rising clock. -/
structure AtRise (s : State) (srst tm cse load pend : Bool) : Prop where
  kind : s.env.kind = .rtm
  srst : s.lines.srst = srst
  tm : s.lines.tm = tm
  cse : s.lines.cse = cse
  load : s.lines.load = load
  pend : s.chip.selPend = pend

theorem InCtx.atRise {s : State} {a b c d e : Bool} (h : InCtx s a b c d e) :
    AtRise (recordWrite .sck true s) a b c d e :=
  ⟨h.kind, h.srst, h.tm, h.cse, h.load, h.pend⟩

/-- The chip after a scan reset (20_memory.md R59). -/
def resetChip (c : Chip) : Chip := { c with selSr := 0, selPend := false, selected := none, paySr := 0 }

/-- Whether a read target is selected. -/
def readSelected (cfg : Config) (c : Chip) : Bool :=
  match c.selected with
  | some id => (bankOfRead cfg id).isSome
  | none => false

/-- The chip after one payload shift (20_memory.md R64). -/
def shiftChip (cfg : Config) (c : Chip) (b : Bool) : Chip :=
  { c with paySr := pushTop c.paySr b, rdSr := if readSelected cfg c then c.rdSr >>> 1 else c.rdSr }

/-- The chip after one select shift (20_memory.md R61). -/
def selectChip (c : Chip) (b : Bool) : Chip := { c with selSr := pushTop c.selSr b, selPend := true }

theorem envRise_reset {s : State} {a b c d : Bool} (h : AtRise s true a b c d) :
    envRise s = .go (s.withWorld ⟨resetChip s.chip, s.env, s.freeCount⟩) := by
  unfold envRise rtmRise
  simp only [h.kind, h.srst, if_true]
  rfl

theorem envRise_idle {s : State} (h : AtRise s false false false false false) : envRise s = .go s := by
  unfold envRise rtmRise
  simp [h.kind, h.srst, h.tm, h.cse, h.load, h.pend]

theorem envRise_shift {s : State} (h : AtRise s false true false false false) :
    envRise s = .go (s.withWorld ⟨shiftChip s.cfg s.chip s.lines.sdo, s.env, s.freeCount⟩) := by
  unfold envRise rtmRise
  simp only [h.kind, h.srst, h.tm, h.cse, h.load, h.pend, Bool.not_true, Bool.false_eq_true, if_false]
  rfl

theorem envRise_select {s : State} {p : Bool} (h : AtRise s false true true false p) :
    envRise s = .go (s.withWorld ⟨selectChip s.chip s.lines.sdo, s.env, s.freeCount⟩) := by
  unfold envRise rtmRise
  simp only [h.kind, h.srst, h.tm, h.cse, h.load, Bool.not_true, Bool.false_eq_true, if_false, if_true]
  rfl

theorem envRise_latch {s : State} (h : AtRise s false true false false true) : envRise s = rtmLatch s := by
  unfold envRise rtmRise
  simp [h.kind, h.srst, h.tm, h.cse, h.load, h.pend]

theorem envRise_capture {s : State} (h : AtRise s false true false true false) : envRise s = rtmCapture s := by
  unfold envRise rtmRise
  simp [h.kind, h.srst, h.tm, h.cse, h.load, h.pend]

/-- The address a write-data register names. -/
def regRow (v : BitVec 54) : BitVec 16 := (decodePayload (bin v)).addr

/-- The chip with target `id` latched. -/
def latchChip (c : Chip) (id : BitVec 8) : Chip := { c with selSr := id, selected := some id, selPend := false }

/-- The world after a selection of `id` has latched (20_memory.md R62). -/
def latchWorld (cfg : Config) (w : World) (id : BitVec 8) : World :=
  match bankOfRead cfg id with
  | none => { w with chip := latchChip w.chip id }
  | some b =>
    if (regRow (w.chip.treg.get b)).toNat < (cfg.cap.get b).toNat then
      { w with chip := { latchChip w.chip id with rdSr := w.chip.mem.readRow b (regRow (w.chip.treg.get b)) } }
    else { w.draw.2 with chip := { latchChip w.chip id with rdSr := w.draw.1 } }

theorem rtmLatch_eq (s : State) :
    rtmLatch s = .go (s.withWorld (latchWorld s.cfg s.world s.chip.selSr)) := by
  unfold rtmLatch latchWorld
  dsimp only
  cases bankOfRead s.cfg s.chip.selSr with
  | none => rfl
  | some b =>
    have hrow : tregRow s b = regRow (s.world.chip.treg.get b) := rfl
    dsimp only
    rw [hrow]
    split
    · rfl
    · have e : ({ s with chip := { s.chip with selected := some s.chip.selSr, selPend := false } } : State).world =
          { s.world with chip := latchChip s.chip s.chip.selSr } := rfl
      rw [drawWord_eq, e, World.draw_chip]
      rfl

/-- What was shifting in the select register before the latch does not matter. -/
theorem latchWorld_selSr (cfg : Config) (w : World) (id x : BitVec 8) (p : Bool) :
    latchWorld cfg { w with chip := { w.chip with selSr := x, selPend := p } } id = latchWorld cfg w id := by
  unfold latchWorld
  rw [World.draw_chip]
  rfl

/-! ### Programs under the RTM -/

theorem foldl_shiftChip (cfg : Config) (l : BitSeq) (c : Chip) :
    l.foldl (shiftChip cfg) c =
      { c with paySr := l.foldl pushTop c.paySr,
               rdSr := if readSelected cfg c then c.rdSr >>> l.length else c.rdSr } := by
  induction l generalizing c with
  | nil => cases c; simp
  | cons b l ih =>
    rw [List.foldl_cons, ih]
    have hsel : readSelected cfg (shiftChip cfg c b) = readSelected cfg c := rfl
    rw [hsel]
    simp only [shiftChip, List.foldl_cons, List.length_cons, Chip.mk.injEq, true_and, and_true]
    by_cases hr : readSelected cfg c = true
    · simp [hr, ← BitVec.shiftRight_add, Nat.add_comm]
    · simp [hr]

theorem foldl_selectChip (l : BitSeq) (c : Chip) :
    l.foldl selectChip c = { c with selSr := l.foldl pushTop c.selSr, selPend := c.selPend || decide (l ≠ []) } := by
  induction l generalizing c with
  | nil => cases c; simp
  | cons b l ih =>
    rw [List.foldl_cons, ih]
    simp [selectChip]

/-- Bits driven in test mode with nothing else asserted shift the payload register (20_memory.md R64). -/
theorem runActs_driveBits_shift (l : BitSeq) {s : State} (h : InCtx s false true false false false) :
    runActs (driveBits l) s =
      .go ((engineRun (driveBits l) s).withWorld ⟨l.foldl (shiftChip s.cfg) s.chip, s.env, s.freeCount⟩) := by
  induction l generalizing s with
  | nil => rfl
  | cons b l ih =>
    let s1 := engineAct (.out b (BitVec.ofNat 6 l.length)) s
    have h1 : InCtx s1 false true false false false := ⟨h.kind, h.sck, h.srst, h.tm, h.cse, h.load, h.pend⟩
    have ht := act_tick_go (n := 0) h1.sck (envRise_shift h1.atRise)
    have h2 : InCtx ((engineAct (.tick 0) s1).withWorld ⟨shiftChip s.cfg s.chip b, s.env, s.freeCount⟩)
        false true false false false := ⟨h.kind, rfl, h.srst, h.tm, h.cse, h.load, h.pend⟩
    change (act (.tick 0) s1).bind (runActs (driveBits l)) = _
    rw [ht]
    change runActs (driveBits l) ((engineAct (.tick 0) s1).withWorld ⟨shiftChip s.cfg s.chip b, s.env, s.freeCount⟩) = _
    rw [ih h2, engineRun_withWorld]
    rfl

/-- Bits driven with `CSE` asserted shift the select register (20_memory.md R61). -/
theorem runActs_driveBits_select (l : BitSeq) {s : State} {p : Bool} (h : InCtx s false true true false p) :
    runActs (driveBits l) s =
      .go ((engineRun (driveBits l) s).withWorld ⟨l.foldl selectChip s.chip, s.env, s.freeCount⟩) := by
  induction l generalizing s p with
  | nil => rfl
  | cons b l ih =>
    let s1 := engineAct (.out b (BitVec.ofNat 6 l.length)) s
    have h1 : InCtx s1 false true true false p := ⟨h.kind, h.sck, h.srst, h.tm, h.cse, h.load, h.pend⟩
    have ht := act_tick_go (n := 0) h1.sck (envRise_select h1.atRise)
    have h2 : InCtx ((engineAct (.tick 0) s1).withWorld ⟨selectChip s.chip b, s.env, s.freeCount⟩)
        false true true false true := ⟨h.kind, rfl, h.srst, h.tm, h.cse, h.load, rfl⟩
    change (act (.tick 0) s1).bind (runActs (driveBits l)) = _
    rw [ht]
    change runActs (driveBits l) ((engineAct (.tick 0) s1).withWorld ⟨selectChip s.chip b, s.env, s.freeCount⟩) = _
    rw [ih h2, engineRun_withWorld]
    rfl

/-- Pulses with `SRST` high reset the scan logic (20_memory.md R59). -/
theorem runActs_pulse_reset (n : Nat) {s : State} {a b c d : Bool} (h : InCtx s true a b c d) :
    runActs (pulse n) s =
      .go ((engineRun (pulse n) s).withWorld ⟨if n = 0 then s.chip else resetChip s.chip, s.env, s.freeCount⟩) := by
  induction n generalizing s d with
  | zero => rfl
  | succ n ih =>
    have ht := act_tick_go (n := BitVec.ofNat 32 n) h.sck (envRise_reset h.atRise)
    have h2 : InCtx ((engineAct (.tick (BitVec.ofNat 32 n)) s).withWorld ⟨resetChip s.chip, s.env, s.freeCount⟩)
        true a b c false := ⟨h.kind, rfl, h.srst, h.tm, h.cse, h.load, rfl⟩
    change (act (.tick (BitVec.ofNat 32 n)) s).bind (runActs (pulse n)) = _
    rw [ht]
    change runActs (pulse n) ((engineAct (.tick (BitVec.ofNat 32 n)) s).withWorld
      ⟨resetChip s.chip, s.env, s.freeCount⟩) = _
    rw [ih h2, engineRun_withWorld]
    have : (if n = 0 then resetChip s.chip else resetChip (resetChip s.chip)) = resetChip s.chip := by split <;> rfl
    simp only [withWorld_withWorld, withWorld_chip, this]
    rfl

theorem engineRun_cfg (p : List Act) (s : State) : (engineRun p s).cfg = s.cfg := by
  induction p generalizing s with
  | nil => rfl
  | cons a p ih => rw [engineRun_cons, ih]; cases a <;> rfl

/-- A selection's bits, then its latch. -/
theorem runActs_select_bits {s : State} {id : BitVec 8} {bs : BitSeq} (v : BitVec 54) (n : BitVec 6)
    (h : InCtx s false true false false false) (hne : bs ≠ []) (hbits : bs.foldl pushTop s.chip.selSr = id) :
    runActs ([.phase .selected, .set .cse true, .loadShift v n] ++ (driveBits bs ++ [.set .cse false, .tick 0])) s =
      .go ((engineRun ([.phase .selected, .set .cse true, .loadShift v n] ++
        (driveBits bs ++ [.set .cse false, .tick 0])) s).withWorld (latchWorld s.cfg s.world id)) := by
  obtain ⟨s1, hs1⟩ : ∃ s1, s1 = engineRun [.phase .selected, .set .cse true, .loadShift v n] s := ⟨_, rfl⟩
  have h1 : InCtx s1 false true true false false := by
    subst hs1
    exact ⟨h.kind, h.sck, h.srst, h.tm, rfl, h.load, h.pend⟩
  have w1 : s1.world = s.world := by rw [hs1, engineRun_world]
  have c1 : s1.cfg = s.cfg := by rw [hs1, engineRun_cfg]
  have hd := runActs_driveBits_select bs h1
  have hc : bs.foldl selectChip s1.chip = { s.chip with selSr := id, selPend := true } := by
    have : s1.chip = s.chip := congrArg World.chip w1
    rw [this, foldl_selectChip, hbits]
    simp [hne]
  have hw : (⟨bs.foldl selectChip s1.chip, s1.env, s1.freeCount⟩ : World) =
      { s.world with chip := { s.chip with selSr := id, selPend := true } } := by
    rw [hc, ← w1]
    rfl
  rw [hw] at hd
  obtain ⟨s2, hs2⟩ : ∃ s2, s2 = engineRun (driveBits bs) s1 := ⟨_, rfl⟩
  rw [← hs2] at hd
  obtain ⟨s3, hs3⟩ : ∃ s3, s3 = (engineAct (.set .cse false) s2).withWorld
    { s.world with chip := { s.chip with selSr := id, selPend := true } } := ⟨_, rfl⟩
  have hl : s3.lines = (s1.lines.set .sdo (bs.getLastD s1.lines.sdo)).set .cse false := by
    rw [hs3]
    change s2.lines.set .cse false = _
    rw [hs2, engineRun_lines, foldl_driveBits_events _ _ h1.sck]
  have h3 : InCtx s3 false true false false true := by
    refine ⟨by rw [hs3]; exact h.kind, ?_, ?_, ?_, ?_, ?_, by rw [hs3]; rfl⟩ <;> rw [hl]
    · exact h1.sck
    · exact h1.srst
    · exact h1.tm
    · rfl
    · exact h1.load
  have hcfg : s3.cfg = s.cfg := by
    rw [hs3]
    change s2.cfg = _
    rw [hs2, engineRun_cfg, c1]
  have hw3 : (recordWrite .sck true s3).world = { s.world with chip := { s.chip with selSr := id, selPend := true } } := by
    rw [hs3]
    rfl
  have ht : act (.tick 0) s3 = .go ((engineAct (.tick 0) s3).withWorld (latchWorld s.cfg s.world id)) := by
    refine act_tick_go h3.sck ?_
    have hsel : (recordWrite .sck true s3).chip.selSr = id := by rw [hs3]; rfl
    rw [envRise_latch h3.atRise, rtmLatch_eq, hsel, hw3, recordWrite_cfg, hcfg]
    rw [show latchWorld s.cfg { s.world with chip := { s.chip with selSr := id, selPend := true } } id =
      latchWorld s.cfg s.world id from latchWorld_selSr s.cfg s.world id id true]
  have r1 : runActs [.phase .selected, .set .cse true, .loadShift v n] s = .go s1 := by rw [hs1]; rfl
  rw [runActs_append_go r1, runActs_append_go hd, runActs_cons]
  have r3 : act (.set .cse false) (s2.withWorld { s.world with chip := { s.chip with selSr := id, selPend := true } }) =
      .go s3 := by rw [hs3]; rfl
  rw [r3, Flow.bind_go, runActs_cons, ht, Flow.bind_go, runActs_nil, engineRun_append, ← hs1, engineRun_append, ← hs2,
    hs3, engineAct_withWorld]
  rfl

/-- SELECT under the RTM: the id is shifted in and latched (20_memory.md R61, R62; 40_primitives.md R116). -/
theorem runActs_select {s : State} (id : BitVec 8) (h : InCtx s false true false false false) :
    runActs (select id) s = .go ((engineRun (select id) s).withWorld (latchWorld s.cfg s.world id)) := by
  have hbits : (bin id).reverse.foldl pushTop s.chip.selSr = id := by
    rw [foldl_pushTop_reverse _ _ (length_bin id), ofNat_ubig_bin]
  have hne : (bin id).reverse ≠ [] := by
    intro hc
    have := congrArg List.length hc
    simp at this
  have e : select id = [.phase .selected, .set .cse true,
      .loadShift (BitVec.ofNat 54 (ubig (bin id))) (BitVec.ofNat 6 (bin id).length)] ++
      (driveBits (bin id).reverse ++ [.set .cse false, .tick 0]) := by
    simp [select, shiftOut, driveSeq, pulse]
  rw [e]
  exact runActs_select_bits _ _ h hne hbits

/-! ### A payload under the RTM -/

/-- The world after the payload `p` in the shift register has been captured by the selected target `id`
(20_memory.md R63): the target's register takes it and an enabled write changes its row, any value under a partial
mask. -/
def captureWorld (cfg : Config) (w : World) (id : BitVec 8) (p : Payload) : World :=
  match bankOfWrite cfg id with
  | none => w
  | some b =>
    let chip := { w.chip with treg := w.chip.treg.set b w.chip.paySr }
    if p.enable && p.write then
      if p.mask = maskAll then { w with chip := { chip with mem := chip.mem.writeRow b p.addr p.data } }
      else { w.draw.2 with chip := { chip with mem := chip.mem.writeRow b p.addr w.draw.1 } }
    else { w with chip := chip }

/-- No write past the capacity: what keeps a capture from getting the RTM stuck. -/
def captureFits (cfg : Config) (id : BitVec 8) (p : Payload) : Prop :=
  ∀ b, bankOfWrite cfg id = some b → (p.enable && p.write) = true → p.addr.toNat < (cfg.cap.get b).toNat

theorem payloadValue_eq_ubig (a : BitVec 16) (d : Word) (e w : Bool) (m : BitVec 4) :
    BitVec.ofNat 54 (ubig (encodePayload a d e w m)) = payloadValue a d e w m := by
  apply BitVec.eq_of_toNat_eq
  have h := (payloadValue a d e w m).isLt
  rw [BitVec.toNat_ofNat, Nat.mod_eq_of_lt (by have := ubig_lt (encodePayload a d e w m); simpa using this),
    payloadValue_toNat]
  unfold encodePayload
  simp only [ubig_append, ubig_bin, List.length_singleton, length_bin]
  have : ∀ b : Bool, ubig [b] = b.toNat := by intro b; cases b <;> rfl
  rw [this, this]
  ring

theorem bin_payloadValue (a : BitVec 16) (d : Word) (e w : Bool) (m : BitVec 4) :
    bin (payloadValue a d e w m) = encodePayload a d e w m := by
  rw [← payloadValue_eq_ubig]
  exact bin_ubig _ (length_encodePayload a d e w m)

/-- The codec's inverse law on the register's value (40_primitives.md R115). -/
theorem decodePayload_payloadValue (a : BitVec 16) (d : Word) (e w : Bool) (m : BitVec 4) :
    decodePayload (bin (payloadValue a d e w m)) = ⟨a, d, e, w, m⟩ := by
  rw [bin_payloadValue]
  unfold encodePayload
  rw [decodePayload_append _ _ _ _ _ (length_bin a) (length_bin d)]
  have : (bin m).take 4 = bin m := List.take_of_length_le (by simp)
  simp [this]

theorem rtmCapture_go {s : State} {id : BitVec 8} {p : Payload} (hsel : s.chip.selected = some id)
    (hp : decodePayload (bin s.chip.paySr) = p) (hfit : captureFits s.cfg id p) :
    rtmCapture s = .go (s.withWorld (captureWorld s.cfg s.world id p)) := by
  unfold rtmCapture captureWorld
  rw [hsel]
  dsimp only
  cases hb : bankOfWrite s.cfg id with
  | none => rfl
  | some b =>
    dsimp only
    rw [hp]
    split
    · rename_i hew
      have hlt := hfit b hb hew
      unfold rtmWriteRow
      dsimp only
      rw [if_neg (by omega)]
      split
      · rfl
      · have e1 : ({ s with chip := { s.chip with treg := s.chip.treg.set b s.chip.paySr } } : State).world =
          { s.world with chip := { s.chip with treg := s.chip.treg.set b s.chip.paySr } } := rfl
        rw [drawWord_eq, e1, World.draw_chip]
        rfl
    · rfl

/-- The chip once a payload's 54 bits have been shifted in (20_memory.md R64). -/
def loadedChip (cfg : Config) (c : Chip) (a : BitVec 16) (d : Word) (e wr : Bool) (m : BitVec 4) : Chip :=
  { c with paySr := payloadValue a d e wr m, rdSr := if readSelected cfg c then c.rdSr >>> 54 else c.rdSr }

/-- The world after a capture and the one stray shift that follows it (20_memory.md R63, R64). -/
def capturedWorld (cfg : Config) (w : World) (c : Chip) (id : BitVec 8) (p : Payload) (b : Bool) : World :=
  let w1 := captureWorld cfg { w with chip := c } id p
  { w1 with chip := shiftChip cfg w1.chip b }

/-- The world after a payload: the bits shifted in, the capture, and the stray shift after `LOAD` falls
(40_primitives.md R117; 20_memory.md R63, R64). -/
def payloadWorld (cfg : Config) (w : World) (id : BitVec 8) (a : BitVec 16) (d : Word) (e wr : Bool) (m : BitVec 4) :
    World :=
  capturedWorld cfg w (loadedChip cfg w.chip a d e wr m) id ⟨a, d, e, wr, m⟩ (a.getLsbD 15)

theorem World.draw_env_kind (w : World) : w.draw.2.env.kind = w.env.kind := by
  unfold World.draw
  cases w.env.words <;> rfl

theorem captureWorld_kind (cfg : Config) (w : World) (id : BitVec 8) (p : Payload) :
    (captureWorld cfg w id p).env.kind = w.env.kind := by
  unfold captureWorld
  dsimp only
  repeat' split
  · rfl
  · rfl
  · exact World.draw_env_kind w
  · rfl

theorem captureWorld_selPend (cfg : Config) (w : World) (id : BitVec 8) (p : Payload) :
    (captureWorld cfg w id p).chip.selPend = w.chip.selPend := by
  unfold captureWorld
  dsimp only
  repeat' split
  all_goals rfl

/-- A payload's bits, then the load sequence, with the register value and the fields as parameters. -/
theorem runActs_payload_bits {s : State} {id : BitVec 8} {bs : BitSeq} {c5 : Chip} {p : Payload} {b : Bool}
    (v : BitVec 54) (n : BitVec 6) (h : InCtx s false true false false false)
    (hfit : captureFits s.cfg id p) (hbits : bs.foldl (shiftChip s.cfg) s.chip = c5)
    (hsel5 : c5.selected = some id) (hpend5 : c5.selPend = false) (hdec : decodePayload (bin c5.paySr) = p)
    (hlast : ∀ x, bs.getLastD x = b) :
    runActs ([.phase .shifting, .loadShift v n] ++
        (driveBits bs ++ [.set .load true, .tick 0, .set .load false, .tick 0])) s =
      .go ((engineRun ([.phase .shifting, .loadShift v n] ++
        (driveBits bs ++ [.set .load true, .tick 0, .set .load false, .tick 0])) s).withWorld
          (capturedWorld s.cfg s.world c5 id p b)) := by
  obtain ⟨s1, hs1⟩ : ∃ s1, s1 = engineRun [.phase .shifting, .loadShift v n] s := ⟨_, rfl⟩
  have w1 : s1.world = s.world := by rw [hs1, engineRun_world]
  have c1 : s1.cfg = s.cfg := by rw [hs1, engineRun_cfg]
  have l1 : s1.lines = s.lines := by rw [hs1]; rfl
  have h1 : InCtx s1 false true false false false := by
    refine ⟨(congrArg (fun w : World => w.env.kind) w1).trans h.kind, ?_, ?_, ?_, ?_, ?_,
      (congrArg (fun w : World => w.chip.selPend) w1).trans h.pend⟩ <;> rw [l1]
    exacts [h.sck, h.srst, h.tm, h.cse, h.load]
  have hd := runActs_driveBits_shift bs h1
  have hw2 : (⟨bs.foldl (shiftChip s1.cfg) s1.chip, s1.env, s1.freeCount⟩ : World) = { s.world with chip := c5 } := by
    have hchip : s1.chip = s.chip := congrArg World.chip w1
    rw [c1, hchip, hbits, ← w1]
    rfl
  rw [hw2] at hd
  obtain ⟨s2, hs2⟩ : ∃ s2, s2 = (engineRun (driveBits bs) s1).withWorld { s.world with chip := c5 } := ⟨_, rfl⟩
  rw [← hs2] at hd
  have l2 : s2.lines = s1.lines.set .sdo b := by
    rw [hs2]
    change (engineRun (driveBits bs) s1).lines = _
    rw [engineRun_lines, foldl_driveBits_events _ _ h1.sck, hlast]
  have c2 : s2.cfg = s.cfg := by
    rw [hs2]
    change (engineRun (driveBits bs) s1).cfg = _
    rw [engineRun_cfg, c1]
  -- the capture, with LOAD high
  have h3 : InCtx (engineAct (.set .load true) s2) false true false true false := by
    have l3 : (engineAct (.set .load true) s2).lines = s2.lines.set .load true := rfl
    refine ⟨by rw [hs2]; exact h.kind, ?_, ?_, ?_, ?_, rfl, by rw [hs2]; exact hpend5⟩ <;> rw [l3, l2]
    exacts [h1.sck, h1.srst, h1.tm, h1.cse]
  have t3 : act (.tick 0) (engineAct (.set .load true) s2) =
      .go ((engineAct (.tick 0) (engineAct (.set .load true) s2)).withWorld
        (captureWorld s.cfg { s.world with chip := c5 } id p)) := by
    refine act_tick_go h3.sck ?_
    have hcfg : (recordWrite .sck true (engineAct (.set .load true) s2)).cfg = s.cfg := c2
    rw [envRise_capture h3.atRise, rtmCapture_go (id := id) (p := p)]
    · rw [hcfg, hs2]
      rfl
    · rw [hs2]
      exact hsel5
    · rw [hs2]
      exact hdec
    · rw [hcfg]
      exact hfit
  obtain ⟨w3, hw3⟩ : ∃ w3, w3 = captureWorld s.cfg { s.world with chip := c5 } id p := ⟨_, rfl⟩
  rw [← hw3] at t3
  -- the stray shift after LOAD falls
  obtain ⟨s4, hs4⟩ : ∃ s4, s4 = engineAct (.set .load false)
    ((engineAct (.tick 0) (engineAct (.set .load true) s2)).withWorld w3) := ⟨_, rfl⟩
  have l4 : s4.lines = ((((s2.lines.set .load true).set .sck true).set .sck false).set .load false) := by
    rw [hs4]
    rfl
  have h4 : InCtx s4 false true false false false := by
    refine ⟨?_, ?_, ?_, ?_, ?_, ?_, ?_⟩
    · rw [hs4]
      change w3.env.kind = _
      rw [hw3, captureWorld_kind]
      exact h.kind
    · rw [l4]
      rfl
    · rw [l4, l2]
      exact h1.srst
    · rw [l4, l2]
      exact h1.tm
    · rw [l4, l2]
      exact h1.cse
    · rw [l4]
      rfl
    · rw [hs4]
      change w3.chip.selPend = _
      rw [hw3, captureWorld_selPend]
      exact hpend5
  have t4 : act (.tick 0) s4 =
      .go ((engineAct (.tick 0) s4).withWorld { w3 with chip := shiftChip s.cfg w3.chip b }) := by
    refine act_tick_go h4.sck ?_
    rw [envRise_shift h4.atRise]
    congr 2
    have hsdo : (recordWrite .sck true s4).lines.sdo = b := by
      change (s4.lines.set .sck true).sdo = _
      rw [l4, l2]
      rfl
    have hcfg : (recordWrite .sck true s4).cfg = s.cfg := by
      rw [hs4]
      exact c2
    have hwld : (recordWrite .sck true s4).world = w3 := by
      rw [hs4]
      rfl
    rw [hsdo, hcfg, ← hwld]
    rfl
  have r1 : runActs [.phase .shifting, .loadShift v n] s = .go s1 := by rw [hs1]; rfl
  rw [runActs_append_go r1, runActs_append_go hd, runActs_cons]
  have r2 : act (.set .load true) s2 = .go (engineAct (.set .load true) s2) := rfl
  rw [r2, Flow.bind_go, runActs_cons, t3, Flow.bind_go, runActs_cons]
  have r4 : act (.set .load false) ((engineAct (.tick 0) (engineAct (.set .load true) s2)).withWorld w3) = .go s4 := by
    rw [hs4]
    rfl
  rw [r4, Flow.bind_go, runActs_cons, t4, Flow.bind_go, runActs_nil, engineRun_append, ← hs1, engineRun_append, hs4, hs2]
  unfold capturedWorld
  dsimp only
  dsimp only at hw3
  rw [← hw3]
  simp only [engineAct_withWorld, withWorld_withWorld]
  generalize engineRun (driveBits bs) s1 = x
  rfl

/-- A payload as its register load, its bits and its load sequence. -/
theorem writePayload_eq (a : BitVec 16) (d : Word) (e wr : Bool) (m : BitVec 4) :
    writePayload ⟨0, 1, 1⟩ a d e wr m =
      [.phase .shifting, .loadShift (BitVec.ofNat 54 (ubig (encodePayload a d e wr m)))
        (BitVec.ofNat 6 (encodePayload a d e wr m).length)] ++
      (driveBits (encodePayload a d e wr m).reverse ++ [.set .load true, .tick 0, .set .load false, .tick 0]) := by
  unfold writePayload
  generalize encodePayload a d e wr m = q
  rfl

theorem foldl_shiftChip_payload (cfg : Config) (c : Chip) (a : BitVec 16) (d : Word) (e wr : Bool) (m : BitVec 4) :
    (encodePayload a d e wr m).reverse.foldl (shiftChip cfg) c = loadedChip cfg c a d e wr m := by
  rw [foldl_shiftChip, foldl_pushTop_reverse _ _ (length_encodePayload a d e wr m), payloadValue_eq_ubig,
    List.length_reverse, length_encodePayload, loadedChip]

theorem loadedChip_paySr (cfg : Config) (c : Chip) (a : BitVec 16) (d : Word) (e wr : Bool) (m : BitVec 4) :
    (loadedChip cfg c a d e wr m).paySr = payloadValue a d e wr m := by rw [loadedChip]

theorem payloadWorld_eq (cfg : Config) (w : World) (id : BitVec 8) (a : BitVec 16) (d : Word) (e wr : Bool) (m : BitVec 4) :
    payloadWorld cfg w id a d e wr m =
      capturedWorld cfg w (loadedChip cfg w.chip a d e wr m) id ⟨a, d, e, wr, m⟩ (a.getLsbD 15) := by rw [payloadWorld]

/-- WRITE_PAYLOAD under the RTM (40_primitives.md R117; 20_memory.md R63, R64, R68). -/
theorem runActs_writePayload {s : State} {id : BitVec 8} (a : BitVec 16) (d : Word) (e wr : Bool) (m : BitVec 4)
    (h : InCtx s false true false false false) (hsel : s.chip.selected = some id)
    (hfit : captureFits s.cfg id ⟨a, d, e, wr, m⟩) :
    runActs (writePayload ⟨0, 1, 1⟩ a d e wr m) s =
      .go ((engineRun (writePayload ⟨0, 1, 1⟩ a d e wr m) s).withWorld (payloadWorld s.cfg s.world id a d e wr m)) := by
  have hb := foldl_shiftChip_payload s.cfg s.chip a d e wr m
  have hp := loadedChip_paySr s.cfg s.chip a d e wr m
  have hx : (loadedChip s.cfg s.chip a d e wr m).selected = some id := by rw [loadedChip]; exact hsel
  have hq : (loadedChip s.cfg s.chip a d e wr m).selPend = false := by rw [loadedChip]; exact h.pend
  have hd := decodePayload_payloadValue a d e wr m
  have hl : ∀ x, (encodePayload a d e wr m).reverse.getLastD x = a.getLsbD 15 :=
    fun x => getLastD_reverse_of_head? (head?_encodePayload a d e wr m)
  rw [writePayload_eq, payloadWorld_eq, world_chip]
  rw [← hp] at hd
  generalize loadedChip s.cfg s.chip a d e wr m = c5 at *
  generalize (encodePayload a d e wr m).reverse = bs at *
  generalize BitVec.ofNat 54 (ubig (encodePayload a d e wr m)) = v at *
  exact runActs_payload_bits _ _ h hfit hb hx hq hd hl

end Sys2Proof.Machine
end

