-- ==== Sys2Proof/Laws/Program.lean ====
section
/-!
SUPPORT. What any micro-step, and so any program, may do to the state whatever the environment: one relation, `Reach`,
proved once for each shared operation and then for every program.
-/

namespace Sys2Proof.Machine

open Sys2Proof

/-- What every piece of a command leaves as it was, and what it may do to the rest. -/
structure Reach (s t : State) : Prop where
  cfg : t.cfg = s.cfg
  result : t.result = s.result
  cmd : t.cmd = s.cmd
  txlen : t.txlen = s.txlen
  txbuf : t.txbuf = s.txbuf
  host : t.host = s.host
  hostData : t.hostData = s.hostData
  busy : t.status.busy = s.status.busy
  cfgerr : t.status.cfgerr = s.status.cfgerr
  kind : t.env.kind = s.env.kind
  sdiFrame : s.env.sdiFrame = [] → t.env.sdiFrame = []
  mem : s.chip.mem.wf = true → t.chip.mem.wf = true
  rxbuf : (∀ b, (s.rxbuf.get b).wf = true) → ∀ b, (t.rxbuf.get b).wf = true
  oracle : s.env.kind = .oracle → t.chip = s.chip
  log : ∃ es, t.log = es ++ s.log ∧ t.lines = es.reverse.foldl lineEvent s.lines

theorem Reach.refl (s : State) : Reach s s :=
  ⟨rfl, rfl, rfl, rfl, rfl, rfl, rfl, rfl, rfl, rfl, id, id, id, fun _ => rfl, [], rfl, rfl⟩

theorem Reach.trans {s t u : State} (h : Reach s t) (k : Reach t u) : Reach s u := by
  obtain ⟨es, hl, hn⟩ := h.log
  obtain ⟨fs, kl, kn⟩ := k.log
  exact ⟨k.cfg.trans h.cfg, k.result.trans h.result, k.cmd.trans h.cmd, k.txlen.trans h.txlen, k.txbuf.trans h.txbuf,
    k.host.trans h.host, k.hostData.trans h.hostData, k.busy.trans h.busy, k.cfgerr.trans h.cfgerr,
    k.kind.trans h.kind, fun e => k.sdiFrame (h.sdiFrame e), fun e => k.mem (h.mem e), fun e => k.rxbuf (h.rxbuf e),
    fun e => (k.oracle (h.kind.trans e)).trans (h.oracle e),
    fs ++ es, by rw [kl, hl, List.append_assoc], by rw [kn, hn, List.reverse_append, List.foldl_append]⟩

theorem Reach.hostSide {s t : State} (h : Reach s t) : HostSideSame s t :=
  ⟨h.cfg, h.cmd, h.txlen, h.txbuf, h.host, h.hostData⟩

/-- A change of the world alone. -/
theorem Reach.ofWorld (s : State) {w : World} (hk : w.env.kind = s.env.kind)
    (hf : s.env.sdiFrame = [] → w.env.sdiFrame = []) (hm : s.chip.mem.wf = true → w.chip.mem.wf = true)
    (ho : s.env.kind = .oracle → w.chip = s.chip) : Reach s (s.withWorld w) :=
  ⟨rfl, rfl, rfl, rfl, rfl, rfl, rfl, rfl, rfl, hk, hf, hm, id, ho, [], rfl, rfl⟩

/-- A change that touches none of the fields above. -/
theorem Reach.ofSame {s t : State} (h1 : t.cfg = s.cfg) (h2 : t.result = s.result) (h3 : t.cmd = s.cmd)
    (h4 : t.txlen = s.txlen) (h5 : t.txbuf = s.txbuf) (h6 : t.host = s.host) (h7 : t.hostData = s.hostData)
    (h8 : t.status.busy = s.status.busy) (h9 : t.status.cfgerr = s.status.cfgerr) (h10 : t.env = s.env)
    (h11 : t.chip = s.chip) (h12 : t.rxbuf = s.rxbuf) (h13 : t.log = s.log) (h14 : t.lines = s.lines) : Reach s t :=
  ⟨h1, h2, h3, h4, h5, h6, h7, h8, h9, by rw [h10], by rw [h10]; exact id, by rw [h11]; exact id,
    by rw [h12]; exact id, fun _ => h11, [], h13, h14⟩

theorem reach_recordWrite (x : OutLine) (v : Bool) (s : State) : Reach s (recordWrite x v s) :=
  ⟨rfl, rfl, rfl, rfl, rfl, rfl, rfl, rfl, rfl, rfl, id, id, id, fun _ => rfl, [.w x v], rfl, rfl⟩

/-! ### The environment -/

theorem drawBit_same (s : State) :
    (drawBit s).2.env.kind = s.env.kind ∧ (drawBit s).2.env.sdiFrame = s.env.sdiFrame := by
  unfold drawBit
  cases s.env.bits <;> exact ⟨rfl, rfl⟩

theorem drawWord_same (s : State) :
    (drawWord s).2.env.kind = s.env.kind ∧ (drawWord s).2.env.sdiFrame = s.env.sdiFrame := by
  unfold drawWord
  cases s.env.words <;> exact ⟨rfl, rfl⟩

theorem drawEffect_same (s : State) :
    (drawEffect s).2.env.kind = s.env.kind ∧ (drawEffect s).2.env.sdiFrame = s.env.sdiFrame := by
  unfold drawEffect
  cases s.env.effects <;> exact ⟨rfl, rfl⟩

theorem rtmWriteRow_reach {s t : State} {b : Bank} {p : Payload} (hk : s.env.kind = .rtm)
    (h : rtmWriteRow s b p = .go t) : Reach s t := by
  unfold rtmWriteRow at h
  split at h
  · cases h
  · split at h
    · cases h
      exact Reach.ofWorld s (w := ⟨_, s.env, s.freeCount⟩) rfl id (fun e => Memory.wf_writeRow e)
        (fun e => by rw [hk] at e; cases e)
    · have e := drawWord_world s
      cases h
      dsimp only
      rw [e]
      exact Reach.ofWorld s (w := ⟨_, (drawWord s).2.env, (drawWord s).2.freeCount⟩) (drawWord_same s).1
        (fun e => by rw [(drawWord_same s).2]; exact e)
        (fun e => by
          dsimp only [withWorld_chip]
          refine Memory.wf_writeRow ?_
          change (drawWord s).2.chip.mem.wf = true
          rw [drawWord_chip]
          exact e)
        (fun e => by rw [hk] at e; cases e)

theorem rtmCapture_reach {s t : State} (hk : s.env.kind = .rtm) (h : rtmCapture s = .go t) : Reach s t := by
  unfold rtmCapture at h
  split at h
  · cases h
  · rename_i id _
    cases hb : bankOfWrite s.cfg id with
    | none =>
      rw [hb] at h
      cases h
      exact Reach.refl s
    | some b =>
      rw [hb] at h
      dsimp only at h
      have h1 : Reach s { s with chip := { s.chip with treg := s.chip.treg.set b s.chip.paySr } } :=
        Reach.ofWorld s (w := ⟨_, s.env, s.freeCount⟩) rfl (fun e => e) (fun e => e) (fun e => by rw [hk] at e; cases e)
      split at h
      · exact h1.trans (rtmWriteRow_reach (by exact hk) h)
      · cases h
        exact h1

theorem rtmLatch_reach {s t : State} (hk : s.env.kind = .rtm) (h : rtmLatch s = .go t) : Reach s t := by
  rw [rtmLatch_eq] at h
  cases h
  have ho : s.env.kind = .oracle → (latchWorld s.cfg s.world s.chip.selSr).chip = s.chip := by
    intro e
    rw [hk] at e
    cases e
  unfold latchWorld at ho ⊢
  split
  · exact Reach.ofWorld s rfl id id (fun e => by rw [hk] at e; cases e)
  · split
    · exact Reach.ofWorld s rfl id id (fun e => by rw [hk] at e; cases e)
    · refine Reach.ofWorld s ?_ ?_ id (fun e => by rw [hk] at e; cases e)
      · exact World.draw_env_kind s.world
      · intro e
        change s.world.draw.2.env.sdiFrame = []
        unfold World.draw
        change s.world.env.sdiFrame = [] at e
        cases s.world.env.words <;> exact e

theorem envRise_reach {s t : State} (h : envRise s = .go t) : Reach s t := by
  unfold envRise at h
  cases hk : s.env.kind with
  | oracle =>
    rw [hk] at h
    cases h
    exact Reach.refl s
  | rtm =>
    rw [hk] at h
    have hno : ∀ {c : Chip}, s.env.kind = .oracle → c = s.chip := fun e => by rw [hk] at e; cases e
    have hw : ∀ c : Chip, c.mem = s.chip.mem → Reach s { s with chip := c } := fun c hc =>
      Reach.ofWorld s (w := ⟨c, s.env, s.freeCount⟩) rfl id (fun e => by dsimp only; rw [hc]; exact e) hno
    dsimp only at h
    unfold rtmRise at h
    split at h
    · cases h; exact hw _ rfl
    split at h
    · split at h
      · cases h
      · cases h; exact Reach.refl s
    split at h
    · split at h
      · cases h
      · cases h; exact hw _ rfl
    split at h
    · split at h
      · cases h
      · exact rtmLatch_reach hk h
    split at h
    · exact rtmCapture_reach hk h
    · cases h; exact hw _ rfl

theorem envRise_never_stops (s t : State) (e : Result) : envRise s ≠ .stop t e := by
  unfold envRise rtmRise
  repeat' split
  all_goals first
    | (rw [rtmLatch_eq]; exact fun h => Flow.noConfusion h)
    | exact fun h => Flow.noConfusion h
    | (unfold rtmCapture rtmWriteRow; dsimp only; repeat' split
       all_goals exact fun h => Flow.noConfusion h)

theorem answer_reach (x : InLine) (s : State) : Reach s (answer x s).2 := by
  have e := answer_world x s
  rw [e]
  have hb := drawBit_same s
  have hc : (drawBit s).2.chip = s.chip := drawBit_chip s
  cases x
  · refine Reach.ofWorld s ?_ ?_ ?_ ?_ <;> unfold answer answerSdi <;> dsimp only <;> repeat' split
    all_goals first
      | rfl
      | exact hb.1
      | (intro h; simp_all [State.world])
  · refine Reach.ofWorld s ?_ ?_ ?_ ?_ <;> unfold answer answerSvld <;> dsimp only <;> repeat' split
    all_goals first
      | rfl
      | exact hb.1
      | exact fun h => h
      | (intro h; rfl)
      | exact fun h => hb.2.trans h
      | exact fun h => (congrArg (fun c : Chip => c.mem.wf) hc).trans h
      | exact fun _ => hc
  · exact Reach.ofWorld s hb.1 (fun h => hb.2.trans h)
      (fun h => by change (drawBit s).2.chip.mem.wf = true; rw [hc]; exact h) (fun _ => hc)

theorem sample_reach (x : InLine) (s : State) : Reach s (sample x s).2 := by
  have h := answer_reach x s
  obtain ⟨es, hl, hn⟩ := h.log
  have hl' : (answer x s).2.log = s.log := by rw [answer_world]; rfl
  have hn' : (answer x s).2.lines = s.lines := by rw [answer_world]; rfl
  exact ⟨h.cfg, h.result, h.cmd, h.txlen, h.txbuf, h.host, h.hostData, h.busy, h.cfgerr, h.kind, h.sdiFrame, h.mem,
    h.rxbuf, h.oracle, [.r x (answer x s).1], rfl, hn'⟩

/-! ### Micro-steps and programs -/

theorem setLine_reach {x : OutLine} {v : Bool} {s t : State} (h : setLine x v s = .go t) : Reach s t := by
  unfold setLine at h
  cases x
  case sck =>
    dsimp only at h
    split at h
    · exact (reach_recordWrite .sck v s).trans (envRise_reach h)
    · cases h; exact reach_recordWrite .sck v s
  all_goals (cases h; exact reach_recordWrite _ v s)

theorem setLine_never_stops (x : OutLine) (v : Bool) (s t : State) (e : Result) : setLine x v s ≠ .stop t e := by
  unfold setLine
  cases x
  case sck =>
    dsimp only
    split
    · exact envRise_never_stops _ _ _
    · simp
  all_goals simp

/-- What a run leaves in the banks is canonical. -/
theorem contentsAfterRun_wf {c : ChipExec} {m : Memory} {e : RunEffect} (h : m.wf = true) :
    (contentsAfterRun c m e).wf = true := by
  cases c with
  | keeps rows => exact Memory.wf_copyRanges (Memory.wf_ofCells _)
  | changesOnly rows => exact Memory.wf_copyRanges h
  | relation n => exact Memory.wf_ofCells _

theorem chipAfterRun_reach (s : State) : Reach s (chipAfterRun s) := by
  have e := chipAfterRun_world s
  rw [e]
  have hd := drawEffect_same s
  refine Reach.ofWorld s ?_ ?_ ?_ ?_ <;> unfold chipAfterRun <;> split
  · rfl
  · exact hd.1
  · exact fun h => h
  · exact fun h => hd.2.trans h
  · exact fun h => h
  · exact contentsAfterRun_wf
  · exact fun _ => rfl
  · rename_i hk
    intro h
    rw [hk] at h
    cases h

theorem actTick_reach {n : BitVec 32} {s t : State} (h : actTick n s = .go t) : Reach s t := by
  unfold actTick at h
  obtain ⟨s1, h1, h2⟩ := Flow.bind_eq_go.1 h
  obtain ⟨s2, h3, h4⟩ := Flow.bind_eq_go.1 h2
  cases h4
  exact ((setLine_reach h1).trans (setLine_reach h3)).trans
    (Reach.ofSame rfl rfl rfl rfl rfl rfl rfl rfl rfl rfl rfl rfl rfl rfl)

theorem actTick_never_stops (n : BitVec 32) (s t : State) (e : Result) : actTick n s ≠ .stop t e := by
  unfold actTick
  cases h1 : setLine .sck true s with
  | go s1 =>
    rw [Flow.bind_go]
    cases h2 : setLine .sck false s1 with
    | go s2 => simp
    | stop s2 e2 => exact absurd h2 (setLine_never_stops _ _ _ _ _)
    | stuck f => simp
  | stop s1 e1 => exact absurd h1 (setLine_never_stops _ _ _ _ _)
  | stuck f => simp

/-- How a micro-step can end, and what it reaches when it does. -/
def Flow.Within (s : State) : Flow → Prop
  | .go t => Reach s t
  | .stop t _ => Reach s t
  | .stuck _ => True

theorem act_within (a : Act) (s : State) : (act a s).Within s := by
  cases a
  case set x v =>
    change (setLine x v s).Within s
    cases h : setLine x v s with
    | go t => exact setLine_reach h
    | stop t e => exact absurd h (setLine_never_stops _ _ _ _ _)
    | stuck f => trivial
  case out b left =>
    exact (reach_recordWrite .sdo b s).trans
      (Reach.ofSame rfl rfl rfl rfl rfl rfl rfl rfl rfl rfl rfl rfl rfl rfl)
  case tick left =>
    change (actTick left s).Within s
    cases h : actTick left s with
    | go t => exact actTick_reach h
    | stop t e => exact absurd h (actTick_never_stops _ _ _ _)
    | stuck f => trivial
  case cycle left =>
    change (actCycle left s).Within s
    unfold actCycle
    dsimp only
    have h := (sample_reach .sdi s).trans (sample_reach .svld (sample .sdi s).2)
    split
    · exact h.trans (Reach.ofSame rfl rfl rfl rfl rfl rfl rfl rfl rfl rfl rfl rfl rfl rfl)
    · exact h
  case rxStore b a =>
    refine ⟨rfl, rfl, rfl, rfl, rfl, rfl, rfl, rfl, rfl, rfl, id, id, fun h c => ?_, fun _ => rfl, [], rfl, rfl⟩
    by_cases hc : c = b
    · subst hc
      change ((s.rxbuf.set c _).get c).wf = true
      rw [PerBank_get_set_same]
      exact Buffer.wf_write (h c)
    · change ((s.rxbuf.set b _).get c).wf = true
      rw [PerBank_get_set_other _ _ hc]
      exact h c
  case poll =>
    change (actPoll s).Within s
    unfold actPoll
    dsimp only
    have h := sample_reach .done s
    split
    · refine h.trans (Reach.trans ?_ (chipAfterRun_reach _))
      exact Reach.ofSame rfl rfl rfl rfl rfl rfl rfl rfl rfl rfl rfl rfl rfl rfl
    · exact h.trans (Reach.ofSame rfl rfl rfl rfl rfl rfl rfl rfl rfl rfl rfl rfl rfl rfl)
  case timeout =>
    exact Reach.trans (Reach.ofSame (t := { s with elapsed := s.work.cnt }) rfl rfl rfl rfl rfl rfl rfl rfl rfl rfl rfl
      rfl rfl rfl) (chipAfterRun_reach _)
  case raise e => exact Reach.refl s
  all_goals exact Reach.ofSame rfl rfl rfl rfl rfl rfl rfl rfl rfl rfl rfl rfl rfl rfl

/-- WHATEVER THE ENVIRONMENT, a program that goes on or ends leaves these fields so. -/
theorem runActs_within (p : List Act) (s : State) : (runActs p s).Within s := by
  induction p generalizing s with
  | nil => exact Reach.refl s
  | cons a p ih =>
    rw [runActs_cons]
    have h := act_within a s
    cases ha : act a s with
    | go t =>
      rw [ha] at h
      rw [Flow.bind_go]
      have h2 := ih t
      cases hp : runActs p t with
      | go u => rw [hp] at h2; exact h.trans h2
      | stop u e => rw [hp] at h2; exact h.trans h2
      | stuck f => trivial
    | stop t e => rw [ha] at h; exact h
    | stuck f => trivial

theorem runActs_reach {p : List Act} {s t : State} (h : runActs p s = .go t) : Reach s t := by
  have := runActs_within p s
  rwa [h] at this

theorem runActs_reach_stop {p : List Act} {s t : State} {e : Result} (h : runActs p s = .stop t e) : Reach s t := by
  have := runActs_within p s
  rwa [h] at this

end Sys2Proof.Machine
end

