-- ==== Sys2Proof/Laws/Rest.lean ====
section
/-!
SUPPORT. The idle-line rule (40_primitives.md R119) for every program, whatever the environment: each micro-operation
starts and ends with the scan lines at rest and no selection pending, and a command that stops in the middle stops there
too. Also the bound on the receive lengths.
-/

namespace Sys2Proof.Machine

open Sys2Proof

/-- The scan lines at rest but for test mode (40_primitives.md R119), no selection pending. -/
structure Rest (s : State) : Prop where
  sck : s.lines.sck = false
  srst : s.lines.srst = false
  cse : s.lines.cse = false
  load : s.lines.load = false
  pend : s.chip.selPend = false

/-- A program that goes on from `P` gets to `Q`, and one that ends gets to `R`, whatever the environment. -/
def Leads (P : State → Prop) (p : List Act) (Q R : State → Prop) : Prop :=
  ∀ s, P s → match runActs p s with
    | .go t => Q t
    | .stop t _ => R t
    | .stuck _ => True

theorem Leads.append {P Q Q' R : State → Prop} {p q : List Act} (h : Leads P p Q R) (k : Leads Q q Q' R) :
    Leads P (p ++ q) Q' R := by
  intro s hs
  rw [runActs_append]
  have h1 := h s hs
  cases hp : runActs p s with
  | go t => rw [hp] at h1; exact k t h1
  | stop t e => rw [hp] at h1; exact h1
  | stuck f => trivial

theorem Leads.nil {P R : State → Prop} : Leads P [] P R := fun _ hs => hs

theorem Leads.single {P Q R : State → Prop} {a : Act}
    (h : ∀ s, P s → match act a s with
      | .go t => Q t
      | .stop t _ => R t
      | .stuck _ => True) : Leads P [a] Q R := by
  intro s hs
  have h1 := h s hs
  rw [runActs_cons]
  cases ha : act a s with
  | go t => rw [ha] at h1; exact h1
  | stop t e => rw [ha] at h1; exact h1
  | stuck f => trivial

theorem Leads.cons {P Q Q' R : State → Prop} {a : Act} {q : List Act} (h : Leads P [a] Q R) (k : Leads Q q Q' R) :
    Leads P (a :: q) Q' R := Leads.append h k

theorem Leads.flatMap {α : Type} {P R : State → Prop} (l : List α) {f : α → List Act}
    (h : ∀ a ∈ l, Leads P (f a) P R) : Leads P (l.flatMap f) P R := by
  induction l with
  | nil => exact Leads.nil
  | cons a l ih =>
    rw [List.flatMap_cons]
    exact (h a (by simp)).append (ih fun b hb => h b (by simp [hb]))

theorem Leads.weaken {P P' Q Q' R R' : State → Prop} {p : List Act} (h : Leads P p Q R) (hp : ∀ s, P' s → P s)
    (hq : ∀ s, Q s → Q' s) (hr : ∀ s, R s → R' s) : Leads P' p Q' R' := by
  intro s hs
  have h1 := h s (hp s hs)
  cases ha : runActs p s with
  | go t => rw [ha] at h1; exact hq t h1
  | stop t e => rw [ha] at h1; exact hr t h1
  | stuck f => trivial

/-- A micro-step that moves neither the lines nor the selection. -/
theorem Leads.still {P R : State → Prop} {a : Act} (hp : ∀ s t, P s → t.lines = s.lines → t.chip = s.chip →
    t.env = s.env → P t) (ha : ∀ s, ∃ t, act a s = .go t ∧ t.lines = s.lines ∧ t.chip = s.chip ∧ t.env = s.env) :
    Leads P [a] P R := by
  refine Leads.single fun s hs => ?_
  obtain ⟨t, e, h1, h2, h3⟩ := ha s
  rw [e]
  exact hp s t hs h1 h2 h3

/-! ### What a pulse does to a pending selection -/

/-- The scan lines between pulses: their levels, and whether a selection may be pending. -/
structure Held (srst cse load pend : Bool) (s : State) : Prop where
  sck : s.lines.sck = false
  srst : s.lines.srst = srst
  cse : s.lines.cse = cse
  load : s.lines.load = load
  pend : pend = false → s.chip.selPend = false
  oracle : s.env.kind = .oracle → s.chip.selPend = false

theorem held_rest {s : State} : Held false false false false s ↔ Rest s :=
  ⟨fun h => ⟨h.sck, h.srst, h.cse, h.load, h.pend rfl⟩, fun h => ⟨h.sck, h.srst, h.cse, h.load, fun _ => h.pend, fun _ => h.pend⟩⟩

theorem Lines_pulse {l : Lines} (h : l.sck = false) : (l.set .sck true).set .sck false = l := by
  cases l
  simp only at h
  subst h
  rfl

/-- A tick goes on only through the rising edge. -/
theorem act_tick_of {s t : State} {n : BitVec 32} (hs : s.lines.sck = false) (h : act (.tick n) s = .go t) :
    ∃ u, envRise (recordWrite .sck true s) = .go u ∧ t.chip = u.chip ∧ t.env = u.env ∧ t.lines = s.lines := by
  change actTick n s = _ at h
  unfold actTick at h
  obtain ⟨s1, h1, h2⟩ := Flow.bind_eq_go.1 h
  obtain ⟨s2, h3, h4⟩ := Flow.bind_eq_go.1 h2
  cases h4
  unfold setLine at h1
  simp only [hs, Bool.not_false, Bool.and_self, if_true] at h1
  have h5 : s2 = recordWrite .sck false s1 := by
    unfold setLine at h3
    simp only [Bool.false_and, Bool.false_eq_true, if_false] at h3
    cases h3
    rfl
  refine ⟨s1, h1, ?_, ?_, ?_⟩
  · rw [h5]; rfl
  · rw [h5]; rfl
  · rw [h5]
    have e := envRise_world h1
    have hl : s1.lines = (recordWrite .sck true s).lines := by rw [e]; rfl
    change s1.lines.set .sck false = _
    rw [hl]
    exact Lines_pulse hs

/-- After a rising edge nothing is pending unless the select register is shifting. -/
theorem envRise_pend {s t : State} (h : envRise s = .go t) (ho : s.env.kind = .oracle → s.chip.selPend = false)
    (hc : s.lines.cse = false ∨ s.lines.srst = true) : t.chip.selPend = false := by
  unfold envRise at h
  cases hk : s.env.kind with
  | oracle =>
    rw [hk] at h
    cases h
    exact ho hk
  | rtm =>
    rw [hk] at h
    dsimp only at h
    unfold rtmRise at h
    split at h
    · cases h; rfl
    rename_i hsrst
    have hcse : s.lines.cse = false := hc.resolve_right hsrst
    split at h
    · split at h
      · cases h
      · rename_i hno
        cases h
        simp only [Bool.or_eq_true, not_or, Bool.not_eq_true] at hno
        exact hno.1.2
    split at h
    · rename_i hcse'
      rw [hcse] at hcse'
      cases hcse'
    split at h
    · split at h
      · cases h
      · rw [rtmLatch_eq] at h
        cases h
        change (latchWorld _ _ _).chip.selPend = false
        unfold latchWorld
        split
        · rfl
        · split <;> rfl
    · rename_i hp
      simp only [Bool.not_eq_true] at hp
      split at h
      · have hr : ∀ (x : State) (b : Bank) (p : Payload) (u : State), x.chip.selPend = false →
            rtmWriteRow x b p = .go u → u.chip.selPend = false := by
          intro x b p u hx hu
          unfold rtmWriteRow at hu
          split at hu
          · cases hu
          split at hu
          · cases hu; exact hx
          · cases hu
            change (drawWord x).2.chip.selPend = false
            rw [drawWord_chip]
            exact hx
        unfold rtmCapture at h
        split at h
        · cases h
        · split at h
          · cases h; exact hp
          · dsimp only at h
            split at h
            · exact hr _ _ _ _ (by exact hp) h
            · cases h; exact hp
      · cases h; exact hp

theorem Held.of {a b c d : Bool} {s t : State} (h : Held a b c d s) (hl : t.lines = s.lines) (hc : t.chip = s.chip)
    (he : t.env = s.env) : Held a b c d t :=
  ⟨by rw [hl]; exact h.sck, by rw [hl]; exact h.srst, by rw [hl]; exact h.cse, by rw [hl]; exact h.load,
    by rw [hc]; exact h.pend, by rw [hc, he]; exact h.oracle⟩

theorem Held.still {a b c d : Bool} {R : State → Prop} {x : Act}
    (hx : ∀ s, ∃ t, act x s = .go t ∧ t.lines = s.lines ∧ t.chip = s.chip ∧ t.env = s.env) :
    Leads (Held a b c d) [x] (Held a b c d) R :=
  Leads.still (fun _ _ h hl hc he => h.of hl hc he) hx

theorem Leads.mid {P Q S Q' R : State → Prop} {p q : List Act} (h : Leads P p Q R) (hs : ∀ s, Q s → S s)
    (k : Leads S q Q' R) : Leads P (p ++ q) Q' R :=
  Leads.append (h.weaken (fun _ x => x) hs (fun _ x => x)) k

/-- One pulse: whatever was pending is latched or reset, unless `CSE` is asserted. -/
theorem leads_tick {a b c d e : Bool} {R : State → Prop} {n : BitVec 32} (hc : b = false ∨ a = true ∨ e = true) :
    Leads (Held a b c d) [.tick n] (Held a b c e) R := by
  refine Leads.single fun s hs => ?_
  cases ht : act (.tick n) s with
  | stuck f => trivial
  | stop t r => exact absurd ht (actTick_never_stops n s t r)
  | go t =>
    obtain ⟨u, hu, h1, h2, h3⟩ := act_tick_of hs.sck ht
    have hk : t.env.kind = s.env.kind := (actTick_reach ht).kind
    refine ⟨by rw [h3]; exact hs.sck, by rw [h3]; exact hs.srst, by rw [h3]; exact hs.cse, by rw [h3]; exact hs.load,
      fun hf => ?_, fun ho => ?_⟩
    · rw [h1]
      refine envRise_pend hu hs.oracle ?_
      obtain hb | ha | hb := hc
      · exact Or.inl (hs.cse.trans hb)
      · exact Or.inr (hs.srst.trans ha)
      · rw [hf] at hb
        cases hb
    · have ho' : s.env.kind = .oracle := hk ▸ ho
      rw [(actTick_reach ht).oracle ho']
      exact hs.oracle ho'

theorem leads_pulse {a b c d : Bool} {R : State → Prop} (n : Nat) (hc : b = false ∨ a = true ∨ d = true) :
    Leads (Held a b c d) (pulse n) (Held a b c d) R := by
  induction n with
  | zero => exact Leads.nil
  | succ n ih => exact Leads.cons (leads_tick hc) ih

theorem leads_out {a b c d : Bool} {R : State → Prop} (x : Bool) (n : BitVec 6) :
    Leads (Held a b c d) [.out x n] (Held a b c d) R :=
  Leads.single fun _ hs => ⟨hs.sck, hs.srst, hs.cse, hs.load, hs.pend, hs.oracle⟩

theorem leads_driveBits {a b c d : Bool} {R : State → Prop} (l : BitSeq) (hc : b = false ∨ a = true ∨ d = true) :
    Leads (Held a b c d) (driveBits l) (Held a b c d) R := by
  induction l with
  | nil => exact Leads.nil
  | cons x l ih => exact Leads.cons (leads_out x _) (Leads.cons (leads_tick hc) ih)

theorem leads_driveSeq {a b c d : Bool} {R : State → Prop} (s l : BitSeq) (hc : b = false ∨ a = true ∨ d = true) :
    Leads (Held a b c d) (driveSeq s l) (Held a b c d) R :=
  Leads.cons (Held.still fun _ => ⟨_, rfl, rfl, rfl, rfl⟩) (leads_driveBits l hc)

/-- Writing one of the scan control lines, or a line outside the scan chain. -/
theorem leads_cse {a b c d : Bool} {R : State → Prop} (v : Bool) :
    Leads (Held a b c d) [.set .cse v] (Held a v c d) R :=
  Leads.single fun _ hs => ⟨hs.sck, hs.srst, rfl, hs.load, hs.pend, hs.oracle⟩

theorem leads_load {a b c d : Bool} {R : State → Prop} (v : Bool) :
    Leads (Held a b c d) [.set .load v] (Held a b v d) R :=
  Leads.single fun _ hs => ⟨hs.sck, hs.srst, hs.cse, rfl, hs.pend, hs.oracle⟩

theorem leads_srst {a b c d : Bool} {R : State → Prop} (v : Bool) :
    Leads (Held a b c d) [.set .srst v] (Held v b c d) R :=
  Leads.single fun _ hs => ⟨hs.sck, rfl, hs.cse, hs.load, hs.pend, hs.oracle⟩

theorem leads_otherLine {a b c d : Bool} {R : State → Prop} (x : OutLine) (v : Bool)
    (hx : x = .tm ∨ x = .clksel ∨ x = .crst ∨ x = .cgec ∨ x = .cgge) :
    Leads (Held a b c d) [.set x v] (Held a b c d) R := by
  refine Leads.single fun s hs => ?_
  obtain rfl | rfl | rfl | rfl | rfl := hx <;> exact ⟨hs.sck, hs.srst, hs.cse, hs.load, hs.pend, hs.oracle⟩

theorem Held.loosen {a b c d : Bool} (e : Bool) (h : e = false → d = false) (s : State) (hs : Held a b c d s) :
    Held a b c e s :=
  ⟨hs.sck, hs.srst, hs.cse, hs.load, fun he => hs.pend (h he), hs.oracle⟩

/-! ### The micro-operations and programs start and end at rest -/

theorem leads_select (id : BitVec 8) {R : State → Prop} :
    Leads (Held false false false false) (select id) (Held false false false false) R := by
  unfold select shiftOut
  refine Leads.append (Leads.append (Q := Held false true false true) ?_ (leads_cse false))
    (leads_tick (Or.inl rfl))
  refine Leads.append (Q := Held false true false true) ?_ (leads_driveSeq _ _ (by tauto))
  exact Leads.cons (Held.still fun _ => ⟨_, rfl, rfl, rfl, rfl⟩)
    ((leads_cse true).weaken (fun _ x => x) (Held.loosen true (by simp)) (fun _ x => x))

theorem leads_writePayload (t : LoadTicks) (a : BitVec 16) (d : Word) (e w : Bool) (m : BitVec 4) {R : State → Prop} :
    Leads (Held false false false false) (writePayload t a d e w m) (Held false false false false) R := by
  unfold writePayload loadSequence shiftOut
  refine Leads.append (Leads.append (Held.still fun _ => ⟨_, rfl, rfl, rfl, rfl⟩) (leads_driveSeq _ _ (by tauto))) ?_
  exact Leads.append (Leads.append (Leads.append (Leads.append (leads_pulse _ (by tauto)) (leads_load true))
    (leads_pulse _ (by tauto))) (leads_load false)) (leads_pulse _ (by tauto))

theorem leads_busReset (c : Config) {R : State → Prop} :
    Leads (Held false false false false) (busReset c) (Held false false false false) R := by
  unfold busReset
  refine Leads.append (Leads.append (Leads.append (Leads.append (Q := Held true false false false) ?_
    (leads_pulse _ (Or.inl rfl))) (leads_srst false)) (leads_pulse _ (Or.inl rfl))) (Held.still fun _ => ⟨_, rfl, rfl, rfl, rfl⟩)
  exact Leads.cons (Held.still fun _ => ⟨_, rfl, rfl, rfl, rfl⟩) (leads_srst true)

theorem leads_tmEnter {a b c d : Bool} {R : State → Prop} : Leads (Held a b c d) tmEnter (Held a b c d) R :=
  Leads.cons (Held.still fun _ => ⟨_, rfl, rfl, rfl, rfl⟩) (leads_otherLine .tm true (by simp))

theorem leads_tmExit {a b c d : Bool} {R : State → Prop} : Leads (Held a b c d) tmExit (Held a b c d) R :=
  Leads.cons (Held.still fun _ => ⟨_, rfl, rfl, rfl, rfl⟩) (leads_otherLine .tm false (by simp))

theorem leads_fullChainClear (c : Config) {R : State → Prop} :
    Leads (Held false false false false) (fullChainClear c) (Held false false false false) R := by
  unfold fullChainClear
  refine Leads.append (Leads.append (Leads.append (Leads.append (leads_busReset c) leads_tmEnter)
    (Leads.flatMap _ fun i _ => ?_)) (Held.still fun _ => ⟨_, rfl, rfl, rfl, rfl⟩)) leads_tmExit
  exact Leads.append (Leads.append (Held.still fun _ => ⟨_, rfl, rfl, rfl, rfl⟩) (leads_select _))
    (leads_writePayload _ _ _ _ _ _)

theorem leads_writeBank (s : State) (b : Bank) :
    Leads (Held false false false false) (writeBank s b) (Held false false false false) (Held false false false false) := by
  unfold writeBank
  split
  · exact Leads.single fun _ hs => hs
  · unfold writeBody
    refine Leads.append (Leads.append (Leads.append (Leads.append (Leads.append (leads_busReset _) leads_tmEnter)
      (leads_select _)) (Leads.flatMap _ fun i _ => ?_)) (Held.still fun _ => ⟨_, rfl, rfl, rfl, rfl⟩)) leads_tmExit
    exact Leads.append (Held.still fun _ => ⟨_, rfl, rfl, rfl, rfl⟩) (leads_writePayload _ _ _ _ _ _)

theorem Held.sample {a b c d : Bool} {s : State} (x : InLine) (h : Held a b c d s) :
    Held a b c d (Machine.sample x s).2 := by
  have hr := sample_reach x s
  have hl : (Machine.sample x s).2.lines = s.lines := by rw [sample_world]; rfl
  have hc : (Machine.sample x s).2.chip = s.chip := by
    have hd := drawBit_chip s
    cases x
    · change (answerSdi s).2.chip = s.chip
      unfold answerSdi
      split
      · rfl
      · split
        · split
          · rfl
          · exact hd
        · exact hd
    · change (answerSvld s).2.chip = s.chip
      unfold answerSvld
      split
      · split <;> rfl
      · exact hd
    · exact hd
  exact ⟨by rw [hl]; exact h.sck, by rw [hl]; exact h.srst, by rw [hl]; exact h.cse, by rw [hl]; exact h.load,
    by rw [hc]; exact h.pend, by rw [hc, hr.kind]; exact h.oracle⟩

theorem leads_cycle {a b c d : Bool} (n : BitVec 6) : Leads (Held a b c d) [.cycle n] (Held a b c d) (Held a b c d) := by
  refine Leads.single fun s hs => ?_
  have h2 := (hs.sample .sdi).sample .svld
  change match actCycle n s with
    | .go t => Held a b c d t
    | .stop t _ => Held a b c d t
    | .stuck _ => True
  unfold actCycle
  dsimp only
  split
  · rename_i t ht
    split at ht
    · cases ht; exact h2.of rfl rfl rfl
    · cases ht
  · rename_i t e ht
    split at ht
    · cases ht
    · cases ht; exact h2
  · trivial

theorem leads_shiftIn (n : Nat) :
    Leads (Held false false false false) (shiftIn n) (Held false false false false) (Held false false false false) := by
  unfold shiftIn
  refine Leads.cons (Held.still fun _ => ⟨_, rfl, rfl, rfl, rfl⟩)
    (Leads.cons (Held.still fun _ => ⟨_, rfl, rfl, rfl, rfl⟩) ?_)
  induction n with
  | zero => exact Leads.nil
  | succ n ih => exact Leads.cons (leads_cycle _) (Leads.cons (leads_tick (Or.inl rfl)) ih)

theorem leads_readBank (c : Config) (b : Bank) (len : Length) :
    Leads (Held false false false false) (readBank c b len) (Held false false false false)
      (Held false false false false) := by
  unfold readBank
  split
  · exact Held.still fun _ => ⟨_, rfl, rfl, rfl, rfl⟩
  · unfold readBody
    refine Leads.append (Leads.append (Leads.append (Leads.append (Leads.append (Leads.append
      (Held.still fun _ => ⟨_, rfl, rfl, rfl, rfl⟩) (leads_busReset _)) leads_tmEnter)
      (Leads.flatMap _ fun i _ => ?_)) (Held.still fun _ => ⟨_, rfl, rfl, rfl, rfl⟩)) (leads_select _)) leads_tmExit
    exact Leads.append (Leads.append (Leads.append (Leads.append (Leads.append
      (Held.still fun _ => ⟨_, rfl, rfl, rfl, rfl⟩) (leads_select _)) (leads_writePayload _ _ _ _ _ _))
      (leads_select _)) (leads_shiftIn _)) (Held.still fun _ => ⟨_, rfl, rfl, rfl, rfl⟩)

theorem leads_holdChip {a b c d : Bool} {R : State → Prop} : Leads (Held a b c d) holdChip (Held a b c d) R :=
  Leads.cons (leads_otherLine .clksel _ (by simp)) (leads_otherLine .crst _ (by simp))

theorem leads_loadSession (s : State) (h : Bool) :
    Leads (Held false false false false) (loadSession s h) (Held false false false false)
      (Held false false false false) := by
  unfold loadSession
  refine Leads.append (Leads.append (Leads.append leads_holdChip (leads_fullChainClear _)) (leads_writeBank _ _)) ?_
  split
  · exact leads_writeBank _ _
  · exact Leads.nil

theorem leads_unloadSession (c : Config) (lm li lo : Length) :
    Leads (Held false false false false) (unloadSession c lm li lo) (Held false false false false)
      (Held false false false false) := by
  unfold unloadSession
  exact Leads.append (Leads.append (Leads.append leads_holdChip (leads_readBank _ _ _)) (leads_readBank _ _ _))
    (leads_readBank _ _ _)

theorem chipAfterRun_held {a b c d : Bool} {s : State} (h : Held a b c d s) : Held a b c d (chipAfterRun s) := by
  have hr := chipAfterRun_reach s
  have hl : (chipAfterRun s).lines = s.lines := by rw [chipAfterRun_world]; rfl
  have hp : (chipAfterRun s).chip.selPend = s.chip.selPend := by
    unfold chipAfterRun
    split
    · rfl
    · change (drawEffect s).2.chip.selPend = _
      rw [drawEffect_chip]
  exact ⟨by rw [hl]; exact h.sck, by rw [hl]; exact h.srst, by rw [hl]; exact h.cse, by rw [hl]; exact h.load,
    by rw [hp]; exact h.pend, by rw [hp, hr.kind]; exact h.oracle⟩

theorem leads_poll {a b c d : Bool} : Leads (Held a b c d) [.poll] (Held a b c d) (Held a b c d) := by
  refine Leads.single fun s hs => ?_
  have h2 := hs.sample .done
  change match actPoll s with
    | .go t => Held a b c d t
    | .stop t _ => Held a b c d t
    | .stuck _ => True
  unfold actPoll
  dsimp only
  split
  · rename_i t ht
    split at ht
    · cases ht
    · cases ht; exact h2.of rfl rfl rfl
  · rename_i t e ht
    split at ht
    · cases ht
      exact chipAfterRun_held (h2.of rfl rfl rfl)
    · cases ht
  · trivial

theorem leads_runProgram (n : Nat) {a b c d : Bool} :
    Leads (Held a b c d) (runProgram n) (Held a b c d) (Held a b c d) := by
  unfold runProgram
  refine Leads.append (Q := Held a b c d) (Leads.append (Q := Held a b c d)
    (Leads.cons (Held.still fun _ => ⟨_, rfl, rfl, rfl, rfl⟩) (Leads.cons (leads_otherLine .clksel _ (by simp))
      (Leads.cons (leads_otherLine .crst _ (by simp)) (Held.still fun _ => ⟨_, rfl, rfl, rfl, rfl⟩)))) ?_) ?_
  · induction n with
    | zero => exact Leads.nil
    | succ n ih => exact Leads.cons leads_poll ih
  · exact Leads.single fun s hs => chipAfterRun_held (hs.of rfl rfl rfl)

theorem leads_driveClkgen (o : CkcfgOrder) (q : BitSeq) {R : State → Prop} :
    Leads (Held false false false false) (driveClkgen o q) (Held false false false false) R := by
  unfold driveClkgen
  refine Leads.append (Leads.cons (Held.still fun _ => ⟨_, rfl, rfl, rfl, rfl⟩)
    (Leads.cons (leads_otherLine .cgec _ (by simp)) (leads_otherLine .cgge _ (by simp)))) (leads_driveSeq _ _ (by tauto))

end Sys2Proof.Machine
end

