-- ==== Sys2Proof/Laws/Registers.lean ====
section
/-!
SUPPORT. The engine's own registers after each program, one lemma per field; the events of each program as the claims
write them; and how a command ends once its program is known.
-/

namespace Sys2Proof.Machine

open Sys2Proof

/-! ### The fields after a program's own part -/

theorem engineRun_field {α : Type} (f : State → α) (p : List Act) (s : State)
    (h : ∀ a ∈ p, ∀ s, f (engineAct a s) = f s) : f (engineRun p s) = f s := by
  induction p generalizing s with
  | nil => rfl
  | cons a p ih =>
    rw [engineRun_cons, ih _ fun b hb => h b (by simp [hb])]
    exact h a (by simp) s

@[simp] theorem engineRun_result (p : List Act) (s : State) : (engineRun p s).result = s.result :=
  engineRun_field State.result p s fun a _ s => by cases a <;> rfl

@[simp] theorem engineRun_elapsed (p : List Act) (s : State) : (engineRun p s).elapsed = s.elapsed :=
  engineRun_field State.elapsed p s fun a _ s => by cases a <;> rfl

@[simp] theorem engineRun_cmd (p : List Act) (s : State) : (engineRun p s).cmd = s.cmd :=
  engineRun_field State.cmd p s fun a _ s => by cases a <;> rfl

@[simp] theorem engineRun_txlen (p : List Act) (s : State) : (engineRun p s).txlen = s.txlen :=
  engineRun_field State.txlen p s fun a _ s => by cases a <;> rfl

@[simp] theorem engineRun_txbuf (p : List Act) (s : State) : (engineRun p s).txbuf = s.txbuf :=
  engineRun_field State.txbuf p s fun a _ s => by cases a <;> rfl

@[simp] theorem engineRun_host (p : List Act) (s : State) : (engineRun p s).host = s.host :=
  engineRun_field State.host p s fun a _ s => by cases a <;> rfl

@[simp] theorem engineRun_hostData (p : List Act) (s : State) : (engineRun p s).hostData = s.hostData :=
  engineRun_field State.hostData p s fun a _ s => by cases a <;> rfl

/-- The micro-steps that write the receive side. -/
def Act.writesRx : Act → Bool
  | .rxClear _ => true
  | .rxStore _ _ => true
  | _ => false

theorem engineRun_rxlen {p : List Act} (s : State) (h : p.all (fun a => !a.writesRx) = true) :
    (engineRun p s).rxlen = s.rxlen :=
  engineRun_field State.rxlen p s fun a ha s => by
    have := List.all_eq_true.1 h a ha
    cases a <;> first | rfl | simp [Act.writesRx] at this

theorem engineRun_rxbuf {p : List Act} (s : State) (h : p.all (fun a => !a.writesRx) = true) :
    (engineRun p s).rxbuf = s.rxbuf :=
  engineRun_field State.rxbuf p s fun a ha s => by
    have := List.all_eq_true.1 h a ha
    cases a <;> first | rfl | simp [Act.writesRx] at this

/-- `STATUS` after a program: only the end of a bus reset writes it (10_state.md R26). -/
theorem engineRun_status (p : List Act) (s : State) :
    (engineRun p s).status = if .clearFault ∈ p then s.status.clearFault else s.status := by
  induction p generalizing s with
  | nil => rfl
  | cons a p ih =>
    rw [engineRun_cons, ih]
    cases a
    case clearFault =>
      have : (recoverFault s).status.clearFault = s.status.clearFault := rfl
      simp only [engineAct, List.mem_cons, true_or, if_true, this]
      split <;> rfl
    all_goals
      simp only [List.mem_cons, reduceCtorEq, false_or]
      rfl

/-! ### The events of each program, as the claims write them -/

theorem progEvents_pulse (n : Nat) : progEvents (pulse n) = pulseEvents n := pulse_events n

theorem progEvents_driveBits (l : BitSeq) : progEvents (driveBits l) = bitEvents l := driveBits_events l

theorem progEvents_select (id : BitVec 8) : progEvents (select id) = selectEvents id := by
  rw [select_events, progEvents_driveBits]
  simp [selectEvents, pulseEvents]

theorem progEvents_selectChain (id : BitVec 4) : progEvents (selectChain id) = selectEvents (id.setWidth 8) :=
  progEvents_select _

theorem progEvents_writePayload (t : LoadTicks) (a : BitVec 16) (d : Word) (e w : Bool) (m : BitVec 4) :
    progEvents (writePayload t a d e w m) = payloadEvents t a d e w m := by
  simp only [writePayload, loadSequence, payloadEvents, progEvents_append, shiftOut_events, progEvents_driveBits,
    progEvents_pulse, progEvents_cons, progEvents_nil, actEvents, List.append_nil, List.nil_append, List.append_assoc]

theorem progEvents_busReset (c : Config) : progEvents (busReset c) = busResetEvents c := by
  simp only [busReset, busResetEvents, progEvents_append, progEvents_pulse, progEvents_cons, progEvents_nil, actEvents,
    List.append_nil, List.nil_append]

theorem progEvents_tmEnter : progEvents tmEnter = [.w .tm true] := rfl

theorem progEvents_tmExit : progEvents tmExit = [.w .tm false] := rfl

theorem setWidth_ofNat_id (i : Nat) (h : i < 9) : (BitVec.ofNat 4 i).setWidth 8 = BitVec.ofNat 8 i := by
  apply BitVec.eq_of_toNat_eq
  simp
  omega

theorem progEvents_fullChainClear (c : Config) : progEvents (fullChainClear c) = clearEvents c := by
  have h : (List.range Config.nchain).flatMap (fun a => progEvents (clearTarget c a)) =
      (List.range 9).flatMap (fun id =>
        selectEvents (BitVec.ofNat 8 id) ++ payloadEvents c.loadTicks 0 0 false false maskAll) := by
    refine List.flatMap_congr fun i hi => ?_
    have hi9 : i < 9 := List.mem_range.1 hi
    simp only [clearTarget, progEvents_append, progEvents_cons, progEvents_nil, actEvents, List.append_nil,
      List.nil_append, progEvents_selectChain, progEvents_writePayload, setWidth_ofNat_id i hi9]
  simp only [fullChainClear, clearEvents, progEvents_append, progEvents_busReset, progEvents_tmEnter, progEvents_tmExit,
    progEvents_flatMap, h, progEvents_cons, progEvents_nil, actEvents, List.append_nil]

theorem zipIdx_map_range {α : Type} (f : Nat → α) (n : Nat) :
    ((List.range n).map f).zipIdx = (List.range n).map fun a => (f a, a) := by
  apply List.ext_getElem
  · simp
  · intro i h1 h2
    simp

theorem progEvents_writeBody (s : State) (b : Bank) :
    progEvents (writeBody s b (s.txlen.get b).toNat) = writeEvents s.cfg b (s.txWords b) := by
  simp only [writeBody, writeEvents, State.txWords, zipIdx_map_range, List.flatMap_map, progEvents_append,
    progEvents_busReset, progEvents_tmEnter, progEvents_tmExit, progEvents_selectChain, progEvents_flatMap, writeWord,
    progEvents_cons, progEvents_nil, actEvents, List.append_nil, List.nil_append, progEvents_writePayload,
    writeWordEvents]

theorem progEvents_driveClkgen (o : CkcfgOrder) (q : BitSeq) : progEvents (driveClkgen o q) = clkgenEvents o q := by
  simp only [driveClkgen, clkgenEvents, driveSeq_events, progEvents_driveBits, progEvents_cons, actEvents,
    List.nil_append, List.cons_append]

/-- The events that address row `a` of a read. -/
theorem progEvents_readAddr (c : Config) (b : Bank) (a : Nat) :
    progEvents ([.row (BitVec.ofNat 17 a)] ++ selectChain (c.wr.get b)
      ++ writePayload c.loadTicks (BitVec.ofNat 16 a) 0 true false maskAll ++ selectChain (c.rd.get b)) =
      readAddrEvents c b a := by
  simp only [readAddrEvents, progEvents_append, progEvents_selectChain, progEvents_writePayload, progEvents_cons,
    progEvents_nil, actEvents, List.append_nil, List.nil_append]

/-! ### Counts (70_reset_and_hazards.md R214) -/

@[simp] theorem length_pulseEvents (n : Nat) : (pulseEvents n).length = 2 * n := by
  rw [← progEvents_pulse, length_pulse_events]

@[simp] theorem pulseCount_pulseEvents (n : Nat) : pulseCount (pulseEvents n) = n := by
  rw [← progEvents_pulse, pulseCount_pulse]

@[simp] theorem length_bitEvents (l : BitSeq) : (bitEvents l).length = 3 * l.length := by
  rw [← progEvents_driveBits, length_driveBits_events]

@[simp] theorem pulseCount_bitEvents (l : BitSeq) : pulseCount (bitEvents l) = l.length := by
  rw [← progEvents_driveBits, pulseCount_driveBits]

@[simp] theorem length_selectEvents (id : BitVec 8) : (selectEvents id).length = 28 := by
  rw [← progEvents_select, length_select_events]

@[simp] theorem pulseCount_selectEvents (id : BitVec 8) : pulseCount (selectEvents id) = 9 := by
  rw [← progEvents_select, pulseCount_select]

@[simp] theorem length_payloadEvents (a : BitVec 16) (d : Word) (e w : Bool) (m : BitVec 4) :
    (payloadEvents ⟨0, 1, 1⟩ a d e w m).length = 168 := by
  rw [← progEvents_writePayload, length_writePayload_events]

@[simp] theorem pulseCount_payloadEvents (a : BitVec 16) (d : Word) (e w : Bool) (m : BitVec 4) :
    pulseCount (payloadEvents ⟨0, 1, 1⟩ a d e w m) = 56 := by
  rw [← progEvents_writePayload, pulseCount_writePayload]

@[simp] theorem length_busResetEvents (c : Config) : (busResetEvents c).length = 2 * c.resetPulses.toNat + 4 := by
  rw [← progEvents_busReset, length_busReset_events]

@[simp] theorem pulseCount_busResetEvents (c : Config) : pulseCount (busResetEvents c) = c.resetPulses.toNat + 1 := by
  rw [← progEvents_busReset, pulseCount_busReset]

/-- The length of a list of equally long blocks. -/
theorem length_flatMap_const {α β : Type} (l : List α) (f : α → List β) (k : Nat) (h : ∀ a ∈ l, (f a).length = k) :
    (l.flatMap f).length = k * l.length := by
  induction l with
  | nil => rfl
  | cons a l ih =>
    rw [List.flatMap_cons, List.length_append, h a (by simp), ih fun b hb => h b (by simp [hb]), List.length_cons]
    ring

/-- The pulses of a list of blocks with equally many. -/
theorem pulseCount_flatMap_const {α : Type} (l : List α) (f : α → List Event) (k : Nat)
    (h : ∀ a ∈ l, pulseCount (f a) = k) : pulseCount (l.flatMap f) = k * l.length := by
  induction l with
  | nil => rfl
  | cons a l ih =>
    rw [List.flatMap_cons, pulseCount_append, h a (by simp), ih fun b hb => h b (by simp [hb]), List.length_cons]
    ring

/-! ### How a command ends -/

/-- The state with which a command's program starts. -/
def State.accepted (s : State) : State := { s with status := s.status.accept }

@[simp] theorem accepted_cfg (s : State) : s.accepted.cfg = s.cfg := rfl
@[simp] theorem accepted_lines (s : State) : s.accepted.lines = s.lines := rfl
@[simp] theorem accepted_phase (s : State) : s.accepted.phase = s.phase := rfl
@[simp] theorem accepted_result (s : State) : s.accepted.result = s.result := rfl
@[simp] theorem accepted_elapsed (s : State) : s.accepted.elapsed = s.elapsed := rfl
@[simp] theorem accepted_cmd (s : State) : s.accepted.cmd = s.cmd := rfl
@[simp] theorem accepted_txlen (s : State) : s.accepted.txlen = s.txlen := rfl
@[simp] theorem accepted_txbuf (s : State) : s.accepted.txbuf = s.txbuf := rfl
@[simp] theorem accepted_rxlen (s : State) : s.accepted.rxlen = s.rxlen := rfl
@[simp] theorem accepted_rxbuf (s : State) : s.accepted.rxbuf = s.rxbuf := rfl
@[simp] theorem accepted_work (s : State) : s.accepted.work = s.work := rfl
@[simp] theorem accepted_log (s : State) : s.accepted.log = s.log := rfl
@[simp] theorem accepted_chip (s : State) : s.accepted.chip = s.chip := rfl
@[simp] theorem accepted_env (s : State) : s.accepted.env = s.env := rfl
@[simp] theorem accepted_host (s : State) : s.accepted.host = s.host := rfl
@[simp] theorem accepted_hostData (s : State) : s.accepted.hostData = s.hostData := rfl
@[simp] theorem accepted_freeCount (s : State) : s.accepted.freeCount = s.freeCount := rfl
@[simp] theorem accepted_status (s : State) : s.accepted.status = s.status.accept := rfl
@[simp] theorem accept_fault (x : Status) : x.accept.fault = x.fault := rfl
@[simp] theorem accept_cfgerr (x : Status) : x.accept.cfgerr = x.cfgerr := rfl

theorem command_go {s t : State} {p : List Act} (hc : s.status.cfgerr = false) (h : runActs p s.accepted = .go t) :
    command true p s = .next (endCommand .ok t) := by
  unfold command
  simp only [hc, Bool.false_eq_true, if_false, Bool.not_true]
  change (match runActs p s.accepted with
    | .go s2 => _
    | .stop s2 e => _
    | .stuck f => _) = _
  rw [h]

theorem command_stop {s t : State} {p : List Act} {e : Result} (hc : s.status.cfgerr = false)
    (h : runActs p s.accepted = .stop t e) : command true p s = .next (finish e t) := by
  unfold command
  simp only [hc, Bool.false_eq_true, if_false, Bool.not_true]
  change (match runActs p s.accepted with
    | .go s2 => _
    | .stop s2 e => _
    | .stuck f => _) = _
  rw [h]

theorem command_cfgerr {s : State} (l : Bool) (p : List Act) (hc : s.status.cfgerr = true) :
    command l p s = .next (raiseError .configurationError s.accepted) := by
  unfold command
  simp only [hc, if_true]
  rfl

theorem command_illegal {s : State} (p : List Act) (hc : s.status.cfgerr = false) :
    command false p s = .next (raiseError .illegalCommand s.accepted) := by
  unfold command
  simp only [hc, Bool.false_eq_true, if_false, Bool.not_false, if_true]
  rfl

theorem frame_go {s t : State} {p : List Act} (hc : s.status.cfgerr = false) (h : runActs p s = .go t) :
    frame p s = .next { t with phase := .idle } := by
  unfold frame
  simp only [hc, Bool.false_eq_true, if_false]
  rw [h]

theorem frame_stop {s t : State} {p : List Act} {e : Result} (hc : s.status.cfgerr = false)
    (h : runActs p s = .stop t e) : frame p s = .next (finish e t) := by
  unfold frame
  simp only [hc, Bool.false_eq_true, if_false]
  rw [h]

/-- A pure program under an oracle goes on with the world untouched (20_memory.md R55). -/
theorem runActs_oracle {p : List Act} {s : State} (hk : s.env.kind = .oracle) (hp : p.all Act.isPure = true) :
    runActs p s = .go (engineRun p s) := by
  induction p generalizing s with
  | nil => rfl
  | cons a p ih =>
    simp only [List.all_cons, Bool.and_eq_true] at hp
    have h1 : act a s = .go (engineAct a s) := by
      have hr : ∀ u : State, u.env.kind = .oracle → envRise u = .go u := by
        intro u hu
        unfold envRise
        rw [hu]
      have hs : ∀ (x : OutLine) (v : Bool) (u : State), u.env.kind = .oracle → setLine x v u = .go (recordWrite x v u) := by
        intro x v u hu
        unfold setLine
        cases x
        case sck =>
          dsimp only
          split
          · exact hr _ hu
          · rfl
        all_goals rfl
      cases a
      case set x v => exact hs x v s hk
      case tick n =>
        change actTick n s = _
        unfold actTick
        rw [hs _ _ _ hk, Flow.bind_go, hs _ _ _ (by exact hk), Flow.bind_go]
        rfl
      case cycle => simp [Act.isPure] at hp
      case poll => simp [Act.isPure] at hp
      case timeout => simp [Act.isPure] at hp
      case raise => simp [Act.isPure] at hp
      all_goals rfl
    rw [runActs_cons, h1, Flow.bind_go, engineRun_cons]
    exact ih (by have := congrArg (fun w : World => w.env.kind) (engineAct_world a s); exact this.trans hk) hp.2

end Sys2Proof.Machine
end

