-- ==== Sys2Proof/Laws/Commands.lean ====
section
/-!
SUPPORT. The programs of the commands under the RTM (20_memory.md R68): each runs to its end, with the engine's own part
as `engineRun` says and these facts about the chip.
-/

namespace Sys2Proof.Machine

open Sys2Proof

/-- The program goes on, with this world at its end. -/
def RunsTo (p : List Act) (s : State) (w : World) : Prop := runActs p s = .go ((engineRun p s).withWorld w)

theorem RunsTo.append {p q : List Act} {s : State} {w v : World} (h : RunsTo p s w)
    (k : RunsTo q ((engineRun p s).withWorld w) v) : RunsTo (p ++ q) s v := by
  unfold RunsTo at *
  rw [runActs_append_go h, k, engineRun_append, engineRun_withWorld, withWorld_withWorld]

theorem RunsTo.nil (s : State) : RunsTo [] s s.world := rfl

/-- A micro-step that leaves the world alone. -/
theorem RunsTo.single {a : Act} {s : State} (h : act a s = .go (engineAct a s)) : RunsTo [a] s s.world := by
  unfold RunsTo
  rw [runActs_cons, h, Flow.bind_go, runActs_nil, engineRun_cons, engineRun_nil, ← engineAct_world a s, withWorld_world]

/-- What a command's scan operations leave of the environment: only word draws are used up. -/
structure EnvSame (v w : World) : Prop where
  kind : w.env.kind = v.env.kind
  force : w.env.svldForce = v.env.svldForce
  sdiFrame : w.env.sdiFrame = v.env.sdiFrame
  bits : w.env.bits = v.env.bits
  effects : w.env.effects = v.env.effects

theorem EnvSame.refl (v : World) : EnvSame v v := ⟨rfl, rfl, rfl, rfl, rfl⟩

theorem EnvSame.trans {u v w : World} (h : EnvSame u v) (k : EnvSame v w) : EnvSame u w :=
  ⟨k.kind.trans h.kind, k.force.trans h.force, k.sdiFrame.trans h.sdiFrame, k.bits.trans h.bits,
    k.effects.trans h.effects⟩

theorem EnvSame.draw (w : World) : EnvSame w w.draw.2 := by
  unfold World.draw
  cases w.env.words <;> exact ⟨rfl, rfl, rfl, rfl, rfl⟩

/-! ### The bank of a target -/

theorem Config_valid_ids {c : Config} (h : Config.valid c = true) :
    (Config.namedIds c).Nodup ∧ (∀ b, (c.wr.get b).toNat = (c.rd.get b).toNat + 1) ∧
      (∀ i ∈ Config.namedIds c, i.toNat < 9) ∧ ∀ b, (c.cap.get b).toNat ≤ 65536 := by
  simp only [Config.valid, Bool.and_eq_true, decide_eq_true_eq, List.all_eq_true, Bank.all, Config.targetsPaired] at h
  obtain ⟨⟨⟨⟨h1, _⟩, h2⟩, h3⟩, h4⟩ := h
  refine ⟨h2, fun b => h1 b (by cases b <;> simp), h3, fun b => h4 b (by cases b <;> simp)⟩

theorem setWidth8_inj {x y : BitVec 4} (h : x.setWidth 8 = y.setWidth 8) : x = y := by
  apply BitVec.eq_of_toNat_eq
  have := congrArg BitVec.toNat h
  simp only [BitVec.toNat_setWidth] at this
  omega

theorem Config_wr_ne {c : Config} (h : Config.valid c = true) {b d : Bank} (hbd : b ≠ d) :
    c.wr.get b ≠ c.wr.get d := by
  have hn := (Config_valid_ids h).1
  simp only [Config.namedIds, List.nodup_cons, List.mem_cons, not_or] at hn
  cases b <;> cases d <;> simp only [PerBank.get, ne_eq] at * <;> tauto

theorem Config_rd_ne {c : Config} (h : Config.valid c = true) {b d : Bank} (hbd : b ≠ d) :
    c.rd.get b ≠ c.rd.get d := by
  have hn := (Config_valid_ids h).1
  simp only [Config.namedIds, List.nodup_cons, List.mem_cons, not_or] at hn
  cases b <;> cases d <;> simp only [PerBank.get, ne_eq] at * <;> tauto

theorem Config_rd_ne_wr {c : Config} (h : Config.valid c = true) (b d : Bank) : c.rd.get b ≠ c.wr.get d := by
  have hn := (Config_valid_ids h).1
  simp only [Config.namedIds, List.nodup_cons, List.mem_cons, not_or] at hn
  cases b <;> cases d <;> simp only [PerBank.get, ne_eq] at * <;> tauto

theorem bankOfWrite_wr {c : Config} (h : Config.valid c = true) (b : Bank) :
    bankOfWrite c ((c.wr.get b).setWidth 8) = some b := by
  have hne : ∀ d, d ≠ b → ((c.wr.get d).setWidth 8 = (c.wr.get b).setWidth 8) = False := fun d hd => by
    simp only [eq_iff_iff, iff_false]
    exact fun e => Config_wr_ne h hd (setWidth8_inj e)
  unfold bankOfWrite Bank.all
  cases b
  · simp
  · simp [hne .main (by simp)]
  · simp [hne .main (by simp), hne .input (by simp)]

theorem bankOfRead_rd {c : Config} (h : Config.valid c = true) (b : Bank) :
    bankOfRead c ((c.rd.get b).setWidth 8) = some b := by
  have hne : ∀ d, d ≠ b → ((c.rd.get d).setWidth 8 = (c.rd.get b).setWidth 8) = False := fun d hd => by
    simp only [eq_iff_iff, iff_false]
    exact fun e => Config_rd_ne h hd (setWidth8_inj e)
  unfold bankOfRead Bank.all
  cases b
  · simp
  · simp [hne .main (by simp)]
  · simp [hne .main (by simp), hne .input (by simp)]

theorem bankOfRead_wr {c : Config} (h : Config.valid c = true) (b : Bank) :
    bankOfRead c ((c.wr.get b).setWidth 8) = none := by
  have hne : ∀ d, ((c.rd.get d).setWidth 8 = (c.wr.get b).setWidth 8) = False := fun d => by
    simp only [eq_iff_iff, iff_false]
    exact fun e => Config_rd_ne_wr h d b (setWidth8_inj e)
  unfold bankOfRead Bank.all
  simp [hne]

theorem bankOfWrite_rd {c : Config} (h : Config.valid c = true) (b : Bank) :
    bankOfWrite c ((c.rd.get b).setWidth 8) = none := by
  have hne : ∀ d, ((c.wr.get d).setWidth 8 = (c.rd.get b).setWidth 8) = False := fun d => by
    simp only [eq_iff_iff, iff_false]
    exact fun e => Config_rd_ne_wr h b d (setWidth8_inj e.symm)
  unfold bankOfWrite Bank.all
  simp [hne]

theorem bankOfWrite_some {c : Config} {id : BitVec 8} {b : Bank} (h : bankOfWrite c id = some b) :
    (c.wr.get b).setWidth 8 = id := by
  unfold bankOfWrite at h
  simpa using List.find?_some h

theorem bankOfRead_some {c : Config} {id : BitVec 8} {b : Bank} (h : bankOfRead c id = some b) :
    (c.rd.get b).setWidth 8 = id := by
  unfold bankOfRead at h
  simpa using List.find?_some h

/-! ### What a selection and a payload do to the world -/

/-- A selection: the target is selected; on a read target the read register takes the row the write target's register
names, any value past the capacity (20_memory.md R62). -/
theorem latchWorld_facts (cfg : Config) (w : World) (id : BitVec 8) :
    EnvSame w (latchWorld cfg w id) ∧ (latchWorld cfg w id).chip.selected = some id ∧
      (latchWorld cfg w id).chip.selPend = false ∧ (latchWorld cfg w id).chip.treg = w.chip.treg ∧
      (latchWorld cfg w id).chip.mem = w.chip.mem := by
  unfold latchWorld
  split
  · exact ⟨⟨rfl, rfl, rfl, rfl, rfl⟩, rfl, rfl, rfl, rfl⟩
  · split
    · exact ⟨⟨rfl, rfl, rfl, rfl, rfl⟩, rfl, rfl, rfl, rfl⟩
    · have h := EnvSame.draw w
      exact ⟨⟨h.kind, h.force, h.sdiFrame, h.bits, h.effects⟩, rfl, rfl, rfl, rfl⟩

theorem latchWorld_rdSr {cfg : Config} {w : World} {id : BitVec 8} {b : Bank} (hb : bankOfRead cfg id = some b)
    (hr : (regRow (w.chip.treg.get b)).toNat < (cfg.cap.get b).toNat) :
    (latchWorld cfg w id).chip.rdSr = w.chip.mem.readRow b (regRow (w.chip.treg.get b)) := by
  unfold latchWorld
  rw [hb]
  dsimp only
  rw [if_pos hr]

theorem captureWorld_env (cfg : Config) (w : World) (id : BitVec 8) (p : Payload) :
    EnvSame w (captureWorld cfg w id p) := by
  unfold captureWorld
  dsimp only
  have h := EnvSame.draw w
  repeat' split
  · exact EnvSame.refl _
  · exact ⟨rfl, rfl, rfl, rfl, rfl⟩
  · exact ⟨h.kind, h.force, h.sdiFrame, h.bits, h.effects⟩
  · exact ⟨rfl, rfl, rfl, rfl, rfl⟩

theorem captureWorld_selected (cfg : Config) (w : World) (id : BitVec 8) (p : Payload) :
    (captureWorld cfg w id p).chip.selected = w.chip.selected := by
  unfold captureWorld
  dsimp only
  repeat' split
  all_goals rfl

/-- The write-data registers once the selected target `id` has captured `v` (20_memory.md R63). -/
def tregAfter (cfg : Config) (treg : PerBank (BitVec 54)) (id : BitVec 8) (v : BitVec 54) : PerBank (BitVec 54) :=
  match bankOfWrite cfg id with
  | none => treg
  | some b => treg.set b v

theorem tregAfter_none {cfg : Config} {treg : PerBank (BitVec 54)} {id : BitVec 8} {v : BitVec 54}
    (h : bankOfWrite cfg id = none) : tregAfter cfg treg id v = treg := by
  unfold tregAfter
  rw [h]

theorem tregAfter_some {cfg : Config} {treg : PerBank (BitVec 54)} {id : BitVec 8} {v : BitVec 54} {b : Bank}
    (h : bankOfWrite cfg id = some b) : tregAfter cfg treg id v = treg.set b v := by
  unfold tregAfter
  rw [h]

theorem captureWorld_treg (cfg : Config) (w : World) (id : BitVec 8) (p : Payload) :
    (captureWorld cfg w id p).chip.treg = tregAfter cfg w.chip.treg id w.chip.paySr := by
  unfold captureWorld tregAfter
  cases bankOfWrite cfg id with
  | none => rfl
  | some b =>
    dsimp only
    repeat' split
    all_goals rfl

theorem captureWorld_mem (cfg : Config) (w : World) (id : BitVec 8) (p : Payload)
    (h : (p.enable && p.write) = false ∨ bankOfWrite cfg id = none) :
    (captureWorld cfg w id p).chip.mem = w.chip.mem := by
  unfold captureWorld
  cases hb : bankOfWrite cfg id with
  | none => rfl
  | some b =>
    rw [hb] at h
    obtain h | h := h
    · dsimp only
      rw [h]
      rfl
    · cases h

theorem captureWorld_mem_write {cfg : Config} {w : World} {id : BitVec 8} {b : Bank} {p : Payload}
    (hb : bankOfWrite cfg id = some b) (h : (p.enable && p.write) = true) (hm : p.mask = maskAll) :
    (captureWorld cfg w id p).chip.mem = w.chip.mem.writeRow b p.addr p.data := by
  unfold captureWorld
  rw [hb]
  dsimp only
  rw [if_pos h, if_pos hm]

/-- A capture and the stray shift after it, for any loaded chip. -/
theorem capturedWorld_facts (cfg : Config) (w : World) (c : Chip) (id : BitVec 8) (p : Payload) (b : Bool) :
    EnvSame w (capturedWorld cfg w c id p b) ∧ (capturedWorld cfg w c id p b).chip.selected = c.selected ∧
      (capturedWorld cfg w c id p b).chip.selPend = c.selPend ∧
      (capturedWorld cfg w c id p b).chip.treg = tregAfter cfg c.treg id c.paySr ∧
      (capturedWorld cfg w c id p b).chip.mem = (captureWorld cfg { w with chip := c } id p).chip.mem := by
  have h := captureWorld_env cfg { w with chip := c } id p
  exact ⟨⟨h.kind, h.force, h.sdiFrame, h.bits, h.effects⟩, captureWorld_selected cfg { w with chip := c } id p,
    captureWorld_selPend cfg { w with chip := c } id p, captureWorld_treg cfg { w with chip := c } id p, rfl⟩

theorem loadedChip_same (cfg : Config) (c : Chip) (a : BitVec 16) (d : Word) (e wr : Bool) (m : BitVec 4) :
    (loadedChip cfg c a d e wr m).selected = c.selected ∧ (loadedChip cfg c a d e wr m).selPend = c.selPend ∧
      (loadedChip cfg c a d e wr m).treg = c.treg ∧ (loadedChip cfg c a d e wr m).mem = c.mem := by
  unfold loadedChip
  exact ⟨rfl, rfl, rfl, rfl⟩

/-- A payload: the selected write target's register takes it (20_memory.md R63, R64). -/
theorem payloadWorld_facts (cfg : Config) (w : World) (id : BitVec 8) (a : BitVec 16) (d : Word) (e wr : Bool)
    (m : BitVec 4) :
    EnvSame w (payloadWorld cfg w id a d e wr m) ∧
      (payloadWorld cfg w id a d e wr m).chip.selected = w.chip.selected ∧
      (payloadWorld cfg w id a d e wr m).chip.selPend = w.chip.selPend ∧
      (payloadWorld cfg w id a d e wr m).chip.treg = tregAfter cfg w.chip.treg id (payloadValue a d e wr m) := by
  rw [payloadWorld_eq]
  obtain ⟨h1, h2, h3, _⟩ := loadedChip_same cfg w.chip a d e wr m
  obtain ⟨f1, f2, f3, f4, _⟩ :=
    capturedWorld_facts cfg w (loadedChip cfg w.chip a d e wr m) id ⟨a, d, e, wr, m⟩ (a.getLsbD 15)
  rw [h1] at f2
  rw [h2] at f3
  rw [h3, loadedChip_paySr] at f4
  exact ⟨f1, f2, f3, f4⟩

/-- A payload that does not write leaves every bank as it was. -/
theorem payloadWorld_mem (cfg : Config) (w : World) (id : BitVec 8) (a : BitVec 16) (d : Word) (e wr : Bool)
    (m : BitVec 4) (h : (e && wr) = false ∨ bankOfWrite cfg id = none) :
    (payloadWorld cfg w id a d e wr m).chip.mem = w.chip.mem := by
  rw [payloadWorld_eq]
  obtain ⟨_, _, _, h4⟩ := loadedChip_same cfg w.chip a d e wr m
  obtain ⟨_, _, _, _, f5⟩ :=
    capturedWorld_facts cfg w (loadedChip cfg w.chip a d e wr m) id ⟨a, d, e, wr, m⟩ (a.getLsbD 15)
  rw [captureWorld_mem _ _ _ _ h] at f5
  exact f5.trans h4

/-- A payload that writes with the full mask writes its row. -/
theorem payloadWorld_mem_write {cfg : Config} {w : World} {id : BitVec 8} {b : Bank} (a : BitVec 16) (d : Word)
    (hb : bankOfWrite cfg id = some b) :
    (payloadWorld cfg w id a d true true maskAll).chip.mem = w.chip.mem.writeRow b a d := by
  rw [payloadWorld_eq]
  obtain ⟨_, _, _, h4⟩ := loadedChip_same cfg w.chip a d true true maskAll
  obtain ⟨_, _, _, _, f5⟩ := capturedWorld_facts cfg w (loadedChip cfg w.chip a d true true maskAll) id
    ⟨a, d, true, true, maskAll⟩ (a.getLsbD 15)
  rw [captureWorld_mem_write (p := ⟨a, d, true, true, maskAll⟩) hb rfl rfl] at f5
  refine f5.trans ?_
  change (loadedChip cfg w.chip a d true true maskAll).mem.writeRow b a d = _
  rw [h4]

theorem regRow_payloadValue (a : BitVec 16) (d : Word) (e wr : Bool) (m : BitVec 4) :
    regRow (payloadValue a d e wr m) = a := by
  unfold regRow
  rw [decodePayload_payloadValue]

/-! ### Bus reset -/

/-- The chip after a bus reset (20_memory.md R59, R60, R64). -/
def busChip (cfg : Config) (c : Chip) (tm sdo : Bool) : Chip :=
  let c1 := if cfg.resetPulses.toNat = 0 then c else resetChip c
  if tm then shiftChip cfg c1 sdo else c1

theorem RunsTo.busReset {s : State} (h : Rest s) (hk : s.env.kind = .rtm) :
    RunsTo (busReset s.cfg) s ⟨busChip s.cfg s.chip s.lines.tm s.lines.sdo, s.env, s.freeCount⟩ := by
  let s1 := engineRun [.phase .resetting, .set .srst true] s
  have h1 : InCtx s1 true s.lines.tm false false false := ⟨hk, h.sck, rfl, rfl, h.cse, h.load, h.pend⟩
  have r1 : RunsTo [.phase .resetting, .set .srst true] s s.world := rfl
  have r2 : RunsTo (pulse s.cfg.resetPulses.toNat) ((engineRun [.phase .resetting, .set .srst true] s).withWorld s.world)
      ⟨if s.cfg.resetPulses.toNat = 0 then s.chip else resetChip s.chip, s.env, s.freeCount⟩ := by
    have := runActs_pulse_reset s.cfg.resetPulses.toNat h1
    exact this
  have r12 := RunsTo.append r1 r2
  obtain ⟨p, hp⟩ : ∃ p : List Act, p = [.phase .resetting, .set .srst true] ++ pulse s.cfg.resetPulses.toNat := ⟨_, rfl⟩
  obtain ⟨c1, hc1⟩ : ∃ c1, c1 = if s.cfg.resetPulses.toNat = 0 then s.chip else resetChip s.chip := ⟨_, rfl⟩
  rw [← hp, ← hc1] at r12
  obtain ⟨s2, hs2⟩ : ∃ s2, s2 = (engineRun p s).withWorld ⟨c1, s.env, s.freeCount⟩ := ⟨_, rfl⟩
  have l2 : s2.lines = s.lines.set .srst true := by
    rw [hs2]
    change (engineRun p s).lines = _
    rw [engineRun_lines, hp, progEvents_append, List.foldl_append]
    exact foldl_pulse_events _ _ h.sck
  have c2 : s2.cfg = s.cfg := by rw [hs2]; exact engineRun_cfg p s
  have p1 : c1.selPend = false := by
    rw [hc1]
    split
    · exact h.pend
    · rfl
  have r3 : RunsTo [.set .srst false] s2 s2.world := rfl
  obtain ⟨s3, hs3⟩ : ∃ s3, s3 = (engineRun [.set .srst false] s2).withWorld s2.world := ⟨_, rfl⟩
  have l3 : s3.lines = s2.lines.set .srst false := by rw [hs3]; rfl
  have h3 : InCtx s3 false s.lines.tm false false false := by
    refine ⟨by rw [hs3, hs2]; exact hk, ?_, ?_, ?_, ?_, ?_, by rw [hs3, hs2]; exact p1⟩ <;> rw [l3, l2]
    exacts [h.sck, rfl, rfl, h.cse, h.load]
  have r4 : RunsTo (pulse 1) s3 ⟨busChip s.cfg s.chip s.lines.tm s.lines.sdo, s.env, s.freeCount⟩ := by
    have w3 : (recordWrite .sck true s3).world = ⟨c1, s.env, s.freeCount⟩ := by rw [hs3, hs2]; rfl
    have c3 : (recordWrite .sck true s3).cfg = s.cfg := by
      rw [hs3]
      exact c2
    have d3 : (recordWrite .sck true s3).lines.sdo = s.lines.sdo := by
      change (s3.lines.set .sck true).sdo = _
      rw [l3, l2]
      rfl
    have ht : Machine.act (Act.tick (BitVec.ofNat 32 0)) s3 = .go ((engineAct (Act.tick (BitVec.ofNat 32 0)) s3).withWorld
        ⟨busChip s.cfg s.chip s.lines.tm s.lines.sdo, s.env, s.freeCount⟩) := by
      refine act_tick_go h3.sck ?_
      unfold busChip
      dsimp only
      rw [← hc1]
      cases htm : s.lines.tm with
      | false =>
        rw [htm] at h3
        rw [envRise_idle h3.atRise]
        simp only [Bool.false_eq_true, if_false]
        rw [← w3, withWorld_world]
      | true =>
        rw [htm] at h3
        rw [envRise_shift h3.atRise, c3, d3]
        simp only [if_true]
        rw [show (recordWrite .sck true s3).chip = c1 from congrArg World.chip w3,
          show (recordWrite .sck true s3).env = s.env from congrArg World.env w3,
          show (recordWrite .sck true s3).freeCount = s.freeCount from congrArg World.freeCount w3]
    unfold RunsTo
    change (Machine.act (.tick (BitVec.ofNat 32 0)) s3).bind (runActs []) = _
    rw [ht]
    rfl
  have r34 : RunsTo ([.set .srst false] ++ pulse 1) s2 ⟨busChip s.cfg s.chip s.lines.tm s.lines.sdo, s.env, s.freeCount⟩ :=
    RunsTo.append r3 (by rw [← hs3]; exact r4)
  have r14 := RunsTo.append r12 (by rw [← hs2]; exact r34)
  have r5 : ∀ u : State, RunsTo [.clearFault] u u.world := fun _ => rfl
  have r := RunsTo.append r14 (r5 _)
  have e : Machine.busReset s.cfg = (p ++ ([.set .srst false] ++ pulse 1)) ++ [.clearFault] := by
    rw [hp]
    simp only [Machine.busReset, List.append_assoc]
  rw [e]
  exact r

theorem busChip_facts (cfg : Config) (c : Chip) (tm sdo : Bool) (h : c.selPend = false) :
    (busChip cfg c tm sdo).mem = c.mem ∧ (busChip cfg c tm sdo).treg = c.treg ∧
      (busChip cfg c tm sdo).selPend = false ∧ (cfg.resetPulses.toNat ≠ 0 → (busChip cfg c tm sdo).selected = none) := by
  unfold busChip
  dsimp only
  by_cases hz : cfg.resetPulses.toNat = 0
  · simp only [hz, if_true, ne_eq, not_true, false_imp_iff, and_true]
    cases tm
    · exact ⟨rfl, rfl, h⟩
    · exact ⟨rfl, rfl, h⟩
  · simp only [hz, if_false]
    cases tm
    · exact ⟨rfl, rfl, rfl, fun _ => rfl⟩
    · exact ⟨rfl, rfl, rfl, fun _ => rfl⟩

end Sys2Proof.Machine
end

