-- ==== Sys2Proof/Laws/Loops.lean ====
section
/-!
SUPPORT. The loops of CLEAR and WRBANK under the RTM (20_memory.md R68), and their whole programs.
-/

namespace Sys2Proof.Machine

open Sys2Proof

/-- In test mode with the other scan lines at rest, the RTM the environment. -/
abbrev Scanning (s : State) : Prop := InCtx s false true false false false

theorem Scanning.held {s : State} (h : Scanning s) : Held false false false false s :=
  ⟨h.sck, h.srst, h.cse, h.load, fun _ => h.pend, fun _ => h.pend⟩

theorem Scanning.rest {s : State} (h : Scanning s) : Rest s := ⟨h.sck, h.srst, h.cse, h.load, h.pend⟩

/-- The micro-steps that leave `TM` alone. -/
def Act.keepsTm : Act → Bool
  | .set .tm _ => false
  | _ => true

theorem engineRun_tm {p : List Act} (s : State) (h : p.all Act.keepsTm = true) :
    (engineRun p s).lines.tm = s.lines.tm :=
  engineRun_field (fun s => s.lines.tm) p s fun a ha s => by
    have := List.all_eq_true.1 h a ha
    cases a
    case set x v => cases x <;> first | rfl | simp [Act.keepsTm] at this
    all_goals rfl

@[simp] theorem pulse_keepsTm (n : Nat) : (pulse n).all Act.keepsTm = true := by
  induction n with
  | zero => rfl
  | succ n ih => simp [pulse, ih, Act.keepsTm]

@[simp] theorem driveBits_keepsTm (l : BitSeq) : (driveBits l).all Act.keepsTm = true := by
  induction l with
  | nil => rfl
  | cons b l ih => simp [driveBits, ih, Act.keepsTm]

@[simp] theorem select_keepsTm (id : BitVec 8) : (select id).all Act.keepsTm = true := by
  simp [select, shiftOut, driveSeq, Act.keepsTm]

@[simp] theorem selectChain_keepsTm (id : BitVec 4) : (selectChain id).all Act.keepsTm = true := select_keepsTm _

@[simp] theorem writePayload_keepsTm (t : LoadTicks) (a : BitVec 16) (d : Word) (e w : Bool) (m : BitVec 4) :
    (writePayload t a d e w m).all Act.keepsTm = true := by
  simp [writePayload, loadSequence, shiftOut, driveSeq, Act.keepsTm]

@[simp] theorem busReset_keepsTm (c : Config) : (busReset c).all Act.keepsTm = true := by
  simp [busReset, Act.keepsTm]

/-- A program over a state whose world has moved has the configuration it started with. -/
theorem after_cfg (p : List Act) (s : State) (w : World) : ((engineRun p s).withWorld w).cfg = s.cfg := by
  rw [withWorld_cfg, engineRun_cfg]

/-- The program goes on from `s` to `t`. -/
abbrev Goes (p : List Act) (s t : State) : Prop := runActs p s = .go t

theorem Goes.append {p q : List Act} {s t u : State} (h : Goes p s t) (k : Goes q t u) : Goes (p ++ q) s u := by
  unfold Goes at *
  rw [runActs_append_go h, k]

/-- A program that keeps the lines at rest and `TM` leaves the machine scanning. -/
theorem Goes.scanning {p : List Act} {s t : State} (hr : Goes p s t) (h : Scanning s)
    (hl : Leads (Held false false false false) p (Held false false false false) fun _ => True)
    (hp : p.all Act.isPure = true) (ht : p.all Act.keepsTm = true) : Scanning t := by
  have h1 := hl s h.held
  have hk := (runActs_reach hr).kind
  have ht' : t.lines.tm = s.lines.tm := by
    rw [runActs_pure hp hr]
    exact engineRun_tm s ht
  rw [hr] at h1
  exact ⟨hk.trans h.kind, h1.sck, h1.srst, ht'.trans h.tm, h1.cse, h1.load, h1.pend rfl⟩

/-- What a piece of a transaction leaves: scanning, the configuration and the environment as they were. -/
structure Goes' (p : List Act) (s t : State) : Prop where
  goes : Goes p s t
  scanning : Scanning t
  cfg : t.cfg = s.cfg
  env : EnvSame s.world t.world

theorem Goes'.append {p q : List Act} {s t u : State} (h : Goes' p s t) (k : Goes' q t u) : Goes' (p ++ q) s u :=
  ⟨h.goes.append k.goes, k.scanning, k.cfg.trans h.cfg, h.env.trans k.env⟩

theorem Goes'.nil {s : State} (h : Scanning s) : Goes' [] s s := ⟨rfl, h, rfl, EnvSame.refl _⟩

theorem Goes'.row {s : State} (h : Scanning s) (a : BitVec 17) :
    ∃ t, Goes' [.row a] s t ∧ t.world = s.world :=
  ⟨_, ⟨rfl, ⟨h.kind, h.sck, h.srst, h.tm, h.cse, h.load, h.pend⟩, rfl, EnvSame.refl _⟩, rfl⟩

theorem Goes'.ident {s : State} (h : Scanning s) (a : BitVec 4) :
    ∃ t, Goes' [.ident a] s t ∧ t.world = s.world :=
  ⟨_, ⟨rfl, ⟨h.kind, h.sck, h.srst, h.tm, h.cse, h.load, h.pend⟩, rfl, EnvSame.refl _⟩, rfl⟩

theorem Goes'.select {s : State} (id : BitVec 8) (h : Scanning s) :
    ∃ t, Goes' (select id) s t ∧ t.world = latchWorld s.cfg s.world id := by
  have r := runActs_select id h
  refine ⟨_, ⟨r, Goes.scanning r h (leads_select id) (by simp) (by simp), after_cfg _ _ _, ?_⟩, rfl⟩
  exact (latchWorld_facts s.cfg s.world id).1

theorem Goes'.writePayload {s : State} {id : BitVec 8} (a : BitVec 16) (d : Word) (e wr : Bool) (m : BitVec 4)
    (h : Scanning s) (ht : s.cfg.loadTicks = ⟨0, 1, 1⟩) (hsel : s.chip.selected = some id)
    (hfit : captureFits s.cfg id ⟨a, d, e, wr, m⟩) :
    ∃ t, Goes' (writePayload s.cfg.loadTicks a d e wr m) s t ∧ t.world = payloadWorld s.cfg s.world id a d e wr m := by
  have r := runActs_writePayload a d e wr m h hsel hfit
  have f := (payloadWorld_facts s.cfg s.world id a d e wr m).1
  rw [← ht] at r
  generalize payloadWorld s.cfg s.world id a d e wr m = w at *
  exact ⟨_, ⟨r, Goes.scanning r h (leads_writePayload _ _ _ _ _ _) (by simp) (by simp), after_cfg _ _ _, f⟩,
    world_withWorld _ _⟩

theorem captureFits_of_noWrite {cfg : Config} {id : BitVec 8} {p : Payload} (h : (p.enable && p.write) = false) :
    captureFits cfg id p := fun _ _ he => by rw [h] at he; cases he

theorem chip_of_world {s : State} {w : World} (h : s.world = w) : s.chip = w.chip := congrArg World.chip h

/-- What a selection leaves on the chip. -/
theorem Goes'.select_facts {s : State} (id : BitVec 8) (h : Scanning s) :
    ∃ t, Goes' (Machine.select id) s t ∧ t.chip.selected = some id ∧ t.chip.treg = s.chip.treg ∧
      t.chip.mem = s.chip.mem ∧ t.world = latchWorld s.cfg s.world id := by
  obtain ⟨t, g, w⟩ := Goes'.select id h
  obtain ⟨_, l, _, r, m⟩ := latchWorld_facts s.cfg s.world id
  have c := chip_of_world w
  exact ⟨t, g, by rw [c, l], by rw [c, r]; rfl, by rw [c, m]; rfl, w⟩

/-- What a payload leaves on the chip, its bank contents aside. -/
theorem Goes'.payload_facts {s : State} {id : BitVec 8} (a : BitVec 16) (d : Word) (e wr : Bool) (m : BitVec 4)
    (h : Scanning s) (ht : s.cfg.loadTicks = ⟨0, 1, 1⟩) (hsel : s.chip.selected = some id)
    (hfit : captureFits s.cfg id ⟨a, d, e, wr, m⟩) :
    ∃ t, Goes' (Machine.writePayload s.cfg.loadTicks a d e wr m) s t ∧ t.chip.selected = some id ∧
      t.chip.treg = tregAfter s.cfg s.chip.treg id (payloadValue a d e wr m) ∧
      t.world = payloadWorld s.cfg s.world id a d e wr m := by
  obtain ⟨t, g, w⟩ := Goes'.writePayload a d e wr m h ht hsel hfit
  obtain ⟨_, l, _, r⟩ := payloadWorld_facts s.cfg s.world id a d e wr m
  have c := chip_of_world w
  rw [world_chip] at r l
  exact ⟨t, g, by rw [c, l]; exact hsel, by rw [c, r], w⟩

/-! ### The chain clear -/

/-- `PAY.DISABLE` as the chain clear sends it (41_transactions.md R133). -/
def disableValue : BitVec 54 := payloadValue 0 0 false false maskAll

/-- One target of the chain clear. -/
theorem Goes'.clearTarget {s : State} (i : Nat) (h : Scanning s) (ht : s.cfg.loadTicks = ⟨0, 1, 1⟩) :
    ∃ t, Goes' (clearTarget s.cfg i) s t ∧ t.chip.mem = s.chip.mem ∧
      t.chip.selected = some ((BitVec.ofNat 4 i).setWidth 8) ∧
      t.chip.treg = tregAfter s.cfg s.chip.treg ((BitVec.ofNat 4 i).setWidth 8) disableValue := by
  obtain ⟨s0, g0, w0⟩ := Goes'.ident h (BitVec.ofNat 4 i)
  obtain ⟨s1, g1, l1, r1, m1, _⟩ := Goes'.select_facts ((BitVec.ofNat 4 i).setWidth 8) g0.scanning
  have c1 : s1.cfg = s.cfg := g1.cfg.trans g0.cfg
  obtain ⟨s2, g2, l2, r2, w2⟩ := Goes'.payload_facts 0 0 false false maskAll g1.scanning (c1 ▸ ht) l1
    (captureFits_of_noWrite rfl)
  rw [c1] at g2 r2 w2
  refine ⟨s2, (g0.append g1).append g2, ?_, l2, ?_⟩
  · rw [chip_of_world w2, payloadWorld_mem _ _ _ _ _ _ _ _ (Or.inl rfl)]
    change s1.chip.mem = _
    rw [m1, chip_of_world w0]
    rfl
  · rw [r2, r1, chip_of_world w0, disableValue]
    rfl

/-- The first `n` targets of the chain clear. -/
theorem Goes'.clearTargets {s : State} (n : Nat) (h : Scanning s) (hv : Config.valid s.cfg = true)
    (ht : s.cfg.loadTicks = ⟨0, 1, 1⟩) (hn : n ≤ 9) :
    ∃ t, Goes' ((List.range n).flatMap (Machine.clearTarget s.cfg)) s t ∧ t.chip.mem = s.chip.mem ∧
      (n ≠ 0 → t.chip.selected = some (BitVec.ofNat 8 (n - 1))) ∧
      ∀ b, t.chip.treg.get b = if (s.cfg.wr.get b).toNat < n then disableValue else s.chip.treg.get b := by
  induction n with
  | zero => exact ⟨s, Goes'.nil h, rfl, fun h => absurd rfl h, fun b => by simp⟩
  | succ n ih =>
    obtain ⟨t, g, m, _, r⟩ := ih (by omega)
    obtain ⟨u, gu, mu, lu, ru⟩ := Goes'.clearTarget n g.scanning (g.cfg ▸ ht)
    rw [g.cfg] at gu ru
    refine ⟨u, ?_, mu.trans m, fun _ => ?_, fun b => ?_⟩
    · rw [List.range_succ, List.flatMap_append]
      simp only [List.flatMap_cons, List.flatMap_nil, List.append_nil]
      exact g.append gu
    · rw [lu, setWidth_ofNat_id n (by omega)]
      rfl
    · rw [ru, setWidth_ofNat_id n (by omega)]
      by_cases hb : (s.cfg.wr.get b).toNat = n
      · have e : (s.cfg.wr.get b).setWidth 8 = BitVec.ofNat 8 n := by
          apply BitVec.eq_of_toNat_eq
          simp only [BitVec.toNat_setWidth, BitVec.toNat_ofNat]
          omega
        have hw := bankOfWrite_wr hv b
        rw [e] at hw
        rw [tregAfter_some hw, if_pos (by omega)]
        exact PerBank_get_set_same _ _ _
      · have hlt : (if (s.cfg.wr.get b).toNat < n + 1 then disableValue else s.chip.treg.get b) =
            if (s.cfg.wr.get b).toNat < n then disableValue else s.chip.treg.get b := by
          split <;> split <;> first | omega | rfl
        rw [hlt, ← r b]
        cases hw : bankOfWrite s.cfg (BitVec.ofNat 8 n) with
        | none => rw [tregAfter_none hw]
        | some d =>
          rw [tregAfter_some hw]
          refine PerBank_get_set_other _ _ fun hbd => hb ?_
          have := congrArg BitVec.toNat (bankOfWrite_some hw)
          rw [← hbd] at this
          simp only [BitVec.toNat_setWidth, BitVec.toNat_ofNat] at this
          have := (s.cfg.wr.get b).isLt
          omega

/-! ### Bus reset and test mode -/

/-- A bus reset from rest, whatever `TM` (41_transactions.md R132; 20_memory.md R59, R60, R64). -/
theorem goes_busReset {s : State} (h : Rest s) (hk : s.env.kind = .rtm) :
    ∃ t, Goes (busReset s.cfg) s t ∧ Rest t ∧ t.env = s.env ∧ t.freeCount = s.freeCount ∧ t.cfg = s.cfg ∧
      t.chip.mem = s.chip.mem ∧ t.chip.treg = s.chip.treg ∧ t.lines.tm = s.lines.tm ∧
      (s.cfg.resetPulses.toNat ≠ 0 → t.chip.selected = none) := by
  have r := RunsTo.busReset h hk
  obtain ⟨m, tr, p, l⟩ := busChip_facts s.cfg s.chip s.lines.tm s.lines.sdo h.pend
  have hl := leads_busReset s.cfg (R := fun _ => True) s (held_rest.2 h)
  have r' : runActs (busReset s.cfg) s = _ := r
  rw [r'] at hl
  exact ⟨_, r, held_rest.1 hl, rfl, rfl, engineRun_cfg _ _, m, tr, engineRun_tm s (by simp), l⟩

/-- Test mode entered from rest. -/
theorem goes_tmEnter {s : State} (h : Rest s) (hk : s.env.kind = .rtm) :
    ∃ t, Goes tmEnter s t ∧ Scanning t ∧ t.world = s.world ∧ t.cfg = s.cfg :=
  ⟨_, rfl, ⟨hk, h.sck, h.srst, rfl, h.cse, h.load, h.pend⟩, rfl, rfl⟩

/-- Test mode left. -/
theorem goes_tmExit {s : State} (h : Scanning s) :
    ∃ t, Goes tmExit s t ∧ Rest t ∧ t.world = s.world ∧ t.cfg = s.cfg ∧ t.lines.tm = false :=
  ⟨_, rfl, ⟨h.sck, h.srst, h.cse, h.load, h.pend⟩, rfl, rfl, rfl⟩

/-- A bus reset and the entry into test mode, with which every transaction begins. -/
theorem goes_open {s : State} (h : Rest s) (hk : s.env.kind = .rtm) :
    ∃ t, Goes (busReset s.cfg ++ tmEnter) s t ∧ Scanning t ∧ t.env = s.env ∧ t.freeCount = s.freeCount ∧
      t.cfg = s.cfg ∧ t.chip.mem = s.chip.mem ∧ t.chip.treg = s.chip.treg := by
  obtain ⟨t, g, r, e, f, c, m, tr, _⟩ := goes_busReset h hk
  obtain ⟨u, gu, su, wu, cu⟩ := goes_tmEnter r (by rw [e]; exact hk)
  have hc := chip_of_world wu
  exact ⟨u, g.append gu, su, (congrArg World.env wu).trans e, (congrArg World.freeCount wu).trans f, cu.trans c,
    by rw [hc]; exact m, by rw [hc]; exact tr⟩

/-- The whole chain clear (41_transactions.md R133). -/
theorem goes_fullChainClear {s : State} (h : Rest s) (hk : s.env.kind = .rtm) (hv : Config.valid s.cfg = true)
    (ht : s.cfg.loadTicks = ⟨0, 1, 1⟩) :
    ∃ t, Goes (fullChainClear s.cfg) s t ∧ Rest t ∧ t.cfg = s.cfg ∧ EnvSame s.world t.world ∧
      t.chip.mem = s.chip.mem ∧ t.chip.selected = some 8 ∧ (∀ b, t.chip.treg.get b = disableValue) ∧
      t.lines.tm = false := by
  obtain ⟨t1, g1, s1, e1, _, c1, m1, _⟩ := goes_open h hk
  obtain ⟨t2, g2, m2, l2, r2⟩ := Goes'.clearTargets 9 s1 (c1 ▸ hv) (c1 ▸ ht) (Nat.le_refl 9)
  obtain ⟨t3, g3, w3⟩ := Goes'.ident g2.scanning 9
  obtain ⟨t4, g4, r4, w4, c4, tm4⟩ := goes_tmExit g3.scanning
  rw [c1] at g2 r2
  have hw : t4.world = t2.world := w4.trans w3
  have hc : t4.chip = t2.chip := chip_of_world hw
  refine ⟨t4, ((g1.append g2.goes).append g3.goes).append g4, r4, ?_, ?_, ?_, ?_, fun b => ?_, tm4⟩
  · rw [c4, g3.cfg, g2.cfg, c1]
  · rw [hw]
    have := g2.env
    exact ⟨this.kind.trans (congrArg Env.kind e1), this.force.trans (congrArg Env.svldForce e1),
      this.sdiFrame.trans (congrArg Env.sdiFrame e1), this.bits.trans (congrArg Env.bits e1),
      this.effects.trans (congrArg Env.effects e1)⟩
  · rw [hc, m2, m1]
  · rw [hc, l2 (by decide)]
    rfl
  · have hlt : (s.cfg.wr.get b).toNat < 9 := by
      refine (Config_valid_ids hv).2.2.1 _ ?_
      cases b <;> simp [Config.namedIds, PerBank.get]
    rw [hc, r2 b, if_pos hlt]

/-! ### The bank write -/

/-- The rows of a bank write, in ascending order. -/
theorem Goes'.writeWords {s : State} {b : Bank} (src : State) (n : Nat) (h : Scanning s)
    (hv : Config.valid s.cfg = true) (ht : s.cfg.loadTicks = ⟨0, 1, 1⟩) (hsrc : src.cfg = s.cfg)
    (hsel : s.chip.selected = some ((s.cfg.wr.get b).setWidth 8)) (hn : n ≤ (s.cfg.cap.get b).toNat)
    (hn' : n ≤ 65536) :
    ∃ t, Goes' ((List.range n).flatMap (writeWord src b)) s t ∧
      t.chip.selected = some ((s.cfg.wr.get b).setWidth 8) ∧
      (s.chip.mem.wf = true → t.chip.mem.wf = true ∧
        (∀ a, a < n → t.chip.mem.readRow b (BitVec.ofNat 16 a) = (src.txbuf.get b).read (BitVec.ofNat 16 a)) ∧
        ∀ addr, (∀ a, a < n → addr < rowAddr b (BitVec.ofNat 16 a) ∨ rowAddr b (BitVec.ofNat 16 a) + 4 ≤ addr) →
          t.chip.mem.readByte addr = s.chip.mem.readByte addr) ∧
      (∀ d, d ≠ b → t.chip.treg.get d = s.chip.treg.get d) ∧
      t.chip.treg.get b = if n = 0 then s.chip.treg.get b else
        payloadValue (BitVec.ofNat 16 (n - 1)) ((src.txbuf.get b).read (BitVec.ofNat 16 (n - 1))) true true maskAll := by
  induction n with
  | zero => exact ⟨s, Goes'.nil h, hsel, fun hm => ⟨hm, fun a ha => by omega, fun _ _ => rfl⟩, fun _ _ => rfl, by simp⟩
  | succ n ih =>
    obtain ⟨t, g, l, m, ro, rb⟩ := ih (by omega) (by omega)
    obtain ⟨t0, g0, w0⟩ := Goes'.row g.scanning (BitVec.ofNat 17 n)
    have c0 : t0.cfg = s.cfg := g0.cfg.trans g.cfg
    have hc0 : t0.chip = t.chip := chip_of_world w0
    have hw := bankOfWrite_wr hv b
    have hnat : (BitVec.ofNat 16 n).toNat = n := by simp only [BitVec.toNat_ofNat]; omega
    have hfit : captureFits t0.cfg ((s.cfg.wr.get b).setWidth 8) ⟨BitVec.ofNat 16 n,
        (src.txbuf.get b).read (BitVec.ofNat 16 n), true, true, maskAll⟩ := by
      intro d hd _
      rw [c0] at hd ⊢
      rw [hw] at hd
      cases hd
      change (BitVec.ofNat 16 n).toNat < _
      rw [hnat]
      omega
    obtain ⟨u, gu, lu, ru, wu⟩ := Goes'.payload_facts (BitVec.ofNat 16 n) ((src.txbuf.get b).read (BitVec.ofNat 16 n))
      true true maskAll g0.scanning (c0 ▸ ht) (hc0 ▸ l) hfit
    rw [c0] at gu ru wu
    rw [tregAfter_some hw] at ru
    have hmem : u.chip.mem = t.chip.mem.writeRow b (BitVec.ofNat 16 n) ((src.txbuf.get b).read (BitVec.ofNat 16 n)) := by
      rw [chip_of_world wu, payloadWorld_mem_write _ _ hw]
      change t0.chip.mem.writeRow _ _ _ = _
      rw [hc0]
    refine ⟨u, ?_, lu, fun hm => ?_, fun d hd => ?_, ?_⟩
    · rw [List.range_succ, List.flatMap_append]
      simp only [List.flatMap_cons, List.flatMap_nil, List.append_nil]
      rw [← hsrc] at gu
      exact g.append (g0.append gu)
    · obtain ⟨m1, m2, m3⟩ := m hm
      refine ⟨by rw [hmem]; exact Memory.wf_writeRow m1, fun a ha => ?_, fun addr ha => ?_⟩
      · rw [hmem]
        by_cases hE : a = n
        · subst hE
          exact Memory.readRow_writeRow_same m1
        · rw [Memory.readRow_writeRow_other, m2 a (by omega)]
          intro hh
          have := congrArg (fun p : Bank × BitVec 16 => p.2.toNat) hh
          simp only [BitVec.toNat_ofNat] at this
          omega
      · rw [hmem, Memory.readByte_writeRow_other, m3 addr fun a h => ha a (by omega)]
        have := ha n (by omega)
        omega
    · rw [ru, hc0]
      exact (PerBank_get_set_other _ _ hd).trans (ro d hd)
    · rw [ru]
      simp only [Nat.add_one_ne_zero, if_false, Nat.add_sub_cancel]
      exact PerBank_get_set_same _ _ _

end Sys2Proof.Machine
end

