-- ==== Sys2Proof/Laws/Reads.lean ====
section
/-!
SUPPORT. The whole bank write, the deserializer and the bank read under the RTM (20_memory.md R65, R68), its fault
included (41_transactions.md R137).
-/

namespace Sys2Proof.Machine

open Sys2Proof

/-! ### The whole bank write -/

/-- `write_bank` past its check (41_transactions.md R134). -/
theorem goes_writeBody {s src : State} {b : Bank} {n : Nat} (h : Rest s) (hk : s.env.kind = .rtm)
    (hv : Config.valid s.cfg = true) (ht : s.cfg.loadTicks = ⟨0, 1, 1⟩) (hsrc : src.cfg = s.cfg)
    (hn : n ≤ (s.cfg.cap.get b).toNat) :
    ∃ t, Goes (writeBody src b n) s t ∧ Rest t ∧ t.cfg = s.cfg ∧ EnvSame s.world t.world ∧
      t.chip.selected = some ((s.cfg.wr.get b).setWidth 8) ∧ t.lines.tm = false ∧
      (s.chip.mem.wf = true → t.chip.mem.wf = true ∧
        (∀ a, a < n → t.chip.mem.readRow b (BitVec.ofNat 16 a) = (src.txbuf.get b).read (BitVec.ofNat 16 a)) ∧
        ∀ addr, (∀ a, a < n → addr < rowAddr b (BitVec.ofNat 16 a) ∨ rowAddr b (BitVec.ofNat 16 a) + 4 ≤ addr) →
          t.chip.mem.readByte addr = s.chip.mem.readByte addr) ∧
      (∀ d, d ≠ b → t.chip.treg.get d = s.chip.treg.get d) ∧
      t.chip.treg.get b = if n = 0 then s.chip.treg.get b else
        payloadValue (BitVec.ofNat 16 (n - 1)) ((src.txbuf.get b).read (BitVec.ofNat 16 (n - 1))) true true maskAll := by
  obtain ⟨t1, g1, s1, e1, _, c1, m1, r1⟩ := goes_open h hk
  obtain ⟨t2, g2, l2, r2, m2, _⟩ := Goes'.select_facts ((s.cfg.wr.get b).setWidth 8) s1
  have c2 : t2.cfg = s.cfg := g2.cfg.trans c1
  have hcap := (Config_valid_ids hv).2.2.2 b
  obtain ⟨t3, g3, l3, m3, ro3, rb3⟩ := Goes'.writeWords (b := b) src n g2.scanning (c2 ▸ hv) (c2 ▸ ht)
    (hsrc.trans c2.symm) (c2 ▸ l2) (c2 ▸ hn) (by omega)
  obtain ⟨t4, g4, w4⟩ := Goes'.row g3.scanning (BitVec.ofNat 17 n)
  obtain ⟨t5, g5, r5, w5, c5, tm5⟩ := goes_tmExit g4.scanning
  have hw : t5.world = t3.world := w5.trans w4
  have hc : t5.chip = t3.chip := chip_of_world hw
  have hr : t2.chip.treg = s.chip.treg := r2.trans r1
  have hm : t2.chip.mem = s.chip.mem := m2.trans m1
  refine ⟨t5, ?_, r5, ?_, ?_, ?_, tm5, ?_, ?_, ?_⟩
  · unfold writeBody
    rw [hsrc]
    exact (((g1.append g2.goes).append g3.goes).append g4.goes).append g5
  · rw [c5, g4.cfg, g3.cfg, c2]
  · rw [hw]
    have := g2.env.trans g3.env
    exact ⟨this.kind.trans (congrArg Env.kind e1), this.force.trans (congrArg Env.svldForce e1),
      this.sdiFrame.trans (congrArg Env.sdiFrame e1), this.bits.trans (congrArg Env.bits e1),
      this.effects.trans (congrArg Env.effects e1)⟩
  · rw [hc, l3, c2]
  · rw [hc]
    rw [hm] at m3
    exact m3
  · intro d hd
    rw [hc, ro3 d hd, hr]
  · rw [hc, rb3, hr]

/-! ### The deserializer -/

/-- The bit sampled in cycle `j` from here: a presented frame's, else the read register's (20_memory.md R65; log 13). -/
def cycleBit (s : State) (j : Nat) : Bool := (s.env.sdiFrame[j]?).getD (s.chip.rdSr.getLsbD j)

/-- The events of `n` valid cycles that sample `bit j`. -/
def cycleEvents (bit : Nat → Bool) (n : Nat) : List Event :=
  (List.range n).flatMap fun k => [.r .sdi (bit k), .r .svld true, .w .sck true, .w .sck false]

theorem sampleEvents_eq (w : Word) (n : Nat) : sampleEvents w n = cycleEvents w.getLsbD n := rfl

/-- A read target is selected in test mode, the RTM answering. -/
structure Reading (s : State) : Prop where
  scanning : Scanning s
  target : readSelected s.cfg s.chip = true

theorem Reading.valid {s : State} (h : Reading s) : rtmValid s = true := by
  have ht := h.target
  unfold rtmValid
  rw [h.scanning.tm]
  exact ht

/-- What a valid cycle leaves, its pulse included. -/
structure CycleDone (s t : State) (n : Nat) (bit : Nat → Bool) : Prop where
  reading : Reading t
  cfg : t.cfg = s.cfg
  lines : t.lines = s.lines
  mem : t.chip.mem = s.chip.mem
  treg : t.chip.treg = s.chip.treg
  selected : t.chip.selected = s.chip.selected
  env : t.env = { s.env with svldForce := s.env.svldForce.drop n, sdiFrame := s.env.sdiFrame.drop n }
  freeCount : t.freeCount = s.freeCount
  rdSr : t.chip.rdSr = s.chip.rdSr >>> n
  dsr : t.work.dsr = ((List.range n).map bit).foldl pushTop s.work.dsr
  log : t.log = (cycleEvents bit n).reverse ++ s.log
  rxlen : t.rxlen = s.rxlen
  rxbuf : t.rxbuf = s.rxbuf
  status : t.status = s.status
  elapsed : t.elapsed = s.elapsed
  phase : t.phase = s.phase

theorem answerSdi_reading {s : State} (h : Reading s) :
    answerSdi s = (cycleBit s 0, { s with env := { s.env with sdiFrame := s.env.sdiFrame.drop 1 } }) := by
  unfold answerSdi cycleBit
  cases hf : s.env.sdiFrame with
  | nil =>
    rw [h.scanning.kind, h.valid]
    simp only [if_true, List.getElem?_nil, Option.getD_none, List.drop_nil]
    rw [← hf]
  | cons b rest => rfl

theorem answerSvld_reading {s : State} (h : Reading s) :
    answerSvld s = (!(s.env.svldForce.headD false),
      { s with env := { s.env with svldForce := s.env.svldForce.drop 1 } }) := by
  unfold answerSvld
  rw [h.scanning.kind]
  cases hf : s.env.svldForce with
  | nil =>
    simp only [h.valid, List.headD_nil, Bool.not_false, List.drop_nil]
    rw [← hf]
  | cons b rest => simp [h.valid]

/-- One valid cycle and its pulse. -/
theorem goes_cycle {s : State} (n : BitVec 6) (h : Reading s) (hf : s.env.svldForce.headD false = false) :
    ∃ t, Goes [.cycle n, .tick 0] s t ∧ CycleDone s t 1 (cycleBit s) := by
  obtain ⟨s1, hs1⟩ : ∃ s1 : State, s1 = { s with
    env := { s.env with sdiFrame := s.env.sdiFrame.drop 1 }, log := .r .sdi (cycleBit s 0) :: s.log } := ⟨_, rfl⟩
  have e1 : sample .sdi s = (cycleBit s 0, s1) := by
    unfold sample answer
    dsimp only
    rw [answerSdi_reading h, hs1]
  have h1 : Reading s1 := by
    rw [hs1]
    exact ⟨⟨h.scanning.kind, h.scanning.sck, h.scanning.srst, h.scanning.tm, h.scanning.cse, h.scanning.load,
      h.scanning.pend⟩, h.target⟩
  have hf1 : s1.env.svldForce.headD false = false := by rw [hs1]; exact hf
  obtain ⟨s2, hs2⟩ : ∃ s2 : State, s2 = { s1 with
    env := { s1.env with svldForce := s1.env.svldForce.drop 1 }, log := .r .svld true :: s1.log } := ⟨_, rfl⟩
  have e2 : sample .svld s1 = (true, s2) := by
    unfold sample answer
    dsimp only
    rw [answerSvld_reading h1, hf1, hs2]
    rfl
  obtain ⟨s3, hs3⟩ : ∃ s3 : State, s3 = { s2 with
    work := { s2.work with dsr := pushTop s2.work.dsr (cycleBit s 0), bitc := n } } := ⟨_, rfl⟩
  have e3 : act (.cycle n) s = .go s3 := by
    change actCycle n s = _
    unfold actCycle
    dsimp only
    rw [e1]
    dsimp only
    rw [e2]
    dsimp only
    rw [if_pos rfl, hs3]
  have h3 : Scanning s3 := by
    rw [hs3, hs2]
    exact ⟨h1.scanning.kind, h1.scanning.sck, h1.scanning.srst, h1.scanning.tm, h1.scanning.cse, h1.scanning.load,
      h1.scanning.pend⟩
  have e4 := act_tick_go (n := 0) h3.sck (envRise_shift h3.atRise)
  refine ⟨(engineAct (.tick 0) s3).withWorld ⟨shiftChip s3.cfg s3.chip s3.lines.sdo, s3.env, s3.freeCount⟩, ?_, ?_⟩
  · unfold Goes
    rw [runActs_cons, e3, Flow.bind_go, runActs_cons, e4]
    rfl
  · have hl : (engineAct (.tick 0) s3).lines = s3.lines := Lines_pulse h3.sck
    have htg : readSelected s3.cfg s3.chip = true := by rw [hs3, hs2, hs1]; exact h.target
    have hrd : (shiftChip s3.cfg s3.chip s3.lines.sdo).rdSr = s3.chip.rdSr >>> 1 := by
      unfold shiftChip
      dsimp only
      rw [if_pos htg]
    constructor
    · refine ⟨⟨h3.kind, ?_, ?_, ?_, ?_, ?_, h3.pend⟩, htg⟩ <;> rw [withWorld_lines, hl]
      exacts [h3.sck, h3.srst, h3.tm, h3.cse, h3.load]
    · change s3.cfg = _
      rw [hs3, hs2, hs1]
    · rw [withWorld_lines, hl, hs3, hs2, hs1]
    · change s3.chip.mem = _
      rw [hs3, hs2, hs1]
    · change s3.chip.treg = _
      rw [hs3, hs2, hs1]
    · change s3.chip.selected = _
      rw [hs3, hs2, hs1]
    · change s3.env = _
      rw [hs3, hs2, hs1]
    · change s3.freeCount = _
      rw [hs3, hs2, hs1]
    · rw [withWorld_chip]
      refine hrd.trans ?_
      rw [hs3, hs2, hs1]
    · change s3.work.dsr = _
      rw [hs3, hs2, hs1]
      rfl
    · change .w .sck false :: .w .sck true :: s3.log = _
      rw [hs3, hs2, hs1]
      rfl
    · change s3.rxlen = _
      rw [hs3, hs2, hs1]
    · change s3.rxbuf = _
      rw [hs3, hs2, hs1]
    · change s3.status = _
      rw [hs3, hs2, hs1]
    · change s3.elapsed = _
      rw [hs3, hs2, hs1]
    · change s3.phase = _
      rw [hs3, hs2, hs1]

/-- `n` valid cycles (40_primitives.md R112). -/
theorem goes_cycles {s : State} (n : Nat) (h : Reading s) (hf : ∀ f ∈ s.env.svldForce.take n, f = false) :
    ∃ t, Goes (shiftInCycles n) s t ∧ CycleDone s t n (cycleBit s) := by
  induction n generalizing s with
  | zero =>
    exact ⟨s, rfl, h, rfl, rfl, rfl, rfl, rfl, by simp, rfl, by simp, rfl, rfl, rfl, rfl, rfl, rfl, rfl⟩
  | succ n ih =>
    have hf0 : s.env.svldForce.headD false = false := by
      cases hl : s.env.svldForce with
      | nil => rfl
      | cons b l =>
        rw [hl] at hf
        exact hf b (by simp)
    obtain ⟨t, g, d⟩ := goes_cycle (BitVec.ofNat 6 n) h hf0
    have hft : ∀ f ∈ t.env.svldForce.take n, f = false := by
      intro f hm
      rw [d.env] at hm
      dsimp only at hm
      refine hf f ?_
      cases hl : s.env.svldForce with
      | nil => rw [hl] at hm; simp at hm
      | cons b l =>
        rw [hl] at hm
        simp only [List.drop_succ_cons, List.drop_zero] at hm
        simp [hm]
    obtain ⟨u, gu, du⟩ := ih d.reading hft
    have hb : ∀ j, cycleBit t j = cycleBit s (j + 1) := by
      intro j
      unfold cycleBit
      rw [d.env, d.rdSr]
      dsimp only
      rw [List.getElem?_drop, BitVec.getLsbD_ushiftRight, Nat.add_comm 1 j]
    refine ⟨u, g.append gu, du.reading, du.cfg.trans d.cfg, du.lines.trans d.lines, du.mem.trans d.mem,
      du.treg.trans d.treg, du.selected.trans d.selected, ?_, du.freeCount.trans d.freeCount, ?_, ?_, ?_,
      du.rxlen.trans d.rxlen, du.rxbuf.trans d.rxbuf, du.status.trans d.status, du.elapsed.trans d.elapsed,
      du.phase.trans d.phase⟩
    · rw [du.env, d.env]
      simp only [List.drop_drop, Nat.add_comm 1 n]
    · rw [du.rdSr, d.rdSr, ← BitVec.shiftRight_add, Nat.add_comm 1 n]
    · have e1 : ((List.range 1).map (cycleBit s)).foldl pushTop s.work.dsr = pushTop s.work.dsr (cycleBit s 0) := rfl
      rw [du.dsr, d.dsr, e1, List.range_succ_eq_map, List.map_cons, List.foldl_cons, List.map_map]
      congr 1
      exact List.map_congr_left fun j _ => hb j
    · rw [du.log, d.log]
      unfold cycleEvents
      rw [List.range_succ_eq_map (n := n), List.flatMap_cons, List.flatMap_map, List.reverse_append, List.append_assoc]
      congr 2
      exact List.flatMap_congr fun j _ => by rw [hb j]

/-- A cycle whose `SVLD` sample is forced to 0 ends the command (40_primitives.md R112). -/
theorem stops_cycle {s : State} (n : BitVec 6) (h : Reading s) (hf : s.env.svldForce.headD false = true) :
    act (.cycle n) s = .stop { s with
      env := { s.env with sdiFrame := s.env.sdiFrame.drop 1, svldForce := s.env.svldForce.drop 1 },
      log := .r .svld false :: .r .sdi (cycleBit s 0) :: s.log } .protocolFault := by
  obtain ⟨s1, hs1⟩ : ∃ s1 : State, s1 = { s with
    env := { s.env with sdiFrame := s.env.sdiFrame.drop 1 }, log := .r .sdi (cycleBit s 0) :: s.log } := ⟨_, rfl⟩
  have e1 : sample .sdi s = (cycleBit s 0, s1) := by
    unfold sample answer
    dsimp only
    rw [answerSdi_reading h, hs1]
  have h1 : Reading s1 := by
    rw [hs1]
    exact ⟨⟨h.scanning.kind, h.scanning.sck, h.scanning.srst, h.scanning.tm, h.scanning.cse, h.scanning.load,
      h.scanning.pend⟩, h.target⟩
  have hf1 : s1.env.svldForce.headD false = true := by rw [hs1]; exact hf
  have e2 : sample .svld s1 = (false, { s1 with
      env := { s1.env with svldForce := s1.env.svldForce.drop 1 }, log := .r .svld false :: s1.log }) := by
    unfold sample answer
    dsimp only
    rw [answerSvld_reading h1, hf1]
    rfl
  change actCycle n s = _
  unfold actCycle
  dsimp only
  rw [e1]
  dsimp only
  rw [e2, hs1]
  rfl

/-- Thirty-two sampled bits make the word (20_memory.md R46). -/
theorem foldl_pushTop_word (w d : Word) (bit : Nat → Bool) (h : ∀ j, j < 32 → bit j = w.getLsbD j) :
    ((List.range 32).map bit).foldl pushTop d = w := by
  apply BitVec.eq_of_getLsbD_eq
  intro j hj
  rw [foldl_pushTop_getLsbD _ _ (by simp) j hj]
  simp [hj, h j hj]

/-- `shift_in(32)` of a word the read register holds (40_primitives.md R112; 20_memory.md R46, R65). -/
theorem goes_shiftIn {s : State} (h : Reading s) (hf : ∀ f ∈ s.env.svldForce.take 32, f = false) :
    ∃ t, Goes (shiftIn Config.wordWidth) s t ∧ Reading t ∧ t.cfg = s.cfg ∧ t.lines = s.lines ∧
      t.chip.mem = s.chip.mem ∧ t.chip.treg = s.chip.treg ∧ t.chip.selected = s.chip.selected ∧
      t.env = { s.env with svldForce := s.env.svldForce.drop 32, sdiFrame := s.env.sdiFrame.drop 32 } ∧
      t.freeCount = s.freeCount ∧ t.rxlen = s.rxlen ∧ t.rxbuf = s.rxbuf ∧ t.status = s.status ∧
      t.elapsed = s.elapsed ∧ t.log = (cycleEvents (cycleBit s) 32).reverse ++ s.log ∧
      ∀ w : Word, (∀ j, j < 32 → cycleBit s j = w.getLsbD j) → t.work.dsr = w := by
  obtain ⟨s0, hs0⟩ : ∃ s0 : State, s0 = { s with phase := .shifting, work := { s.work with dsr := 0, bitc := 32 } } :=
    ⟨_, rfl⟩
  have h0 : Reading s0 := by
    rw [hs0]
    exact ⟨⟨h.scanning.kind, h.scanning.sck, h.scanning.srst, h.scanning.tm, h.scanning.cse, h.scanning.load,
      h.scanning.pend⟩, h.target⟩
  obtain ⟨t, g, d⟩ := goes_cycles 32 h0 (by rw [hs0]; exact hf)
  have hb : cycleBit s0 = cycleBit s := by
    funext j
    rw [hs0]
    rfl
  rw [hb] at d
  have g0 : Goes [.phase .shifting, .startRead (BitVec.ofNat 6 32)] s s0 := by rw [hs0]; rfl
  refine ⟨t, g0.append g, d.reading, ?_, ?_, ?_, ?_, ?_, ?_, ?_, ?_, ?_, ?_, ?_, ?_, fun w hw => ?_⟩
  · rw [d.cfg, hs0]
  · rw [d.lines, hs0]
  · rw [d.mem, hs0]
  · rw [d.treg, hs0]
  · rw [d.selected, hs0]
  · rw [d.env, hs0]
  · rw [d.freeCount, hs0]
  · rw [d.rxlen, hs0]
  · rw [d.rxbuf, hs0]
  · rw [d.status, hs0]
  · rw [d.elapsed, hs0]
  · rw [d.log, hs0]
  · rw [d.dsr]
    exact foldl_pushTop_word w _ _ hw

/-- `shift_in(32)` with a false `SVLD` in cycle `k` (40_primitives.md R112; 60_exceptions.md R173). -/
theorem stops_shiftIn {s : State} (k : Nat) (hk : k < 32) (h : Reading s)
    (hf : ∀ f ∈ s.env.svldForce.take k, f = false) (hfk : s.env.svldForce[k]? = some true) :
    ∃ t, runActs (shiftIn Config.wordWidth) s = .stop t .protocolFault ∧ Reading t ∧ t.cfg = s.cfg ∧
      t.lines = s.lines ∧ t.chip.mem = s.chip.mem ∧ t.chip.treg = s.chip.treg ∧ t.chip.selected = s.chip.selected ∧
      t.rxlen = s.rxlen ∧ t.rxbuf = s.rxbuf ∧ t.status = s.status ∧ t.elapsed = s.elapsed ∧
      t.log = (cycleEvents (cycleBit s) k ++ [Event.r .sdi (cycleBit s k), .r .svld false]).reverse ++ s.log := by
  obtain ⟨s0, hs0⟩ : ∃ s0 : State, s0 = { s with phase := .shifting, work := { s.work with dsr := 0, bitc := 32 } } :=
    ⟨_, rfl⟩
  have h0 : Reading s0 := by
    rw [hs0]
    exact ⟨⟨h.scanning.kind, h.scanning.sck, h.scanning.srst, h.scanning.tm, h.scanning.cse, h.scanning.load,
      h.scanning.pend⟩, h.target⟩
  have g0 : Goes [.phase .shifting, .startRead (BitVec.ofNat 6 32)] s s0 := by rw [hs0]; rfl
  -- the cycles before the fault, then the faulting one
  have key : ∀ (n k : Nat) (u : State), k < n → Reading u → (∀ f ∈ u.env.svldForce.take k, f = false) →
      u.env.svldForce[k]? = some true →
      ∃ t, runActs (shiftInCycles n) u = .stop t .protocolFault ∧ Reading t ∧ t.cfg = u.cfg ∧
        t.lines = u.lines ∧ t.chip.mem = u.chip.mem ∧ t.chip.treg = u.chip.treg ∧
        t.chip.selected = u.chip.selected ∧ t.rxlen = u.rxlen ∧ t.rxbuf = u.rxbuf ∧ t.status = u.status ∧
        t.elapsed = u.elapsed ∧
        t.log = (cycleEvents (cycleBit u) k ++ [Event.r .sdi (cycleBit u k), .r .svld false]).reverse ++ u.log := by
    intro n
    induction n with
    | zero => intro k u hk; omega
    | succ n ih =>
      intro k u hk hu hf hfk
      cases k with
      | zero =>
        have hh : u.env.svldForce.headD false = true := by
          cases hl : u.env.svldForce with
          | nil => rw [hl] at hfk; cases hfk
          | cons b l =>
            rw [hl] at hfk
            simpa using hfk
        have hs := stops_cycle (BitVec.ofNat 6 n) hu hh
        refine ⟨{ u with
          env := { u.env with sdiFrame := u.env.sdiFrame.drop 1, svldForce := u.env.svldForce.drop 1 },
          log := .r .svld false :: .r .sdi (cycleBit u 0) :: u.log }, ?_, ?_, rfl, rfl, rfl, rfl, rfl, rfl, rfl, rfl,
          rfl, rfl⟩
        · change (act (.cycle (BitVec.ofNat 6 n)) u).bind _ = _
          rw [hs]
          rfl
        · exact ⟨⟨hu.scanning.kind, hu.scanning.sck, hu.scanning.srst, hu.scanning.tm, hu.scanning.cse,
            hu.scanning.load, hu.scanning.pend⟩, hu.target⟩
      | succ k =>
        have hf0 : u.env.svldForce.headD false = false := by
          cases hl : u.env.svldForce with
          | nil => rfl
          | cons b l =>
            rw [hl] at hf
            exact hf b (by simp)
        obtain ⟨v, g, d⟩ := goes_cycle (BitVec.ofNat 6 n) hu hf0
        have hfv : ∀ f ∈ v.env.svldForce.take k, f = false := by
          intro f hm
          rw [d.env] at hm
          dsimp only at hm
          refine hf f ?_
          cases hl : u.env.svldForce with
          | nil => rw [hl] at hm; simp at hm
          | cons b l =>
            rw [hl] at hm
            simp only [List.drop_succ_cons, List.drop_zero] at hm
            simp [hm]
        have hfkv : v.env.svldForce[k]? = some true := by
          rw [d.env]
          dsimp only
          rw [List.getElem?_drop, Nat.add_comm]
          exact hfk
        obtain ⟨t, ht, hr, e1, e2, e3, e4, e5, e6, e7, e8, e9, e10⟩ := ih k v (by omega) d.reading hfv hfkv
        have hb : ∀ j, cycleBit v j = cycleBit u (j + 1) := by
          intro j
          unfold cycleBit
          rw [d.env, d.rdSr]
          dsimp only
          rw [List.getElem?_drop, BitVec.getLsbD_ushiftRight, Nat.add_comm 1 j]
        refine ⟨t, ?_, hr, e1.trans d.cfg, e2.trans d.lines, e3.trans d.mem, e4.trans d.treg, e5.trans d.selected,
          e6.trans d.rxlen, e7.trans d.rxbuf, e8.trans d.status, e9.trans d.elapsed, ?_⟩
        · change runActs ([.cycle (BitVec.ofNat 6 n), .tick 0] ++ shiftInCycles n) u = _
          rw [runActs_append_go g]
          exact ht
        · rw [e10, d.log]
          unfold cycleEvents
          rw [List.range_succ_eq_map (n := k), List.flatMap_cons, List.flatMap_map, hb k]
          simp only [List.reverse_append, List.append_assoc]
          congr 3
          exact List.flatMap_congr fun j _ => by rw [hb j]
  obtain ⟨t, ht, hr, e1, e2, e3, e4, e5, e6, e7, e8, e9, e10⟩ :=
    key 32 k s0 hk h0 (by rw [hs0]; exact hf) (by rw [hs0]; exact hfk)
  refine ⟨t, ?_, hr, ?_, ?_, ?_, ?_, ?_, ?_, ?_, ?_, ?_, ?_⟩
  · change runActs ([.phase .shifting, .startRead (BitVec.ofNat 6 32)] ++ shiftInCycles 32) s = _
    rw [runActs_append_go g0]
    exact ht
  · rw [e1, hs0]
  · rw [e2, hs0]
  · rw [e3, hs0]
  · rw [e4, hs0]
  · rw [e5, hs0]
  · rw [e6, hs0]
  · rw [e7, hs0]
  · rw [e8, hs0]
  · rw [e9, hs0]
  · rw [e10, hs0]
    rfl

/-! ### What a pure program leaves of the engine -/

theorem Goes.log {p : List Act} {s t : State} (h : Goes p s t) (hp : p.all Act.isPure = true) :
    t.log = (progEvents p).reverse ++ s.log := by
  rw [runActs_pure hp h, withWorld_log, engineRun_log]

theorem Goes.lines {p : List Act} {s t : State} (h : Goes p s t) (hp : p.all Act.isPure = true) :
    t.lines = (progEvents p).foldl lineEvent s.lines := by
  rw [runActs_pure hp h, withWorld_lines, engineRun_lines]

theorem Goes.elapsed {p : List Act} {s t : State} (h : Goes p s t) (hp : p.all Act.isPure = true) :
    t.elapsed = s.elapsed := by
  rw [runActs_pure hp h, withWorld_elapsed, engineRun_elapsed]

theorem Goes.status {p : List Act} {s t : State} (h : Goes p s t) (hp : p.all Act.isPure = true)
    (hc : .clearFault ∉ p) : t.status = s.status := by
  rw [runActs_pure hp h, withWorld_status, engineRun_status, if_neg hc]

theorem Goes.cleared {p : List Act} {s t : State} (h : Goes p s t) (hp : p.all Act.isPure = true)
    (hc : .clearFault ∈ p) : t.status = s.status.clearFault := by
  rw [runActs_pure hp h, withWorld_status, engineRun_status, if_pos hc]

theorem Goes.rx {p : List Act} {s t : State} (h : Goes p s t) (hp : p.all Act.isPure = true)
    (hr : p.all (fun a => !a.writesRx) = true) : t.rxlen = s.rxlen ∧ t.rxbuf = s.rxbuf := by
  rw [runActs_pure hp h]
  exact ⟨engineRun_rxlen s hr, engineRun_rxbuf s hr⟩

/-- The micro-steps of a scan: they write neither the receive side nor the flags. -/
def Act.isScan (a : Act) : Bool := !a.writesRx && decide (a ≠ .clearFault)

theorem noRx_of_scan {p : List Act} (h : p.all Act.isScan = true) : p.all (fun a => !a.writesRx) = true := by
  rw [List.all_eq_true] at *
  intro a ha
  have := h a ha
  unfold Act.isScan at this
  rw [Bool.and_eq_true] at this
  exact this.1

theorem noClear_of_scan {p : List Act} (h : p.all Act.isScan = true) : .clearFault ∉ p := by
  intro hc
  have := List.all_eq_true.1 h _ hc
  simp [Act.isScan] at this

@[simp] theorem pulse_isScan (n : Nat) : (pulse n).all Act.isScan = true := by
  induction n with
  | zero => rfl
  | succ n ih => simp [pulse, ih, Act.isScan, Act.writesRx]

@[simp] theorem driveBits_isScan (l : BitSeq) : (driveBits l).all Act.isScan = true := by
  induction l with
  | nil => rfl
  | cons b l ih => simp [driveBits, ih, Act.isScan, Act.writesRx]

@[simp] theorem select_isScan (id : BitVec 8) : (select id).all Act.isScan = true := by
  simp [select, shiftOut, driveSeq, Act.isScan, Act.writesRx]

@[simp] theorem selectChain_isScan (id : BitVec 4) : (selectChain id).all Act.isScan = true := select_isScan _

@[simp] theorem writePayload_isScan (t : LoadTicks) (a : BitVec 16) (d : Word) (e w : Bool) (m : BitVec 4) :
    (writePayload t a d e w m).all Act.isScan = true := by
  simp [writePayload, loadSequence, shiftOut, driveSeq, Act.isScan, Act.writesRx]

@[simp] theorem driveClkgen_isScan (o : CkcfgOrder) (q : BitSeq) : (driveClkgen o q).all Act.isScan = true := by
  simp [driveClkgen, driveSeq, Act.isScan, Act.writesRx]

/-! ### The rows of a bank read -/

/-- Addressing row `a` and selecting the read target: steps (a) and (b) up to the samples (41_transactions.md R136). -/
def readAddr (c : Config) (b : Bank) (a : Nat) : List Act :=
  [.row (BitVec.ofNat 17 a)] ++ selectChain (c.wr.get b)
    ++ writePayload c.loadTicks (BitVec.ofNat 16 a) 0 true false maskAll ++ selectChain (c.rd.get b)

theorem readWord_eq (c : Config) (b : Bank) (a : Nat) :
    readWord c b a = readAddr c b a ++ shiftIn Config.wordWidth ++ [.rxStore b a] := rfl

/-- The address payload of row `a` (41_transactions.md R136 (a)). -/
def addrValue (a : Nat) : BitVec 54 := payloadValue (BitVec.ofNat 16 a) 0 true false maskAll

theorem goes_readAddr {s : State} (b : Bank) (a : Nat) (h : Scanning s) (hv : Config.valid s.cfg = true)
    (ht : s.cfg.loadTicks = ⟨0, 1, 1⟩) (ha : a < 65536) :
    ∃ t, Goes (readAddr s.cfg b a) s t ∧ Reading t ∧ t.cfg = s.cfg ∧ EnvSame s.world t.world ∧
      t.chip.mem = s.chip.mem ∧ t.chip.treg = s.chip.treg.set b (addrValue a) ∧
      t.chip.selected = some ((s.cfg.rd.get b).setWidth 8) ∧
      (a < (s.cfg.cap.get b).toNat → t.chip.rdSr = s.chip.mem.readRow b (BitVec.ofNat 16 a)) ∧
      t.log = (readAddrEvents s.cfg b a).reverse ++ s.log ∧ t.rxlen = s.rxlen ∧ t.rxbuf = s.rxbuf ∧
      t.status = s.status ∧ t.elapsed = s.elapsed := by
  obtain ⟨s0, g0, w0⟩ := Goes'.row h (BitVec.ofNat 17 a)
  obtain ⟨s1, g1, l1, r1, m1, _⟩ := Goes'.select_facts ((s.cfg.wr.get b).setWidth 8) g0.scanning
  have c1 : s1.cfg = s.cfg := g1.cfg.trans g0.cfg
  obtain ⟨s2, g2, l2, r2, w2⟩ := Goes'.payload_facts (BitVec.ofNat 16 a) 0 true false maskAll g1.scanning (c1 ▸ ht) l1
    (captureFits_of_noWrite rfl)
  rw [c1] at g2 r2 w2
  rw [tregAfter_some (bankOfWrite_wr hv b)] at r2
  have c2 : s2.cfg = s.cfg := g2.cfg.trans c1
  obtain ⟨s3, g3, l3, r3, m3, w3⟩ := Goes'.select_facts ((s.cfg.rd.get b).setWidth 8) g2.scanning
  have c3 : s3.cfg = s.cfg := g3.cfg.trans c2
  have g := ((g0.append g1).append g2).append g3
  have hm0 : s0.chip = s.chip := chip_of_world w0
  have hm2 : s2.chip.mem = s.chip.mem := by
    rw [chip_of_world w2, payloadWorld_mem _ _ _ _ _ _ _ _ (Or.inl rfl), world_chip, m1, hm0]
  have ht2 : s2.chip.treg = s.chip.treg.set b (addrValue a) := by
    rw [r2, r1, hm0, addrValue]
  have hp : (readAddr s.cfg b a).all Act.isPure = true := by simp [readAddr, Act.isPure]
  have hs : (readAddr s.cfg b a).all Act.isScan = true := by simp [readAddr, Act.isScan, Act.writesRx]
  have gg : Goes (readAddr s.cfg b a) s s3 := by
    unfold readAddr selectChain
    exact g.goes
  refine ⟨s3, gg, ⟨g3.scanning, ?_⟩, c3, g.env, m3.trans hm2, r3.trans ht2, l3, fun hc => ?_, ?_, ?_, ?_, ?_, ?_⟩
  · unfold readSelected
    rw [l3, c3]
    dsimp only
    rw [bankOfRead_rd hv b]
    rfl
  · have hrow : regRow (s2.chip.treg.get b) = BitVec.ofNat 16 a := by
      rw [ht2, PerBank_get_set_same, addrValue, regRow_payloadValue]
    have hlt : (regRow (s2.chip.treg.get b)).toNat < (s.cfg.cap.get b).toNat := by
      rw [hrow, BitVec.toNat_ofNat]
      omega
    have hq := latchWorld_rdSr (w := s2.world) (bankOfRead_rd hv b) hlt
    rw [world_chip, hrow, hm2] at hq
    rw [chip_of_world w3, c2]
    exact hq
  · rw [gg.log hp, readAddr, progEvents_readAddr]
  · exact (gg.rx hp (noRx_of_scan hs)).1
  · exact (gg.rx hp (noRx_of_scan hs)).2
  · exact gg.status hp (noClear_of_scan hs)
  · exact gg.elapsed hp

/-- A word of the rows `0 .. n-1`: the row's, where the row exists. -/
def RowWords (s : State) (b : Bank) (ws : List Word) : Prop :=
  ∀ a, a < ws.length → a < (s.cfg.cap.get b).toNat →
    ws[a]? = some (s.chip.mem.readRow b (BitVec.ofNat 16 a))

/-- Bank `b`'s receive side after rows that answered the words `ws`, the other banks' as it was (41_transactions.md
R136). -/
structure RxRows (s t : State) (b : Bank) (ws : List Word) : Prop where
  rxlenOther : ∀ d, d ≠ b → t.rxlen.get d = s.rxlen.get d
  rxlen : t.rxlen.get b = if ws.length = 0 then s.rxlen.get b else BitVec.ofNat 17 ws.length
  rxbufOther : ∀ d, d ≠ b → t.rxbuf.get d = s.rxbuf.get d
  rxbuf : (s.rxbuf.get b).wf = true → (t.rxbuf.get b).wf = true ∧
    (∀ a w, ws[a]? = some w → (t.rxbuf.get b).read (BitVec.ofNat 16 a) = w) ∧
    ∀ a, ws.length ≤ a → a < 65536 →
      (t.rxbuf.get b).read (BitVec.ofNat 16 a) = (s.rxbuf.get b).read (BitVec.ofNat 16 a)

theorem RxRows.nil (s : State) (b : Bank) : RxRows s s b [] :=
  ⟨fun _ _ => rfl, rfl, fun _ _ => rfl, fun h => ⟨h, fun a w hh => by simp at hh, fun _ _ _ => rfl⟩⟩

/-- One more word stored. -/
theorem RxRows.store {s t x : State} {b : Bank} {ws : List Word} {w : Word} (d : RxRows s t b ws)
    (hn : ws.length < 65536) (h1 : x.rxlen = t.rxlen.set b (BitVec.ofNat 17 (ws.length + 1)))
    (h2 : x.rxbuf = t.rxbuf.set b ((t.rxbuf.get b).write (BitVec.ofNat 16 ws.length) w)) :
    RxRows s x b (ws ++ [w]) := by
  have hlen : (ws ++ [w]).length = ws.length + 1 := by rw [List.length_append]; rfl
  refine ⟨fun e he => ?_, ?_, fun e he => ?_, fun hw => ?_⟩
  · rw [h1, PerBank_get_set_other _ _ he]
    exact d.rxlenOther e he
  · rw [h1, hlen, PerBank_get_set_same, if_neg (by omega)]
  · rw [h2, PerBank_get_set_other _ _ he]
    exact d.rxbufOther e he
  · obtain ⟨p1, p2, p3⟩ := d.rxbuf hw
    have hxb : x.rxbuf.get b = (t.rxbuf.get b).write (BitVec.ofNat 16 ws.length) w := by rw [h2, PerBank_get_set_same]
    have hne : ∀ a, a < 65536 → a ≠ ws.length → BitVec.ofNat 16 a ≠ BitVec.ofNat 16 ws.length := by
      intro a k1 k2 he
      have := congrArg BitVec.toNat he
      simp only [BitVec.toNat_ofNat] at this
      omega
    refine ⟨by rw [hxb]; exact Buffer.wf_write p1, fun a v ha => ?_, fun a k1 k2 => ?_⟩
    · by_cases hE : a = ws.length
      · subst hE
        rw [List.getElem?_concat_length] at ha
        cases ha
        rw [hxb]
        exact Buffer.read_write_same p1
      · have hlt : a < ws.length := by
          obtain ⟨h', _⟩ := List.getElem?_eq_some_iff.1 ha
          rw [hlen] at h'
          omega
        rw [List.getElem?_append_left hlt] at ha
        rw [hxb, Buffer.read_write_other (hne a (by omega) hE)]
        exact p2 a v ha
    · rw [hlen] at k1
      rw [hxb, Buffer.read_write_other (hne a k2 (by omega))]
      exact p3 a (by omega) k2

/-- What the rows `0 .. n-1` of a read leave in the RTM, the words `ws` answered. -/
structure RowsRead (s t : State) (b : Bank) (ws : List Word) : Prop where
  scanning : Scanning t
  cfg : t.cfg = s.cfg
  mem : t.chip.mem = s.chip.mem
  tregOther : ∀ d, d ≠ b → t.chip.treg.get d = s.chip.treg.get d
  treg : t.chip.treg.get b = if ws.length = 0 then s.chip.treg.get b else addrValue (ws.length - 1)
  force : t.env.svldForce = s.env.svldForce.drop (32 * ws.length)
  sdiFrame : t.env.sdiFrame = []
  words : RowWords s b ws
  log : t.log = (ws.zipIdx.flatMap fun p => readWordEvents s.cfg b p.1 p.2).reverse ++ s.log
  rx : RxRows s t b ws
  status : t.status = s.status
  elapsed : t.elapsed = s.elapsed

theorem cycleBit_of_rdSr {s : State} (h : s.env.sdiFrame = []) (j : Nat) : cycleBit s j = s.chip.rdSr.getLsbD j := by
  unfold cycleBit
  rw [h]
  rfl

theorem RowWords.concat {s : State} {b : Bank} {ws : List Word} {w : Word} (h : RowWords s b ws)
    (hw : ws.length < (s.cfg.cap.get b).toNat → w = s.chip.mem.readRow b (BitVec.ofNat 16 ws.length)) :
    RowWords s b (ws ++ [w]) := by
  intro a ha hc
  rw [List.length_append, List.length_singleton] at ha
  by_cases h' : a < ws.length
  · rw [List.getElem?_append_left h']
    exact h a h' hc
  · have : a = ws.length := by omega
    subst this
    rw [List.getElem?_concat_length, hw hc]

/-- The rows `0 .. n-1` of a bank read, no sample overridden. -/
theorem goes_readWords {s : State} (b : Bank) (n : Nat) (h : Scanning s) (hv : Config.valid s.cfg = true)
    (ht : s.cfg.loadTicks = ⟨0, 1, 1⟩) (hn : n ≤ 65536) (hs : s.env.sdiFrame = [])
    (hf : ∀ f ∈ s.env.svldForce.take (32 * n), f = false) :
    ∃ ws t, ws.length = n ∧ Goes ((List.range n).flatMap (readWord s.cfg b)) s t ∧ RowsRead s t b ws := by
  induction n with
  | zero =>
    exact ⟨[], s, rfl, rfl, h, rfl, rfl, fun _ _ => rfl, rfl, rfl, hs, fun a ha => absurd ha (by simp), rfl,
      RxRows.nil s b, rfl, rfl⟩
  | succ n ih =>
    have hf' : ∀ f ∈ s.env.svldForce.take (32 * n), f = false := fun f hm =>
      hf f (by
        have : s.env.svldForce.take (32 * n) = (s.env.svldForce.take (32 * (n + 1))).take (32 * n) := by
          rw [List.take_take]
          congr 1
          omega
        rw [this] at hm
        exact List.mem_of_mem_take hm)
    obtain ⟨ws, t, hl, g, d⟩ := ih (by omega) hf'
    have hvt : Config.valid t.cfg = true := by rw [d.cfg]; exact hv
    obtain ⟨u, gu, ru, cu, eu, mu, tu, lu, qu, logu, rlu, rbu, stu, elu⟩ :=
      goes_readAddr b n d.scanning hvt (by rw [d.cfg]; exact ht) (by omega)
    rw [d.cfg] at gu lu qu logu
    have hforce : u.env.svldForce = s.env.svldForce.drop (32 * n) := by
      have := eu.force
      change u.env.svldForce = t.env.svldForce at this
      rw [this, d.force, hl]
    have hfu : ∀ f ∈ u.env.svldForce.take 32, f = false := by
      intro f hm
      rw [hforce] at hm
      refine hf f ?_
      have : 32 * (n + 1) = 32 * n + 32 := by ring
      rw [this, List.take_add]
      simp [hm]
    have hsu : u.env.sdiFrame = [] := eu.sdiFrame.trans d.sdiFrame
    obtain ⟨v, gv, rv, cv, lv, mv, tv, sv, ev, fv, rlv, rbv, stv, elv, logv, wv⟩ := goes_shiftIn ru hfu
    have hdsr : v.work.dsr = u.chip.rdSr := wv _ fun j _ => cycleBit_of_rdSr hsu j
    have hcyc : cycleEvents (cycleBit u) 32 = sampleEvents u.chip.rdSr 32 := by
      rw [sampleEvents_eq]
      congr 1
      funext j
      exact cycleBit_of_rdSr hsu j
    obtain ⟨x, hx⟩ : ∃ x : State, x = { v with
      rxbuf := v.rxbuf.set b ((v.rxbuf.get b).write (BitVec.ofNat 16 n) v.work.dsr),
      rxlen := v.rxlen.set b (BitVec.ofNat 17 (n + 1)) } := ⟨_, rfl⟩
    have gx : Goes [.rxStore b n] v x := by rw [hx]; rfl
    have hww : ws.length < (s.cfg.cap.get b).toNat → u.chip.rdSr = s.chip.mem.readRow b (BitVec.ofNat 16 ws.length) := by
      intro hc
      rw [hl] at hc ⊢
      rw [qu hc, d.mem]
    refine ⟨ws ++ [u.chip.rdSr], x, by rw [List.length_append, hl]; rfl, ?_, ?_⟩
    · rw [List.range_succ, List.flatMap_append]
      simp only [List.flatMap_cons, List.flatMap_nil, List.append_nil]
      rw [readWord_eq]
      exact g.append ((gu.append gv).append gx)
    · have hlen : (ws ++ [u.chip.rdSr]).length = n + 1 := by rw [List.length_append, hl]; rfl
      refine ⟨?_, ?_, ?_, ?_, ?_, ?_, ?_, d.words.concat hww, ?_, ?_, ?_, ?_⟩
      · rw [hx]
        have := rv.scanning
        exact ⟨this.kind, this.sck, this.srst, this.tm, this.cse, this.load, this.pend⟩
      · rw [hx]
        exact cv.trans (cu.trans d.cfg)
      · rw [hx]
        exact mv.trans (mu.trans d.mem)
      · intro e he
        rw [hx]
        change v.chip.treg.get e = _
        rw [tv, tu, PerBank_get_set_other _ _ he]
        exact d.tregOther e he
      · rw [hx, hlen]
        change v.chip.treg.get b = _
        rw [tv, tu, PerBank_get_set_same]
        simp
      · rw [hx, hlen]
        change v.env.svldForce = _
        rw [ev]
        dsimp only
        rw [hforce, List.drop_drop]
        congr 1
      · rw [hx]
        change v.env.sdiFrame = []
        rw [ev]
        dsimp only
        rw [hsu]
        rfl
      · rw [hx]
        change v.log = _
        rw [logv, logu, d.log, hcyc, List.zipIdx_append, List.flatMap_append, hl]
        simp only [List.zipIdx_cons, List.zipIdx_nil, List.flatMap_cons, List.flatMap_nil, List.append_nil,
          List.reverse_append, List.append_assoc, readWordEvents, Nat.zero_add]
      · refine RxRows.store d.rx (by omega) ?_ ?_
        · rw [hx, hl]
          change v.rxlen.set b _ = _
          rw [rlv, rlu]
        · rw [hx, hl]
          change v.rxbuf.set b _ = _
          rw [rbv, rbu, hdsr]
      · rw [hx]
        exact stv.trans (stu.trans d.status)
      · rw [hx]
        exact elv.trans (elu.trans d.elapsed)

end Sys2Proof.Machine
end

