-- ==== Sys2Proof/Laws/Bank.lean ====
section
/-!
SUPPORT. The whole bank read under the RTM, run to its end and faulted (41_transactions.md R136 to R138), and the poll
loop of RUN (42_sessions.md R152).
-/

namespace Sys2Proof.Machine

open Sys2Proof

/-- Bank `b`'s receive side after a bank read that answered the words `ws`, the other banks' as it was: `RXLEN[b]` is
cleared at its start (41_transactions.md R136). -/
structure RxRead (s t : State) (b : Bank) (ws : List Word) : Prop where
  rxlenOther : ∀ d, d ≠ b → t.rxlen.get d = s.rxlen.get d
  rxlen : t.rxlen.get b = BitVec.ofNat 17 ws.length
  rxbufOther : ∀ d, d ≠ b → t.rxbuf.get d = s.rxbuf.get d
  rxbuf : (s.rxbuf.get b).wf = true → (t.rxbuf.get b).wf = true ∧
    (∀ a w, ws[a]? = some w → (t.rxbuf.get b).read (BitVec.ofNat 16 a) = w) ∧
    ∀ a, ws.length ≤ a → a < 65536 →
      (t.rxbuf.get b).read (BitVec.ofNat 16 a) = (s.rxbuf.get b).read (BitVec.ofNat 16 a)

/-- From the receive length cleared to the rows read. -/
theorem RxRows.cleared {s u t : State} {b : Bank} {ws : List Word} (d : RxRows u t b ws)
    (h1 : u.rxlen = s.rxlen.set b 0) (h2 : u.rxbuf = s.rxbuf) : RxRead s t b ws := by
  refine ⟨fun e he => ?_, ?_, fun e he => ?_, ?_⟩
  · rw [d.rxlenOther e he, h1, PerBank_get_set_other _ _ he]
  · rw [d.rxlen, h1]
    split
    · rename_i h0
      rw [PerBank_get_set_same, h0]
      rfl
    · rfl
  · rw [d.rxbufOther e he, h2]
  · rw [← h2]
    exact d.rxbuf

/-- The receive side of a state that has it as another has. -/
theorem RxRead.same {s t u : State} {b : Bank} {ws : List Word} (d : RxRead s t b ws) (h1 : u.rxlen = t.rxlen)
    (h2 : u.rxbuf = t.rxbuf) : RxRead s u b ws := by
  refine ⟨?_, ?_, ?_, ?_⟩
  · rw [h1]
    exact d.rxlenOther
  · rw [h1]
    exact d.rxlen
  · rw [h2]
    exact d.rxbufOther
  · rw [h2]
    exact d.rxbuf

/-- What a bank read that ran to its end leaves in the RTM, the words `ws` answered. -/
structure BankRead (s t : State) (b : Bank) (ws : List Word) : Prop where
  rest : Rest t
  cfg : t.cfg = s.cfg
  kind : t.env.kind = s.env.kind
  mem : t.chip.mem = s.chip.mem
  selected : t.chip.selected = some ((s.cfg.wr.get .main).setWidth 8)
  tregOther : ∀ d, d ≠ b → t.chip.treg.get d = s.chip.treg.get d
  treg : t.chip.treg.get b = if ws.length = 0 then s.chip.treg.get b else addrValue (ws.length - 1)
  force : t.env.svldForce = s.env.svldForce.drop (32 * ws.length)
  sdiFrame : t.env.sdiFrame = []
  words : RowWords s b ws
  log : t.log = (readEvents s.cfg b ws).reverse ++ s.log
  rx : RxRead s t b ws
  status : t.status = s.status.clearFault
  elapsed : t.elapsed = s.elapsed
  tm : t.lines.tm = false

/-- The opening of a bank read: the receive length cleared, a bus reset, test mode. -/
theorem goes_readOpen {s : State} (b : Bank) (h : Rest s) (hk : s.env.kind = .rtm) :
    ∃ t, Goes ([.rxClear b] ++ busReset s.cfg ++ tmEnter) s t ∧ Scanning t ∧ t.env = s.env ∧ t.cfg = s.cfg ∧
      t.chip.mem = s.chip.mem ∧ t.chip.treg = s.chip.treg ∧
      t.log = (busResetEvents s.cfg ++ [Event.w .tm true]).reverse ++ s.log ∧ t.rxlen = s.rxlen.set b 0 ∧
      t.rxbuf = s.rxbuf ∧ t.status = s.status.clearFault ∧ t.elapsed = s.elapsed := by
  obtain ⟨s0, hs0⟩ : ∃ s0 : State, s0 = { s with rxlen := s.rxlen.set b 0 } := ⟨_, rfl⟩
  have g0 : Goes [.rxClear b] s s0 := by rw [hs0]; rfl
  have c0 : s0.cfg = s.cfg := by rw [hs0]
  obtain ⟨t, g, st, e, _, c, m, r⟩ := goes_open (s := s0) (by rw [hs0]; exact ⟨h.sck, h.srst, h.cse, h.load, h.pend⟩)
    (by rw [hs0]; exact hk)
  rw [c0] at g
  have hp : (busReset s.cfg ++ tmEnter).all Act.isPure = true := by simp
  have hr : (busReset s.cfg ++ tmEnter).all (fun a => !a.writesRx) = true := by
    simp only [busReset, tmEnter, List.all_append, noRx_of_scan (pulse_isScan _)]
    rfl
  have hc : .clearFault ∈ busReset s.cfg ++ tmEnter := by simp [busReset]
  refine ⟨t, ?_, st, ?_, ?_, ?_, ?_, ?_, ?_, ?_, ?_, ?_⟩
  · rw [List.append_assoc]
    exact g0.append g
  · rw [e, hs0]
  · rw [c, c0]
  · rw [m, hs0]
  · rw [r, hs0]
  · rw [g.log hp, progEvents_append, progEvents_busReset, progEvents_tmEnter, hs0]
  · rw [(g.rx hp hr).1, hs0]
  · rw [(g.rx hp hr).2, hs0]
  · rw [g.cleared hp hc, hs0]
  · rw [g.elapsed hp, hs0]

/-- A bank read to its end (41_transactions.md R136, R138). -/
theorem goes_readBody {s : State} (b : Bank) (n : Nat) (h : Rest s) (hk : s.env.kind = .rtm)
    (hv : Config.valid s.cfg = true) (ht : s.cfg.loadTicks = ⟨0, 1, 1⟩) (hn : n ≤ 65536) (hs : s.env.sdiFrame = [])
    (hf : ∀ f ∈ s.env.svldForce.take (32 * n), f = false) :
    ∃ ws t, ws.length = n ∧ Goes (readBody s.cfg b n) s t ∧ BankRead s t b ws := by
  obtain ⟨t1, g1, s1, e1, c1, m1, r1, log1, rl1, rb1, st1, el1⟩ := goes_readOpen b h hk
  obtain ⟨ws, t2, hl, g2, d⟩ := goes_readWords b n s1 (c1 ▸ hv) (c1 ▸ ht) hn (e1 ▸ hs) (e1 ▸ hf)
  rw [c1] at g2
  obtain ⟨t3, g3, w3⟩ := Goes'.row d.scanning (BitVec.ofNat 17 n)
  obtain ⟨t4, g4, l4, r4, m4, w4⟩ := Goes'.select_facts ((s.cfg.wr.get .main).setWidth 8) g3.scanning
  obtain ⟨t5, g5, r5, w5, c5, tm5⟩ := goes_tmExit g4.scanning
  have c4 : t4.cfg = s.cfg := g4.cfg.trans (g3.cfg.trans (d.cfg.trans c1))
  have hc3 : t3.chip = t2.chip := chip_of_world w3
  have hc5 : t5.chip = t4.chip := chip_of_world w5
  have he : EnvSame t2.world t5.world := by
    rw [w5]
    exact g3.env.trans g4.env
  have gtail : Goes ([.row (BitVec.ofNat 17 n)] ++ selectChain (s.cfg.wr.get .main) ++ tmExit) t2 t5 :=
    (g3.append g4).goes.append g5
  have hp : ([Act.row (BitVec.ofNat 17 n)] ++ selectChain (s.cfg.wr.get .main) ++ tmExit).all Act.isPure = true := by
    simp [Act.isPure]
  have hsc : ([Act.row (BitVec.ofNat 17 n)] ++ selectChain (s.cfg.wr.get .main) ++ tmExit).all Act.isScan = true := by
    simp [Act.isScan, Act.writesRx, tmExit]
  refine ⟨ws, t5, hl, ?_, ?_⟩
  · unfold readBody
    have := ((g1.append g2).append g3.goes).append g4.goes |>.append g5
    exact this
  · constructor
    · exact r5
    · exact c5.trans c4
    · exact (runActs_reach (((g1.append g2).append gtail))).kind
    · rw [hc5, m4, hc3, d.mem, m1]
    · rw [hc5, l4]
    · intro e hne
      rw [hc5, r4, hc3, d.tregOther e hne, r1]
    · rw [hc5, r4, hc3, d.treg, r1]
    · have := he.force
      change t5.env.svldForce = t2.env.svldForce at this
      rw [this, d.force, e1]
    · exact he.sdiFrame.trans d.sdiFrame
    · intro a ha hcap
      have := d.words a ha (c1 ▸ hcap)
      rw [this, m1]
    · rw [gtail.log hp, d.log, log1, c1]
      simp only [readEvents, progEvents_append, progEvents_selectChain, progEvents_tmExit, progEvents_cons,
        progEvents_nil, actEvents, List.nil_append, List.reverse_append, List.append_assoc]
    · have hg := gtail.rx hp (noRx_of_scan hsc)
      exact (d.rx.cleared rl1 rb1).same hg.1 hg.2
    · rw [gtail.status hp (noClear_of_scan hsc), d.status, st1]
    · rw [gtail.elapsed hp, d.elapsed, el1]
    · exact tm5

/-- What a bank read that faulted in cycle `k` of the row after the words `ws` leaves (41_transactions.md R137). -/
structure BankFault (s t : State) (b : Bank) (ws : List Word) (k : Nat) : Prop where
  rest : Rest t
  cfg : t.cfg = s.cfg
  mem : t.chip.mem = s.chip.mem
  selected : t.chip.selected = some ((s.cfg.rd.get b).setWidth 8)
  tregOther : ∀ d, d ≠ b → t.chip.treg.get d = s.chip.treg.get d
  treg : t.chip.treg.get b = addrValue ws.length
  words : RowWords s b ws
  log : ∃ w : Word, (ws.length < (s.cfg.cap.get b).toNat → w = s.chip.mem.readRow b (BitVec.ofNat 16 ws.length)) ∧
    t.log = (faultedReadEvents s.cfg b ws w k).reverse ++ s.log
  rx : RxRead s t b ws
  status : t.status = s.status.clearFault
  elapsed : t.elapsed = s.elapsed
  tm : t.lines.tm = true

/-- The rows of a read up to one of them, and what is left. -/
theorem readRows_split (c : Config) (b : Bank) {n a : Nat} (h : a < n) :
    ∃ rest, (List.range n).flatMap (readWord c b) =
      (List.range a).flatMap (readWord c b) ++ (readAddr c b a ++ (shiftIn Config.wordWidth ++ rest)) := by
  obtain ⟨m, rfl⟩ : ∃ m, n = a + (m + 1) := ⟨n - a - 1, by omega⟩
  refine ⟨[.rxStore b a] ++ (((List.range m).map Nat.succ).map (a + ·)).flatMap (readWord c b), ?_⟩
  rw [List.range_add, List.range_succ_eq_map, List.map_cons, List.flatMap_append, List.flatMap_cons, Nat.add_zero,
    readWord_eq]
  simp only [List.append_assoc]

/-- A bank read whose `SVLD` is false in cycle `k` of row `a` (41_transactions.md R137). -/
theorem stops_readBody {s : State} (b : Bank) (n a k : Nat) (h : Rest s) (hk : s.env.kind = .rtm)
    (hv : Config.valid s.cfg = true) (ht : s.cfg.loadTicks = ⟨0, 1, 1⟩) (hn : n ≤ 65536) (ha : a < n) (hk32 : k < 32)
    (hs : s.env.sdiFrame = []) (hf : ∀ f ∈ s.env.svldForce.take (32 * a + k), f = false)
    (hfk : s.env.svldForce[32 * a + k]? = some true) :
    ∃ ws t, ws.length = a ∧ runActs (readBody s.cfg b n) s = .stop t .protocolFault ∧ BankFault s t b ws k := by
  obtain ⟨t1, g1, s1, e1, c1, m1, r1, log1, rl1, rb1, st1, el1⟩ := goes_readOpen b h hk
  have hfa : ∀ f ∈ t1.env.svldForce.take (32 * a), f = false := by
    rw [e1]
    intro f hm
    refine hf f ?_
    rw [List.take_add]
    simp [hm]
  obtain ⟨ws, t2, hl, g2, d⟩ := goes_readWords b a s1 (c1 ▸ hv) (c1 ▸ ht) (by omega) (e1 ▸ hs) hfa
  rw [c1] at g2
  have c2 : t2.cfg = s.cfg := d.cfg.trans c1
  obtain ⟨t3, g3, rd3, c3, e3, m3, tr3, l3, q3, log3, rl3, rb3, st3, el3⟩ :=
    goes_readAddr b a d.scanning (c2 ▸ hv) (c2 ▸ ht) (by omega)
  rw [c2] at g3 l3 q3 log3
  have hforce : t3.env.svldForce = s.env.svldForce.drop (32 * a) := by
    have := e3.force
    change t3.env.svldForce = t2.env.svldForce at this
    rw [this, d.force, hl, e1]
  have hfu : ∀ f ∈ t3.env.svldForce.take k, f = false := by
    intro f hm
    rw [hforce] at hm
    refine hf f ?_
    rw [List.take_add]
    simp [hm]
  have hfku : t3.env.svldForce[k]? = some true := by
    rw [hforce, List.getElem?_drop]
    exact hfk
  have hsu : t3.env.sdiFrame = [] := e3.sdiFrame.trans d.sdiFrame
  obtain ⟨t, ht', rt, ct, lt, mt, trt, selt, rlt, rbt, stt, elt, logt⟩ := stops_shiftIn k hk32 rd3 hfu hfku
  have hcyc : cycleEvents (cycleBit t3) k = sampleEvents t3.chip.rdSr k := by
    rw [sampleEvents_eq]
    congr 1
    funext j
    exact cycleBit_of_rdSr hsu j
  have gg : Goes (([.rxClear b] ++ busReset s.cfg ++ tmEnter ++ (List.range a).flatMap (readWord s.cfg b)) ++
      readAddr s.cfg b a) s t3 := (g1.append g2).append g3
  obtain ⟨rest, hrest⟩ := readRows_split s.cfg b ha
  refine ⟨ws, t, hl, ?_, ?_⟩
  · unfold readBody
    rw [hrest]
    have e : [.rxClear b] ++ busReset s.cfg ++ tmEnter ++ ((List.range a).flatMap (readWord s.cfg b) ++
        (readAddr s.cfg b a ++ (shiftIn Config.wordWidth ++ rest))) ++ [.row (BitVec.ofNat 17 n)] ++
        selectChain (s.cfg.wr.get .main) ++ tmExit =
        (([.rxClear b] ++ busReset s.cfg ++ tmEnter ++ (List.range a).flatMap (readWord s.cfg b)) ++
          readAddr s.cfg b a) ++ (shiftIn Config.wordWidth ++ (rest ++ [.row (BitVec.ofNat 17 n)] ++
        selectChain (s.cfg.wr.get .main) ++ tmExit)) := by
      simp only [List.append_assoc]
    rw [e, runActs_append_go gg, runActs_append, ht']
    rfl
  · constructor
    · exact rt.scanning.rest
    · rw [ct, c3, c2]
    · rw [mt, m3, d.mem, m1]
    · rw [selt, l3]
    · intro e hne
      rw [trt, tr3, PerBank_get_set_other _ _ hne, d.tregOther e hne, r1]
    · rw [trt, tr3, PerBank_get_set_same, hl]
    · intro i hi hcap
      have := d.words i hi (c1 ▸ hcap)
      rw [this, m1]
    · refine ⟨t3.chip.rdSr, fun hc => ?_, ?_⟩
      · rw [hl] at hc ⊢
        rw [q3 hc, d.mem, m1]
      · rw [logt, log3, d.log, log1, hcyc, c1, cycleBit_of_rdSr hsu]
        simp only [faultedReadEvents, hl, List.reverse_append, List.append_assoc]
    · exact (d.rx.cleared rl1 rb1).same (rlt.trans rl3) (rbt.trans rb3)
    · rw [stt, st3, d.status, st1]
    · rw [elt, el3, d.elapsed, el1]
    · exact rt.scanning.tm

/-! ### The poll loop -/

/-- What `n` polls that answer 0 leave. -/
structure Polled (s t : State) (n : Nat) : Prop where
  same : t = { s with
    work := { s.work with cnt := t.work.cnt }, env := { s.env with bits := s.env.bits.drop n }, freeCount := t.freeCount, log := t.log }
  freeCount : t.freeCount = s.freeCount + (n - s.env.bits.length)
  cnt : t.work.cnt = s.work.cnt + BitVec.ofNat 32 n
  log : t.log = List.replicate n (Event.r .done false) ++ s.log

theorem drawBit_eq (s : State) : drawBit s = (drawnBit s 0, { s with
    env := { s.env with bits := s.env.bits.drop 1 }, freeCount := s.freeCount + (1 - s.env.bits.length) }) := by
  unfold drawBit drawnBit
  cases hb : s.env.bits with
  | nil =>
    simp only [List.getElem?_nil, Option.getD_none, List.length_nil, Nat.sub_zero, Nat.add_zero, List.drop_nil]
    rw [← hb]
  | cons b rest => simp

/-- A poll that answers 0 goes on. -/
theorem goes_poll {s : State} (h : drawnBit s 0 = false) : ∃ t, act .poll s = .go t ∧ Polled s t 1 := by
  have e : sample .done s = (false, { s with
      env := { s.env with bits := s.env.bits.drop 1 }, freeCount := s.freeCount + (1 - s.env.bits.length),
      log := .r .done false :: s.log }) := by
    unfold sample answer
    dsimp only
    rw [drawBit_eq, h]
  have g : act .poll s = .go { s with
      env := { s.env with bits := s.env.bits.drop 1 }, freeCount := s.freeCount + (1 - s.env.bits.length),
      log := .r .done false :: s.log, work := { s.work with cnt := s.work.cnt + 1 } } := by
    change actPoll s = _
    unfold actPoll
    dsimp only
    rw [e]
    rfl
  exact ⟨_, g, rfl, rfl, rfl, rfl⟩

/-- A poll that answers 1 ends the run. -/
theorem stops_poll {s : State} (h : drawnBit s 0 = true) :
    act .poll s = .stop (chipAfterRun { s with
      env := { s.env with bits := s.env.bits.drop 1 }, freeCount := s.freeCount + (1 - s.env.bits.length),
      log := .r .done true :: s.log, work := { s.work with cnt := s.work.cnt + 1 },
      elapsed := s.work.cnt + 1 }) .ok := by
  have e : sample .done s = (true, { s with
      env := { s.env with bits := s.env.bits.drop 1 }, freeCount := s.freeCount + (1 - s.env.bits.length),
      log := .r .done true :: s.log }) := by
    unfold sample answer
    dsimp only
    rw [drawBit_eq, h]
  change actPoll s = _
  unfold actPoll
  dsimp only
  rw [e]
  rfl

theorem drawnBit_after {s t : State} {n : Nat} (h : Polled s t n) (j : Nat) : drawnBit t j = drawnBit s (n + j) := by
  unfold drawnBit
  have hb : t.env.bits = s.env.bits.drop n := by rw [h.same]
  rw [hb, h.freeCount, List.getElem?_drop, List.length_drop]
  by_cases hc : n + j < s.env.bits.length
  · rw [List.getElem?_eq_getElem hc]
    rfl
  · rw [List.getElem?_eq_none (by omega)]
    simp only [Option.getD_none]
    congr 1
    omega

theorem Polled.step {s t u : State} {n : Nat} (h : Polled s t n) (k : Polled t u 1) : Polled s u (n + 1) := by
  refine ⟨?_, ?_, ?_, ?_⟩
  · have hk := k.same
    rw [hk]
    have hs := h.same
    rw [hs]
    simp only [List.drop_drop]
  · rw [k.freeCount, h.freeCount]
    have hb : t.env.bits = s.env.bits.drop n := by rw [h.same]
    rw [hb, List.length_drop]
    omega
  · rw [k.cnt, h.cnt, BitVec.add_assoc, BitVec.ofNat_add]
  · rw [k.log, h.log, List.replicate_succ]
    rfl

/-- `n` polls that all answer 0. -/
theorem goes_polls {s : State} (n : Nat) (h : ∀ j, j < n → drawnBit s j = false) :
    ∃ t, Goes (List.replicate n .poll) s t ∧ Polled s t n := by
  induction n with
  | zero => exact ⟨s, rfl, rfl, by simp, by simp, rfl⟩
  | succ n ih =>
    obtain ⟨t, g, d⟩ := ih fun j hj => h j (by omega)
    obtain ⟨u, gu, du⟩ := goes_poll (s := t) (by rw [drawnBit_after d]; exact h n (by omega))
    refine ⟨u, ?_, d.step du⟩
    rw [List.replicate_succ']
    refine Goes.append g ?_
    unfold Goes
    rw [runActs_cons, gu]
    rfl

end Sys2Proof.Machine
end

