-- ==== Sys2Proof/Laws/Effects.lean ====
section
/-!
SUPPORT. What an instruction can do to the engine in any environment: how a command, a frame and a program end, the
outcomes a program can stop with, and the fields every program that goes on leaves as its own part says.
-/

namespace Sys2Proof.Machine

open Sys2Proof

/-! ### The trace and the log -/

theorem trace_iff {s t : State} {es : List Event} : t.trace = s.trace ++ es ↔ t.log = es.reverse ++ s.log := by
  unfold State.trace
  constructor
  · intro h
    have := congrArg List.reverse h
    simpa using this
  · intro h
    rw [h]
    simp

theorem newEvents_of_trace {s t : State} {es : List Event} (h : t.trace = s.trace ++ es) : newEvents s t = es := by
  unfold newEvents
  rw [h]
  simp

theorem Reach.newEvents {s t : State} (h : Reach s t) :
    t.trace = s.trace ++ newEvents s t ∧ t.lines = (Machine.newEvents s t).foldl lineEvent s.lines := by
  obtain ⟨es, hl, hn⟩ := h.log
  have ht : t.trace = s.trace ++ es.reverse := trace_iff.2 (by simpa using hl)
  rw [newEvents_of_trace ht]
  exact ⟨ht, hn⟩

theorem Reach.lines_of_log {s t : State} (h : Reach s t) {es : List Event} (hl : t.log = es.reverse ++ s.log) :
    t.lines = es.foldl lineEvent s.lines := by
  have := h.newEvents.2
  rwa [newEvents_of_trace (trace_iff.2 hl)] at this

/-! ### How a command or a frame ends -/

/-- How a program ends, as a command sees it. -/
inductive Ends (p : List Act) (s t : State) : Prop where
  | goes (u : State) (h : runActs p s = .go u) (e : t = endCommand .ok u)
  | stops (u : State) (r : Result) (h : runActs p s = .stop u r) (e : t = finish r u)

theorem command_next {l : Bool} {p : List Act} {s t : State} (h : command l p s = .next t) :
    (s.status.cfgerr = true ∧ t = raiseError .configurationError s.accepted) ∨
      (s.status.cfgerr = false ∧ l = false ∧ t = raiseError .illegalCommand s.accepted) ∨
      (s.status.cfgerr = false ∧ l = true ∧ Ends p s.accepted t) := by
  unfold command at h
  dsimp only at h
  split at h
  · rename_i hc
    cases h
    exact .inl ⟨hc, rfl⟩
  · rename_i hc
    have hc' : s.status.cfgerr = false := by simpa using hc
    split at h
    · rename_i hl
      cases h
      exact .inr (.inl ⟨hc', by simpa using hl, rfl⟩)
    · rename_i hl
      refine .inr (.inr ⟨hc', by simpa using hl, ?_⟩)
      split at h
      · rename_i u hu
        cases h
        exact .goes u hu rfl
      · rename_i u r hu
        cases h
        exact .stops u r hu rfl
      · cases h

theorem frame_next {p : List Act} {s t : State} (h : frame p s = .next t) :
    (s.status.cfgerr = true ∧ t = raiseError .configurationError s) ∨
      (s.status.cfgerr = false ∧ ((∃ u, runActs p s = .go u ∧ t = { u with phase := .idle }) ∨
        ∃ u r, runActs p s = .stop u r ∧ t = finish r u)) := by
  unfold frame at h
  split at h
  · rename_i hc
    cases h
    exact .inl ⟨hc, rfl⟩
  · rename_i hc
    refine .inr ⟨by simpa using hc, ?_⟩
    split at h
    · rename_i u hu
      cases h
      exact .inl ⟨u, hu, rfl⟩
    · rename_i u r hu
      cases h
      exact .inr ⟨u, r, hu, rfl⟩
    · cases h

/-- The program of a command, read at its start. -/
def programOf (i : Instr) (s : State) : List Act :=
  match i with
  | .brst => busReset s.cfg
  | .clear => fullChainClear s.cfg
  | .wrbank b => writeBank s b
  | .rdbank b len => readBank s.cfg b len
  | .loads h => loadSession s h
  | .unloads lm li lo => unloadSession s.cfg lm li lo
  | .run n => runProgram n.toNat
  | .ckcfg f r => configure s.cfg f r
  | .payWrite a d m => writePayload s.cfg.loadTicks a d true true m
  | .paySetaddr a d m => writePayload s.cfg.loadTicks a d true false m
  | .payDisable a d m => writePayload s.cfg.loadTicks a d false false m
  | .payReserved a d m => writePayload s.cfg.loadTicks a d false true m
  | .chainid8 id => select id
  | .read32 _ => shiftIn Config.wordWidth
  | .clkgen18 f r => driveClkgen s.cfg.ckcfgOrder (clkgenFrameSeq f r)

/-- A command is its program under `command`. -/
theorem exec_command {i : Instr} (h : i.isCommand = true) (s : State) :
    exec i s = command i.wf (programOf i s) s := by
  cases i <;> first | (simp [Instr.isCommand] at h; done) | rfl

/-- A frame other than `READ32` is its program under `frame`. -/
theorem exec_frame {i : Instr} (h : i.isCommand = false) (hr : ∀ w, i ≠ .read32 w) (s : State) :
    exec i s = frame (programOf i s) s := by
  cases i
  case read32 w => exact absurd rfl (hr w)
  all_goals first | (simp [Instr.isCommand] at h; done) | rfl

theorem exec_read32 (w : Word) (s : State) :
    exec (.read32 w) s =
      match frame (shiftIn Config.wordWidth) (presentFrame w s) with
      | .next s2 => .next (endFrame s2)
      | .fault f => .fault f
      | .refused r => .refused r := rfl

/-! ### Which outcomes a program can stop with -/

/-- The outcome a micro-step can end a command with. -/
def Act.outcome : Act → Option Result
  | .cycle _ => some .protocolFault
  | .poll => some .ok
  | .timeout => some .timedOut
  | .raise e => some e
  | _ => none

theorem act_stop_outcome {a : Act} {s t : State} {e : Result} (h : act a s = .stop t e) : a.outcome = some e := by
  cases a
  case set x v => exact absurd h (setLine_never_stops x v s t e)
  case out b left => cases h
  case tick left => exact absurd h (actTick_never_stops left s t e)
  case cycle left =>
    change actCycle left s = _ at h
    unfold actCycle at h
    dsimp only at h
    split at h
    · cases h
    · cases h; rfl
  case poll =>
    change actPoll s = _ at h
    unfold actPoll at h
    dsimp only at h
    split at h
    · cases h; rfl
    · cases h
  case timeout => cases h; rfl
  case raise r => cases h; rfl
  all_goals cases h

/-- Where a program stops: after a part that went on, at a micro-step that ends it. -/
theorem runActs_stop_split {p : List Act} {s t : State} {e : Result} (h : runActs p s = .stop t e) :
    ∃ q a r u, p = q ++ a :: r ∧ runActs q s = .go u ∧ act a u = .stop t e := by
  induction p generalizing s with
  | nil => cases h
  | cons a p ih =>
    rw [runActs_cons] at h
    cases ha : act a s with
    | go u =>
      rw [ha, Flow.bind_go] at h
      obtain ⟨q, b, r, v, hp, hq, hb⟩ := ih h
      refine ⟨a :: q, b, r, v, by rw [hp]; rfl, ?_, hb⟩
      rw [runActs_cons, ha, Flow.bind_go]
      exact hq
    | stop u f =>
      rw [ha, Flow.bind_stop] at h
      cases h
      exact ⟨[], a, p, s, rfl, rfl, ha⟩
    | stuck f =>
      rw [ha] at h
      cases h

theorem runActs_stop_outcome {p : List Act} {s t : State} {e : Result} (h : runActs p s = .stop t e) :
    ∃ a ∈ p, a.outcome = some e := by
  obtain ⟨q, a, r, u, hp, _, ha⟩ := runActs_stop_split h
  exact ⟨a, by rw [hp]; simp, act_stop_outcome ha⟩

/-- Every outcome the program can stop with is `e`. -/
def StopsOnly (e : Result) (p : List Act) : Prop := ∀ a ∈ p, ∀ r, a.outcome = some r → r = e

theorem StopsOnly.append {e : Result} {p q : List Act} (h : StopsOnly e p) (k : StopsOnly e q) :
    StopsOnly e (p ++ q) := by
  intro a ha
  rcases List.mem_append.1 ha with ha | ha
  · exact h a ha
  · exact k a ha

theorem StopsOnly.flatMap {α : Type} {e : Result} (l : List α) {f : α → List Act} (h : ∀ a, StopsOnly e (f a)) :
    StopsOnly e (l.flatMap f) := by
  intro a ha
  obtain ⟨x, _, hx⟩ := List.mem_flatMap.1 ha
  exact h x a hx

theorem StopsOnly.pure {e : Result} {p : List Act} (h : p.all Act.isPure = true) : StopsOnly e p := by
  intro a ha r hr
  have := List.all_eq_true.1 h a ha
  cases a <;> simp [Act.outcome, Act.isPure] at hr this

theorem StopsOnly.stop {e r : Result} {p : List Act} {s t : State} (h : StopsOnly e p)
    (hs : runActs p s = .stop t r) : r = e := by
  obtain ⟨a, ha, ho⟩ := runActs_stop_outcome hs
  exact h a ha r ho

theorem stopsOnly_shiftIn (n : Nat) : StopsOnly .protocolFault (shiftIn n) := by
  have key : ∀ n, StopsOnly .protocolFault (shiftInCycles n) := by
    intro n
    induction n with
    | zero => exact StopsOnly.pure rfl
    | succ n ih =>
      have : StopsOnly .protocolFault [.cycle (BitVec.ofNat 6 n), .tick 0] := by
        intro a ha r hr
        simp only [List.mem_cons, List.not_mem_nil, or_false] at ha
        rcases ha with rfl | rfl
        · exact (Option.some.inj hr).symm
        · cases hr
      exact this.append ih
  exact (StopsOnly.pure (p := [.phase .shifting, .startRead (BitVec.ofNat 6 n)]) rfl).append (key n)

theorem stopsOnly_readBank (c : Config) (b : Bank) (len : Length) : StopsOnly .protocolFault (readBank c b len) := by
  unfold readBank
  split
  · exact StopsOnly.pure rfl
  · unfold readBody
    refine StopsOnly.append (StopsOnly.append (StopsOnly.append (StopsOnly.append ?_ ?_) ?_) ?_) ?_
    · exact StopsOnly.pure (by simp [Act.isPure])
    · refine StopsOnly.flatMap _ fun a => ?_
      unfold readWord
      refine StopsOnly.append (StopsOnly.append (StopsOnly.pure ?_) (stopsOnly_shiftIn _)) (StopsOnly.pure rfl)
      simp [Act.isPure]
    · exact StopsOnly.pure rfl
    · exact StopsOnly.pure (by simp)
    · exact StopsOnly.pure (by simp)

theorem stopsOnly_writeBank (s : State) (b : Bank) : StopsOnly .capacityError (writeBank s b) := by
  unfold writeBank
  split
  · intro a ha r hr
    simp only [List.mem_cons, List.not_mem_nil, or_false] at ha
    subst ha
    exact (Option.some.inj hr).symm
  · exact StopsOnly.pure (by simp)

theorem stopsOnly_loadSession (s : State) (h : Bool) : StopsOnly .capacityError (loadSession s h) := by
  unfold loadSession
  refine StopsOnly.append (StopsOnly.append (StopsOnly.pure (by simp [holdChip, Act.isPure])) (stopsOnly_writeBank s _)) ?_
  split
  · exact stopsOnly_writeBank s _
  · exact StopsOnly.pure rfl

theorem stopsOnly_unloadSession (c : Config) (lm li lo : Length) :
    StopsOnly .protocolFault (unloadSession c lm li lo) := by
  unfold unloadSession
  exact StopsOnly.append (StopsOnly.append (StopsOnly.append (StopsOnly.pure (by simp [holdChip, Act.isPure]))
    (stopsOnly_readBank c _ _)) (stopsOnly_readBank c _ _)) (stopsOnly_readBank c _ _)

/-- A run always ends by its poll or its budget. -/
theorem runProgram_ends (n : Nat) (s t : State) :
    runActs (runProgram n) s ≠ .go t ∧ ∀ e, runActs (runProgram n) s = .stop t e → e = .ok ∨ e = .timedOut := by
  refine ⟨fun h => ?_, fun e h => ?_⟩
  · unfold runProgram at h
    rw [runActs_append] at h
    obtain ⟨u, _, h2⟩ := Flow.bind_eq_go.1 h
    rw [runActs_cons] at h2
    obtain ⟨v, h3, _⟩ := Flow.bind_eq_go.1 h2
    cases h3
  · obtain ⟨a, ha, ho⟩ := runActs_stop_outcome h
    unfold runProgram at ha
    simp only [List.mem_append, List.mem_cons, List.not_mem_nil, or_false, List.mem_replicate] at ha
    rcases ha with ((rfl | rfl | rfl | rfl) | ⟨_, rfl⟩) | rfl
    all_goals first | (cases ho; done) | (cases ho; simp)

/-! ### The fields that no environment touches -/

/-- The registers a micro-step that goes on, or ends its command, leaves as its own part says. -/
structure SameRegs (u t : State) : Prop where
  status : t.status = u.status
  lines : t.lines = u.lines
  rxlen : t.rxlen = u.rxlen
  idc : t.work.idc = u.work.idc
  addrc : t.work.addrc = u.work.addrc
  shr : t.work.shr = u.work.shr

theorem SameRegs.refl (s : State) : SameRegs s s := ⟨rfl, rfl, rfl, rfl, rfl, rfl⟩

theorem SameRegs.withWorld (s : State) (w : World) : SameRegs s (s.withWorld w) := ⟨rfl, rfl, rfl, rfl, rfl, rfl⟩

theorem sample_regs (x : InLine) (s : State) : SameRegs s (sample x s).2 ∧ (sample x s).2.work = s.work ∧
    (sample x s).2.elapsed = s.elapsed ∧ (sample x s).2.rxbuf = s.rxbuf ∧ (sample x s).2.phase = s.phase := by
  rw [sample_world]
  exact ⟨⟨rfl, rfl, rfl, rfl, rfl, rfl⟩, rfl, rfl, rfl, rfl⟩

theorem act_go_regs {a : Act} {s t : State} (h : act a s = .go t) : SameRegs (engineAct a s) t := by
  by_cases hp : a.isPure = true
  · rw [act_pure hp h]
    exact SameRegs.withWorld _ _
  · cases a
    case cycle left =>
      change actCycle left s = _ at h
      unfold actCycle at h
      dsimp only at h
      split at h
      · cases h
        have h1 := (sample_regs .sdi s).1
        have h2 := (sample_regs .svld (sample .sdi s).2).1
        exact ⟨h2.status.trans h1.status, h2.lines.trans h1.lines, h2.rxlen.trans h1.rxlen, h2.idc.trans h1.idc,
          h2.addrc.trans h1.addrc, h2.shr.trans h1.shr⟩
      · cases h
    case poll =>
      change actPoll s = _ at h
      unfold actPoll at h
      dsimp only at h
      split at h
      · cases h
      · cases h
        have h1 := (sample_regs .done s).1
        exact ⟨h1.status, h1.lines, h1.rxlen, h1.idc, h1.addrc, h1.shr⟩
    case timeout => cases h
    case raise => cases h
    all_goals simp [Act.isPure] at hp

theorem act_stop_regs {a : Act} {s t : State} {e : Result} (h : act a s = .stop t e) : SameRegs s t := by
  cases a
  case set x v => exact absurd h (setLine_never_stops x v s t e)
  case out b left => cases h
  case tick left => exact absurd h (actTick_never_stops left s t e)
  case cycle left =>
    change actCycle left s = _ at h
    unfold actCycle at h
    dsimp only at h
    split at h
    · cases h
    · cases h
      have h1 := (sample_regs .sdi s).1
      have h2 := (sample_regs .svld (sample .sdi s).2).1
      exact ⟨h2.status.trans h1.status, h2.lines.trans h1.lines, h2.rxlen.trans h1.rxlen, h2.idc.trans h1.idc,
        h2.addrc.trans h1.addrc, h2.shr.trans h1.shr⟩
  case poll =>
    change actPoll s = _ at h
    unfold actPoll at h
    dsimp only at h
    split at h
    · cases h
      have h1 := (sample_regs .done s).1
      rw [chipAfterRun_world]
      exact ⟨h1.status, h1.lines, h1.rxlen, h1.idc, h1.addrc, h1.shr⟩
    · cases h
  case timeout =>
    change Flow.stop (chipAfterRun { s with elapsed := s.work.cnt }) .timedOut = _ at h
    cases h
    rw [chipAfterRun_world]
    exact ⟨rfl, rfl, rfl, rfl, rfl, rfl⟩
  case raise r =>
    cases h
    exact SameRegs.refl s
  all_goals cases h

theorem engineAct_regs {s u : State} (a : Act) (h : SameRegs s u) : SameRegs (engineAct a s) (engineAct a u) := by
  obtain ⟨h1, h2, h3, h4, h5, h6⟩ := h
  cases a
  case set x v => exact ⟨h1, congrArg (Lines.set x v) h2, h3, h4, h5, h6⟩
  case out b left => exact ⟨h1, congrArg (Lines.set .sdo b) h2, h3, h4, h5, h6⟩
  all_goals first
    | exact ⟨h1, h2, h3, h4, h5, h6⟩
    | exact ⟨h1, congrArg (fun l => Lines.set .sck false (Lines.set .sck true l)) h2, h3, h4, h5, h6⟩
    | exact ⟨h1, h2, h3, h4, h5, rfl⟩
    | exact ⟨h1, h2, h3, h4, rfl, h6⟩
    | exact ⟨h1, h2, h3, rfl, h5, h6⟩
    | exact ⟨congrArg Status.clearFault h1, h2, h3, h4, h5, h6⟩
    | exact ⟨h1, h2, congrArg (fun p => PerBank.set p _ _) h3, h4, h5, h6⟩

theorem engineRun_regs {s u : State} (p : List Act) (h : SameRegs s u) : SameRegs (engineRun p s) (engineRun p u) := by
  induction p generalizing s u with
  | nil => exact h
  | cons a p ih => exact ih (engineAct_regs a h)

theorem SameRegs.trans {s t u : State} (h : SameRegs s t) (k : SameRegs t u) : SameRegs s u :=
  ⟨k.status.trans h.status, k.lines.trans h.lines, k.rxlen.trans h.rxlen, k.idc.trans h.idc, k.addrc.trans h.addrc,
    k.shr.trans h.shr⟩

/-- IN ANY ENVIRONMENT a program that goes on leaves these registers as its own part says. -/
theorem runActs_go_regs {p : List Act} {s t : State} (h : runActs p s = .go t) : SameRegs (engineRun p s) t := by
  induction p generalizing s with
  | nil => cases h; exact SameRegs.refl _
  | cons a p ih =>
    obtain ⟨u, h1, h2⟩ := Flow.bind_eq_go.1 h
    exact (engineRun_regs p (act_go_regs h1)).trans (ih h2)

theorem runActs_go_status {p : List Act} {s t : State} (h : runActs p s = .go t) :
    t.status = if .clearFault ∈ p then s.status.clearFault else s.status := by
  rw [(runActs_go_regs h).status, engineRun_status]

theorem runActs_go_lines {p : List Act} {s t : State} (h : runActs p s = .go t) :
    t.lines = (progEvents p).foldl lineEvent s.lines := by
  rw [(runActs_go_regs h).lines, engineRun_lines]

theorem runActs_stop_status {p : List Act} {s t : State} {e : Result} (h : runActs p s = .stop t e) :
    t.status = s.status ∨ t.status = s.status.clearFault := by
  obtain ⟨q, a, r, u, _, hq, ha⟩ := runActs_stop_split h
  rw [(act_stop_regs ha).status, runActs_go_status hq]
  split
  · exact .inr rfl
  · exact .inl rfl

end Sys2Proof.Machine
end

