-- ==== Sys2Proof/Laws/Host.lean ====
section
/-!
SUPPORT. The host's side of a step: the register numbers (10_state.md R34), one lemma per kind of host operation, and
the receive lengths through any program (10_state.md R32).
-/

namespace Sys2Proof.Machine

open Sys2Proof

/-! ### Register numbers -/

@[simp] theorem bankOfNum_num (b : Bank) : bankOfNum b.num = some b := by cases b <;> rfl

theorem Reg.ofNumber_txlen (b : Bank) : Reg.ofNumber (8 + b.num) = some (.txlen b) := by cases b <;> decide
theorem Reg.ofNumber_rxlen (b : Bank) : Reg.ofNumber (12 + b.num) = some (.rxlen b) := by cases b <;> decide
theorem Reg.ofNumber_cap (b : Bank) : Reg.ofNumber (16 + b.num) = some (.cap b) := by cases b <;> decide
theorem Reg.ofNumber_rd (b : Bank) : Reg.ofNumber (20 + b.num) = some (.rd b) := by cases b <;> decide
theorem Reg.ofNumber_wr (b : Bank) : Reg.ofNumber (24 + b.num) = some (.wr b) := by cases b <;> decide

theorem Reg.ofNumber_txbuf (b : Bank) (k : BitVec 16) :
    Reg.ofNumber (0x10000 * (b.num + 1) + k.toNat) = some (.txbuf b k) := by
  have h := Bank.num_lt b
  have hk := k.isLt
  have hq : (0x10000 * (b.num + 1) + k.toNat) / 0x10000 - 1 = b.num := by omega
  have hr : (0x10000 * (b.num + 1) + k.toNat) % 0x10000 = k.toNat := by omega
  simp (disch := omega) only [Reg.ofNumber, if_neg, if_pos, hq, hr, bankOfNum_num, Option.map_some, BitVec.ofNat_toNat,
    BitVec.setWidth_eq]

theorem Reg.ofNumber_rxbuf (b : Bank) (k : BitVec 16) :
    Reg.ofNumber (0x10000 * (b.num + 5) + k.toNat) = some (.rxbuf b k) := by
  have h := Bank.num_lt b
  have hk := k.isLt
  have hq : (0x10000 * (b.num + 5) + k.toNat) / 0x10000 - 5 = b.num := by omega
  have hr : (0x10000 * (b.num + 5) + k.toNat) % 0x10000 = k.toNat := by omega
  simp (disch := omega) only [Reg.ofNumber, if_neg, if_pos, hq, hr, bankOfNum_num, Option.map_some, BitVec.ofNat_toNat,
    BitVec.setWidth_eq]

theorem Reg.ofNumber_reserved {n : Nat} (h : (5 ≤ n ∧ n < 8) ∨ n = 11 ∨ n = 15 ∨ n = 19 ∨ n = 23 ∨ n = 27 ∨
    (29 ≤ n ∧ n < 0x10000) ∨ (0x40000 ≤ n ∧ n < 0x50000) ∨ 0x80000 ≤ n) : Reg.ofNumber n = none := by
  simp (disch := omega) only [Reg.ofNumber, if_neg]

/-- A bank's register other than the two the host can write. -/
theorem writeReg_map {f : Bank → Reg} (h1 : ∀ b c, f b ≠ .txlen c) (h2 : ∀ b c k, f b ≠ .txbuf c k) (o : Option Bank)
    (v : BitVec 64) (s : State) : writeReg (o.map f) v s = .next s := by
  cases o with
  | none => rfl
  | some b =>
    cases hf : f b <;> simp only [Option.map_some, hf, writeReg]
    · exact absurd hf (h1 b _)
    · exact absurd hf (h2 b _ _)

/-- A write through a choice of register numbers, one branch at a time. -/
theorem writeReg_ite {p : Prop} [Decidable p] {x y : Option Reg} {v : BitVec 64} {s : State}
    (hx : p → writeReg x v s = .next s) (hy : ¬ p → writeReg y v s = .next s) :
    writeReg (if p then x else y) v s = .next s := by
  by_cases hp : p
  · exact (congrArg (writeReg · v s) (if_pos hp)).trans (hx hp)
  · exact (congrArg (writeReg · v s) (if_neg hp)).trans (hy hp)

/-- The numbers of the two registers the host can write: 8 to 10 and 0x10000 to 0x3FFFF. -/
theorem writeReg_ignored {n : Nat} (h : (1 ≤ n ∧ n < 8) ∨ (11 ≤ n ∧ n < 0x10000) ∨ 0x40000 ≤ n) (v : BitVec 64)
    (s : State) : writeReg (Reg.ofNumber n) v s = .next s := by
  unfold Reg.ofNumber
  repeat' refine writeReg_ite (fun _ => ?_) fun _ => ?_
  all_goals first
    | rfl
    | omega
    | (refine writeReg_map ?_ ?_ _ v s <;> intros <;> nofun)

/-! ### One step of port traffic -/

theorem step_read {s : State} {n : Nat} {rest : List HostOp} (h : s.host = .read n :: rest) :
    step s = hostRead n { s with host := rest } := by
  unfold step; rw [h]; rfl

theorem step_write {s : State} {n : Nat} {v : BitVec 64} {rest : List HostOp} (h : s.host = .write n v :: rest)
    (hn : n ≠ 0) (hb : s.status.busy = false) :
    step s = writeReg (Reg.ofNumber n) v { s with host := rest } := by
  unfold step; rw [h]; simp only [fetch, if_neg hn, traffic, hb, Bool.and_false]; rfl

theorem step_construct {s : State} {c : Config} {l : Launch} {rest : List HostOp}
    (h : s.host = .construct c l :: rest) : step s = .next (reconstruct c l { s with host := rest }) := by
  unfold step; rw [h]; rfl

/-- A read of a register that holds a value returns it and changes nothing else. -/
theorem step_read_reg {s : State} {n : Nat} {r : Reg} {v : BitVec 64} {rest : List HostOp}
    (h : s.host = .read n :: rest) (hr : Reg.ofNumber n = some r)
    (hv : readReg r { s with host := rest } = .next (v, { s with host := rest })) :
    step s = .next { s with host := rest, hostData := v } := by
  rw [step_read h]; unfold hostRead; rw [hr]; simp only [hv]

theorem setWidth64_eq {w : Nat} (v : BitVec w) : v.setWidth 64 = BitVec.ofNat 64 v.toNat := by
  apply BitVec.eq_of_toNat_eq; simp

/-- A word draw changes the environment's queue or the count of free values, nothing else. -/
theorem drawWord_state (s : State) :
    (drawWord s).2 = { s with env := (drawWord s).2.env, freeCount := (drawWord s).2.freeCount } := by
  unfold drawWord
  split <;> rfl

/-! ### The receive lengths -/

/-- Rows a program stores to are rows of a buffer (10_state.md R32: `RXLEN` in 0..65536). -/
def Act.rowFits : Act → Bool
  | .rxStore _ a => decide (a < 65536)
  | _ => true

theorem engineAct_rxlen_le {a : Act} {s : State} (h : a.rowFits = true) (hs : ∀ b, (s.rxlen.get b).toNat ≤ 65536)
    (b : Bank) : ((engineAct a s).rxlen.get b).toNat ≤ 65536 := by
  cases a
  case rxClear c =>
    change ((s.rxlen.set c 0).get b).toNat ≤ 65536
    by_cases hb : b = c
    · subst hb; rw [PerBank_get_set_same]; decide
    · rw [PerBank_get_set_other _ _ hb]; exact hs b
  case rxStore c a =>
    change ((s.rxlen.set c _).get b).toNat ≤ 65536
    by_cases hb : b = c
    · subst hb
      simp only [Act.rowFits, decide_eq_true_eq] at h
      rw [PerBank_get_set_same, BitVec.toNat_ofNat]
      omega
    · rw [PerBank_get_set_other _ _ hb]; exact hs b
  all_goals exact hs b

theorem engineRun_rxlen_le {p : List Act} {s : State} (h : p.all Act.rowFits = true)
    (hs : ∀ b, (s.rxlen.get b).toNat ≤ 65536) (b : Bank) : ((engineRun p s).rxlen.get b).toNat ≤ 65536 := by
  induction p generalizing s with
  | nil => exact hs b
  | cons a p ih =>
    simp only [List.all_cons, Bool.and_eq_true] at h
    exact ih h.2 fun c => engineAct_rxlen_le h.1 hs c

theorem runActs_go_rxlen_le {p : List Act} {s t : State} (h : runActs p s = .go t) (hp : p.all Act.rowFits = true)
    (hs : ∀ b, (s.rxlen.get b).toNat ≤ 65536) (b : Bank) : (t.rxlen.get b).toNat ≤ 65536 := by
  rw [(runActs_go_regs h).rxlen]; exact engineRun_rxlen_le hp hs b

theorem runActs_stop_rxlen_le {p : List Act} {s t : State} {e : Result} (h : runActs p s = .stop t e)
    (hp : p.all Act.rowFits = true) (hs : ∀ b, (s.rxlen.get b).toNat ≤ 65536) (b : Bank) :
    (t.rxlen.get b).toNat ≤ 65536 := by
  obtain ⟨q, a, r, u, rfl, hq, ha⟩ := runActs_stop_split h
  simp only [List.all_append, Bool.and_eq_true] at hp
  rw [(act_stop_regs ha).rxlen]
  exact runActs_go_rxlen_le hq hp.1 hs b

theorem rowFits_of_noRx {p : List Act} (h : p.all (fun a => !a.writesRx) = true) : p.all Act.rowFits = true := by
  rw [List.all_eq_true] at h ⊢
  intro a ha
  have := h a ha
  cases a <;> first | rfl | simp [Act.writesRx] at this

theorem rowFits_of_scan {p : List Act} (h : p.all Act.isScan = true) : p.all Act.rowFits = true :=
  rowFits_of_noRx (noRx_of_scan h)

theorem rowFits_flatMap {α : Type} (l : List α) {f : α → List Act} (h : ∀ a ∈ l, (f a).all Act.rowFits = true) :
    (l.flatMap f).all Act.rowFits = true := by
  rw [List.all_eq_true]
  intro x hx
  obtain ⟨a, ha, hx⟩ := List.mem_flatMap.1 hx
  exact List.all_eq_true.1 (h a ha) x hx

@[simp] theorem busReset_rowFits (c : Config) : (busReset c).all Act.rowFits = true := by
  simp only [busReset, List.all_append, rowFits_of_scan (pulse_isScan _)]
  rfl

@[simp] theorem fullChainClear_rowFits (c : Config) : (fullChainClear c).all Act.rowFits = true := by
  simp only [fullChainClear, List.all_append, busReset_rowFits, Bool.true_and]
  rw [rowFits_flatMap]
  · rfl
  · intro i _
    simp only [clearTarget, List.all_append, rowFits_of_scan (selectChain_isScan _),
      rowFits_of_scan (writePayload_isScan _ _ _ _ _ _)]
    rfl

@[simp] theorem writeBank_rowFits (s : State) (b : Bank) : (writeBank s b).all Act.rowFits = true := by
  unfold writeBank
  split
  · rfl
  · simp only [writeBody, List.all_append, busReset_rowFits, rowFits_of_scan (selectChain_isScan _)]
    rw [rowFits_flatMap]
    · rfl
    · intro i _
      simp only [writeWord, List.all_append, rowFits_of_scan (writePayload_isScan _ _ _ _ _ _)]
      rfl

@[simp] theorem shiftIn_rowFits (n : Nat) : (shiftIn n).all Act.rowFits = true := by
  have : ∀ n, (shiftInCycles n).all Act.rowFits = true := by
    intro n
    induction n with
    | zero => rfl
    | succ n ih => simp only [shiftInCycles, List.all_cons, ih]; rfl
  simp only [shiftIn, List.all_cons, this]
  rfl

theorem readBank_rowFits {c : Config} {b : Bank} {len : Length} (h : readCount (c.cap.get b) len ≤ 65536) :
    (readBank c b len).all Act.rowFits = true := by
  unfold readBank
  unfold readCount at h
  split
  · rfl
  · rename_i n hn
    rw [hn] at h
    have h : n ≤ 65536 := h
    simp only [readBody, List.all_append, busReset_rowFits, rowFits_of_scan (selectChain_isScan _)]
    rw [rowFits_flatMap]
    · rfl
    · intro a ha
      have : a < 65536 := by have := List.mem_range.1 ha; omega
      simp only [readWord, List.all_append, rowFits_of_scan (selectChain_isScan _),
        rowFits_of_scan (writePayload_isScan _ _ _ _ _ _), shiftIn_rowFits]
      simp [Act.rowFits, this]

/-- A legal length never asks for more rows than a buffer has, in a valid configuration (00_scope.md R7). -/
theorem readCount_le {c : Config} (hc : Config.valid c = true) (b : Bank) {len : Length} (h : len.wf = true) :
    readCount (c.cap.get b) len ≤ 65536 := by
  cases len with
  | none => exact Nat.zero_le _
  | all => exact (Config_valid_ids hc).2.2.2 b
  | exactly n =>
    simp only [Length.wf, Bool.and_eq_true, decide_eq_true_eq] at h
    change n.toNat ≤ 65536
    omega

/-- The program of a legal instruction, in a valid configuration, stores only to rows of the receive buffers. -/
theorem programOf_rowFits {i : Instr} {s : State} (hc : Config.valid s.cfg = true) (hi : i.wf = true) :
    (programOf i s).all Act.rowFits = true := by
  cases i with
  | brst => exact busReset_rowFits _
  | clear => exact fullChainClear_rowFits _
  | wrbank b => exact writeBank_rowFits _ _
  | rdbank b len => exact readBank_rowFits (readCount_le hc b hi)
  | loads h =>
    simp only [programOf, loadSession, List.all_append, fullChainClear_rowFits, writeBank_rowFits]
    cases h
    · rfl
    · simp only [if_true, writeBank_rowFits]; rfl
  | unloads lm li lo =>
    simp only [Instr.wf, Bool.and_eq_true] at hi
    simp only [programOf, unloadSession, List.all_append, readBank_rowFits (readCount_le hc .main hi.1.1),
      readBank_rowFits (readCount_le hc .input hi.1.2), readBank_rowFits (readCount_le hc .output hi.2)]
    rfl
  | run n =>
    simp only [programOf, runProgram, List.all_append, List.all_replicate]
    simp [Act.rowFits]
  | ckcfg f r => exact rowFits_of_scan (driveClkgen_isScan _ _)
  | payWrite a d m => exact rowFits_of_scan (writePayload_isScan _ _ _ _ _ _)
  | paySetaddr a d m => exact rowFits_of_scan (writePayload_isScan _ _ _ _ _ _)
  | payDisable a d m => exact rowFits_of_scan (writePayload_isScan _ _ _ _ _ _)
  | payReserved a d m => exact rowFits_of_scan (writePayload_isScan _ _ _ _ _ _)
  | chainid8 id => exact rowFits_of_scan (select_isScan _)
  | read32 w => exact shiftIn_rowFits _
  | clkgen18 f r => exact rowFits_of_scan (driveClkgen_isScan _ _)

/-! ### The scan lines -/

/-- Every program returns the scan lines to rest, wherever it ends (40_primitives.md R119). -/
theorem leads_programOf (i : Instr) (s : State) :
    Leads (Held false false false false) (programOf i s) (Held false false false false)
      (Held false false false false) := by
  cases i with
  | brst => exact leads_busReset _
  | clear => exact leads_fullChainClear _
  | wrbank b => exact leads_writeBank _ _
  | rdbank b len => exact leads_readBank _ _ _
  | loads h => exact leads_loadSession _ _
  | unloads lm li lo => exact leads_unloadSession _ _ _ _
  | run n => exact leads_runProgram _
  | ckcfg f r => exact leads_driveClkgen _ _
  | payWrite a d m => exact leads_writePayload _ _ _ _ _ _
  | paySetaddr a d m => exact leads_writePayload _ _ _ _ _ _
  | payDisable a d m => exact leads_writePayload _ _ _ _ _ _
  | payReserved a d m => exact leads_writePayload _ _ _ _ _ _
  | chainid8 id => exact leads_select _
  | read32 w => exact leads_shiftIn _
  | clkgen18 f r => exact leads_driveClkgen _ _

end Sys2Proof.Machine
end

