-- ==== Sys2Proof/Laws/Outcomes.lean ====
section
/-!
SUPPORT. What a program that stops leaves in `STATUS` and on `TM` (60_exceptions.md R173, R176, R178): a program that has
reset the bus leaves `FAULT` clear, and a sample that faults finds test mode still asserted.
-/

namespace Sys2Proof.Machine

open Sys2Proof

/-- A program of pure steps never ends a command. -/
theorem runActs_pure_never_stops {p : List Act} (hp : p.all Act.isPure = true) (s t : State) (e : Result) :
    runActs p s ≠ .stop t e := by
  intro h
  have h1 := (StopsOnly.pure (e := .ok) hp).stop h
  have h2 := (StopsOnly.pure (e := .timedOut) hp).stop h
  rw [h1] at h2
  cases h2

theorem runActs_stop_status_same {p : List Act} {s t : State} {e : Result} (h : runActs p s = .stop t e)
    (hc : .clearFault ∉ p) : t.status = s.status := by
  obtain ⟨q, a, r, u, rfl, hq, ha⟩ := runActs_stop_split h
  rw [(act_stop_regs ha).status, runActs_go_status hq, if_neg]
  exact fun hm => hc (List.mem_append_left _ hm)

/-- A program whose first part resets the bus stops with `FAULT` clear. -/
theorem runActs_stop_cleared {p q : List Act} {s t : State} {e : Result} (h : runActs (p ++ q) s = .stop t e)
    (hp : p.all Act.isPure = true) (hc : .clearFault ∈ p) : t.status = s.status.clearFault := by
  rw [runActs_append] at h
  cases hr : runActs p s with
  | go u =>
    rw [hr] at h
    have h1 := runActs_go_status hr
    rw [if_pos hc] at h1
    rcases runActs_stop_status (by exact h) with h2 | h2 <;> rw [h2, h1]
    rfl
  | stop u r => exact absurd hr (runActs_pure_never_stops hp _ _ _)
  | stuck f => rw [hr] at h; cases h

theorem clearFault_mem_busReset (c : Config) : Act.clearFault ∈ busReset c := by simp [busReset]

theorem clearFault_mem_fullChainClear (c : Config) : Act.clearFault ∈ fullChainClear c := by
  simp [fullChainClear, busReset]

theorem clearFault_mem_writeBody (s : State) (b : Bank) (n : Nat) : Act.clearFault ∈ writeBody s b n := by
  simp [writeBody, busReset]

theorem clearFault_mem_readBank (c : Config) (b : Bank) (len : Length) :
    Act.clearFault ∈ readBank c b len ↔ len ≠ .none := by
  cases len <;> simp [readBank, resolveLength, readBody, busReset]

/-- The level of `TM` after a program that ran on. -/
theorem runActs_go_tm {p : List Act} {s t : State} (h : runActs p s = .go t) (hp : p.all Act.keepsTm = true) :
    t.lines.tm = s.lines.tm := by
  rw [(runActs_go_regs h).lines, engineRun_tm s hp]

theorem runActs_stop_tm {p : List Act} {s t : State} {e : Result} (h : runActs p s = .stop t e)
    (hp : p.all Act.keepsTm = true) : t.lines.tm = s.lines.tm := by
  obtain ⟨q, a, r, u, rfl, hq, ha⟩ := runActs_stop_split h
  simp only [List.all_append, Bool.and_eq_true] at hp
  rw [(act_stop_regs ha).lines, runActs_go_tm hq hp.1]

/-- Test mode is asserted. -/
abbrev InTestMode (s : State) : Prop := s.lines.tm = true

theorem Leads.keepsTm {p : List Act} (hp : p.all Act.keepsTm = true) : Leads InTestMode p InTestMode InTestMode := by
  intro s hs
  cases h : runActs p s with
  | go t => exact (runActs_go_tm h hp).trans hs
  | stop t e => exact (runActs_stop_tm h hp).trans hs
  | stuck f => trivial

/-- A pure program cannot stop, so it leads to whatever it runs on to. -/
theorem Leads.pure {P Q R : State → Prop} {p : List Act} (hp : p.all Act.isPure = true)
    (h : ∀ s t, P s → runActs p s = .go t → Q t) : Leads P p Q R := by
  intro s hs
  cases hr : runActs p s with
  | go t => exact h s t hs hr
  | stop t e => exact absurd hr (runActs_pure_never_stops hp _ _ _)
  | stuck f => trivial

@[simp] theorem shiftIn_keepsTm (n : Nat) : (shiftIn n).all Act.keepsTm = true := by
  have : ∀ n, (shiftInCycles n).all Act.keepsTm = true := by
    intro n
    induction n with
    | zero => rfl
    | succ n ih => simp only [shiftInCycles, List.all_cons, ih]; rfl
  simp only [shiftIn, List.all_cons, this]
  rfl

@[simp] theorem readWord_keepsTm (c : Config) (b : Bank) (a : Nat) : (readWord c b a).all Act.keepsTm = true := by
  simp only [readWord, List.all_append, selectChain_keepsTm, writePayload_keepsTm, shiftIn_keepsTm]
  rfl

/-- A bank read that stops, stops in test mode (41_transactions.md R137). -/
theorem leads_readBank_tm (c : Config) (b : Bank) (len : Length) :
    Leads (fun _ => True) (readBank c b len) (fun _ => True) InTestMode := by
  unfold readBank
  split
  · exact Leads.pure rfl fun _ _ _ _ => trivial
  · rename_i n _
    unfold readBody
    have h1 : Leads (fun _ => True) ([.rxClear b] ++ busReset c) (fun _ => True) InTestMode :=
      Leads.append (Leads.pure rfl fun _ _ _ _ => trivial) (Leads.pure (busReset_pure _) fun _ _ _ _ => trivial)
    have h2 : Leads (fun _ => True) tmEnter InTestMode InTestMode := by
      refine Leads.pure tmEnter_pure fun s t _ h => ?_
      cases h
      rfl
    have h3 : Leads InTestMode ((List.range n).flatMap (readWord c b)) InTestMode InTestMode :=
      Leads.flatMap _ fun a _ => Leads.keepsTm (readWord_keepsTm _ _ _)
    have h4 : Leads InTestMode ([.row (BitVec.ofNat 17 n)] ++ selectChain (c.wr.get .main)) InTestMode InTestMode :=
      Leads.append (Leads.keepsTm rfl) (Leads.keepsTm (selectChain_keepsTm _))
    have h5 : Leads InTestMode tmExit (fun _ => True) InTestMode := Leads.pure tmExit_pure fun _ _ _ _ => trivial
    have h := ((h1.append h2).append h3).append (h4.append h5)
    simpa only [List.append_assoc] using h

/-- A read session that stops, stops in test mode. -/
theorem leads_unloadSession_tm (c : Config) (lm li lo : Length) :
    Leads (fun _ => True) (unloadSession c lm li lo) (fun _ => True) InTestMode := by
  unfold unloadSession
  have h0 : Leads (fun _ => True) holdChip (fun _ => True) InTestMode := Leads.pure rfl fun _ _ _ _ => trivial
  exact ((h0.append (leads_readBank_tm _ _ _)).append (leads_readBank_tm _ _ _)).append (leads_readBank_tm _ _ _)

/-! ### `ELAPSED` -/

/-- Only the polls of a `RUN` and its timeout write `ELAPSED`. -/
def Act.keepsElapsed : Act → Bool
  | .poll => false
  | .timeout => false
  | _ => true

theorem envRise_elapsed {s t : State} (h : envRise s = .go t) : t.elapsed = s.elapsed := by
  rw [envRise_world h]; rfl

theorem setLine_elapsed {x : OutLine} {v : Bool} {s t : State} (h : setLine x v s = .go t) :
    t.elapsed = s.elapsed := by
  rw [setLine_go h]; rfl

theorem act_elapsed {a : Act} (ha : a.keepsElapsed = true) {s t : State} :
    (act a s = .go t → t.elapsed = s.elapsed) ∧ ∀ e, act a s = .stop t e → t.elapsed = s.elapsed := by
  have pure : a.isPure = true → (act a s = .go t → t.elapsed = s.elapsed) ∧
      ∀ e, act a s = .stop t e → t.elapsed = s.elapsed := by
    intro hp
    refine ⟨fun h => ?_, fun e h => ?_⟩
    · rw [act_pure hp h]
      have := engineRun_elapsed [a] s
      exact this
    · exact absurd (show runActs [a] s = .stop t e by rw [runActs_cons, h]; rfl)
        (runActs_pure_never_stops (by simp [hp]) _ _ _)
  cases a
  case cycle n =>
    change (actCycle n s = .go t → _) ∧ ∀ e, actCycle n s = .stop t e → _
    have h1 := (sample_regs .sdi s).2.2.1
    have h2 := (sample_regs .svld (sample .sdi s).2).2.2.1
    unfold actCycle
    dsimp only
    split
    · refine ⟨fun h => ?_, fun e h => (by cases h)⟩
      cases h
      exact h2.trans h1
    · refine ⟨fun h => (by cases h), fun e h => ?_⟩
      cases h
      exact h2.trans h1
  case raise r => exact ⟨fun h => (by cases h), fun e h => (by cases h; rfl)⟩
  case poll => cases ha
  case timeout => cases ha
  all_goals exact pure rfl

theorem runActs_elapsed {p : List Act} (hp : p.all Act.keepsElapsed = true) {s t : State} :
    (runActs p s = .go t → t.elapsed = s.elapsed) ∧ ∀ e, runActs p s = .stop t e → t.elapsed = s.elapsed := by
  induction p generalizing s with
  | nil => exact ⟨fun h => (by cases h; rfl), fun e h => (by cases h)⟩
  | cons a p ih =>
    simp only [List.all_cons, Bool.and_eq_true] at hp
    rw [runActs_cons]
    cases h : act a s with
    | go u =>
      have hu := (act_elapsed hp.1).1 h
      exact ⟨fun k => ((ih hp.2).1 k).trans hu, fun e k => ((ih hp.2).2 e k).trans hu⟩
    | stop u r =>
      refine ⟨fun k => (by cases k), fun e k => ?_⟩
      cases k
      exact (act_elapsed hp.1).2 _ h
    | stuck f => exact ⟨fun k => (by cases k), fun e k => (by cases k)⟩

theorem keepsElapsed_of_pure {p : List Act} (h : p.all Act.isPure = true) : p.all Act.keepsElapsed = true := by
  rw [List.all_eq_true] at h ⊢
  intro a ha
  have := h a ha
  cases a <;> first | rfl | cases this

theorem keepsElapsed_flatMap {α : Type} (l : List α) {f : α → List Act}
    (h : ∀ a, (f a).all Act.keepsElapsed = true) : (l.flatMap f).all Act.keepsElapsed = true := by
  rw [List.all_eq_true]
  intro x hx
  obtain ⟨a, _, hx⟩ := List.mem_flatMap.1 hx
  exact List.all_eq_true.1 (h a) x hx

@[simp] theorem shiftIn_keepsElapsed (n : Nat) : (shiftIn n).all Act.keepsElapsed = true := by
  have : ∀ n, (shiftInCycles n).all Act.keepsElapsed = true := by
    intro n
    induction n with
    | zero => rfl
    | succ n ih => simp only [shiftInCycles, List.all_cons, ih]; rfl
  simp only [shiftIn, List.all_cons, this]
  rfl

theorem writeBank_keepsElapsed (s : State) (b : Bank) : (writeBank s b).all Act.keepsElapsed = true := by
  unfold writeBank
  split
  · rfl
  · exact keepsElapsed_of_pure (writeBody_pure _ _ _)

theorem readBank_keepsElapsed (c : Config) (b : Bank) (len : Length) :
    (readBank c b len).all Act.keepsElapsed = true := by
  unfold readBank
  split
  · rfl
  · simp only [readBody, List.all_append, keepsElapsed_of_pure (busReset_pure _), keepsElapsed_of_pure tmEnter_pure,
      keepsElapsed_of_pure (selectChain_pure _), keepsElapsed_of_pure tmExit_pure]
    rw [keepsElapsed_flatMap]
    · rfl
    · intro a
      simp only [readWord, List.all_append, keepsElapsed_of_pure (selectChain_pure _),
        keepsElapsed_of_pure (writePayload_pure _ _ _ _ _ _), shiftIn_keepsElapsed]
      rfl

/-- Every program but that of a `RUN` leaves `ELAPSED` (10_state.md R28). -/
theorem programOf_keepsElapsed {i : Instr} (s : State) (h : ∀ n, i ≠ .run n) :
    (programOf i s).all Act.keepsElapsed = true := by
  cases i
  case wrbank b => exact writeBank_keepsElapsed _ _
  case rdbank b len => exact readBank_keepsElapsed _ _ _
  case loads x =>
    simp only [programOf, loadSession, List.all_append, keepsElapsed_of_pure (fullChainClear_pure _),
      writeBank_keepsElapsed]
    cases x
    · rfl
    · simp only [if_true, writeBank_keepsElapsed]; rfl
  case unloads lm li lo =>
    simp only [programOf, unloadSession, List.all_append, readBank_keepsElapsed]; rfl
  case run n => exact absurd rfl (h n)
  case brst => exact keepsElapsed_of_pure (busReset_pure _)
  case clear => exact keepsElapsed_of_pure (fullChainClear_pure _)
  case ckcfg f r => exact keepsElapsed_of_pure (driveClkgen_pure _ _)
  case read32 w => exact shiftIn_keepsElapsed _
  case chainid8 id => exact keepsElapsed_of_pure (select_pure _)
  case clkgen18 f r => exact keepsElapsed_of_pure (driveClkgen_pure _ _)
  all_goals exact keepsElapsed_of_pure (writePayload_pure _ _ _ _ _ _)

/-- What the polls of a `RUN` leave, however they end: the count of polls in `ELAPSED`, one sample of `DONE` each
(42_sessions.md R152). -/
theorem polls_end (n : Nat) {s : State} (hn : s.work.cnt.toNat + n < 2 ^ 32) :
    ∃ t e es, runActs (List.replicate n .poll ++ [.timeout]) s = .stop t e ∧ t.log = es ++ s.log ∧
      t.elapsed.toNat = s.work.cnt.toNat + es.length ∧ es.length ≤ n ∧
      ∀ x ∈ es, x = .r .done true ∨ x = .r .done false := by
  induction n generalizing s with
  | zero =>
    refine ⟨chipAfterRun { s with elapsed := s.work.cnt }, .timedOut, [], rfl, ?_, ?_, Nat.le_refl _, by simp⟩
    · rw [chipAfterRun_world]; rfl
    · rw [chipAfterRun_world]; rfl
  | succ n ih =>
    rw [List.replicate_succ, List.cons_append, runActs_cons]
    cases hb : drawnBit s 0 with
    | false =>
      obtain ⟨u, hu, hp⟩ := goes_poll hb
      rw [hu]
      have hc : u.work.cnt.toNat = s.work.cnt.toNat + 1 := by
        rw [hp.cnt, BitVec.toNat_add, BitVec.toNat_ofNat]
        omega
      obtain ⟨t, e, es, h1, h2, h3, h4, h5⟩ := ih (s := u) (by omega)
      refine ⟨t, e, es ++ [.r .done false], h1, ?_, ?_, ?_, ?_⟩
      · rw [h2, hp.log]; simp
      · rw [h3, hc, List.length_append]; simp; omega
      · rw [List.length_append]; simp; omega
      · intro x hx
        rcases List.mem_append.1 hx with hx | hx
        · exact h5 x hx
        · exact .inr (List.mem_singleton.1 hx)
    | true =>
      rw [stops_poll hb]
      refine ⟨_, _, [.r .done true], rfl, ?_, ?_, ?_, ?_⟩
      · rw [chipAfterRun_world]; rfl
      · rw [chipAfterRun_world]
        change (s.work.cnt + 1).toNat = _
        rw [BitVec.toNat_add]
        simp only [List.length_singleton]
        change (s.work.cnt.toNat + 1) % 2 ^ 32 = _
        omega
      · simp
      · intro x hx; exact .inl (List.mem_singleton.1 hx)

/-! ### Two environments -/

/-- A step that asks the environment nothing. -/
def Act.isBlind : Act → Bool
  | .raise _ => true
  | a => a.isPure

theorem isBlind_of_pure {p : List Act} (h : p.all Act.isPure = true) : p.all Act.isBlind = true := by
  rw [List.all_eq_true] at h ⊢
  intro a ha
  have := h a ha
  cases a <;> first | rfl | cases this

/-- How two runs that differ in the world alone may end: alike, or stuck. -/
def Flow.Alike : Flow → Flow → Prop
  | .go t, .go t' => t' = t.withWorld t'.world
  | .stop t e, .stop t' e' => e' = e ∧ t' = t.withWorld t'.world
  | .stuck _, _ => True
  | _, .stuck _ => True
  | _, _ => False

/-- A program that samples nothing does the same to the engine in every world (20_memory.md R55). -/
theorem runActs_blind {p : List Act} (hp : p.all Act.isBlind = true) (s : State) (w : World) :
    (runActs p s).Alike (runActs p (s.withWorld w)) := by
  induction p generalizing s w with
  | nil => rfl
  | cons a p ih =>
    simp only [List.all_cons, Bool.and_eq_true] at hp
    rw [runActs_cons, runActs_cons]
    by_cases ha : a.isPure = true
    · cases h : act a s with
      | go u =>
        cases h' : act a (s.withWorld w) with
        | go u' =>
          have e1 := act_pure ha h
          have e2 := act_pure ha h'
          have : u' = u.withWorld u'.world := by
            rw [e2, engineAct_withWorld, e1]
            rfl
          rw [this]
          exact ih hp.2 u _
        | stop u' r =>
          exact absurd (show runActs [a] (s.withWorld w) = .stop u' r by rw [runActs_cons, h']; rfl)
            (runActs_pure_never_stops (by simp [ha]) _ _ _)
        | stuck f =>
          rw [Flow.bind_stuck]
          cases (Flow.go u).bind (runActs p) <;> trivial
      | stop u r =>
        exact absurd (show runActs [a] s = .stop u r by rw [runActs_cons, h]; rfl)
          (runActs_pure_never_stops (by simp [ha]) _ _ _)
      | stuck f => trivial
    · cases a
      case raise e => exact ⟨rfl, rfl⟩
      all_goals first | exact absurd rfl ha | cases hp.1

end Sys2Proof.Machine
end

