-- ==== Sys2Proof/Laws/Lines.lean ====
section
/-!
SUPPORT. The line levels after each operation's events (70_reset_and_hazards.md R206; 00_scope.md R8): what
`lineEvent`, folded over the events of an operation, leaves.
-/

namespace Sys2Proof.Machine

open Sys2Proof

theorem foldl_pulseEvents (n : Nat) {l : Lines} (h : l.sck = false) : (pulseEvents n).foldl lineEvent l = l := by
  rw [← progEvents_pulse]; exact foldl_pulse_events n l h

theorem foldl_bitEvents (bs : BitSeq) {l : Lines} (h : l.sck = false) :
    (bitEvents bs).foldl lineEvent l = l.set .sdo (bs.getLastD l.sdo) := by
  rw [← progEvents_driveBits]; exact foldl_driveBits_events bs l h

theorem foldl_selectEvents (id : BitVec 8) {l : Lines} (h : l.sck = false) :
    (selectEvents id).foldl lineEvent l = { l with sdo := id.getLsbD 7, cse := false } := by
  rw [← progEvents_select, foldl_select_events id l h]; rfl

theorem foldl_payloadEvents (t : LoadTicks) (a : BitVec 16) (d : Word) (e w : Bool) (m : BitVec 4) {l : Lines}
    (h : l.sck = false) :
    (payloadEvents t a d e w m).foldl lineEvent l = { l with sdo := a.getLsbD 15, load := false } := by
  rw [← progEvents_writePayload, foldl_writePayload_events t a d e w m l h]; rfl

theorem foldl_busResetEvents (c : Config) {l : Lines} (h : l.sck = false) :
    (busResetEvents c).foldl lineEvent l = { l with srst := false } := by
  rw [← progEvents_busReset, foldl_busReset_events c l h]; rfl

/-- The top bit of a 4-bit chain id sent as a byte is 0 (30_encoding.md R83). -/
theorem getLsbD_setWidth8 (id : BitVec 4) : (id.setWidth 8).getLsbD 7 = false := by
  simp

/-- Bit 15 of row `a` of a bank. -/
theorem getLsbD_row (a : Nat) (h : a < 65536) : (BitVec.ofNat 16 a).getLsbD 15 = decide (32768 ≤ a) := by
  rw [BitVec.getLsbD_ofNat, Nat.testBit_eq_decide_div_mod_eq]
  simp only [Nat.reduceLT, decide_true, Bool.true_and]
  congr 1
  simp only [eq_iff_iff]
  omega

/-- A loop of select and payload ends with the last payload's level (41_transactions.md R133). -/
theorem foldl_clearEvents (c : Config) {l : Lines} (h : l.sck = false) :
    (clearEvents c).foldl lineEvent l = { l with srst := false, tm := false, sdo := false, cse := false, load := false } := by
  have loop : ∀ (n : Nat) {l : Lines}, l.sck = false →
      ((List.range n).flatMap (fun id =>
        selectEvents (BitVec.ofNat 8 id) ++ payloadEvents c.loadTicks 0 0 false false maskAll)).foldl lineEvent l =
        if n = 0 then l else { l with sdo := false, cse := false, load := false } := by
    intro n
    induction n with
    | zero => intro l _; rfl
    | succ n ih =>
      intro l hl
      rw [List.range_succ, List.flatMap_append, List.foldl_append, ih hl, List.flatMap_cons, List.flatMap_nil,
        List.append_nil, List.foldl_append, if_neg (Nat.succ_ne_zero n)]
      by_cases hn : n = 0
      · rw [if_pos hn, foldl_selectEvents _ hl, foldl_payloadEvents _ _ _ _ _ _ (by exact hl)]
        rfl
      · rw [if_neg hn, foldl_selectEvents _ (by exact hl), foldl_payloadEvents _ _ _ _ _ _ (by exact hl)]
        rfl
  unfold clearEvents
  rw [List.foldl_append, List.foldl_append, List.foldl_append, foldl_busResetEvents c h, List.foldl_cons,
    List.foldl_nil, loop 9 (by exact h)]
  rfl

/-- A bank write of the words `ws` ends with the last row's level on `SDO` (41_transactions.md R134). -/
theorem foldl_writeEvents (c : Config) (b : Bank) (ws : List Word) {l : Lines} (h : l.sck = false)
    (hl : l.load = false) (hn : ws.length ≤ 65536) :
    (writeEvents c b ws).foldl lineEvent l =
      { l with srst := false, tm := false, cse := false, load := false, sdo := lastWriteBit ws.length } := by
  have loop : ∀ (ws : List Word) {l : Lines}, l.sck = false → l.load = false → l.sdo = false → ws.length ≤ 65536 →
      (ws.zipIdx.flatMap fun p => writeWordEvents c p.1 p.2).foldl lineEvent l =
        { l with load := false, sdo := lastWriteBit ws.length } := by
    intro ws
    induction ws using List.reverseRecOn with
    | nil =>
      intro l _ h2 h3 _
      change l = _
      rcases l
      subst h2 h3
      rfl
    | append_singleton ws w ih =>
      intro l h1 h2 h3 h4
      rw [List.length_append, List.length_singleton] at h4
      rw [List.zipIdx_append, List.flatMap_append, List.foldl_append, ih h1 h2 h3 (by omega)]
      simp only [List.zipIdx_cons, List.zipIdx_nil, List.flatMap_cons, List.flatMap_nil, List.append_nil, Nat.zero_add]
      unfold writeWordEvents
      have e : lastWriteBit (ws.length + 1) = decide (32768 ≤ ws.length) := by
        unfold lastWriteBit
        rw [decide_eq_decide]
        omega
      rw [foldl_payloadEvents _ _ _ _ _ _ (by exact h1), getLsbD_row _ (by omega), List.length_append,
        List.length_singleton, e]
  unfold writeEvents
  rw [List.foldl_append, List.foldl_append, List.foldl_append, List.foldl_append, foldl_busResetEvents c h,
    List.foldl_cons, List.foldl_nil, foldl_selectEvents _ (by exact h),
    loop ws (by exact h) (by exact hl) (getLsbD_setWidth8 _) hn]
  rfl

/-- Samples move no line but the scan clock (40_primitives.md R112). -/
theorem foldl_sampleEvents (w : Word) (n : Nat) {l : Lines} (h : l.sck = false) :
    (sampleEvents w n).foldl lineEvent l = l := by
  unfold sampleEvents
  induction n with
  | zero => rfl
  | succ n ih =>
    rw [List.range_succ, List.flatMap_append, List.foldl_append, ih]
    rcases l
    cases h
    rfl

theorem foldl_readAddrEvents (c : Config) (b : Bank) (a : Nat) {l : Lines} (h : l.sck = false) :
    (readAddrEvents c b a).foldl lineEvent l = { l with sdo := false, cse := false, load := false } := by
  unfold readAddrEvents
  rw [List.foldl_append, List.foldl_append, foldl_selectEvents _ h, foldl_payloadEvents _ _ _ _ _ _ (by exact h),
    foldl_selectEvents _ (by exact h), getLsbD_setWidth8 (c.rd.get b)]

theorem foldl_readWords (c : Config) (b : Bank) (ws : List Word) {l : Lines} (h : l.sck = false)
    (hl : l.load = false) (hc : l.cse = false) :
    ∃ x, (ws.zipIdx.flatMap fun p => readWordEvents c b p.1 p.2).foldl lineEvent l = { l with sdo := x } := by
  induction ws using List.reverseRecOn with
  | nil => exact ⟨l.sdo, rfl⟩
  | append_singleton ws w ih =>
    obtain ⟨x, hx⟩ := ih
    refine ⟨false, ?_⟩
    rw [List.zipIdx_append, List.flatMap_append, List.foldl_append, hx]
    simp only [List.zipIdx_cons, List.zipIdx_nil, List.flatMap_cons, List.flatMap_nil, List.append_nil, Nat.zero_add]
    unfold readWordEvents
    rw [List.foldl_append, foldl_readAddrEvents c b _ (by exact h), foldl_sampleEvents _ _ (by exact h)]
    rcases l
    subst hl hc
    rfl

/-- A bank read ends with the scan lines at rest, `SDO` the level of the erratum step's id (41_transactions.md R136). -/
theorem foldl_readEvents (c : Config) (b : Bank) (ws : List Word) {l : Lines} (h : l.sck = false)
    (hl : l.load = false) (hc : l.cse = false) :
    (readEvents c b ws).foldl lineEvent l = { l with srst := false, tm := false, cse := false, sdo := false } := by
  unfold readEvents
  obtain ⟨x, hx⟩ := foldl_readWords c b ws (l := { l with srst := false, tm := true }) h hl hc
  rw [List.foldl_append, List.foldl_append, List.foldl_append, List.foldl_append, foldl_busResetEvents c h,
    List.foldl_cons, List.foldl_nil]
  change ([Event.w .tm false].foldl lineEvent ((selectEvents _).foldl lineEvent
    ((ws.zipIdx.flatMap fun p => readWordEvents c b p.1 p.2).foldl lineEvent { l with srst := false, tm := true }))) = _
  rw [hx, foldl_selectEvents _ (by exact h), getLsbD_setWidth8]
  rfl

/-- A bank read that faults leaves test mode asserted and the other scan lines at rest (41_transactions.md R137). -/
theorem foldl_faultedReadEvents (c : Config) (b : Bank) (ws : List Word) (w : Word) (k : Nat) {l : Lines}
    (h : l.sck = false) (hl : l.load = false) (hc : l.cse = false) :
    (faultedReadEvents c b ws w k).foldl lineEvent l =
      { l with srst := false, tm := true, cse := false, load := false, sdo := false } := by
  unfold faultedReadEvents
  obtain ⟨x, hx⟩ := foldl_readWords c b ws (l := { l with srst := false, tm := true }) h hl hc
  rw [List.foldl_append, List.foldl_append, List.foldl_append, List.foldl_append, List.foldl_append,
    foldl_busResetEvents c h]
  change (List.foldl lineEvent ((sampleEvents w k).foldl lineEvent ((readAddrEvents c b ws.length).foldl lineEvent
    ((ws.zipIdx.flatMap fun p => readWordEvents c b p.1 p.2).foldl lineEvent { l with srst := false, tm := true })))
      [Event.r .sdi (w.getLsbD k), .r .svld false]) = _
  rw [hx, foldl_readAddrEvents c b _ (by exact h), foldl_sampleEvents _ _ (by exact h)]
  rfl

end Sys2Proof.Machine
end

