-- ==== Sys2Proof/Laws/Complete.lean ====
section
/-!
SUPPORT. A command or a frame whose program asks nothing and ends nothing, from start to end: what it leaves in every
register (41_transactions.md R130).
-/

namespace Sys2Proof.Machine

open Sys2Proof

/-- What a pure program `p` leaves where the command ends with the outcome `r` just after it. -/
structure PureCommand (r : Result) (p : List Act) (s u t : State) : Prop where
  ran : Ran s t r (if .clearFault ∈ p then false else s.status.fault) (progEvents p)
  elapsed : t.elapsed = s.elapsed
  lines : t.lines = (progEvents p).foldl lineEvent s.lines
  work : t.work = (engineRun p s).work
  chip : t.chip = u.chip
  rx : p.all (fun a => !a.writesRx) = true → RxSame s t

theorem engineRun_accepted_work (p : List Act) (s : State) : (engineRun p s.accepted).work = (engineRun p s).work := by
  have : ∀ (p : List Act) (s t : State), s.work = t.work → (engineRun p s).work = (engineRun p t).work := by
    intro p
    induction p with
    | nil => intro s t h; exact h
    | cons a p ih =>
      intro s t h
      refine ih _ _ ?_
      cases a <;> simp [engineAct, h]
  exact this p _ _ rfl

theorem PureCommand.of {r : Result} {p : List Act} {s u : State} (hp : p.all Act.isPure = true)
    (hu : runActs p s.accepted = .go u) : PureCommand r p s u (endCommand r u) := by
  have hr := runActs_reach hu
  have hs := runActs_go_status hu
  have he := runActs_pure hp hu
  refine ⟨⟨⟨rfl, rfl, ?_⟩, ⟨hr.cfg, hr.cmd, hr.txlen, hr.txbuf, hr.host, hr.hostData⟩, ?_⟩, ?_, ?_, ?_, rfl,
    fun hx => ⟨?_, ?_⟩⟩
  · rw [endCommand_status, hs]
    split <;> simp [Status.endBusy, Status.clearFault, Status.accept]
  · rw [trace_iff, endCommand_log, he, withWorld_log, engineRun_log, accepted_log]
  · rw [endCommand_elapsed, he, withWorld_elapsed, engineRun_elapsed, accepted_elapsed]
  · rw [endCommand_lines, runActs_go_lines hu, accepted_lines]
  · rw [endCommand_work, he, withWorld_work, engineRun_accepted_work]
  · rw [endCommand_rxlen, he, withWorld_rxlen, engineRun_rxlen _ hx, accepted_rxlen]
  · rw [endCommand_rxbuf, he, withWorld_rxbuf, engineRun_rxbuf _ hx, accepted_rxbuf]

theorem exec_pure_command {i : Instr} {s u : State} {p : List Act} (hc : i.isCommand = true) (hw : i.wf = true)
    (hcf : s.status.cfgerr = false) (hprog : programOf i s = p) (hp : p.all Act.isPure = true)
    (hu : runActs p s.accepted = .go u) :
    ∃ t, exec i s = .next t ∧ PureCommand .ok p s u t := by
  refine ⟨endCommand .ok u, ?_, PureCommand.of hp hu⟩
  rw [exec_command hc, hw, hprog]
  exact command_go hcf hu

/-- A pure program followed by the raise of an error that sets no flag (60_exceptions.md R172, R176). -/
theorem exec_raising_command {i : Instr} {s u : State} {p q : List Act} {e : Result} (hc : i.isCommand = true)
    (hw : i.wf = true) (hcf : s.status.cfgerr = false) (hprog : programOf i s = p ++ .raise e :: q)
    (he : e ≠ .protocolFault) (hp : p.all Act.isPure = true) (hu : runActs p s.accepted = .go u) :
    ∃ t, exec i s = .next t ∧ PureCommand e p s u t := by
  refine ⟨finish e u, ?_, ?_⟩
  · rw [exec_command hc, hw, hprog]
    refine command_stop hcf ?_
    rw [runActs_append, hu]
    rfl
  · rw [finish_eq, if_neg he]
    exact PureCommand.of hp hu

theorem noRx_flatMap {α : Type} (l : List α) {g : α → List Act}
    (h : ∀ a, (g a).all (fun a => !a.writesRx) = true) : (l.flatMap g).all (fun a => !a.writesRx) = true := by
  rw [List.all_eq_true]
  intro x hx
  obtain ⟨a, _, hx⟩ := List.mem_flatMap.1 hx
  exact List.all_eq_true.1 (h a) x hx

@[simp] theorem busReset_noRx (c : Config) : (busReset c).all (fun a => !a.writesRx) = true := by
  simp only [busReset, List.all_append, noRx_of_scan (pulse_isScan _)]; rfl

@[simp] theorem fullChainClear_noRx (c : Config) : (fullChainClear c).all (fun a => !a.writesRx) = true := by
  simp only [fullChainClear, List.all_append, busReset_noRx, Bool.true_and]
  rw [noRx_flatMap]
  · rfl
  · intro i
    simp only [clearTarget, List.all_append, noRx_of_scan (selectChain_isScan _),
      noRx_of_scan (writePayload_isScan _ _ _ _ _ _)]
    rfl

@[simp] theorem writeBody_noRx (s : State) (b : Bank) (n : Nat) :
    (writeBody s b n).all (fun a => !a.writesRx) = true := by
  simp only [writeBody, List.all_append, busReset_noRx, noRx_of_scan (selectChain_isScan _), Bool.true_and]
  rw [noRx_flatMap]
  · rfl
  · intro a
    simp only [writeWord, List.all_append, noRx_of_scan (writePayload_isScan _ _ _ _ _ _)]
    rfl

/-- What a pure program, run alone as a frame, leaves (log 11). -/
theorem exec_pure_frame {i : Instr} {s u : State} {p : List Act} (hc : i.isCommand = false)
    (hr : ∀ w, i ≠ .read32 w) (hcf : s.status.cfgerr = false) (hprog : programOf i s = p)
    (hp : p.all Act.isPure = true) (hx : p.all Act.isScan = true) (hu : runActs p s = .go u) :
    ∃ t, exec i s = .next t ∧ Framed s t (progEvents p) ∧ t.lines = (progEvents p).foldl lineEvent s.lines ∧
      t.work = (engineRun p s).work ∧ t.chip = u.chip := by
  have he := runActs_pure hp hu
  have hreach := runActs_reach hu
  refine ⟨{ u with phase := .idle }, ?_, ⟨hreach.result, ?_, rfl, ?_, ?_, ⟨?_, ?_⟩, ?_⟩, ?_, ?_, rfl⟩
  · rw [exec_frame hc hr, hprog]
    exact frame_go hcf hu
  · exact (runActs_go_status hu).trans (if_neg (noClear_of_scan hx))
  · exact (congrArg State.elapsed he).trans (engineRun_elapsed _ _)
  · exact ⟨hreach.cfg, hreach.cmd, hreach.txlen, hreach.txbuf, hreach.host, hreach.hostData⟩
  · exact (congrArg State.rxlen he).trans (engineRun_rxlen _ (noRx_of_scan hx))
  · exact (congrArg State.rxbuf he).trans (engineRun_rxbuf _ (noRx_of_scan hx))
  · rw [trace_iff]
    exact (congrArg State.log he).trans (engineRun_log _ _)
  · have h := runActs_go_lines hu
    exact h
  · have h := congrArg State.work he
    exact h

/-- The capacity check of a bank write (41_transactions.md R134). -/
theorem writeBank_fits {s : State} {b : Bank} (h : (s.txlen.get b).toNat < (s.cfg.cap.get b).toNat) :
    writeBank s b = writeBody s b (s.txlen.get b).toNat := by
  have : capacityExceeded (s.txlen.get b) (s.cfg.cap.get b) = false := by
    unfold capacityExceeded; exact decide_eq_false (by omega)
  rw [writeBank, this]; rfl

theorem writeBank_exceeds {s : State} {b : Bank} (h : (s.cfg.cap.get b).toNat ≤ (s.txlen.get b).toNat) :
    writeBank s b = [.raise .capacityError] := by
  have : capacityExceeded (s.txlen.get b) (s.cfg.cap.get b) = true := by
    unfold capacityExceeded; exact decide_eq_true h
  rw [writeBank, this]; rfl

/-- With no command in progress, accepting and ending one leaves `STATUS` as it was. -/
theorem accept_endBusy {x : Status} (h : x.busy = false) : x.accept.endBusy = x := by
  rcases x with ⟨a, b, c⟩
  cases h
  rfl

theorem State.Inv.valid {s : State} (h : s.Inv) (hc : s.status.cfgerr = false) : Config.valid s.cfg = true := by
  have := h.cfgerr
  rw [hc] at this
  simpa using this.symm

theorem State.Ready.valid_cfg {s : State} (h : s.Ready) : Config.valid s.cfg = true := h.inv.valid h.valid

theorem State.Ready.rest {s : State} (h : s.Ready) : Rest s :=
  ⟨h.inv.sck, h.inv.srst, h.inv.cse, h.inv.load, h.inv.selPend⟩

theorem Rest.accepted {s : State} (h : Rest s) : Rest s.accepted := ⟨h.sck, h.srst, h.cse, h.load, h.pend⟩

/-! ### Working registers through a program (10_state.md R33) -/

/-- Does the step leave `DSR`? -/
def Act.keepsDsr : Act → Bool
  | .startRead _ => false
  | .cycle _ => false
  | _ => true

/-- Does the step leave `ADDRC`? -/
def Act.keepsAddrc : Act → Bool
  | .row _ => false
  | _ => true

/-- Does the step leave `IDC`? -/
def Act.keepsIdc : Act → Bool
  | .ident _ => false
  | _ => true

theorem engineRun_dsr {p : List Act} (s : State) (h : p.all Act.keepsDsr = true) :
    (engineRun p s).work.dsr = s.work.dsr :=
  engineRun_field (fun s => s.work.dsr) p s fun a ha s => by
    have := List.all_eq_true.1 h a ha
    cases a <;> first | rfl | simp [Act.keepsDsr] at this

theorem engineRun_addrc {p : List Act} (s : State) (h : p.all Act.keepsAddrc = true) :
    (engineRun p s).work.addrc = s.work.addrc :=
  engineRun_field (fun s => s.work.addrc) p s fun a ha s => by
    have := List.all_eq_true.1 h a ha
    cases a <;> first | rfl | simp [Act.keepsAddrc] at this

theorem engineRun_idc {p : List Act} (s : State) (h : p.all Act.keepsIdc = true) :
    (engineRun p s).work.idc = s.work.idc :=
  engineRun_field (fun s => s.work.idc) p s fun a ha s => by
    have := List.all_eq_true.1 h a ha
    cases a <;> first | rfl | simp [Act.keepsIdc] at this

/-- A step that drives lines and shifts bits out: it leaves `DSR`, `ADDRC` and `IDC`. -/
def Act.isWire : Act → Bool
  | .phase _ => true
  | .set _ _ => true
  | .loadShift _ _ => true
  | .out _ _ => true
  | .tick _ => true
  | .clearFault => true
  | _ => false

theorem keeps_of_wire {p : List Act} (h : p.all Act.isWire = true) :
    p.all Act.keepsDsr = true ∧ p.all Act.keepsAddrc = true ∧ p.all Act.keepsIdc = true := by
  simp only [List.all_eq_true] at h ⊢
  refine ⟨fun a ha => ?_, fun a ha => ?_, fun a ha => ?_⟩ <;>
    (have := h a ha; cases a <;> first | rfl | cases this)

@[simp] theorem pulse_isWire (n : Nat) : (pulse n).all Act.isWire = true := by
  induction n with
  | zero => rfl
  | succ n ih => simp only [pulse, List.all_cons, ih]; rfl

@[simp] theorem driveBits_isWire (l : BitSeq) : (driveBits l).all Act.isWire = true := by
  induction l with
  | nil => rfl
  | cons b l ih => simp only [driveBits, List.all_cons, ih]; rfl

@[simp] theorem driveSeq_isWire (s l : BitSeq) : (driveSeq s l).all Act.isWire = true := by
  simp only [driveSeq, List.all_cons, driveBits_isWire]; rfl

@[simp] theorem select_isWire (id : BitVec 8) : (select id).all Act.isWire = true := by
  simp only [select, shiftOut, List.all_append, driveSeq_isWire, pulse_isWire]; rfl

@[simp] theorem writePayload_isWire (t : LoadTicks) (a : BitVec 16) (d : Word) (e w : Bool) (m : BitVec 4) :
    (writePayload t a d e w m).all Act.isWire = true := by
  simp only [writePayload, loadSequence, shiftOut, List.all_append, driveSeq_isWire, pulse_isWire]; rfl

@[simp] theorem busReset_isWire (c : Config) : (busReset c).all Act.isWire = true := by
  simp only [busReset, List.all_append, pulse_isWire]; rfl

@[simp] theorem driveClkgen_isWire (o : CkcfgOrder) (q : BitSeq) : (driveClkgen o q).all Act.isWire = true := by
  simp only [driveClkgen, List.all_append, driveSeq_isWire]; rfl

theorem all_flatMap {α : Type} (f : Act → Bool) (l : List α) {g : α → List Act}
    (h : ∀ a, (g a).all f = true) : (l.flatMap g).all f = true := by
  rw [List.all_eq_true]
  intro x hx
  obtain ⟨a, _, hx⟩ := List.mem_flatMap.1 hx
  exact List.all_eq_true.1 (h a) x hx

theorem fullChainClear_keeps (c : Config) :
    (fullChainClear c).all Act.keepsDsr = true ∧ (fullChainClear c).all Act.keepsAddrc = true := by
  have hb := keeps_of_wire (busReset_isWire c)
  have hs := fun i => keeps_of_wire (select_isWire i)
  have hp := keeps_of_wire (writePayload_isWire c.loadTicks 0 0 false false maskAll)
  constructor <;> simp only [fullChainClear, List.all_append]
  · rw [hb.1, all_flatMap]
    · rfl
    · intro i
      simp only [clearTarget, selectChain, List.all_append, (hs _).1, hp.1]; rfl
  · rw [hb.2.1, all_flatMap]
    · rfl
    · intro i
      simp only [clearTarget, selectChain, List.all_append, (hs _).2.1, hp.2.1]; rfl

theorem writeBody_keeps (s : State) (b : Bank) (n : Nat) :
    (writeBody s b n).all Act.keepsDsr = true ∧ (writeBody s b n).all Act.keepsIdc = true := by
  have hb := keeps_of_wire (busReset_isWire s.cfg)
  have hs := keeps_of_wire (select_isWire ((s.cfg.wr.get b).setWidth 8))
  have hp := fun a d => keeps_of_wire (writePayload_isWire s.cfg.loadTicks a d true true maskAll)
  constructor <;> simp only [writeBody, selectChain, List.all_append]
  · rw [hb.1, hs.1, all_flatMap]
    · rfl
    · intro a
      simp only [writeWord, List.all_append, (hp _ _).1]; rfl
  · rw [hb.2.2, hs.2.2, all_flatMap]
    · rfl
    · intro a
      simp only [writeWord, List.all_append, (hp _ _).2.2]; rfl

/-- `IDC` through a program, however it ends: only the chain clear writes it. -/
theorem runActs_go_idc {p : List Act} {s t : State} (h : runActs p s = .go t) (hp : p.all Act.keepsIdc = true) :
    t.work.idc = s.work.idc := by
  rw [(runActs_go_regs h).idc, engineRun_idc s hp]

theorem runActs_stop_idc {p : List Act} {s t : State} {e : Result} (h : runActs p s = .stop t e)
    (hp : p.all Act.keepsIdc = true) : t.work.idc = s.work.idc := by
  obtain ⟨q, a, r, u, rfl, hq, ha⟩ := runActs_stop_split h
  simp only [List.all_append, Bool.and_eq_true] at hp
  rw [(act_stop_regs ha).idc, runActs_go_idc hq hp.1]

@[simp] theorem shiftIn_keepsIdc (n : Nat) : (shiftIn n).all Act.keepsIdc = true := by
  have : ∀ n, (shiftInCycles n).all Act.keepsIdc = true := by
    intro n
    induction n with
    | zero => rfl
    | succ n ih => simp only [shiftInCycles, List.all_cons, ih]; rfl
  simp only [shiftIn, List.all_cons, this]
  rfl

theorem readBody_keepsIdc (c : Config) (b : Bank) (n : Nat) : (readBody c b n).all Act.keepsIdc = true := by
  have hb := keeps_of_wire (busReset_isWire c)
  have hs := fun id => keeps_of_wire (select_isWire id)
  have hp := fun a => keeps_of_wire (writePayload_isWire c.loadTicks a 0 true false maskAll)
  simp only [readBody, selectChain, List.all_append, hb.2.2, (hs _).2.2]
  rw [all_flatMap]
  · rfl
  · intro a
    simp only [readWord, selectChain, List.all_append, (hs _).2.2, (hp _).2.2, shiftIn_keepsIdc]
    rfl

theorem readBank_keepsIdc (c : Config) (b : Bank) (len : Length) : (readBank c b len).all Act.keepsIdc = true := by
  unfold readBank
  split
  · rfl
  · exact readBody_keepsIdc _ _ _

/-- A read of a length that is not `none` is a transaction of that many rows (41_transactions.md R135). -/
theorem readBank_eq {c : Config} {b : Bank} {len : Length} (h : len ≠ .none) :
    readBank c b len = readBody c b (readCount (c.cap.get b) len) := by
  cases len <;> first | exact absurd rfl h | rfl

/-- The receive side from the facts a bank read gives (41_transactions.md R136). -/
theorem RxRead.received {s t : State} {b : Bank} {ws : List Word} (d : RxRead s t b ws)
    (hwf : (s.rxbuf.get b).wf = true) (hlen : ws.length ≤ 65536) : Received s t b ws := by
  obtain ⟨_, h3, h4⟩ := d.rxbuf hwf
  have hl : (t.rxlen.get b).toNat = ws.length := by rw [d.rxlen, BitVec.toNat_ofNat]; omega
  refine ⟨?_, hl, fun k hk => ?_⟩
  · apply List.ext_getElem
    · simp [State.rxWords, hl]
    · intro i h5 h6
      simp only [State.rxWords, List.getElem_map, List.getElem_range]
      exact h3 i _ (List.getElem?_eq_getElem h6)
  · have := h4 k.toNat hk k.isLt
    simpa using this

/-- The other banks' receive sides are as they were. -/
theorem RxRead.other {s t : State} {b : Bank} {ws : List Word} (d : RxRead s t b ws) (c : Bank) (hc : c ≠ b) :
    RxSameAt s t c := ⟨d.rxlenOther c hc, d.rxbufOther c hc⟩

/-- `CNT` counts a run of pulses down to 0, and a run of pulses changes no other working register (10_state.md R33). -/
theorem engineRun_pulse_work (n : Nat) (s : State) :
    (engineRun (pulse n) s).work = if n = 0 then s.work else { s.work with cnt := 0 } := by
  induction n generalizing s with
  | zero => rfl
  | succ n ih =>
    rw [pulse, engineRun_cons, ih, if_neg (Nat.succ_ne_zero n)]
    split
    · rename_i h; subst h; rfl
    · rfl

theorem engineRun_busReset_work (c : Config) (s : State) :
    (engineRun (busReset c) s).work = { s.work with cnt := 0 } := by
  unfold busReset
  rw [engineRun_append, engineRun_append, engineRun_append, engineRun_append]
  have h : ∀ s : State, (engineRun [.clearFault] s).work = s.work := fun _ => rfl
  rw [h, engineRun_pulse_work, if_neg (by decide)]
  have h2 : ∀ s : State, (engineRun [.set .srst false] s).work = s.work := fun _ => rfl
  rw [h2, engineRun_pulse_work]
  split <;> rfl

end Sys2Proof.Machine
end

