-- ==== Sys2Proof/Laws/Oracle.lean ====
section
/-!
SUPPORT. Reads where the environment is an oracle (20_memory.md R55): what each cycle of the deserializer draws, a bank
read run to its end and faulted (40_primitives.md R112; 41_transactions.md R136, R137).
-/

namespace Sys2Proof.Machine

open Sys2Proof

/-! ### What a world draws -/

/-- The answer to the `j`-th draw of a bit from here. -/
def World.draws (w : World) (j : Nat) : Bool :=
  (w.env.bits[j]?).getD (Config.freeBit (w.freeCount + (j - w.env.bits.length)))

/-- The world `n` draws later. -/
def World.drawn (w : World) (n : Nat) : World :=
  { w with env := { w.env with bits := w.env.bits.drop n }, freeCount := w.freeCount + (n - w.env.bits.length) }

theorem drawnBit_world (s : State) (j : Nat) : drawnBit s j = s.world.draws j := rfl

theorem World.draws_drawn (w : World) (n j : Nat) : (w.drawn n).draws j = w.draws (n + j) := by
  unfold World.draws World.drawn
  dsimp only
  rw [List.getElem?_drop, List.length_drop]
  by_cases hc : n + j < w.env.bits.length
  · rw [List.getElem?_eq_getElem hc]
    rfl
  · rw [List.getElem?_eq_none (by omega), Option.getD_none, Option.getD_none]
    congr 1
    omega

theorem World.drawn_zero (w : World) : w.drawn 0 = w := by
  unfold World.drawn
  rw [List.drop_zero, Nat.zero_sub, Nat.add_zero]

theorem World.drawn_drawn (w : World) (n m : Nat) : (w.drawn n).drawn m = w.drawn (n + m) := by
  unfold World.drawn
  dsimp only
  rw [List.drop_drop, List.length_drop]
  congr 1
  omega

/-- What the oracle answers in one cycle of the deserializer, `SDI` and `SVLD`, and the world after: two draws, or one
where a frame is being presented on `SDI` (log 13). -/
def World.cycleBits (w : World) : Bool × Bool :=
  match w.env.sdiFrame with
  | [] => (w.draws 0, w.draws 1)
  | x :: _ => (x, w.draws 0)

/-- The world after that cycle. -/
def World.cycled (w : World) : World :=
  match w.env.sdiFrame with
  | [] => w.drawn 2
  | _ :: xs => ({ w with env := { w.env with sdiFrame := xs } } : World).drawn 1

/-- The world after `n` cycles. -/
def World.cycles (w : World) : Nat → World
  | 0 => w
  | n + 1 => w.cycled.cycles n

/-- What the oracle answers on `SDI` in cycle `j`. -/
def World.sdi (w : World) (j : Nat) : Bool := (w.cycles j).cycleBits.1

/-- What the oracle answers on `SVLD` in cycle `j`. -/
def World.svld (w : World) (j : Nat) : Bool := (w.cycles j).cycleBits.2

theorem World.cycled_kind (w : World) : w.cycled.env.kind = w.env.kind := by
  unfold World.cycled
  split <;> rfl

/-- With nothing presented on `SDI`, a cycle draws twice. -/
theorem World.cycles_drawing {w : World} (h : w.env.sdiFrame = []) (n : Nat) : w.cycles n = w.drawn (2 * n) := by
  induction n generalizing w with
  | zero => exact w.drawn_zero.symm
  | succ n ih =>
    have hc : w.cycled = w.drawn 2 := by unfold World.cycled; rw [h]
    unfold World.cycles
    rw [hc, ih (by exact h), World.drawn_drawn]
    congr 1
    omega

theorem World.answers_drawing {w : World} (h : w.env.sdiFrame = []) (j : Nat) :
    w.sdi j = w.draws (2 * j) ∧ w.svld j = w.draws (2 * j + 1) := by
  unfold World.sdi World.svld
  rw [World.cycles_drawing h]
  have hf : (w.drawn (2 * j)).env.sdiFrame = [] := h
  unfold World.cycleBits
  rw [hf]
  exact ⟨World.draws_drawn _ _ _, World.draws_drawn _ _ _⟩

/-- With a frame presented on `SDI`, a cycle of it draws once. -/
theorem World.cycles_presented {w : World} {n : Nat} (h : n ≤ w.env.sdiFrame.length) :
    w.cycles n = ({ w with env := { w.env with sdiFrame := w.env.sdiFrame.drop n } } : World).drawn n := by
  induction n generalizing w with
  | zero => exact (World.drawn_zero _).symm
  | succ n ih =>
    cases hf : w.env.sdiFrame with
    | nil => rw [hf] at h; cases h
    | cons x xs =>
      have hc : w.cycled = ({ w with env := { w.env with sdiFrame := xs } } : World).drawn 1 := by
        unfold World.cycled
        rw [hf]
      have hl : n ≤ xs.length := by
        rw [hf, List.length_cons] at h
        omega
      unfold World.cycles
      rw [hc, ih (by exact hl)]
      exact (World.drawn_drawn ({ w with env := { w.env with sdiFrame := xs.drop n } } : World) 1 n).trans
        (congrArg _ (Nat.add_comm 1 n))

theorem World.answers_presented {w : World} {j : Nat} (h : j < w.env.sdiFrame.length) :
    w.sdi j = w.env.sdiFrame[j] ∧ w.svld j = w.draws j := by
  unfold World.sdi World.svld
  rw [World.cycles_presented (by omega)]
  have hf : (({ w with env := { w.env with sdiFrame := w.env.sdiFrame.drop j } } : World).drawn j).env.sdiFrame =
      w.env.sdiFrame[j] :: w.env.sdiFrame.drop (j + 1) := List.drop_eq_getElem_cons h
  unfold World.cycleBits
  rw [hf]
  exact ⟨rfl, World.draws_drawn _ _ _⟩

/-! ### The micro-steps in an oracle -/

theorem setLine_oracle {x : OutLine} {v : Bool} {s : State} (h : s.env.kind = .oracle) :
    setLine x v s = .go (recordWrite x v s) := by
  unfold setLine
  split
  · split
    · unfold envRise
      rw [recordWrite_env, h]
    · rfl
  · rfl

theorem actTick_oracle {n : BitVec 32} {s : State} (h : s.env.kind = .oracle) :
    act (.tick n) s = .go (engineAct (.tick n) s) := by
  change actTick n s = _
  unfold actTick
  rw [setLine_oracle h, Flow.bind_go, setLine_oracle (by exact h), Flow.bind_go]
  rfl

theorem act_pure_oracle {a : Act} {s : State} (h : s.env.kind = .oracle) (ha : a.isPure = true) :
    act a s = .go (engineAct a s) := by
  cases a
  case set x v => exact setLine_oracle h
  case tick n => exact actTick_oracle h
  all_goals first | rfl | cases ha

/-- In an oracle a program that asks nothing runs to its end and moves the engine alone. -/
theorem goes_oracle {p : List Act} {s : State} (h : s.env.kind = .oracle) (hp : p.all Act.isPure = true) :
    Goes p s (engineRun p s) := by
  unfold Goes
  induction p generalizing s with
  | nil => rfl
  | cons a p ih =>
    rw [List.all_cons, Bool.and_eq_true] at hp
    rw [runActs_cons, act_pure_oracle h hp.1, Flow.bind_go]
    refine ih ?_ hp.2
    have := congrArg (fun w => w.env.kind) (engineAct_world a s)
    exact this.trans h

/-- The two samples of a cycle in an oracle. -/
theorem samples_oracle {s : State} (h : s.env.kind = .oracle) :
    (sample .sdi s).1 = s.world.cycleBits.1 ∧ (sample .svld (sample .sdi s).2).1 = s.world.cycleBits.2 ∧
      (sample .svld (sample .sdi s).2).2 = { s.withWorld s.world.cycled with
        log := .r .svld s.world.cycleBits.2 :: .r .sdi s.world.cycleBits.1 :: s.log } := by
  have hv : ∀ u : State, u.env.kind = .oracle → answer .svld u = (u.world.draws 0, u.withWorld (u.world.drawn 1)) := by
    intro u hu
    change answerSvld u = _
    unfold answerSvld
    rw [hu]
    exact drawBit_eq u
  cases hf : s.env.sdiFrame with
  | nil =>
    have hb : s.world.cycleBits = (s.world.draws 0, s.world.draws 1) := by
      unfold World.cycleBits
      rw [world_env, hf]
    have hc : s.world.cycled = (s.world.drawn 1).drawn 1 := by
      rw [World.drawn_drawn]
      unfold World.cycled
      rw [world_env, hf]
    have hd : answer .sdi s = (s.world.draws 0, s.withWorld (s.world.drawn 1)) := by
      change answerSdi s = _
      unfold answerSdi
      rw [hf, h]
      exact drawBit_eq s
    have hs : sample .sdi s = (s.world.draws 0, { s.withWorld (s.world.drawn 1) with
        log := .r .sdi (s.world.draws 0) :: s.log }) := by
      unfold sample
      rw [hd]
    rw [hs, hb, hc]
    dsimp only
    unfold sample
    rw [hv _ (by exact h)]
    have h1 : (s.world.drawn 1).draws 0 = s.world.draws 1 := World.draws_drawn _ _ _
    rw [← h1]
    exact ⟨rfl, rfl, rfl⟩
  | cons x xs =>
    have hb : s.world.cycleBits = (x, s.world.draws 0) := by
      unfold World.cycleBits
      rw [world_env, hf]
    have hc : s.world.cycled = ({ s.world with env := { s.env with sdiFrame := xs } } : World).drawn 1 := by
      unfold World.cycled
      rw [world_env, hf]
    have hs : sample .sdi s = (x, { s with
        env := { s.env with sdiFrame := xs }, log := .r .sdi x :: s.log }) := by
      have hd : answer .sdi s = (x, { s with env := { s.env with sdiFrame := xs } }) := by
        change answerSdi s = _
        unfold answerSdi
        rw [hf]
      unfold sample
      rw [hd]
    rw [hs, hb, hc]
    dsimp only
    unfold sample
    rw [hv _ (by exact h)]
    exact ⟨rfl, rfl, rfl⟩

/-! ### The deserializer -/

/-- What `n` valid cycles leave in an oracle. -/
structure CyclesDrawn (s t : State) (n : Nat) : Prop where
  world : t.world = s.world.cycles n
  cfg : t.cfg = s.cfg
  lines : t.lines = s.lines
  dsr : t.work.dsr = ((List.range n).map s.world.sdi).foldl pushTop s.work.dsr
  log : t.log = (cycleEvents s.world.sdi n).reverse ++ s.log
  rxlen : t.rxlen = s.rxlen
  rxbuf : t.rxbuf = s.rxbuf
  status : t.status = s.status
  elapsed : t.elapsed = s.elapsed

/-- One valid cycle and its pulse. -/
theorem goes_cycle_oracle {s : State} (n : BitVec 6) (h : s.env.kind = .oracle) (hc : s.lines.sck = false)
    (hv : s.world.cycleBits.2 = true) : ∃ t, Goes [.cycle n, .tick 0] s t ∧ CyclesDrawn s t 1 := by
  obtain ⟨e1, e2, e3⟩ := samples_oracle h
  have hg : act (.cycle n) s = .go { s.withWorld s.world.cycled with
      log := .r .svld true :: .r .sdi s.world.cycleBits.1 :: s.log
      work := { s.work with dsr := pushTop s.work.dsr s.world.cycleBits.1, bitc := n } } := by
    change actCycle n s = _
    unfold actCycle
    dsimp only
    rw [e1, e2, e3, hv]
    rfl
  generalize hu : ({ s.withWorld s.world.cycled with
      log := .r .svld true :: .r .sdi s.world.cycleBits.1 :: s.log
      work := { s.work with dsr := pushTop s.work.dsr s.world.cycleBits.1, bitc := n } } : State) = u at hg
  have hk : u.env.kind = .oracle := by
    rw [← hu]
    exact (World.cycled_kind _).trans h
  refine ⟨engineAct (.tick 0) u, ?_, ?_⟩
  · unfold Goes
    rw [runActs_cons, hg, Flow.bind_go, runActs_cons, actTick_oracle hk]
    rfl
  · have hl : (engineAct (.tick 0) u).lines = u.lines := Lines_pulse (by rw [← hu]; exact hc)
    have hw : (engineAct (.tick 0) u).world = s.world.cycled := by
      rw [engineAct_world, ← hu]
      rfl
    subst hu
    exact ⟨hw, rfl, hl, rfl, rfl, rfl, rfl, rfl, rfl⟩

theorem CyclesDrawn.cons {s t u : State} {n : Nat} (h : CyclesDrawn s t 1) (k : CyclesDrawn t u n) :
    CyclesDrawn s u (n + 1) := by
  have hw : t.world = s.world.cycled := h.world
  have hb : ∀ j, t.world.sdi j = s.world.sdi (j + 1) := fun j => by rw [hw]; rfl
  refine ⟨by rw [k.world, hw]; rfl, k.cfg.trans h.cfg, k.lines.trans h.lines, ?_, ?_, k.rxlen.trans h.rxlen,
    k.rxbuf.trans h.rxbuf, k.status.trans h.status, k.elapsed.trans h.elapsed⟩
  · rw [k.dsr, h.dsr, List.range_succ_eq_map (n := n), List.map_cons, List.foldl_cons, List.map_map]
    congr 1
    exact List.map_congr_left fun j _ => hb j
  · rw [k.log, h.log]
    unfold cycleEvents
    rw [List.range_succ_eq_map (n := n), List.flatMap_cons, List.flatMap_map, List.reverse_append, List.append_assoc]
    congr 2
    exact List.flatMap_congr fun j _ => by rw [hb j]

/-- `n` valid cycles in an oracle. -/
theorem goes_cycles_oracle {s : State} (n : Nat) (h : s.env.kind = .oracle) (hc : s.lines.sck = false)
    (hv : ∀ j, j < n → s.world.svld j = true) : ∃ t, Goes (shiftInCycles n) s t ∧ CyclesDrawn s t n := by
  induction n generalizing s with
  | zero => exact ⟨s, rfl, rfl, rfl, rfl, rfl, rfl, rfl, rfl, rfl, rfl⟩
  | succ n ih =>
    obtain ⟨t, g, d⟩ := goes_cycle_oracle (BitVec.ofNat 6 n) h hc (hv 0 (by omega))
    have hw : t.world = s.world.cycled := d.world
    have hk : t.env.kind = .oracle :=
      (congrArg (fun w => w.env.kind) hw).trans ((World.cycled_kind _).trans h)
    obtain ⟨u, gu, du⟩ := ih hk (d.lines ▸ hc) fun j hj => by rw [hw]; exact hv (j + 1) (by omega)
    exact ⟨u, g.append gu, d.cons du⟩

/-- What a false `SVLD` after `k` valid cycles leaves in an oracle. -/
structure CyclesFaulted (s t : State) (k : Nat) : Prop where
  log : t.log =
    (cycleEvents s.world.sdi k ++ [Event.r .sdi (s.world.sdi k), .r .svld false]).reverse ++ s.log
  lines : t.lines = s.lines
  rxlen : t.rxlen = s.rxlen
  rxbuf : t.rxbuf = s.rxbuf
  status : t.status = s.status
  elapsed : t.elapsed = s.elapsed

/-- A false `SVLD` in cycle `k` ends the command (40_primitives.md R112). -/
theorem stops_cycles_oracle {s : State} (n k : Nat) (hn : k < n) (h : s.env.kind = .oracle)
    (hc : s.lines.sck = false) (hv : ∀ j, j < k → s.world.svld j = true) (hk : s.world.svld k = false) :
    ∃ t, runActs (shiftInCycles n) s = .stop t .protocolFault ∧ CyclesFaulted s t k := by
  obtain ⟨m, rfl⟩ : ∃ m, n = m + 1 := ⟨n - 1, by omega⟩
  induction k generalizing s m with
  | zero =>
    obtain ⟨e1, e2, e3⟩ := samples_oracle h
    have hk' : s.world.cycleBits.2 = false := hk
    have hg : act (.cycle (BitVec.ofNat 6 m)) s = .stop { s.withWorld s.world.cycled with
        log := .r .svld false :: .r .sdi s.world.cycleBits.1 :: s.log } .protocolFault := by
      change actCycle _ s = _
      unfold actCycle
      dsimp only
      rw [e2, e3, hk']
      rfl
    refine ⟨{ s.withWorld s.world.cycled with
        log := .r .svld false :: .r .sdi s.world.cycleBits.1 :: s.log }, ?_, rfl, rfl, rfl, rfl, rfl, rfl⟩
    change (act (.cycle (BitVec.ofNat 6 m)) s).bind _ = _
    rw [hg]
    rfl
  | succ k ih =>
    obtain ⟨m, rfl⟩ : ∃ p, m = p + 1 := ⟨m - 1, by omega⟩
    obtain ⟨t, g, d⟩ := goes_cycle_oracle (BitVec.ofNat 6 (m + 1)) h hc (hv 0 (by omega))
    have hw : t.world = s.world.cycled := d.world
    have hkt : t.env.kind = .oracle :=
      (congrArg (fun w => w.env.kind) hw).trans ((World.cycled_kind _).trans h)
    have hb : ∀ j, t.world.sdi j = s.world.sdi (j + 1) := fun j => by rw [hw]; rfl
    obtain ⟨u, gu, du⟩ := ih (s := t) hkt (d.lines ▸ hc) (fun j hj => by rw [hw]; exact hv (j + 1) (by omega))
      (by rw [hw]; exact hk) m (by omega)
    refine ⟨u, ?_, ?_, du.lines.trans d.lines, du.rxlen.trans d.rxlen, du.rxbuf.trans d.rxbuf,
      du.status.trans d.status, du.elapsed.trans d.elapsed⟩
    · change runActs ([.cycle (BitVec.ofNat 6 (m + 1)), .tick 0] ++ shiftInCycles (m + 1)) s = _
      rw [runActs_append_go g]
      exact gu
    · rw [du.log, d.log]
      unfold cycleEvents
      rw [List.range_succ_eq_map (n := k), List.flatMap_cons, List.flatMap_map, hb k]
      simp only [List.reverse_append, List.append_assoc]
      congr 3
      exact List.flatMap_congr fun j _ => by rw [hb j]

/-- The word whose bit `j` is `bit j` (20_memory.md R46). -/
def wordOf (bit : Nat → Bool) : Word := ((List.range 32).map bit).foldl pushTop 0

theorem wordOf_getLsbD (bit : Nat → Bool) {j : Nat} (hj : j < 32) : (wordOf bit).getLsbD j = bit j := by
  unfold wordOf
  rw [foldl_pushTop_getLsbD _ _ (by simp) j hj]
  simp [hj]

theorem cycleEvents_wordOf (bit : Nat → Bool) {n : Nat} (hn : n ≤ 32) :
    cycleEvents bit n = sampleEvents (wordOf bit) n := by
  unfold sampleEvents cycleEvents
  exact List.flatMap_congr fun j hj => by rw [wordOf_getLsbD bit (by have := List.mem_range.1 hj; omega)]

/-- The state in which a `shift_in` of `n` cycles starts them. -/
def State.reading (s : State) (n : Nat) : State :=
  { s with phase := .shifting, work := { s.work with dsr := 0, bitc := BitVec.ofNat 6 n } }

theorem reading_world (s : State) (n : Nat) : (s.reading n).world = s.world := rfl

theorem runActs_shiftIn (n : Nat) (s : State) : runActs (shiftIn n) s = runActs (shiftInCycles n) (s.reading n) := rfl

theorem reading_log (s : State) (n : Nat) : (s.reading n).log = s.log := rfl

theorem reading_dsr (s : State) (n : Nat) : (s.reading n).work.dsr = 0 := rfl

/-- `shift_in(32)` in an oracle, every answer valid: the word is the bits answered, the first bit 0. -/
theorem goes_shiftIn_oracle {s : State} (h : s.env.kind = .oracle) (hc : s.lines.sck = false)
    (hv : ∀ j, j < 32 → s.world.svld j = true) :
    ∃ t, Goes (shiftIn Config.wordWidth) s t ∧ t.world = s.world.cycles 32 ∧ t.work.dsr = wordOf s.world.sdi ∧
      t.log = (sampleEvents (wordOf s.world.sdi) 32).reverse ++ s.log ∧ t.lines = s.lines ∧ t.rxlen = s.rxlen ∧
      t.rxbuf = s.rxbuf ∧ t.status = s.status ∧ t.elapsed = s.elapsed ∧ t.cfg = s.cfg := by
  have key : ∀ n, (∀ j, j < n → s.world.svld j = true) → ∃ t, Goes (shiftIn n) s t ∧ CyclesDrawn (s.reading n) t n := by
    intro n hn
    obtain ⟨t, g, d⟩ := goes_cycles_oracle (s := s.reading n) n h hc hn
    exact ⟨t, by unfold Goes; rw [runActs_shiftIn]; exact g, d⟩
  obtain ⟨t, g, d⟩ := key 32 hv
  refine ⟨t, g, ?_, ?_, ?_, d.lines, d.rxlen, d.rxbuf, d.status, d.elapsed, d.cfg⟩
  · rw [d.world, reading_world]
  · rw [d.dsr, reading_world, reading_dsr]
    rfl
  · rw [d.log, reading_world, reading_log, cycleEvents_wordOf _ (Nat.le_refl 32)]

/-- `shift_in(32)` in an oracle whose `SVLD` is false in cycle `k` (40_primitives.md R112). -/
theorem stops_shiftIn_oracle {s : State} {k : Nat} (hk : k < 32) (h : s.env.kind = .oracle)
    (hc : s.lines.sck = false) (hv : ∀ j, j < k → s.world.svld j = true) (hf : s.world.svld k = false) :
    ∃ t, runActs (shiftIn Config.wordWidth) s = .stop t .protocolFault ∧
      t.log = (sampleEvents (wordOf s.world.sdi) k ++
        [Event.r .sdi ((wordOf s.world.sdi).getLsbD k), .r .svld false]).reverse ++ s.log ∧
      t.lines = s.lines ∧ t.rxlen = s.rxlen ∧ t.rxbuf = s.rxbuf ∧ t.status = s.status ∧ t.elapsed = s.elapsed := by
  have key : ∀ n, k < n → ∃ t, runActs (shiftIn n) s = .stop t .protocolFault ∧ CyclesFaulted (s.reading n) t k := by
    intro n hn
    obtain ⟨t, g, d⟩ := stops_cycles_oracle (s := s.reading n) n k hn h hc hv hf
    exact ⟨t, by rw [runActs_shiftIn]; exact g, d⟩
  obtain ⟨t, g, d⟩ := key 32 hk
  refine ⟨t, g, ?_, d.lines, d.rxlen, d.rxbuf, d.status, d.elapsed⟩
  rw [d.log, reading_world, reading_log, cycleEvents_wordOf _ (by omega), wordOf_getLsbD _ hk]

/-! ### A bank read -/

/-- Addressing a row and selecting the read target in an oracle. -/
theorem goes_readAddr_oracle {s : State} (b : Bank) (a : Nat) (h : s.env.kind = .oracle) (hc : s.lines.sck = false) :
    ∃ t, Goes (readAddr s.cfg b a) s t ∧ t.world = s.world ∧ t.cfg = s.cfg ∧ t.lines.sck = false ∧
      t.log = (readAddrEvents s.cfg b a).reverse ++ s.log ∧ t.rxlen = s.rxlen ∧ t.rxbuf = s.rxbuf ∧
      t.status = s.status ∧ t.elapsed = s.elapsed := by
  have hp : (readAddr s.cfg b a).all Act.isPure = true := by simp [readAddr, Act.isPure]
  have hs : (readAddr s.cfg b a).all Act.isScan = true := by simp [readAddr, Act.isScan, Act.writesRx]
  have g := goes_oracle h hp
  have hl := g.log hp
  rw [readAddr, progEvents_readAddr] at hl
  refine ⟨_, g, engineRun_world _ _, (runActs_reach g).cfg, ?_, hl, (g.rx hp (noRx_of_scan hs)).1,
    (g.rx hp (noRx_of_scan hs)).2, g.status hp (noClear_of_scan hs), g.elapsed hp⟩
  rw [(runActs_reach g).lines_of_log hl, foldl_readAddrEvents _ _ _ hc]
  exact hc

/-- The bits an oracle draws for row `a` of a read that begins `j` draws from here: the words `ws` are them. -/
def WordsDrawn (w : World) (ws : List Word) : Prop :=
  ∀ a v, ws[a]? = some v → ∀ k, k < 32 → v.getLsbD k = w.draws (2 * (32 * a + k))

theorem WordsDrawn.concat {w : World} {ws : List Word} {v : Word} (h : WordsDrawn w ws)
    (hv : ∀ k, k < 32 → v.getLsbD k = w.draws (2 * (32 * ws.length + k))) : WordsDrawn w (ws ++ [v]) := by
  intro a x ha
  by_cases hE : a = ws.length
  · subst hE
    rw [List.getElem?_concat_length] at ha
    cases ha
    exact hv
  · have hlt : a < ws.length := by
      obtain ⟨h', _⟩ := List.getElem?_eq_some_iff.1 ha
      rw [List.length_append, List.length_singleton] at h'
      omega
    rw [List.getElem?_append_left hlt] at ha
    exact h a x ha

/-- What the rows `0 .. n-1` of a read leave in an oracle, the words `ws` answered. -/
structure RowsDrawn (s t : State) (b : Bank) (ws : List Word) : Prop where
  world : t.world = s.world.drawn (64 * ws.length)
  cfg : t.cfg = s.cfg
  sck : t.lines.sck = false
  words : WordsDrawn s.world ws
  log : t.log = (ws.zipIdx.flatMap fun p => readWordEvents s.cfg b p.1 p.2).reverse ++ s.log
  rx : RxRows s t b ws
  status : t.status = s.status
  elapsed : t.elapsed = s.elapsed

/-- What the oracle answers once `n` rows have been read. -/
theorem answers_later {s u : State} {n : Nat} (hw : u.world = s.world.drawn (64 * n)) (hf : s.env.sdiFrame = [])
    (j : Nat) : u.world.sdi j = s.world.draws (2 * (32 * n + j)) ∧
      u.world.svld j = s.world.draws (2 * (32 * n + j) + 1) := by
  have hfu : u.world.env.sdiFrame = [] := by rw [hw]; exact hf
  obtain ⟨h1, h2⟩ := World.answers_drawing hfu j
  rw [h1, h2, hw, World.draws_drawn, World.draws_drawn]
  exact ⟨congrArg _ (by omega), congrArg _ (by omega)⟩

/-- The rows `0 .. n-1` of a bank read in an oracle that answers `SVLD` true throughout. -/
theorem goes_readWords_oracle {s : State} (b : Bank) (n : Nat) (h : s.env.kind = .oracle) (hc : s.lines.sck = false)
    (hf : s.env.sdiFrame = []) (hn : n ≤ 65536) (hv : ∀ j, j < 32 * n → s.world.draws (2 * j + 1) = true) :
    ∃ ws t, ws.length = n ∧ Goes ((List.range n).flatMap (readWord s.cfg b)) s t ∧ RowsDrawn s t b ws := by
  induction n with
  | zero =>
    exact ⟨[], s, rfl, rfl, (World.drawn_zero _).symm, rfl, hc, fun a v ha => by simp at ha, rfl, RxRows.nil s b, rfl,
      rfl⟩
  | succ n ih =>
    obtain ⟨ws, t, hl, g, d⟩ := ih (by omega) fun j hj => hv j (by omega)
    have hkt : t.env.kind = .oracle := (runActs_reach g).kind.trans h
    obtain ⟨u, gu, wu, cu, ku, logu, rlu, rbu, stu, elu⟩ := goes_readAddr_oracle b n hkt d.sck
    rw [d.cfg] at gu logu
    have hwu : u.world = s.world.drawn (64 * n) := by rw [wu, d.world, hl]
    have hku : u.env.kind = .oracle := (runActs_reach gu).kind.trans hkt
    obtain ⟨v, gv, wv, dv, logv, lv, rlv, rbv, stv, elv, cv⟩ := goes_shiftIn_oracle hku ku fun j hj =>
      (answers_later hwu hf j).2.trans (hv _ (by omega))
    obtain ⟨x, hx⟩ : ∃ x : State, x = { v with
      rxbuf := v.rxbuf.set b ((v.rxbuf.get b).write (BitVec.ofNat 16 n) v.work.dsr),
      rxlen := v.rxlen.set b (BitVec.ofNat 17 (n + 1)) } := ⟨_, rfl⟩
    have gx : Goes [.rxStore b n] v x := by rw [hx]; rfl
    refine ⟨ws ++ [wordOf u.world.sdi], x, by rw [List.length_append, hl]; rfl, ?_, ?_, ?_, ?_, ?_, ?_, ?_, ?_, ?_⟩
    · rw [List.range_succ, List.flatMap_append]
      simp only [List.flatMap_cons, List.flatMap_nil, List.append_nil]
      rw [readWord_eq]
      exact g.append ((gu.append gv).append gx)
    · have hfu : u.world.env.sdiFrame = [] := by rw [hwu]; exact hf
      rw [List.length_append, hl, hx]
      change v.world = _
      rw [wv, World.cycles_drawing hfu, hwu, World.drawn_drawn]
      congr 1
    · rw [hx]
      exact cv.trans (cu.trans d.cfg)
    · rw [hx]
      change v.lines.sck = _
      rw [lv]
      exact ku
    · refine d.words.concat fun k hk => ?_
      rw [wordOf_getLsbD _ hk, (answers_later hwu hf k).1, hl]
    · rw [hx]
      change v.log = _
      rw [logv, logu, d.log, List.zipIdx_append, List.flatMap_append, hl]
      simp only [List.zipIdx_cons, List.zipIdx_nil, List.flatMap_cons, List.flatMap_nil, List.append_nil,
        List.reverse_append, List.append_assoc, readWordEvents, Nat.zero_add]
    · refine RxRows.store d.rx (by omega) ?_ ?_
      · rw [hx, hl]
        change v.rxlen.set b _ = _
        rw [rlv, rlu]
      · rw [hx, hl]
        change v.rxbuf.set b _ = _
        rw [rbv, rbu, dv]
    · rw [hx]
      exact stv.trans (stu.trans d.status)
    · rw [hx]
      exact elv.trans (elu.trans d.elapsed)

/-- What a bank read that ran to its end leaves in an oracle. -/
structure BankDrawn (s t : State) (b : Bank) (ws : List Word) : Prop where
  world : t.world = s.world.drawn (64 * ws.length)
  words : WordsDrawn s.world ws
  log : t.log = (readEvents s.cfg b ws).reverse ++ s.log
  rx : RxRead s t b ws
  status : t.status = s.status.clearFault
  elapsed : t.elapsed = s.elapsed

/-- The opening of a bank read in an oracle. -/
theorem goes_readOpen_oracle {s : State} (b : Bank) (h : s.env.kind = .oracle) (hc : s.lines.sck = false) :
    ∃ t, Goes ([.rxClear b] ++ busReset s.cfg ++ tmEnter) s t ∧ t.world = s.world ∧ t.cfg = s.cfg ∧
      t.lines.sck = false ∧ t.log = (busResetEvents s.cfg ++ [Event.w .tm true]).reverse ++ s.log ∧
      t.rxlen = s.rxlen.set b 0 ∧ t.rxbuf = s.rxbuf ∧ t.status = s.status.clearFault ∧ t.elapsed = s.elapsed := by
  obtain ⟨s0, hs0⟩ : ∃ s0 : State, s0 = { s with rxlen := s.rxlen.set b 0 } := ⟨_, rfl⟩
  have g0 : Goes [.rxClear b] s s0 := by rw [hs0]; rfl
  have hp : (busReset s.cfg ++ tmEnter).all Act.isPure = true := by simp
  have hr : (busReset s.cfg ++ tmEnter).all (fun a => !a.writesRx) = true := by
    rw [List.all_append, busReset_noRx]
    rfl
  have hcl : .clearFault ∈ busReset s.cfg ++ tmEnter := by simp [busReset]
  have g := goes_oracle (s := s0) (by rw [hs0]; exact h) hp
  have hl : (engineRun (busReset s.cfg ++ tmEnter) s0).log =
      (busResetEvents s.cfg ++ [Event.w .tm true]).reverse ++ s.log := by
    rw [g.log hp, progEvents_append, progEvents_busReset, progEvents_tmEnter, hs0]
  have hg : Goes ([.rxClear b] ++ busReset s.cfg ++ tmEnter) s (engineRun (busReset s.cfg ++ tmEnter) s0) := by
    rw [List.append_assoc]
    exact g0.append g
  refine ⟨_, hg, ?_, (runActs_reach hg).cfg, ?_, hl, ?_, ?_, ?_, ?_⟩
  · rw [engineRun_world, hs0]
    rfl
  · rw [(runActs_reach hg).lines_of_log hl, List.foldl_append, foldl_busResetEvents _ hc]
    exact hc
  · rw [(g.rx hp hr).1, hs0]
  · rw [(g.rx hp hr).2, hs0]
  · rw [g.cleared hp hcl, hs0]
  · rw [g.elapsed hp, hs0]

/-- A bank read to its end in an oracle (41_transactions.md R136, R138). -/
theorem goes_readBody_oracle {s : State} (b : Bank) (n : Nat) (h : s.env.kind = .oracle) (hc : s.lines.sck = false)
    (hf : s.env.sdiFrame = []) (hn : n ≤ 65536) (hv : ∀ j, j < 32 * n → s.world.draws (2 * j + 1) = true) :
    ∃ ws t, ws.length = n ∧ Goes (readBody s.cfg b n) s t ∧ BankDrawn s t b ws := by
  obtain ⟨t1, g1, w1, c1, k1, log1, rl1, rb1, st1, el1⟩ := goes_readOpen_oracle b h hc
  have h1 : t1.env.kind = .oracle := (runActs_reach g1).kind.trans h
  have f1 : t1.env.sdiFrame = [] := (runActs_reach g1).sdiFrame hf
  obtain ⟨ws, t2, hl, g2, d⟩ := goes_readWords_oracle b n h1 k1 f1 hn (by rw [w1]; exact hv)
  rw [c1] at g2
  have h2 : t2.env.kind = .oracle := (runActs_reach g2).kind.trans h1
  have hp : ([Act.row (BitVec.ofNat 17 n)] ++ selectChain (s.cfg.wr.get .main) ++ tmExit).all Act.isPure = true := by
    simp [Act.isPure]
  have hsc : ([Act.row (BitVec.ofNat 17 n)] ++ selectChain (s.cfg.wr.get .main) ++ tmExit).all Act.isScan = true := by
    simp [Act.isScan, Act.writesRx, tmExit]
  have g3 := goes_oracle h2 hp
  have hr := g3.rx hp (noRx_of_scan hsc)
  refine ⟨ws, _, hl, ?_, ?_, ?_, ?_, (d.rx.cleared rl1 rb1).same hr.1 hr.2, ?_, ?_⟩
  · unfold readBody
    have := (g1.append g2).append g3
    simpa only [List.append_assoc] using this
  · rw [engineRun_world, d.world, w1]
  · rw [← w1]
    exact d.words
  · rw [g3.log hp, d.log, log1, c1]
    simp only [readEvents, progEvents_append, progEvents_selectChain, progEvents_tmExit, progEvents_cons,
      progEvents_nil, actEvents, List.nil_append, List.reverse_append, List.append_assoc]
  · rw [g3.status hp (noClear_of_scan hsc), d.status, st1]
  · rw [g3.elapsed hp, d.elapsed, el1]

/-- What a bank read that faulted in cycle `k` of the row after the words `ws` leaves in an oracle (41_transactions.md
R137). -/
structure BankDrawnFault (s t : State) (b : Bank) (ws : List Word) (k : Nat) : Prop where
  words : WordsDrawn s.world ws
  log : ∃ w : Word, (∀ i, i < 32 → w.getLsbD i = s.world.draws (2 * (32 * ws.length + i))) ∧
    t.log = (faultedReadEvents s.cfg b ws w k).reverse ++ s.log
  rx : RxRead s t b ws
  status : t.status = s.status.clearFault
  elapsed : t.elapsed = s.elapsed

/-- A bank read in an oracle whose `SVLD` is false in cycle `k` of row `a` (41_transactions.md R137). -/
theorem stops_readBody_oracle {s : State} (b : Bank) (n a k : Nat) (h : s.env.kind = .oracle)
    (hc : s.lines.sck = false) (hf : s.env.sdiFrame = []) (hn : n ≤ 65536) (ha : a < n) (hk : k < 32)
    (hv : ∀ j, j < 32 * a + k → s.world.draws (2 * j + 1) = true)
    (hx : s.world.draws (2 * (32 * a + k) + 1) = false) :
    ∃ ws t, ws.length = a ∧ runActs (readBody s.cfg b n) s = .stop t .protocolFault ∧
      BankDrawnFault s t b ws k := by
  obtain ⟨t1, g1, w1, c1, k1, log1, rl1, rb1, st1, el1⟩ := goes_readOpen_oracle b h hc
  have h1 : t1.env.kind = .oracle := (runActs_reach g1).kind.trans h
  have f1 : t1.env.sdiFrame = [] := (runActs_reach g1).sdiFrame hf
  obtain ⟨ws, t2, hl, g2, d⟩ := goes_readWords_oracle b a h1 k1 f1 (by omega)
    (by rw [w1]; exact fun j hj => hv j (by omega))
  rw [c1] at g2
  have h2 : t2.env.kind = .oracle := (runActs_reach g2).kind.trans h1
  obtain ⟨t3, g3, w3, c3, k3, log3, rl3, rb3, st3, el3⟩ := goes_readAddr_oracle b a h2 d.sck
  rw [d.cfg, c1] at g3 log3
  have h3 : t3.env.kind = .oracle := (runActs_reach g3).kind.trans h2
  have hw3 : t3.world = s.world.drawn (64 * a) := by rw [w3, d.world, w1, hl]
  obtain ⟨t, ht, logt, lt, rlt, rbt, stt, elt⟩ := stops_shiftIn_oracle hk h3 k3
    (fun j hj => (answers_later hw3 hf j).2.trans (hv _ (by omega))) ((answers_later hw3 hf k).2.trans hx)
  obtain ⟨rest, hrest⟩ := readRows_split s.cfg b ha
  have gg := (g1.append g2).append g3
  refine ⟨ws, t, hl, ?_, ?_, ⟨wordOf t3.world.sdi, fun i hi => ?_, ?_⟩,
    (d.rx.cleared rl1 rb1).same (rlt.trans rl3) (rbt.trans rb3), ?_, ?_⟩
  · have hp := runActs_append_go (q := shiftIn Config.wordWidth ++ (rest ++ ([.row (BitVec.ofNat 17 n)] ++
      (selectChain (s.cfg.wr.get .main) ++ tmExit)))) gg
    rw [runActs_append (shiftIn _), ht, Flow.bind_stop] at hp
    unfold readBody
    rw [hrest]
    simp only [List.append_assoc] at hp ⊢
    exact hp
  · rw [← w1]
    exact d.words
  · rw [wordOf_getLsbD _ hi, (answers_later hw3 hf i).1, hl]
  · rw [logt, log3, d.log, log1, c1]
    simp only [faultedReadEvents, hl, List.reverse_append, List.append_assoc]
  · rw [stt, st3, d.status, st1]
  · rw [elt, el3, d.elapsed, el1]

end Sys2Proof.Machine
end

