-- ==== Sys2Proof/Laws/Session.lean ====
section
/-!
SUPPORT. A bank read of any length, `none` too, as a session composes it (41_transactions.md R135, R136; 42_sessions.md
R151), and the two line writes that open a session.
-/

namespace Sys2Proof.Machine

open Sys2Proof

/-- What a bank read of length `len` that answers the words `ws` leaves, whatever the environment. -/
structure ReadDone (s t : State) (b : Bank) (len : Length) (ws : List Word) : Prop where
  reach : Reach s t
  rest : Rest t
  mem : t.chip.mem = s.chip.mem
  selected : s.env.kind = .rtm → t.chip.selected =
    if len = .none then s.chip.selected else some ((s.cfg.wr.get .main).setWidth 8)
  tregOther : ∀ d, d ≠ b → t.chip.treg.get d = s.chip.treg.get d
  treg : s.env.kind = .rtm → t.chip.treg.get b = lastAddress ws.length (s.chip.treg.get b)
  valid : ∀ j, t.validAnswer j = s.validAnswer (32 * ws.length + j)
  drawn : s.env.kind = .oracle → ∀ j, drawnBit t j = drawnBit s (64 * ws.length + j)
  words : Answered s b 0 ws
  log : t.log = (readOpEvents s.cfg b len ws).reverse ++ s.log
  lines : t.lines = if len = .none then s.lines else s.lines.atRest false
  rxOther : ∀ d, d ≠ b → RxSameAt s t d
  received : (s.rxbuf.get b).wf = true → Received s t b ws
  status : t.status = if len = .none then s.status else s.status.clearFault
  elapsed : t.elapsed = s.elapsed
  idc : t.work.idc = s.work.idc

/-- What a bank read leaves that faulted in cycle `k` of the row after the words `ws`, whatever the environment
(41_transactions.md R137). -/
structure ReadFault (s t : State) (b : Bank) (ws : List Word) (k : Nat) : Prop where
  reach : Reach s t
  mem : t.chip.mem = s.chip.mem
  selected : s.env.kind = .rtm → t.chip.selected = some ((s.cfg.rd.get b).setWidth 8)
  tregOther : ∀ d, d ≠ b → t.chip.treg.get d = s.chip.treg.get d
  treg : s.env.kind = .rtm → t.chip.treg.get b = addrValue ws.length
  words : Answered s b 0 ws
  log : ∃ w : Word, RowAnswered s b 0 ws.length w (k + 1) ∧
    t.log = (faultedReadEvents s.cfg b ws w k).reverse ++ s.log
  lines : t.lines = { s.lines.atRest false with tm := true }
  rxOther : ∀ d, d ≠ b → RxSameAt s t d
  received : (s.rxbuf.get b).wf = true → Received s t b ws
  status : t.status = s.status.clearFault
  elapsed : t.elapsed = s.elapsed
  idc : t.work.idc = s.work.idc

/-- No sample of the next `n` is overridden, said of the queue. -/
theorem force_of_answers {s : State} {n : Nat} (hk : s.env.kind = .rtm) (h : s.Answers n) :
    ∀ f ∈ s.env.svldForce.take n, f = false := by
  intro f hf
  obtain ⟨j, hj, rfl⟩ := List.mem_take_iff_getElem.1 hf
  have := h j (by omega)
  unfold State.validAnswer at this
  rw [hk] at this
  simpa [List.getD_eq_getElem?_getD, List.getElem?_eq_getElem (show j < s.env.svldForce.length by omega)] using this

theorem force_of_faultsAt {s : State} {n : Nat} (hk : s.env.kind = .rtm) (h : s.FaultsAt n) :
    s.env.svldForce[n]? = some true := by
  have := h.at_
  unfold State.validAnswer at this
  rw [hk] at this
  cases hx : s.env.svldForce[n]? with
  | none => simp [List.getD_eq_getElem?_getD, hx] at this
  | some x => simpa [List.getD_eq_getElem?_getD, hx] using this

/-- The answers still to come once `n` of them are used up. -/
theorem valid_later {s t : State} {n : Nat} (hk : t.env.kind = s.env.kind)
    (hf : s.env.kind = .rtm → t.env.svldForce = s.env.svldForce.drop n)
    (hw : s.env.kind = .oracle → t.world = s.world.drawn (2 * n)) (j : Nat) :
    t.validAnswer j = s.validAnswer (n + j) := by
  unfold State.validAnswer
  rw [hk]
  split
  · rw [hf ‹_›, List.getD_eq_getElem?_getD, List.getD_eq_getElem?_getD, List.getElem?_drop]
  · rw [drawnBit_world, drawnBit_world, hw ‹_›, World.draws_drawn]
    exact congrArg _ (by omega)

theorem atRest_of_read {l : Lines} (h : Rest s) (hl : s.lines = l) :
    ({ l with srst := false, tm := false, cse := false, sdo := false } : Lines) = l.atRest false := by
  have h1 := h.sck
  have h2 := h.load
  rw [hl] at h1 h2
  rcases l
  dsimp only at h1 h2
  subst h1 h2
  rfl

/-- A bank read that is not `none` and whose every sample is valid. -/
theorem goes_readBank_some {s : State} (b : Bank) {len : Length} (hne : len ≠ .none) (h : Rest s)
    (hv : Config.valid s.cfg = true) (ht : s.env.kind = .rtm → s.cfg.loadTicks = ⟨0, 1, 1⟩) (hw : len.wf = true)
    (hs : s.env.sdiFrame = []) (ha : s.Answers (32 * readCount (s.cfg.cap.get b) len)) :
    ∃ ws t, ws.length = readCount (s.cfg.cap.get b) len ∧ Goes (readBank s.cfg b len) s t ∧
      ReadDone s t b len ws := by
  have hn := readCount_le hv b hw
  have hlines : ∀ {ws : List Word} {t : State}, Reach s t → t.log = (readEvents s.cfg b ws).reverse ++ s.log →
      t.lines = s.lines.atRest false := fun hr hl => by
    rw [hr.lines_of_log hl, foldl_readEvents _ _ _ h.sck h.load h.cse]
    exact atRest_of_read h rfl
  cases hk : s.env.kind with
  | rtm =>
    obtain ⟨ws, t, hlen, hgo, hB⟩ := goes_readBody b _ h hk hv (ht hk) hn hs (force_of_answers hk ha)
    rw [← readBank_eq hne] at hgo
    have hr := runActs_reach hgo
    exact ⟨ws, t, hlen, hgo,
      { reach := hr
        rest := hB.rest
        mem := hB.mem
        selected := fun _ => by rw [if_neg hne]; exact hB.selected
        tregOther := hB.tregOther
        treg := fun _ => hB.treg
        valid := valid_later hr.kind (fun _ => hB.force) (fun ho => by rw [hk] at ho; cases ho)
        drawn := fun ho => by rw [hk] at ho; cases ho
        words := fun a w hx => by
          unfold RowAnswered
          rw [hk]
          intro hc
          have := hB.words a (List.getElem?_eq_some_iff.1 hx).1 hc
          rw [hx] at this
          exact Option.some.inj this
        log := by rw [readOpEvents, if_neg hne]; exact hB.log
        lines := by rw [if_neg hne]; exact hlines hr hB.log
        rxOther := hB.rx.other
        received := fun hwf => hB.rx.received hwf (by omega)
        status := by rw [if_neg hne]; exact hB.status
        elapsed := hB.elapsed
        idc := runActs_go_idc hgo (readBank_keepsIdc _ _ _) }⟩
  | oracle =>
    have hd : ∀ j, j < 32 * readCount (s.cfg.cap.get b) len → s.world.draws (2 * j + 1) = true := fun j hj => by
      have := ha j hj
      unfold State.validAnswer at this
      rw [hk] at this
      exact this
    obtain ⟨ws, t, hlen, hgo, hB⟩ := goes_readBody_oracle b _ hk h.sck hs hn hd
    rw [← readBank_eq hne] at hgo
    have hr := runActs_reach hgo
    have hchip : t.chip = s.chip := hr.oracle hk
    have hl : t.lines = s.lines.atRest false := hlines hr hB.log
    exact ⟨ws, t, hlen, hgo,
      { reach := hr
        rest := by
          refine ⟨?_, ?_, ?_, ?_, by rw [hchip]; exact h.pend⟩ <;> rw [hl] <;> rfl
        mem := by rw [hchip]
        selected := fun ho => by rw [hk] at ho; cases ho
        tregOther := fun d _ => by rw [hchip]
        treg := fun ho => by rw [hk] at ho; cases ho
        valid := valid_later hr.kind (fun ho => by rw [hk] at ho; cases ho)
          (fun _ => hB.world.trans (congrArg _ (by omega)))
        drawn := fun _ j => by rw [drawnBit_world, drawnBit_world, hB.world, World.draws_drawn]
        words := fun a w hx => by
          unfold RowAnswered
          rw [hk]
          intro k hk'
          rw [Nat.zero_add]
          exact hB.words a w hx k hk'
        log := by rw [readOpEvents, if_neg hne]; exact hB.log
        lines := by rw [if_neg hne]; exact hl
        rxOther := hB.rx.other
        received := fun hwf => hB.rx.received hwf (by omega)
        status := by rw [if_neg hne]; exact hB.status
        elapsed := hB.elapsed
        idc := runActs_go_idc hgo (readBank_keepsIdc _ _ _) }⟩

/-- A bank read whose every sample is valid (41_transactions.md R135, R136, R138). -/
theorem goes_readBank {s : State} (b : Bank) (len : Length) (h : Rest s) (hv : Config.valid s.cfg = true)
    (ht : s.env.kind = .rtm → s.cfg.loadTicks = ⟨0, 1, 1⟩) (hw : len.wf = true) (hs : s.env.sdiFrame = [])
    (ha : s.Answers (32 * readCount (s.cfg.cap.get b) len)) :
    ∃ ws t, ws.length = readCount (s.cfg.cap.get b) len ∧ Goes (readBank s.cfg b len) s t ∧
      ReadDone s t b len ws := by
  by_cases hne : len = .none
  · subst hne
    have hgo : Goes (readBank s.cfg b .none) s { s with rxlen := s.rxlen.set b 0 } := rfl
    refine ⟨[], _, rfl, hgo, runActs_reach hgo, ⟨h.sck, h.srst, h.cse, h.load, h.pend⟩, rfl, fun _ => rfl,
      fun _ _ => rfl, fun _ => rfl, fun j => ?_, fun _ j => ?_, fun a w hx => by simp at hx, rfl, rfl,
      fun d hd => ⟨PerBank_get_set_other _ _ hd, rfl⟩, fun _ => ?_, rfl, rfl, rfl⟩
    · rw [List.length_nil, Nat.mul_zero, Nat.zero_add]
      rfl
    · rw [List.length_nil, Nat.mul_zero, Nat.zero_add]
      rfl
    · refine ⟨?_, ?_, fun _ _ => rfl⟩ <;> simp [State.rxWords]
  · exact goes_readBank_some b hne h hv ht hw hs ha

/-- A bank read whose `SVLD` is first false in cycle `k` of row `a` (41_transactions.md R137). -/
theorem stops_readBank {s : State} (b : Bank) (len : Length) (a k : Nat) (h : Rest s) (hv : Config.valid s.cfg = true)
    (ht : s.env.kind = .rtm → s.cfg.loadTicks = ⟨0, 1, 1⟩) (hw : len.wf = true) (hs : s.env.sdiFrame = [])
    (ha : a < readCount (s.cfg.cap.get b) len) (hk32 : k < 32) (hx : s.FaultsAt (32 * a + k)) :
    ∃ ws t, ws.length = a ∧ runActs (readBank s.cfg b len) s = .stop t .protocolFault ∧ ReadFault s t b ws k := by
  have hn := readCount_le hv b hw
  have hne : len ≠ .none := by rintro rfl; exact absurd ha (Nat.not_lt_zero _)
  have hlines : ∀ {ws : List Word} {w : Word} {t : State}, Reach s t →
      t.log = (faultedReadEvents s.cfg b ws w k).reverse ++ s.log →
      t.lines = { s.lines.atRest false with tm := true } := fun hr hl => by
    rw [hr.lines_of_log hl, foldl_faultedReadEvents _ _ _ _ _ h.sck h.load h.cse]
    have h1 := h.sck
    generalize s.lines = l at *
    rcases l
    dsimp only at h1
    subst h1
    rfl
  cases hk : s.env.kind with
  | rtm =>
    obtain ⟨ws, t, hlen, hgo, hB⟩ := stops_readBody b _ a k h hk hv (ht hk) hn ha hk32 hs
      (force_of_answers hk hx.before) (force_of_faultsAt hk hx)
    rw [← readBank_eq hne] at hgo
    have hr := runActs_reach_stop hgo
    obtain ⟨w, hw1, hw2⟩ := hB.log
    exact ⟨ws, t, hlen, hgo,
      { reach := hr
        mem := hB.mem
        selected := fun _ => hB.selected
        tregOther := hB.tregOther
        treg := fun _ => hB.treg
        words := fun a w hx => by
          unfold RowAnswered
          rw [hk]
          intro hc
          have := hB.words a (List.getElem?_eq_some_iff.1 hx).1 hc
          rw [hx] at this
          exact Option.some.inj this
        log := ⟨w, by unfold RowAnswered; rw [hk]; exact hw1, hw2⟩
        lines := hlines hr hw2
        rxOther := hB.rx.other
        received := fun hwf => hB.rx.received hwf (by omega)
        status := hB.status
        elapsed := hB.elapsed
        idc := runActs_stop_idc hgo (readBank_keepsIdc _ _ _) }⟩
  | oracle =>
    have hd : ∀ j, s.validAnswer j = s.world.draws (2 * j + 1) := fun j => by
      unfold State.validAnswer
      rw [hk]
      rfl
    obtain ⟨ws, t, hlen, hgo, hB⟩ := stops_readBody_oracle b _ a k hk h.sck hs hn ha hk32
      (fun j hj => (hd j).symm.trans (hx.before j hj)) ((hd _).symm.trans hx.at_)
    rw [← readBank_eq hne] at hgo
    have hr := runActs_reach_stop hgo
    have hchip : t.chip = s.chip := hr.oracle hk
    obtain ⟨w, hw1, hw2⟩ := hB.log
    exact ⟨ws, t, hlen, hgo,
      { reach := hr
        mem := by rw [hchip]
        selected := fun ho => by rw [hk] at ho; cases ho
        tregOther := fun d _ => by rw [hchip]
        treg := fun ho => by rw [hk] at ho; cases ho
        words := fun a w hx => by
          unfold RowAnswered
          rw [hk]
          intro k hk'
          rw [Nat.zero_add]
          exact hB.words a w hx k hk'
        log := ⟨w, by
          unfold RowAnswered
          rw [hk]
          intro i hi
          rw [Nat.zero_add]
          exact hw1 i (by omega), hw2⟩
        lines := hlines hr hw2
        rxOther := hB.rx.other
        received := fun hwf => hB.rx.received hwf (by omega)
        status := hB.status
        elapsed := hB.elapsed
        idc := runActs_stop_idc hgo (readBank_keepsIdc _ _ _) }⟩

/-! ### Reads one after another (42_sessions.md R151) -/

theorem RxSameAt.trans {s t u : State} {b : Bank} (h : RxSameAt s t b) (k : RxSameAt t u b) : RxSameAt s u b :=
  ⟨k.rxlen.trans h.rxlen, k.rxbuf.trans h.rxbuf⟩

/-- A later piece that leaves bank `b`'s receive side keeps its result. -/
theorem Received.kept {s t u : State} {b : Bank} {ws : List Word} (h : Received s t b ws) (k : RxSameAt t u b) :
    Received s u b ws :=
  ⟨by simpa [State.rxWords, k.rxlen, k.rxbuf] using h.words, by simpa [k.rxlen] using h.rxlen,
    fun i hi => (congrArg (fun m => Buffer.read m i) k.rxbuf).trans (h.rest i hi)⟩

/-- An earlier piece that left bank `b`'s receive side does not show in its result. -/
theorem Received.after {s t u : State} {b : Bank} {ws : List Word} (h : Received t u b ws) (k : RxSameAt s t b) :
    Received s u b ws :=
  ⟨h.words, h.rxlen, fun i hi => (h.rest i hi).trans (congrArg (fun m => Buffer.read m i) k.rxbuf)⟩

theorem State.Answers.later {s t : State} {n m k : Nat} (h : s.Answers k)
    (hv : ∀ j, t.validAnswer j = s.validAnswer (n + j)) (hk : n + m ≤ k) : t.Answers m := fun j hj => by
  rw [hv]
  exact h _ (by omega)

theorem State.FaultsAt.later {s t : State} {n m : Nat} (h : s.FaultsAt (n + m))
    (hv : ∀ j, t.validAnswer j = s.validAnswer (n + j)) : t.FaultsAt m :=
  ⟨fun j hj => by rw [hv]; exact h.before _ (by omega), by rw [hv]; exact h.at_⟩

/-- What a row answers from a state `first'` rows later, said from here. -/
theorem RowAnswered.later {s t : State} {b : Bank} {first first' a n : Nat} {w : Word}
    (h : RowAnswered t b first a w n) (hk : t.env.kind = s.env.kind) (hc : t.cfg = s.cfg)
    (hm : t.chip.mem = s.chip.mem)
    (hd : s.env.kind = .oracle → ∀ j, drawnBit t j = drawnBit s (64 * first' + j)) :
    RowAnswered s b (first' + first) a w n := by
  unfold RowAnswered at *
  rw [hk] at h
  cases hx : s.env.kind with
  | rtm =>
    rw [hx] at h
    intro hcap
    rw [h (by rw [hc]; exact hcap), State.row, State.row, hm]
  | oracle =>
    rw [hx] at h
    intro i hi
    rw [h i hi, hd hx]
    congr 1
    omega

theorem Answered.later {s t : State} {b : Bank} {first first' : Nat} {ws : List Word} (h : Answered t b first ws)
    (hk : t.env.kind = s.env.kind) (hc : t.cfg = s.cfg) (hm : t.chip.mem = s.chip.mem)
    (hd : s.env.kind = .oracle → ∀ j, drawnBit t j = drawnBit s (64 * first' + j)) :
    Answered s b (first' + first) ws := fun a w hx => (h a w hx).later hk hc hm hd

/-- The external clock and the asserted chip reset (42_sessions.md R150, R151). -/
theorem goes_holdChip (s : State) : Goes holdChip s (recordWrite .crst true (recordWrite .clksel clkExt s)) := rfl

/-! ### What the end of a `RUN` does to the chip (20_memory.md R66) -/

theorem chipAfterRun_oracle {s : State} (h : s.env.kind = .oracle) : chipAfterRun s = s := by
  unfold chipAfterRun; rw [h]

/-- What a run leaves in the banks is allowed by `CHIP_EXEC`. -/
theorem contentsAfterRun_allowed {c : ChipExec} {m : Memory} (e : RunEffect) (h : m.wf = true) :
    chipExecAllows c m (contentsAfterRun c m e) := by
  cases c with
  | keeps rows =>
    intro b a hr
    exact (Memory.readRow_copyRanges (Memory.wf_ofCells _)).trans (if_pos hr)
  | changesOnly rows =>
    intro b a hr
    refine (Memory.readRow_copyRanges h).trans (if_neg ?_)
    rw [hr]
    exact Bool.false_ne_true
  | relation n => exact ⟨e.choice, rfl⟩

/-- Every canonical contents that `CHIP_EXEC` allows is left, row by row, by some effect. -/
theorem contentsAfterRun_reaches {c : ChipExec} {m m' : Memory} (h : m.wf = true) (h' : m'.wf = true)
    (ha : chipExecAllows c m m') : ∃ mem choice, ∀ e : RunEffect, e.mem = mem → e.choice = choice →
      ∀ b a, (contentsAfterRun c m e).readRow b a = m'.readRow b a := by
  cases c with
  | keeps rows =>
    refine ⟨m', 0, fun e he _ b a => (Memory.readRow_copyRanges (Memory.wf_ofCells _)).trans ?_⟩
    rw [he, Memory.ofCells_of_wf h']
    split
    · exact (ha b a ‹_›).symm
    · rfl
  | changesOnly rows =>
    refine ⟨m', 0, fun e he _ b a => (Memory.readRow_copyRanges h).trans ?_⟩
    rw [he, Memory.ofCells_of_wf h']
    split
    · rfl
    · exact (ha b a (Bool.eq_false_iff.2 ‹_›)).symm
  | relation n =>
    obtain ⟨k, rfl⟩ := ha
    exact ⟨[], k, fun e _ hk b a => by subst hk; rfl⟩

/-- The effect that the next run takes: the one queued, else a free one. -/
def State.nextEffect (s : State) : RunEffect := (drawEffect s).1

theorem nextEffect_queued {s : State} {e : RunEffect} {rest : List RunEffect} (h : s.env.effects = e :: rest) :
    s.nextEffect = e := by
  unfold State.nextEffect drawEffect
  rw [h]

/-- The chip after a run in the RTM: the select register alone is as it was. -/
theorem chipAfterRun_chip {s : State} (h : s.env.kind = .rtm) : (chipAfterRun s).chip = { s.chip with
    mem := contentsAfterRun s.cfg.chipExec s.chip.mem s.nextEffect, treg := s.nextEffect.treg,
    selected := s.nextEffect.selected, paySr := s.nextEffect.paySr, rdSr := s.nextEffect.rdSr } := by
  unfold chipAfterRun State.nextEffect
  rw [h]
  dsimp only
  rw [drawEffect_chip]

/-- A `RUN` from its acceptance to its first poll (42_sessions.md R152). -/
def State.polling (s : State) : State :=
  { recordWrite .crst false (recordWrite .clksel clkInt { s.accepted with phase := .polling }) with
    work := { s.work with cnt := 0 } }

theorem runActs_runProgram (n : Nat) (s : State) :
    runActs (runProgram n) s.accepted = runActs (List.replicate n .poll ++ [.timeout]) s.polling := rfl

/-- However its polls are answered, a `RUN` ends with the chip as `chipAfterRun` leaves it (20_memory.md R66). -/
theorem runProgram_leaves (n : Nat) (s : State) : ∃ v r, runActs (runProgram n) s.accepted = .stop (chipAfterRun v) r ∧
    v.cfg = s.cfg ∧ v.chip = s.chip ∧ v.env.kind = s.env.kind ∧ v.env.effects = s.env.effects := by
  have key : ∀ (n : Nat) (u : State), ∃ v r, runActs (List.replicate n .poll ++ [.timeout]) u = .stop (chipAfterRun v) r ∧
      v.cfg = u.cfg ∧ v.chip = u.chip ∧ v.env.kind = u.env.kind ∧ v.env.effects = u.env.effects := by
    intro n
    induction n with
    | zero => exact fun u => ⟨{ u with elapsed := u.work.cnt }, .timedOut, rfl, rfl, rfl, rfl, rfl⟩
    | succ n ih =>
      intro u
      have hp : runActs (List.replicate (n + 1) .poll ++ [.timeout]) u =
          (act .poll u).bind (runActs (List.replicate n .poll ++ [.timeout])) := rfl
      cases hd : drawnBit u 0 with
      | true =>
        rw [hp, stops_poll hd, Flow.bind_stop]
        refine ⟨_, _, rfl, ?_⟩
        exact ⟨rfl, rfl, rfl, rfl⟩
      | false =>
        obtain ⟨t, g, d⟩ := goes_poll hd
        obtain ⟨v, r, h, h1, h2, h3, h4⟩ := ih t
        have hs := d.same
        exact ⟨v, r, by rw [hp, g]; exact h, by rw [h1, hs], by rw [h2, hs], by rw [h3, hs], by rw [h4, hs]⟩
  rw [runActs_runProgram]
  exact key n s.polling

/-! ### Pulses that reach no scan register (20_memory.md R60), and the clock-generator frame -/

theorem act_tick_idle {s : State} {n : BitVec 32} (h : InCtx s false false false false false) :
    act (.tick n) s = .go (engineAct (.tick n) s) :=
  act_tick_go (w := s.world) h.sck (envRise_idle h.atRise)

/-- Outside test mode, with nothing selected or loaded, driving bits changes nothing on the chip. -/
theorem runActs_driveBits_idle (l : BitSeq) {s : State} (h : InCtx s false false false false false) :
    runActs (driveBits l) s = .go (engineRun (driveBits l) s) := by
  induction l generalizing s with
  | nil => rfl
  | cons b l ih =>
    let s1 := engineAct (.out b (BitVec.ofNat 6 l.length)) s
    have h1 : InCtx s1 false false false false false := ⟨h.kind, h.sck, h.srst, h.tm, h.cse, h.load, h.pend⟩
    change (act (.tick 0) s1).bind (runActs (driveBits l)) = _
    rw [act_tick_idle h1]
    exact ih ⟨h.kind, rfl, h.srst, h.tm, h.cse, h.load, h.pend⟩

/-- The three steps before a clock-generator frame's first position. -/
def State.clkReady (s : State) (q : BitSeq) : State :=
  engineRun [.phase .clkCfg, .set .cgec true, .set .cgge false,
    .loadShift (BitVec.ofNat 54 (ubig q)) (BitVec.ofNat 6 q.length)] s

theorem runActs_driveClkgen (o : CkcfgOrder) (q : BitSeq) (s : State) :
    runActs (driveClkgen o q) s = runActs (driveBits (clkgenWire o q)) (s.clkReady q) := rfl

/-- A clock-generator frame in the RTM: outside test mode the chip does not change, inside it only the two shift
registers do (20_memory.md R60, R64). -/
theorem goes_driveClkgen {s : State} (o : CkcfgOrder) (q : BitSeq) (h : Rest s) (hk : s.env.kind = .rtm) :
    ∃ t, Goes (driveClkgen o q) s t ∧ t.chip.mem = s.chip.mem ∧ t.chip.treg = s.chip.treg ∧
      t.chip.selected = s.chip.selected ∧ (s.lines.tm = false → t.chip = s.chip) := by
  unfold Goes
  rw [runActs_driveClkgen]
  cases htm : s.lines.tm with
  | false =>
    have hc : InCtx (s.clkReady q) false false false false false :=
      ⟨hk, h.sck, h.srst, htm, h.cse, h.load, h.pend⟩
    have hw : (engineRun (driveBits (clkgenWire o q)) (s.clkReady q)).chip = s.chip := engineRun_chip _ _
    exact ⟨_, runActs_driveBits_idle _ hc, by rw [hw], by rw [hw], by rw [hw], fun _ => hw⟩
  | true =>
    have hc : InCtx (s.clkReady q) false true false false false :=
      ⟨hk, h.sck, h.srst, htm, h.cse, h.load, h.pend⟩
    refine ⟨_, runActs_driveBits_shift _ hc, ?_, ?_, ?_, fun x => by cases x⟩ <;>
      (rw [withWorld_chip, foldl_shiftChip]; rfl)

/-! ### Where the RTM is stuck (20_memory.md R60, R63) -/

theorem frame_stuck {p : List Act} {s : State} {f : Fault} (hc : s.status.cfgerr = false)
    (h : runActs p s = .stuck f) : frame p s = .fault f := by
  unfold frame
  rw [if_neg (by simp [hc]), h]

/-- The state in which a payload's bits start. -/
def State.shiftReady (s : State) (v : BitVec 54) (n : BitVec 6) : State :=
  engineRun [.phase .shifting, .loadShift v n] s

/-- A payload whose bits run on is stuck where its capture is. -/
theorem runActs_payload_stuck {s u : State} (v : BitVec 54) (n : BitVec 6) (bs : BitSeq) {f : Fault}
    (hu : runActs (driveBits bs) (s.shiftReady v n) = .go u) (hs : u.lines.sck = false)
    (hx : envRise (recordWrite .sck true (recordWrite .load true u)) = .stuck f) :
    runActs ([.phase .shifting, .loadShift v n] ++
      (driveBits bs ++ [.set .load true, .tick 0, .set .load false, .tick 0])) s = .stuck f := by
  have h1 : runActs [.phase .shifting, .loadShift v n] s = .go (s.shiftReady v n) := rfl
  have h2 : runActs [.set .load true] u = .go (recordWrite .load true u) := rfl
  have h3 := act_tick_stuck (s := recordWrite .load true u) (n := 0) (f := f) hs hx
  rw [runActs_append_go h1, runActs_append_go hu,
    show [Act.set .load true, .tick 0, .set .load false, .tick 0] =
      [.set .load true] ++ [.tick 0, .set .load false, .tick 0] from rfl, runActs_append_go h2, runActs_cons, h3]
  rfl

/-- A rising clock outside test mode with the chain select, the load line or a pending selection. -/
theorem envRise_outside {s : State} {c l p : Bool} (h : AtRise s false false c l p) (hc : (c || p || l) = true) :
    envRise s = .stuck .rtmOutsideTestMode := by
  unfold envRise rtmRise
  rw [h.kind]
  simp only [h.srst, h.tm, h.cse, h.pend, h.load, hc]
  rfl

/-- A chain id sent outside test mode is stuck at its first pulse. -/
theorem runActs_select_stuck {s : State} (id : BitVec 8) (h : Rest s) (hk : s.env.kind = .rtm)
    (htm : s.lines.tm = false) : runActs (select id) s = .stuck .rtmOutsideTestMode := by
  obtain ⟨b, bs, hbs⟩ : ∃ b bs, (bin id).reverse = b :: bs := by
    cases hx : (bin id).reverse with
    | nil => have := congrArg List.length hx; simp at this
    | cons b bs => exact ⟨b, bs, rfl⟩
  have hp : select id = [.phase .selected, .set .cse true,
      .loadShift (BitVec.ofNat 54 (ubig (bin id))) (BitVec.ofNat 6 (bin id).length),
      .out b (BitVec.ofNat 6 bs.length)] ++ ([.tick 0] ++ (driveBits bs ++ ([.set .cse false] ++ pulse 1))) := by
    unfold select shiftOut driveSeq
    rw [hbs]
    simp only [driveBits, List.cons_append, List.nil_append, List.append_assoc]
  rw [hp]
  generalize BitVec.ofNat 54 (ubig (bin id)) = v
  generalize BitVec.ofNat 6 (bin id).length = n
  have h1 : runActs [.phase .selected, .set .cse true, .loadShift v n, .out b (BitVec.ofNat 6 bs.length)] s =
      .go (engineRun [.phase .selected, .set .cse true, .loadShift v n, .out b (BitVec.ofNat 6 bs.length)] s) := rfl
  rw [runActs_append_go h1]
  have hx : AtRise (recordWrite .sck true (engineRun [.phase .selected, .set .cse true, .loadShift v n,
      .out b (BitVec.ofNat 6 bs.length)] s)) false false true false false :=
    ⟨hk, h.srst, htm, rfl, h.load, h.pend⟩
  have h2 := act_tick_stuck (n := 0) (f := .rtmOutsideTestMode) (s := engineRun [.phase .selected, .set .cse true,
      .loadShift v n, .out b (BitVec.ofNat 6 bs.length)] s) h.sck
    (envRise_outside hx rfl)
  rw [List.cons_append, runActs_cons, h2]
  rfl

/-- The row a payload names is its top 16 bits (30_encoding.md R81). -/
theorem regRow_eq (v : BitVec 54) : regRow v = v.extractLsb' 38 16 := by
  have h : (bin v).take 16 = bin (v.extractLsb' 38 16) := by
    apply List.ext_getElem
    · simp
    · intro i h1 h2
      have hi : i < 16 := by simpa using h2
      rw [List.getElem_take, getElem_bin, getElem_bin, BitVec.getLsbD_extractLsb']
      have : 15 - i < 16 := by omega
      simp only [this, decide_true, Bool.true_and]
      congr 1
      omega
  unfold regRow decodePayload
  rw [h, ofNat_ubig_bin]

/-! ### Samples with no read target selected in test mode (20_memory.md R65) -/

theorem answerSdi_frame {s : State} {x : Bool} {xs : List Bool} (h : s.env.sdiFrame = x :: xs) :
    answerSdi s = (x, { s with env := { s.env with sdiFrame := xs } }) := by
  unfold answerSdi
  rw [h]

theorem answerSvld_invalid {s : State} (hk : s.env.kind = .rtm) (hv : rtmValid s = false) :
    ∃ e, answerSvld s = (false, { s with env := e }) := by
  unfold answerSvld
  rw [hk]
  dsimp only
  rw [hv]
  split
  · exact ⟨_, rfl⟩
  · exact ⟨_, rfl⟩

/-- The first cycle of a read word that is presented where `SVLD` reads 0. -/
theorem stops_cycle_invalid {s : State} {x : Bool} {xs : List Bool} (n : BitVec 6) (hk : s.env.kind = .rtm)
    (hv : rtmValid s = false) (h : s.env.sdiFrame = x :: xs) :
    ∃ e, act (.cycle n) s =
      .stop { s with env := e, log := .r .svld false :: .r .sdi x :: s.log } .protocolFault := by
  change ∃ e, actCycle n s = _
  unfold actCycle
  have h1 : sample .sdi s = (x, { s with env := { s.env with sdiFrame := xs }, log := .r .sdi x :: s.log }) := by
    unfold sample answer
    dsimp only
    rw [answerSdi_frame h]
  rw [h1]
  dsimp only
  obtain ⟨e, he⟩ := answerSvld_invalid
    (s := { s with env := { s.env with sdiFrame := xs }, log := .r .sdi x :: s.log }) hk hv
  refine ⟨e, ?_⟩
  unfold sample answer
  dsimp only
  rw [he]
  rfl

theorem shiftIn_succ (n : Nat) : shiftIn (n + 1) = [.phase .shifting, .startRead (BitVec.ofNat 6 (n + 1))] ++
    (.cycle (BitVec.ofNat 6 n) :: .tick 0 :: shiftInCycles n) := rfl

theorem stops_shiftIn_invalid {s : State} {x : Bool} {xs : List Bool} (hk : s.env.kind = .rtm)
    (hv : rtmValid s = false) (h : s.env.sdiFrame = x :: xs) :
    ∃ w e, runActs (shiftIn Config.wordWidth) s = .stop
      { s with phase := .shifting, work := w, env := e, log := .r .svld false :: .r .sdi x :: s.log }
      .protocolFault := by
  rw [show Config.wordWidth = 31 + 1 from rfl, shiftIn_succ]
  generalize BitVec.ofNat 6 (31 + 1) = n
  generalize BitVec.ofNat 6 31 = m
  have h1 : runActs [.phase .shifting, .startRead n] s =
      .go { s with phase := .shifting, work := { s.work with dsr := 0, bitc := n } } := rfl
  obtain ⟨e, he⟩ := stops_cycle_invalid
    (s := { s with phase := .shifting, work := { s.work with dsr := 0, bitc := n } }) m hk hv h
  refine ⟨{ s.work with dsr := 0, bitc := n }, e, ?_⟩
  rw [runActs_append_go h1, runActs_cons, he, Flow.bind_stop]

/-- A row is the same where its four bytes are. -/
theorem Memory.readRow_congr {m m' : Memory} {b : Bank} {a : BitVec 16}
    (h : ∀ i, i < 4 → m.readByte (rowAddr b a + i) = m'.readByte (rowAddr b a + i)) :
    m.readRow b a = m'.readRow b a := by
  unfold Memory.readRow
  have h0 := h 0 (by omega)
  rw [Nat.add_zero] at h0
  rw [h0, h 1 (by omega), h 2 (by omega), h 3 (by omega)]

/-- An address outside rows `0 .. n-1` is outside each of them. -/
theorem not_inRows {b : Bank} {n addr : Nat} (h : ¬ inRows b n addr) (a : Nat) (ha : a < n) :
    addr < rowAddr b (BitVec.ofNat 16 a) ∨ rowAddr b (BitVec.ofNat 16 a) + 4 ≤ addr := by
  by_contra hc
  push Not at hc
  exact h ⟨a, ha, hc.1, hc.2⟩

end Sys2Proof.Machine
end

