-- ==== Sys2Proof/Laws/NeverStuck.lean ====
section
/-!
SUPPORT. How a program can end (20_memory.md R68, R69): an oracle is never stuck, and a bank read either reads every
row or ends at its first false `SVLD`.
-/

namespace Sys2Proof.Machine

open Sys2Proof

/-! ### The oracle is never stuck -/

theorem act_oracle {a : Act} {s : State} (h : s.env.kind = .oracle) :
    (∃ t, act a s = .go t) ∨ ∃ t e, act a s = .stop t e := by
  cases a
  case set x v => exact .inl ⟨_, setLine_oracle h⟩
  case out b n => exact .inl ⟨_, rfl⟩
  case tick n => exact .inl ⟨_, actTick_oracle h⟩
  case cycle n =>
    change (∃ t, actCycle n s = .go t) ∨ ∃ t e, actCycle n s = .stop t e
    unfold actCycle
    dsimp only
    split
    · exact .inl ⟨_, rfl⟩
    · exact .inr ⟨_, _, rfl⟩
  case poll =>
    change (∃ t, actPoll s = .go t) ∨ ∃ t e, actPoll s = .stop t e
    unfold actPoll
    dsimp only
    split
    · exact .inr ⟨_, _, rfl⟩
    · exact .inl ⟨_, rfl⟩
  case timeout => exact .inr ⟨_, _, rfl⟩
  case raise e => exact .inr ⟨_, _, rfl⟩
  all_goals exact .inl ⟨_, rfl⟩

theorem runActs_oracle_ends {p : List Act} {s : State} (h : s.env.kind = .oracle) :
    (∃ t, runActs p s = .go t) ∨ ∃ t e, runActs p s = .stop t e := by
  induction p generalizing s with
  | nil => exact .inl ⟨s, rfl⟩
  | cons a p ih =>
    rw [runActs_cons]
    rcases act_oracle (a := a) h with ⟨t, ht⟩ | ⟨t, e, ht⟩
    · have hk : t.env.kind = .oracle := by
        have := runActs_reach (p := [a]) (s := s) (t := t) (by rw [runActs_cons, ht]; rfl)
        exact this.kind.trans h
      rw [ht, Flow.bind_go]
      exact ih hk
    · rw [ht]
      exact .inr ⟨t, e, rfl⟩

/-! ### A bank read ends -/

/-- The first sample answered 0, if there is one among the next `n`. -/
theorem answers_or_faults (s : State) (n : Nat) : s.Answers n ∨ ∃ j, j < n ∧ s.FaultsAt j := by
  induction n with
  | zero => exact .inl fun j hj => absurd hj (Nat.not_lt_zero j)
  | succ n ih =>
    rcases ih with h | ⟨j, hj, h⟩
    · cases hx : s.validAnswer n with
      | true =>
        left
        intro j hj
        rcases Nat.lt_succ_iff_lt_or_eq.1 hj with h' | rfl
        · exact h j h'
        · exact hx
      | false => exact .inr ⟨n, Nat.lt_succ_self n, h, hx⟩
    · exact .inr ⟨j, by omega, h⟩

/-- A bank read either reads every row or faults. -/
theorem readBank_ends {s : State} (b : Bank) (len : Length) (h : Rest s) (hv : Config.valid s.cfg = true)
    (ht : s.env.kind = .rtm → s.cfg.loadTicks = ⟨0, 1, 1⟩) (hw : len.wf = true) (hs : s.env.sdiFrame = []) :
    (∃ ws t, Goes (readBank s.cfg b len) s t ∧ ReadDone s t b len ws) ∨
      ∃ ws t k, runActs (readBank s.cfg b len) s = .stop t .protocolFault ∧ ReadFault s t b ws k := by
  rcases answers_or_faults s (32 * readCount (s.cfg.cap.get b) len) with hf | ⟨j, hj, hx⟩
  · obtain ⟨ws, t, -, hg, hd⟩ := goes_readBank b len h hv ht hw hs hf
    exact .inl ⟨ws, t, hg, hd⟩
  · obtain ⟨ws, t, -, hg, hd⟩ := stops_readBank b len (j / 32) (j % 32) h hv ht hw hs (by omega)
      (Nat.mod_lt _ (by omega)) (by rw [Nat.div_add_mod]; exact hx)
    exact .inr ⟨ws, t, _, hg, hd⟩

end Sys2Proof.Machine
end

