-- ==== Sys2Proof/Laws/Counts.lean ====
section
/-!
SUPPORT. Pulse and event counts of a program that runs on (70_reset_and_hazards.md R214), whatever the environment
answers: each step's count, summed.
-/

namespace Sys2Proof.Machine

open Sys2Proof

/-- Pulses of one step. -/
def Act.pulses : Act → Nat
  | .set .sck true => 1
  | .tick _ => 1
  | _ => 0

/-- Events of one step that runs on. -/
def Act.events : Act → Nat
  | .set _ _ => 1
  | .out _ _ => 1
  | .tick _ => 2
  | .cycle _ => 2
  | .poll => 1
  | _ => 0

@[simp] theorem Act.pulses_phase (p : Phase) : (Act.phase p).pulses = 0 := rfl
@[simp] theorem Act.events_phase (p : Phase) : (Act.phase p).events = 0 := rfl
@[simp] theorem Act.events_set (x : OutLine) (v : Bool) : (Act.set x v).events = 1 := rfl
@[simp] theorem Act.pulses_loadShift (v : BitVec 54) (n : BitVec 6) : (Act.loadShift v n).pulses = 0 := rfl
@[simp] theorem Act.events_loadShift (v : BitVec 54) (n : BitVec 6) : (Act.loadShift v n).events = 0 := rfl
@[simp] theorem Act.pulses_out (b : Bool) (n : BitVec 6) : (Act.out b n).pulses = 0 := rfl
@[simp] theorem Act.events_out (b : Bool) (n : BitVec 6) : (Act.out b n).events = 1 := rfl
@[simp] theorem Act.pulses_tick (n : BitVec 32) : (Act.tick n).pulses = 1 := rfl
@[simp] theorem Act.events_tick (n : BitVec 32) : (Act.tick n).events = 2 := rfl
@[simp] theorem Act.pulses_startRead (n : BitVec 6) : (Act.startRead n).pulses = 0 := rfl
@[simp] theorem Act.events_startRead (n : BitVec 6) : (Act.startRead n).events = 0 := rfl
@[simp] theorem Act.pulses_cycle (n : BitVec 6) : (Act.cycle n).pulses = 0 := rfl
@[simp] theorem Act.events_cycle (n : BitVec 6) : (Act.cycle n).events = 2 := rfl
@[simp] theorem Act.pulses_row (a : BitVec 17) : (Act.row a).pulses = 0 := rfl
@[simp] theorem Act.events_row (a : BitVec 17) : (Act.row a).events = 0 := rfl
@[simp] theorem Act.pulses_ident (i : BitVec 4) : (Act.ident i).pulses = 0 := rfl
@[simp] theorem Act.events_ident (i : BitVec 4) : (Act.ident i).events = 0 := rfl
@[simp] theorem Act.pulses_clearFault : (Act.clearFault).pulses = 0 := rfl
@[simp] theorem Act.events_clearFault : (Act.clearFault).events = 0 := rfl
@[simp] theorem Act.pulses_rxClear (b : Bank) : (Act.rxClear b).pulses = 0 := rfl
@[simp] theorem Act.events_rxClear (b : Bank) : (Act.rxClear b).events = 0 := rfl
@[simp] theorem Act.pulses_rxStore (b : Bank) (a : Nat) : (Act.rxStore b a).pulses = 0 := rfl
@[simp] theorem Act.events_rxStore (b : Bank) (a : Nat) : (Act.rxStore b a).events = 0 := rfl
@[simp] theorem Act.pulses_set {x : OutLine} (v : Bool) (h : x ≠ .sck) : (Act.set x v).pulses = 0 := by
  cases x <;> first | rfl | exact absurd rfl h

/-- Pulses and events of a program. -/
def programPulses (p : List Act) : Nat := (p.map Act.pulses).sum
def programEvents (p : List Act) : Nat := (p.map Act.events).sum

@[simp] theorem programPulses_nil : programPulses [] = 0 := rfl
@[simp] theorem programEvents_nil : programEvents [] = 0 := rfl
@[simp] theorem programPulses_cons (a : Act) (p : List Act) : programPulses (a :: p) = a.pulses + programPulses p := by
  simp [programPulses]
@[simp] theorem programEvents_cons (a : Act) (p : List Act) : programEvents (a :: p) = a.events + programEvents p := by
  simp [programEvents]
@[simp] theorem programPulses_append (p q : List Act) :
    programPulses (p ++ q) = programPulses p + programPulses q := by simp [programPulses]
@[simp] theorem programEvents_append (p q : List Act) :
    programEvents (p ++ q) = programEvents p + programEvents q := by simp [programEvents]

theorem programPulses_flatMap {α : Type} (l : List α) (f : α → List Act) (k : Nat)
    (h : ∀ a, programPulses (f a) = k) : programPulses (l.flatMap f) = l.length * k := by
  induction l with
  | nil => simp
  | cons a l ih => rw [List.flatMap_cons, programPulses_append, h, ih, List.length_cons]; ring

theorem programEvents_flatMap {α : Type} (l : List α) (f : α → List Act) (k : Nat)
    (h : ∀ a, programEvents (f a) = k) : programEvents (l.flatMap f) = l.length * k := by
  induction l with
  | nil => simp
  | cons a l ih => rw [List.flatMap_cons, programEvents_append, h, ih, List.length_cons]; ring

theorem act_go_log {a : Act} {s t : State} (h : act a s = .go t) :
    ∃ es, t.log = es.reverse ++ s.log ∧ pulseCount es = a.pulses ∧ es.length = a.events := by
  by_cases ha : a.isPure = true
  · refine ⟨actEvents a, ?_, ?_, ?_⟩
    · rw [act_pure ha h, withWorld_log]
      have := engineRun_log [a] s
      simpa using this
    · cases a
      case set x v => cases x <;> cases v <;> rfl
      all_goals rfl
    · cases a <;> first | rfl | cases ha
  · cases a
    case cycle n =>
      change actCycle n s = .go t at h
      unfold actCycle at h
      dsimp only at h
      split at h
      · cases h
        refine ⟨[.r .sdi (sample .sdi s).1, .r .svld (sample .svld (sample .sdi s).2).1], rfl, rfl, rfl⟩
      · cases h
    case poll =>
      change actPoll s = .go t at h
      unfold actPoll at h
      dsimp only at h
      split at h
      · cases h
      · cases h
        exact ⟨[.r .done (sample .done s).1], rfl, rfl, rfl⟩
    case timeout => cases h
    case raise e => cases h
    all_goals exact absurd rfl ha

/-- A program that runs on adds its steps' pulses and events (70_reset_and_hazards.md R214). -/
theorem runActs_go_log {p : List Act} {s t : State} (h : runActs p s = .go t) :
    ∃ es, t.log = es.reverse ++ s.log ∧ pulseCount es = programPulses p ∧ es.length = programEvents p := by
  induction p generalizing s with
  | nil => cases h; exact ⟨[], rfl, rfl, rfl⟩
  | cons a p ih =>
    rw [runActs_cons] at h
    obtain ⟨u, h1, h2⟩ := Flow.bind_eq_go.1 h
    obtain ⟨es, e1, e2, e3⟩ := act_go_log h1
    obtain ⟨fs, f1, f2, f3⟩ := ih h2
    refine ⟨es ++ fs, by rw [f1, e1]; simp, ?_, ?_⟩
    · rw [pulseCount_append, e2, f2, programPulses_cons]
    · rw [List.length_append, e3, f3, programEvents_cons]

/-- Counts from a log. -/
theorem Added.of_log {s t : State} {es : List Event} (h : t.log = es.reverse ++ s.log) :
    Added s t (pulseCount es) es.length := by
  have h1 := newEvents_of_trace (trace_iff.2 h)
  exact ⟨by rw [h1], by rw [h1]⟩

theorem runActs_go_added {p : List Act} {s t : State} (h : runActs p s = .go t) :
    Added s t (programPulses p) (programEvents p) := by
  obtain ⟨es, h1, h2, h3⟩ := runActs_go_log h
  rw [← h2, ← h3]
  exact Added.of_log h1

@[simp] theorem programPulses_pulse (n : Nat) : programPulses (pulse n) = n := by
  induction n with
  | zero => rfl
  | succ n ih => rw [pulse, programPulses_cons, ih, Act.pulses_tick, Nat.add_comm]

@[simp] theorem programEvents_pulse (n : Nat) : programEvents (pulse n) = 2 * n := by
  induction n with
  | zero => rfl
  | succ n ih => rw [pulse, programEvents_cons, ih, Act.events_tick, Nat.mul_add, Nat.add_comm]

@[simp] theorem programPulses_driveBits (l : BitSeq) : programPulses (driveBits l) = l.length := by
  induction l with
  | nil => rfl
  | cons b l ih =>
    rw [driveBits, programPulses_cons, programPulses_cons, ih, List.length_cons, Act.pulses_out, Act.pulses_tick,
      Nat.zero_add, Nat.add_comm]

@[simp] theorem programEvents_driveBits (l : BitSeq) : programEvents (driveBits l) = 3 * l.length := by
  induction l with
  | nil => rfl
  | cons b l ih =>
    rw [driveBits, programEvents_cons, programEvents_cons, ih, List.length_cons, Act.events_out, Act.events_tick,
      ← Nat.add_assoc, Nat.mul_add, Nat.add_comm]

theorem programPulses_shiftInCycles (n : Nat) : programPulses (shiftInCycles n) = n := by
  induction n with
  | zero => rfl
  | succ n ih =>
    rw [shiftInCycles, programPulses_cons, programPulses_cons, ih, Act.pulses_cycle, Act.pulses_tick, Nat.zero_add,
      Nat.add_comm]

theorem programEvents_shiftInCycles (n : Nat) : programEvents (shiftInCycles n) = 4 * n := by
  induction n with
  | zero => rfl
  | succ n ih =>
    rw [shiftInCycles, programEvents_cons, programEvents_cons, ih, Act.events_cycle, Act.events_tick, ← Nat.add_assoc,
      Nat.mul_add, Nat.add_comm]

@[simp] theorem programPulses_shiftIn (n : Nat) : programPulses (shiftIn n) = n := by
  rw [shiftIn, programPulses_cons, programPulses_cons, programPulses_shiftInCycles, Act.pulses_phase,
    Act.pulses_startRead, Nat.zero_add, Nat.zero_add]

@[simp] theorem programEvents_shiftIn (n : Nat) : programEvents (shiftIn n) = 4 * n := by
  rw [shiftIn, programEvents_cons, programEvents_cons, programEvents_shiftInCycles, Act.events_phase,
    Act.events_startRead, Nat.zero_add, Nat.zero_add]

@[simp] theorem programPulses_driveSeq (s l : BitSeq) : programPulses (driveSeq s l) = l.length := by
  rw [driveSeq, programPulses_cons, programPulses_driveBits, Act.pulses_loadShift, Nat.zero_add]

@[simp] theorem programEvents_driveSeq (s l : BitSeq) : programEvents (driveSeq s l) = 3 * l.length := by
  rw [driveSeq, programEvents_cons, programEvents_driveBits, Act.events_loadShift, Nat.zero_add]

@[simp] theorem programPulses_select (id : BitVec 8) : programPulses (select id) = 9 := by
  simp [select, shiftOut]

@[simp] theorem programEvents_select (id : BitVec 8) : programEvents (select id) = 28 := by
  simp [select, shiftOut]

@[simp] theorem programPulses_writePayload (a : BitVec 16) (d : Word) (e w : Bool) (m : BitVec 4) :
    programPulses (writePayload ⟨0, 1, 1⟩ a d e w m) = 56 := by
  simp [writePayload, loadSequence, shiftOut]

@[simp] theorem programEvents_writePayload (a : BitVec 16) (d : Word) (e w : Bool) (m : BitVec 4) :
    programEvents (writePayload ⟨0, 1, 1⟩ a d e w m) = 168 := by
  simp [writePayload, loadSequence, shiftOut]

@[simp] theorem programPulses_busReset (c : Config) : programPulses (busReset c) = c.resetPulses.toNat + 1 := by
  simp [busReset]

@[simp] theorem programEvents_busReset (c : Config) : programEvents (busReset c) = 2 * c.resetPulses.toNat + 4 := by
  simp [busReset]
  omega

/-! ### Whole transactions -/

theorem fullChainClear_counts {c : Config} (ht : c.loadTicks = ⟨0, 1, 1⟩) :
    programPulses (fullChainClear c) = c.resetPulses.toNat + 586 ∧
      programEvents (fullChainClear c) = 2 * c.resetPulses.toNat + 1770 := by
  constructor
  · simp only [fullChainClear, programPulses_append, programPulses_busReset, tmEnter, tmExit]
    rw [programPulses_flatMap _ _ 65 (fun i => by simp [clearTarget, selectChain, ht])]
    simp [Config.nchain]
  · simp only [fullChainClear, programEvents_append, programEvents_busReset, tmEnter, tmExit]
    rw [programEvents_flatMap _ _ 196 (fun i => by simp [clearTarget, selectChain, ht])]
    simp [Config.nchain]

theorem writeBody_counts {s : State} (b : Bank) (n : Nat) (ht : s.cfg.loadTicks = ⟨0, 1, 1⟩) :
    programPulses (writeBody s b n) = s.cfg.resetPulses.toNat + 10 + 56 * n ∧
      programEvents (writeBody s b n) = 2 * s.cfg.resetPulses.toNat + 34 + 168 * n := by
  constructor
  · simp only [writeBody, programPulses_append, programPulses_busReset, tmEnter, tmExit]
    rw [programPulses_flatMap _ _ 56 (fun i => by simp [writeWord, ht])]
    simp [selectChain]
    omega
  · simp only [writeBody, programEvents_append, programEvents_busReset, tmEnter, tmExit]
    rw [programEvents_flatMap _ _ 168 (fun i => by simp [writeWord, ht])]
    simp [selectChain]
    omega

theorem readBody_counts {c : Config} (b : Bank) (n : Nat) (ht : c.loadTicks = ⟨0, 1, 1⟩) :
    programPulses (readBody c b n) = c.resetPulses.toNat + 10 + 106 * n ∧
      programEvents (readBody c b n) = 2 * c.resetPulses.toNat + 34 + 352 * n := by
  constructor
  · simp only [readBody, programPulses_append, programPulses_busReset, tmEnter, tmExit]
    rw [programPulses_flatMap _ _ 106 (fun i => by simp [readWord, selectChain, ht, Config.wordWidth])]
    simp [selectChain]
    omega
  · simp only [readBody, programEvents_append, programEvents_busReset, tmEnter, tmExit]
    rw [programEvents_flatMap _ _ 352 (fun i => by simp [readWord, selectChain, ht, Config.wordWidth])]
    simp [selectChain]
    omega

/-- The events of a read that faults (41_transactions.md R137). -/
theorem faultedReadEvents_counts {c : Config} (b : Bank) (ws : List Word) (w : Word) (k : Nat)
    (ht : c.loadTicks = ⟨0, 1, 1⟩) :
    pulseCount (faultedReadEvents c b ws w k) = c.resetPulses.toNat + 1 + 106 * ws.length + 74 + k ∧
      (faultedReadEvents c b ws w k).length =
        2 * c.resetPulses.toNat + 5 + 352 * ws.length + 224 + 4 * k + 2 := by
  have h1 : ∀ (w : Word) (k : Nat), (sampleEvents w k).length = 4 * k ∧ pulseCount (sampleEvents w k) = k := by
    intro w k
    constructor
    · unfold sampleEvents
      rw [length_flatMap_const _ _ 4 (fun _ _ => rfl), List.length_range]
    · unfold sampleEvents
      rw [pulseCount_flatMap_const _ _ 1 (fun _ _ => rfl), List.length_range, Nat.one_mul]
  have h2 : ∀ a, (readAddrEvents c b a).length = 224 ∧ pulseCount (readAddrEvents c b a) = 74 := by
    intro a
    unfold readAddrEvents
    rw [ht]
    simp
  constructor
  · unfold faultedReadEvents
    rw [pulseCount_append, pulseCount_append, pulseCount_append, pulseCount_append, pulseCount_append,
      pulseCount_busResetEvents, pulseCount_flatMap_const _ _ 106
        (fun p _ => by rw [readWordEvents, pulseCount_append, (h2 _).2, (h1 _ _).2]),
      (h2 _).2, (h1 _ _).2, List.length_zipIdx]
    rfl
  · unfold faultedReadEvents
    rw [List.length_append, List.length_append, List.length_append, List.length_append, List.length_append,
      length_busResetEvents, length_flatMap_const _ _ 352
        (fun p _ => by rw [readWordEvents, List.length_append, (h2 _).1, (h1 _ _).1]),
      (h2 _).1, (h1 _ _).1, List.length_zipIdx]
    simp only [List.length_cons, List.length_nil]

end Sys2Proof.Machine
end

