-- ==== Sys2Proof/Laws/Encoding.lean ====
section
/-!
SUPPORT. The command words (30_encoding.md R87 to R95): a word is its opcode above its operands, and each operand field
reads back what was put there.
-/

namespace Sys2Proof

/-! ### The opcode and the must-be-zero bits -/

theorem Opcode.operandBits_le (o : Opcode) : o.operandBits ≤ 54 := by cases o <;> decide

theorem Opcode.find_code (o : Opcode) : Opcode.all.find? (fun p => decide (p.code = o.code)) = some o := by
  cases o <;> decide

theorem extract_opcode (o : Opcode) (x : Nat) (h : x < 2 ^ 56) :
    (BitVec.ofNat 64 (o.code.toNat * 2 ^ 56 + x)).extractLsb' 56 8 = o.code := by
  apply BitVec.eq_of_toNat_eq
  have := o.code.isLt
  rw [BitVec.extractLsb'_toNat, BitVec.toNat_ofNat, Nat.shiftRight_eq_div_pow]
  omega

theorem Opcode.getLsbD_maskBits (o : Opcode) (i : Nat) (hi : i < 64) :
    o.maskBits.getLsbD i = decide (o.operandBits ≤ i) := by
  have hb := o.operandBits_le
  have hk : o.operandBits + (64 - o.operandBits) = 64 := by omega
  have e1 : 2 ^ 64 - 2 ^ o.operandBits = 2 ^ o.operandBits * (2 ^ (64 - o.operandBits) - 1) := by
    rw [Nat.mul_sub, ← pow_add, mul_one, hk]
  unfold Opcode.maskBits
  rw [e1, BitVec.getLsbD_ofNat, Nat.testBit_two_pow_mul, Nat.testBit_two_pow_sub_one]
  by_cases hc : o.operandBits ≤ i
  · simp [hc, hi]
    omega
  · simp [hc]

/-- The word of an opcode and operands that fit matches its row. -/
theorem Opcode.and_maskBits (o : Opcode) (x : Nat) (h : x < 2 ^ o.operandBits) :
    BitVec.ofNat 64 (o.code.toNat * 2 ^ 56 + x) &&& o.maskBits = o.matchBits := by
  have hb := o.operandBits_le
  apply BitVec.eq_of_getLsbD_eq
  intro i hi
  rw [BitVec.getLsbD_and, o.getLsbD_maskBits i hi]
  unfold Opcode.matchBits
  rw [BitVec.getLsbD_ofNat, BitVec.getLsbD_ofNat]
  obtain ⟨y, hy⟩ : ∃ y, y = o.code.toNat * 2 ^ (56 - o.operandBits) := ⟨_, rfl⟩
  have hk : o.operandBits + (56 - o.operandBits) = 56 := by omega
  have e1 : o.code.toNat * 2 ^ 56 = 2 ^ o.operandBits * y := by
    rw [hy, mul_left_comm, ← pow_add, hk]
  rw [e1, Nat.testBit_two_pow_mul_add _ h, Nat.testBit_two_pow_mul]
  by_cases hio : o.operandBits ≤ i
  · simp [hio, hi, Nat.not_lt.2 hio]
  · simp [hio]

/-- The decoder reads the operands of such a word. -/
theorem decodeCommand_word {o : Opcode} {x : Nat} {w : BitVec 64} (h : x < 2 ^ o.operandBits)
    (hw : w = BitVec.ofNat 64 (o.code.toNat * 2 ^ 56 + x)) : decodeCommand w = decodeOperands o w := by
  have h1 := extract_opcode o x (lt_of_lt_of_le h (Nat.pow_le_pow_right (by omega) (by have := o.operandBits_le; omega)))
  have h3 := o.and_maskBits x h
  rw [← hw] at h1 h3
  unfold decodeCommand
  simp only [h1, o.find_code, h3, if_true]

/-- A word whose masked bits are its opcode's is that opcode above its low bits. -/
theorem word_of_and_maskBits {o : Opcode} {w : BitVec 64} (h : w &&& o.maskBits = o.matchBits) :
    w = BitVec.ofNat 64 (o.code.toNat * 2 ^ 56 + w.toNat % 2 ^ o.operandBits) := by
  have hb := o.operandBits_le
  apply BitVec.eq_of_getLsbD_eq
  intro i hi
  have hm := congrArg (fun v : BitVec 64 => v.getLsbD i) h
  simp only [BitVec.getLsbD_and, o.getLsbD_maskBits i hi] at hm
  unfold Opcode.matchBits at hm
  rw [BitVec.getLsbD_ofNat] at hm ⊢
  obtain ⟨y, hy⟩ : ∃ y, y = o.code.toNat * 2 ^ (56 - o.operandBits) := ⟨_, rfl⟩
  have hk : o.operandBits + (56 - o.operandBits) = 56 := by omega
  have e1 : o.code.toNat * 2 ^ 56 = 2 ^ o.operandBits * y := by
    rw [hy, mul_left_comm, ← pow_add, hk]
  have hlt : w.toNat % 2 ^ o.operandBits < 2 ^ o.operandBits := Nat.mod_lt _ (Nat.two_pow_pos _)
  rw [e1, Nat.testBit_two_pow_mul] at hm
  rw [e1, Nat.testBit_two_pow_mul_add _ hlt]
  by_cases hio : o.operandBits ≤ i
  · rw [if_neg (by omega)]
    simpa [hio, hi] using hm
  · rw [if_pos (by omega), Nat.testBit_mod_two_pow]
    simp [hi, BitVec.testBit_toNat, Nat.not_le.1 hio]

/-- A word the decoder accepts is an opcode above operands that fit, read by that opcode's layout. -/
theorem decodeCommand_ok {w : BitVec 64} {i : Instr} (h : decodeCommand w = .ok i) :
    ∃ o x, x < 2 ^ o.operandBits ∧ w = BitVec.ofNat 64 (o.code.toNat * 2 ^ 56 + x) ∧ decodeOperands o w = .ok i := by
  unfold decodeCommand at h
  split at h
  · cases h
  · rename_i o _
    split at h
    · rename_i hw
      exact ⟨o, _, Nat.mod_lt _ (Nat.two_pow_pos _), word_of_and_maskBits hw, h⟩
    · cases h

/-! ### The operand fields -/

theorem decodeBank_num (b : Bank) : decodeBank (BitVec.ofNat 2 b.num) = .ok b := by cases b <;> decide

theorem decodeBank_ok {v : BitVec 2} {b : Bank} (h : decodeBank v = .ok b) : v.toNat = b.num := by
  have hv : v = 0 ∨ v = 1 ∨ v = 2 ∨ v = 3 := by bv_omega
  obtain rfl | rfl | rfl | rfl := hv <;> cases b <;> first | rfl | cases h

theorem encodeLen_lt {l : Length} (h : l.wf = true) : encodeLen l < 2 ^ 18 := by
  cases l with
  | none => decide
  | all => decide
  | exactly n =>
    simp only [Length.wf, Bool.and_eq_true, decide_eq_true_eq] at h
    simp only [encodeLen]
    omega

theorem decodeLen_encodeLen {l : Length} (h : l.wf = true) : decodeLen (BitVec.ofNat 18 (encodeLen l)) = .ok l := by
  cases l with
  | none => decide
  | all => decide
  | exactly n =>
    simp only [Length.wf, Bool.and_eq_true, decide_eq_true_eq] at h
    obtain ⟨v, hv⟩ : ∃ v : BitVec 18, v = BitVec.ofNat 18 (0x20000 + n.toNat) := ⟨_, rfl⟩
    have hn : v.toNat = 0x20000 + n.toNat := by
      rw [hv, BitVec.toNat_ofNat]
      omega
    have h1 : v.extractLsb' 0 17 = n := by
      apply BitVec.eq_of_toNat_eq
      rw [BitVec.extractLsb'_toNat, hn, Nat.shiftRight_zero]
      omega
    have h2 : v.getLsbD 17 = true := by
      rw [← BitVec.testBit_toNat, hn, Nat.testBit_eq_decide_div_mod_eq, decide_eq_true_eq]
      omega
    have h3 : n ≠ 0 := by
      rintro rfl
      simp at h
    change decodeLen (BitVec.ofNat 18 (0x20000 + n.toNat)) = _
    rw [← hv]
    unfold decodeLen
    simp only [h1, h2, h3, if_true, if_false, h.2]

theorem decodeLen_ok {v : BitVec 18} {l : Length} (h : decodeLen v = .ok l) :
    l.wf = true ∧ encodeLen l = v.toNat := by
  have hv := v.isLt
  have hn : (v.extractLsb' 0 17).toNat = v.toNat % 2 ^ 17 := by
    rw [BitVec.extractLsb'_toNat, Nat.shiftRight_zero]
  have hz : v.extractLsb' 0 17 = 0 ↔ v.toNat % 2 ^ 17 = 0 := by
    rw [← hn]
    exact ⟨fun e => by rw [e]; rfl, fun e => BitVec.eq_of_toNat_eq (by simpa using e)⟩
  have hb : v.getLsbD 17 = decide (2 ^ 17 ≤ v.toNat) := by
    rw [← BitVec.testBit_toNat, Nat.testBit_eq_decide_div_mod_eq]
    congr 1
    apply propext
    omega
  unfold decodeLen at h
  dsimp only at h
  rw [hb] at h
  split at h
  · rename_i hp
    have hp' : 2 ^ 17 ≤ v.toNat := by simpa using hp
    split at h
    · rename_i h0
      cases h
      have := hz.1 h0
      refine ⟨rfl, ?_⟩
      simp only [encodeLen]
      omega
    · rename_i h0
      split at h
      · rename_i hle
        cases h
        have h0' : v.toNat % 2 ^ 17 ≠ 0 := fun e => h0 (hz.2 e)
        rw [hn] at hle
        refine ⟨?_, ?_⟩
        · simp only [Length.wf, hn, Bool.and_eq_true, decide_eq_true_eq]
          omega
        · simp only [encodeLen, hn]
          omega
      · cases h
  · rename_i hp
    have hp' : v.toNat < 2 ^ 17 := by
      have : ¬ 2 ^ 17 ≤ v.toNat := by simpa using hp
      omega
    split at h
    · rename_i h0
      cases h
      have := hz.1 h0
      refine ⟨rfl, ?_⟩
      simp only [encodeLen]
      omega
    · cases h

/-! ### The payload's fields -/

/-- Each field at its bits of `V` (30_encoding.md R81). -/
theorem payloadValue_fields (a : BitVec 16) (d : Word) (e w : Bool) (m : BitVec 4) :
    (payloadValue a d e w m).extractLsb' 38 16 = a ∧ (payloadValue a d e w m).extractLsb' 6 32 = d ∧
      (payloadValue a d e w m).extractLsb' 0 4 = m ∧ (payloadValue a d e w m).getLsbD 5 = e ∧
      (payloadValue a d e w m).getLsbD 4 = w := by
  have h := Machine.payloadValue_toNat a d e w m
  have h1 := a.isLt
  have h2 := d.isLt
  have h3 := m.isLt
  have h4 : e.toNat ≤ 1 := Bool.toNat_le e
  have h5 : w.toNat ≤ 1 := Bool.toNat_le w
  generalize payloadValue a d e w m = v at *
  refine ⟨?_, ?_, ?_, ?_, ?_⟩
  · apply BitVec.eq_of_toNat_eq
    rw [BitVec.extractLsb'_toNat, h, Nat.shiftRight_eq_div_pow]
    omega
  · apply BitVec.eq_of_toNat_eq
    rw [BitVec.extractLsb'_toNat, h, Nat.shiftRight_eq_div_pow]
    omega
  · apply BitVec.eq_of_toNat_eq
    rw [BitVec.extractLsb'_toNat, h, Nat.shiftRight_zero]
    omega
  · rw [← BitVec.testBit_toNat, h, Nat.testBit_eq_decide_div_mod_eq]
    cases e
    · rw [decide_eq_false_iff_not, Bool.toNat_false]
      omega
    · rw [decide_eq_true_eq, Bool.toNat_true]
      omega
  · rw [← BitVec.testBit_toNat, h, Nat.testBit_eq_decide_div_mod_eq]
    cases w
    · rw [decide_eq_false_iff_not, Bool.toNat_false]
      omega
    · rw [decide_eq_true_eq, Bool.toNat_true]
      omega

end Sys2Proof
end

