-- ==== Sys2Proof/Laws/PerInstr.lean ====
section
/-!
SUPPORT. Statements made once for each instruction. `EncodesInRow`: the word of a legal instruction lies in the row of
spec/opcode_table.json that carries its mnemonic.
-/

namespace Sys2Proof

/-- One row of the table: its width, its fixed bits and their values. A frame row's fixed bits are the digits of its
"encoding" column; a row without fixed bits is told by its width. -/
structure TableRow where
  width : Nat
  mask : Nat
  bits : Nat
deriving DecidableEq, Repr

/-- The row of an instruction, from spec/opcode_table.json. -/
def Instr.tableRow : Instr → TableRow
  | .brst => ⟨64, 0xFFFFFFFFFFFFFFFF, 0x1000000000000000⟩
  | .clear => ⟨64, 0xFFFFFFFFFFFFFFFF, 0x1100000000000000⟩
  | .wrbank _ => ⟨64, 0xFFFFFFFFFFFFFFFC, 0x1200000000000000⟩
  | .rdbank _ _ => ⟨64, 0xFFFFFFFFFFF00000, 0x1300000000000000⟩
  | .loads _ => ⟨64, 0xFFFFFFFFFFFFFFFE, 0x2000000000000000⟩
  | .unloads _ _ _ => ⟨64, 0xFFC0000000000000, 0x2100000000000000⟩
  | .run _ => ⟨64, 0xFFFFFFFF00000000, 0x2200000000000000⟩
  | .ckcfg _ _ => ⟨64, 0xFFFFFFFFFFFFFF80, 0x3000000000000000⟩
  | .payWrite _ _ _ => ⟨54, 0x30, 0x30⟩
  | .paySetaddr _ _ _ => ⟨54, 0x30, 0x20⟩
  | .payDisable _ _ _ => ⟨54, 0x30, 0x00⟩
  | .payReserved _ _ _ => ⟨54, 0x30, 0x10⟩
  | .chainid8 _ => ⟨8, 0, 0⟩
  | .read32 _ => ⟨32, 0, 0⟩
  | .clkgen18 _ _ => ⟨18, 0, 0⟩

/-- The width of a code. -/
def Code.width : Code → Nat
  | .command _ => 64
  | .frame (.payload54 _) => 54
  | .frame (.chainid8 _) => 8
  | .frame (.read32 _) => 32
  | .frame (.clkgen18 _) => 18

/-- The number a code's bits spell. -/
def Code.bits : Code → Nat
  | .command w => w.toNat
  | .frame (.payload54 v) => v.toNat
  | .frame (.chainid8 v) => v.toNat
  | .frame (.read32 v) => v.toNat
  | .frame (.clkgen18 v) => v.toNat

/-- A code lies in a row. -/
def Code.inRow (c : Code) (r : TableRow) : Prop := c.width = r.width ∧ c.bits &&& r.mask = r.bits

namespace Laws.EncodesInRow

/-- A legal instruction's word lies in its row. -/
def Statement (i : Instr) : Prop := i.wf = true → (encode i).inRow i.tableRow

/-- A command whose operands fit lies in its opcode's row. -/
theorem of_command {i : Instr} (o : Opcode) {x : Nat} (hx : x < 2 ^ o.operandBits) (he : encode i = commandWord o x)
    (hr : i.tableRow = ⟨64, o.maskBits.toNat, o.matchBits.toNat⟩) : (encode i).inRow i.tableRow := by
  rw [he, hr]
  refine ⟨rfl, ?_⟩
  have h := congrArg BitVec.toNat (o.and_maskBits x hx)
  rwa [BitVec.toNat_and] at h

/-- A payload lies in the row of its enable and write bits. -/
theorem of_payload {i : Instr} {a : BitVec 16} {d : Word} {e w : Bool} {m : BitVec 4}
    (he : encode i = .frame (.payload54 (payloadValue a d e w m)))
    (hr : i.tableRow = ⟨54, 0x30, e.toNat * 2 ^ 5 + w.toNat * 2 ^ 4⟩) : (encode i).inRow i.tableRow := by
  rw [he, hr]
  refine ⟨rfl, ?_⟩
  have hf := payloadValue_fields a d e w m
  change (payloadValue a d e w m).toNat &&& 0x30 = _
  generalize payloadValue a d e w m = v at hf ⊢
  apply Nat.eq_of_testBit_eq
  intro j
  rw [Nat.testBit_and]
  by_cases h4 : j = 4
  · subst h4
    rw [BitVec.testBit_toNat, hf.2.2.2.2]
    cases e <;> cases w <;> rfl
  · by_cases h5 : j = 5
    · subst h5
      rw [BitVec.testBit_toNat, hf.2.2.2.1]
      cases e <;> cases w <;> rfl
    · have h16 : (2 ^ 4 : Nat).testBit j = false := by rw [Nat.testBit_two_pow, decide_eq_false_iff_not]; omega
      have h32 : (2 ^ 5 : Nat).testBit j = false := by rw [Nat.testBit_two_pow, decide_eq_false_iff_not]; omega
      have h48 : (0x30 : Nat).testBit j = false := by
        change (2 ^ 5 ||| 2 ^ 4).testBit j = false
        rw [Nat.testBit_or, h16, h32]
        rfl
      rw [h48, Bool.and_false]
      cases e <;> cases w
      · exact (Nat.zero_testBit j).symm
      · exact h16.symm
      · exact h32.symm
      · exact h48.symm

theorem brst : Statement .brst := fun _ => of_command .brst (x := 0) (by decide) rfl (by decide)

theorem clear : Statement .clear := fun _ => of_command .clear (x := 0) (by decide) rfl (by decide)

theorem wrbank (b : Bank) : Statement (.wrbank b) := fun _ =>
  of_command .wrbank (x := b.num) (by cases b <;> decide) rfl (by
    change (⟨_, _, _⟩ : TableRow) = _
    decide)

theorem rdbank (b : Bank) (l : Length) : Statement (.rdbank b l) := fun h =>
  of_command .rdbank (x := encodeLen l * 4 + b.num)
    (by
      have h1 := encodeLen_lt (l := l) h
      have h2 : b.num < 4 := by cases b <;> decide
      change _ < 2 ^ 20
      omega)
    rfl (by
      change (⟨_, _, _⟩ : TableRow) = _
      decide)

theorem loads (h : Bool) : Statement (.loads h) := fun _ =>
  of_command .loads (x := h.toNat) (by cases h <;> decide) rfl (by
    change (⟨_, _, _⟩ : TableRow) = _
    decide)

theorem unloads (lm li lo : Length) : Statement (.unloads lm li lo) := fun h => by
  simp only [Instr.wf, Bool.and_eq_true] at h
  have h1 := encodeLen_lt h.1.1
  have h2 := encodeLen_lt h.1.2
  have h3 := encodeLen_lt h.2
  refine of_command .unloads (x := encodeLen lm + encodeLen li * 2 ^ 18 + encodeLen lo * 2 ^ 36) ?_ rfl ?_
  · change _ < 2 ^ 54
    omega
  · change (⟨_, _, _⟩ : TableRow) = _
    decide

theorem run (t : BitVec 32) : Statement (.run t) := fun _ =>
  of_command .run (x := t.toNat) t.isLt rfl (by
    change (⟨_, _, _⟩ : TableRow) = _
    decide)

theorem ckcfg (f : BitVec 4) (r : BitVec 3) : Statement (.ckcfg f r) := fun _ =>
  of_command .ckcfg (x := r.toNat * 16 + f.toNat)
    (by
      have h1 := f.isLt
      have h2 := r.isLt
      change _ < 2 ^ 7
      omega)
    rfl (by
      change (⟨_, _, _⟩ : TableRow) = _
      decide)

theorem payWrite (a : BitVec 16) (d : Word) (m : BitVec 4) : Statement (.payWrite a d m) :=
  fun _ => of_payload (e := true) (w := true) rfl rfl

theorem paySetaddr (a : BitVec 16) (d : Word) (m : BitVec 4) : Statement (.paySetaddr a d m) :=
  fun _ => of_payload (e := true) (w := false) rfl rfl

theorem payDisable (a : BitVec 16) (d : Word) (m : BitVec 4) : Statement (.payDisable a d m) :=
  fun _ => of_payload (e := false) (w := false) rfl rfl

theorem payReserved (a : BitVec 16) (d : Word) (m : BitVec 4) : Statement (.payReserved a d m) :=
  fun _ => of_payload (e := false) (w := true) rfl rfl

theorem chainid8 (i : BitVec 8) : Statement (.chainid8 i) := fun _ => ⟨rfl, Nat.and_zero _⟩

theorem read32 (w : Word) : Statement (.read32 w) := fun _ => ⟨rfl, Nat.and_zero _⟩

theorem clkgen18 (f : BitVec 14) (r : BitVec 4) : Statement (.clkgen18 f r) := fun _ => ⟨rfl, Nat.and_zero _⟩

end Laws.EncodesInRow

end Sys2Proof
end

