-- ==== Sys2Proof/Tests/Slice0.lean ====
section
/-!
SUPPORT. The model's own tests. Every expected value is 95_test_vectors.md's (named in the docstring), or computed by
hand from the rule named. Then one witness for the hypotheses of each statement of Certificates/Slice0/Obligations.lean.
-/

namespace Sys2Proof.Tests

open Sys2Proof Sys2Proof.Machine

/-! ### WellFormed: an ill-formed term for each check, refused -/

theorem test_wf_rdbank_zero : (Instr.rdbank .main (.exactly 0)).wf = false := by decide
theorem test_wf_rdbank_tooLong : (Instr.rdbank .main (.exactly 65537)).wf = false := by decide
theorem test_wf_unloads_main : (Instr.unloads (.exactly 0) .all .none).wf = false := by decide
theorem test_wf_unloads_input : (Instr.unloads .none (.exactly 65537) .all).wf = false := by decide
theorem test_wf_unloads_output : (Instr.unloads .none .all (.exactly 0)).wf = false := by decide
theorem test_wf_ckcfg_freqLow : (Instr.ckcfg 0 1).wf = false := by decide
theorem test_wf_ckcfg_freqHigh : (Instr.ckcfg 15 1).wf = false := by decide
theorem test_wf_ckcfg_ringLow : (Instr.ckcfg 7 0).wf = false := by decide
theorem test_wf_ckcfg_ringHigh : (Instr.ckcfg 7 5).wf = false := by decide
theorem test_wf_boundaries : (Instr.rdbank .output (.exactly 65536)).wf = true ∧ (Instr.ckcfg 14 4).wf = true ∧
    (Instr.ckcfg 1 1).wf = true ∧ (Instr.unloads (.exactly 1) (.exactly 65536) .all).wf = true := by decide

/-! ### Decoding: words written out from the encodings of 30_encoding.md (95 section 2.13, V-CW) -/

/-- V-CW1 to V-CW3. -/
theorem test_decode_transactions :
    decode (.command 0x1000000000000000) = .ok .brst ∧ decode (.command 0x1100000000000000) = .ok .clear ∧
      decode (.command 0x1200000000000000) = .ok (.wrbank .main) ∧
      decode (.command 0x1200000000000001) = .ok (.wrbank .input) ∧
      decode (.command 0x1200000000000002) = .ok (.wrbank .output) := by decide

/-- V-CW4 to V-CW8. -/
theorem test_decode_rdbank :
    decode (.command 0x1300000000000000) = .ok (.rdbank .main .none) ∧
      decode (.command 0x1300000000080000) = .ok (.rdbank .main .all) ∧
      decode (.command 0x130000000008000C) = .ok (.rdbank .main (.exactly 3)) ∧
      decode (.command 0x1300000000080009) = .ok (.rdbank .input (.exactly 2)) ∧
      decode (.command 0x13000000000C0002) = .ok (.rdbank .output (.exactly 65536)) := by decide

/-- V-CW9 to V-CW15. -/
theorem test_decode_sessions :
    decode (.command 0x2000000000000000) = .ok (.loads false) ∧
      decode (.command 0x2000000000000001) = .ok (.loads true) ∧
      decode (.command 0x2100000800020002) = .ok (.unloads (.exactly 2) .all .none) ∧
      decode (.command 0x2100000000000000) = .ok (.unloads .none .none .none) ∧
      decode (.command 0x2200000000000005) = .ok (.run 5) ∧
      decode (.command 0x22000000FFFFFFFF) = .ok (.run 0xFFFFFFFF) ∧
      decode (.command 0x3000000000000027) = .ok (.ckcfg 7 2) ∧
      decode (.command 0x300000000000004E) = .ok (.ckcfg 14 4) := by decide

/-- V-IL1 to V-IL4: the opcode, and a nonzero operand bit of `BRST`. -/
theorem test_reject_opcode :
    decode (.command 0x0000000000000000) = .error .unknownOpcode ∧
      decode (.command 0x1400000000000000) = .error .unknownOpcode ∧
      decode (.command 0xFFFFFFFFFFFFFFFF) = .error .unknownOpcode ∧
      decode (.command 0x1000000000000001) = .error .operandBitsNotZero := by decide

/-- V-IL5 to V-IL9: `WRBANK` and `RDBANK`. -/
theorem test_reject_banks :
    decode (.command 0x1200000000000003) = .error .reservedBank ∧
      decode (.command 0x1200000000000004) = .error .operandBitsNotZero ∧
      decode (.command 0x1300000000000004) = .error .reservedLength ∧
      decode (.command 0x13000000000C0004) = .error .reservedLength ∧
      decode (.command 0x1300000000100000) = .error .operandBitsNotZero := by decide

/-- V-IL10 to V-IL17: the sessions and `CKCFG`. -/
theorem test_reject_sessions :
    decode (.command 0x2000000000000002) = .error .operandBitsNotZero ∧
      decode (.command 0x2140000000000000) = .error .operandBitsNotZero ∧
      decode (.command 0x2200000100000000) = .error .operandBitsNotZero ∧
      decode (.command 0x3000000000000010) = .error .selectOutOfRange ∧
      decode (.command 0x300000000000001F) = .error .selectOutOfRange ∧
      decode (.command 0x3000000000000007) = .error .selectOutOfRange ∧
      decode (.command 0x3000000000000057) = .error .selectOutOfRange ∧
      decode (.command 0x30000000000000A7) = .error .operandBitsNotZero := by decide

/-- V-ENC3, V-ENC6, V-ENC1 and, by 30_encoding.md R81 and R96, the reserved kind. -/
theorem test_decode_payloads :
    decode (.frame (.payload54 0x000080000000FF)) = .ok (.payWrite 2 3 15) ∧
      decode (.frame (.payload54 0x048D37AB6FBBFF)) = .ok (.payWrite 0x1234 0xDEADBEEF 15) ∧
      decode (.frame (.payload54 0x0002400000002F)) = .ok (.paySetaddr 9 0 15) ∧
      decode (.frame (.payload54 0x0000000000000F)) = .ok (.payDisable 0 0 15) ∧
      decode (.frame (.payload54 0x0000000000001F)) = .ok (.payReserved 0 0 15) := by decide

/-- 30_encoding.md R83, R84 and, position 8 and position 17 (V-CK3), R85. -/
theorem test_decode_frames :
    decode (.frame (.chainid8 0x05)) = .ok (.chainid8 5) ∧
      decode (.frame (.read32 0x80000001)) = .ok (.read32 0x80000001) ∧
      decode (.frame (.clkgen18 0x00402)) = .ok (.clkgen18 0x040 2) := by decide

/-- The table's rows by their widths: 54 bits stand in 7 bytes and 18 in 3. -/
theorem test_decode_tableWords :
    decodeTableWord 64 0x3000000000000027 = some (.ckcfg 7 2) ∧
      decodeTableWord 56 0x000080000000FF = some (.payWrite 2 3 15) ∧
      decodeTableWord 8 0x05 = some (.chainid8 5) ∧ decodeTableWord 32 0xDEADBEEF = some (.read32 0xDEADBEEF) ∧
      decodeTableWord 24 0x00402 = some (.clkgen18 0x040 2) ∧ decodeTableWord 24 0x40000 = none ∧
      decodeTableWord 64 0x1200000000000003 = none := by decide

/-- V-ENC1, V-ENC2, V-ENC4, V-ENC5, V-ENC7: `V` from its fields. -/
theorem test_payloadValue :
    payloadValue 0 0 false false 15 = 0x0000000000000F ∧ payloadValue 0 0 true false 15 = 0x0000000000002F ∧
      payloadValue 0xFFFF 0xFFFFFFFF true true 15 = 0x3FFFFFFFFFFFFF ∧
      payloadValue 0x8001 0x80000001 true true 15 = 0x2000600000007F ∧
      payloadValue 0x1234 0xDEADBEEF true true 15 = 0x048D37AB6FBBFF := by decide

/-! ### Small states and observations -/

/-- What `p` says of the next state of `i`; false where there is none. -/
def nextIs (i : Instr) (s : State) (p : State → Bool) : Bool :=
  match exec i s with
  | .next t => p t
  | .fault _ => false
  | .refused _ => false

theorem next_of {i : Instr} {s : State} {p : State → Bool} (h : nextIs i s p = true) :
    ∃ t, exec i s = .next t ∧ p t = true := by
  unfold nextIs at h
  split at h
  · exact ⟨_, by assumption, h⟩
  · cases h
  · cases h

/-- `.tx` of 95 section 3: the transmit buffer and its length. -/
def tx (b : Bank) (ws : List Word) (s : State) : State :=
  { s with
    txlen := s.txlen.set b (BitVec.ofNat 17 ws.length)
    txbuf := s.txbuf.set b (ws.zipIdx.map fun p => (p.2, p.1)) }

/-- Test mode, `id` selected. -/
def onTarget (id : BitVec 8) (s : State) : State :=
  { s with lines := { s.lines with tm := true }, chip := { s.chip with selected := some id } }

/-- `SVLD` overridden to 0 at sample `n`. -/
def forceAt (n : Nat) (s : State) : State :=
  { s with env := { s.env with svldForce := List.replicate n false ++ [true] } }

/-- The answers on `DONE`. -/
def doneAnswers (bs : List Bool) (s : State) : State := { s with env := { s.env with bits := bs } }

/-- The host's next operations. -/
def hostDoes (ops : List HostOp) (s : State) : State := { s with host := ops }

/-- An oracle environment. -/
def inOracle (s : State) : State := { s with env := { s.env with kind := .oracle } }

/-- The answers of an oracle, in the order it is asked. -/
def oracleAnswers (bs : List Bool) (s : State) : State := doneAnswers bs (inOracle s)

/-- Cycles of the deserializer as an oracle answers them: `SDI` as named, then `SVLD` true. -/
def validCycles (sdi : List Bool) : List Bool := sdi.flatMap fun b => [b, true]

theorem answers_of {s : State} {n : Nat} (h : (List.range n).all s.validAnswer = true) : s.Answers n := fun j hj =>
  List.all_eq_true.1 h j (List.mem_range.2 hj)

theorem faultsAt_of {s : State} {n : Nat} (h : ((List.range n).all s.validAnswer && !s.validAnswer n) = true) :
    s.FaultsAt n := by
  rw [Bool.and_eq_true, Bool.not_eq_true'] at h
  exact ⟨answers_of h.1, h.2⟩

/-- Pulses and events so far: the trace is empty at the start of each test. -/
def counts (s : State) : Nat × Nat := (pulseCount s.trace, s.trace.length)

/-- The levels of `SDO` at the rising edges of `SCK` (95 section 0's wire string). -/
def wireString (s : State) : List Bool :=
  (s.trace.foldl (fun (acc : Bool × List Bool) e =>
    match e with
    | .w .sdo b => (b, acc.2)
    | .w .sck true => (acc.1, acc.1 :: acc.2)
    | _ => acc) (false, [])).2.reverse

/-- The write-data registers, in the order of the banks. -/
def tregs (s : State) : List (BitVec 54) := Bank.all.map s.chip.treg.get

/-! ### One or two vectors for each instruction -/

/-- `n` pulses as the trace shows them. -/
def ticks (n : Nat) : List Event := (List.replicate n [Event.w .sck true, .w .sck false]).flatten

/-- Bits on `SDO`, in the order of the wire, a pulse after each. -/
def sent (bits : List Bool) : List Event := bits.flatMap fun b => .w .sdo b :: ticks 1

/-- V-BR1: the trace, whole. -/
theorem test_brst_trace : nextIs .brst State.reset (fun t => decide (t.trace =
    [.w .srst true] ++ ticks 4 ++ [.w .srst false] ++ ticks 1)) = true := by decide +kernel

/-- V-BR3: `FAULT` cleared, `TM` still asserted, nothing selected. -/
theorem test_brst_recovers : nextIs .brst
    { onTarget 0 State.reset with status := { busy := false, fault := true, cfgerr := false } }
    (fun t => decide (t.status.fault = false ∧ t.lines.tm = true ∧ t.chip.selected = none ∧ counts t = (5, 12))) =
      true := by decide +kernel

/-- V-CL1. -/
theorem test_clear : nextIs .clear State.reset (fun t => decide (counts t = (590, 1778) ∧
    t.chip.selected = some 8 ∧ tregs t = [0xF, 0xF, 0xF] ∧ t.chip.mem = [] ∧ t.lines.tm = false)) = true := by
  decide +kernel

/-- V-WR3. -/
theorem test_wrbank_input : nextIs (.wrbank .input) (tx .input [7, 8, 9] State.reset) (fun t => decide (
    t.result = .ok ∧ counts t = (182, 546) ∧ t.chip.selected = some 3 ∧
      (List.range 4).map (t.row .input) = [7, 8, 9, 0xDEAD0003] ∧ t.row .main 0 = 0xDEAD0000)) = true := by
  decide +kernel

/-- V-WR5: ten words do not fit a bank of ten rows. -/
theorem test_wrbank_capacity : nextIs (.wrbank .main) (tx .main [0, 1, 2, 3, 4, 5, 6, 7, 8, 9] State.reset)
    (fun t => decide (t.result = .capacityError ∧ t.status.fault = false ∧ t.trace = [] ∧ t.chip.mem = [])) =
      true := by decide +kernel

/-- V-RD5: the erratum step selects `WR[MAIN]` after a read of the output bank. -/
theorem test_rdbank_all : nextIs (.rdbank .output .all) State.reset (fun t => decide (
    t.rxWords .output = [0xDEAD0000, 0xDEAD0001, 0xDEAD0002, 0xDEAD0003] ∧ counts t = (438, 1450) ∧
      t.chip.selected = some 1 ∧ t.lines.tm = false)) = true := by decide +kernel

/-- V-RD8, from a state that holds its two rows: the fault in cycle 5 of row 1. -/
theorem test_rdbank_fault : nextIs (.rdbank .main (.exactly 2))
    (forceAt 37 { State.reset with chip := { State.reset.chip with
      mem := (Memory.writeRow [] .main 0 0xA5A5A5A5).writeRow .main 1 0x0000FFFF } })
    (fun t => decide (t.result = .protocolFault ∧ t.status.fault = true ∧ t.rxWords .main = [0xA5A5A5A5] ∧
      counts t = (190, 611) ∧ t.lines.tm = true ∧ t.chip.selected = some 0 ∧
      t.chip.treg.main = 0x400000002F ∧ t.log.take 2 = [.r .svld false, .r .sdi true])) = true := by decide +kernel

/-- R46, R112: an oracle's 32 answers on `SDI` are the word, its first answer bit 0; a false `SVLD` in cycle 2 of row 1
ends the read. -/
theorem test_rdbank_oracle : nextIs (.rdbank .output (.exactly 2))
    (oracleAnswers (validCycles ((List.range 32).map fun k => decide (k = 0 ∨ k = 31)) ++
      validCycles [false, true] ++ [true, false]) State.reset)
    (fun t => decide (t.result = .protocolFault ∧ t.rxWords .output = [0x80000001] ∧
      t.log.take 6 = [.r .svld false, .r .sdi true, .w .sck false, .w .sck true, .r .svld true, .r .sdi true])) =
      true := by decide +kernel

/-- V-LS1. -/
theorem test_loads_input : nextIs (.loads true) (tx .input [0x33] (tx .main [0x11, 0x22] State.reset))
    (fun t => decide (t.result = .ok ∧ counts t = (786, 2368) ∧ t.lines.clksel = clkExt ∧ t.lines.crst = true ∧
      t.row .main 1 = 0x22 ∧ t.row .input 0 = 0x33 ∧ t.chip.selected = some 3 ∧
      tregs t = [0x40000008BF, 0xCFF, 0xF])) = true := by decide +kernel

/-- V-LS3: the main write completed before the input bank was refused. -/
theorem test_loads_capacity : nextIs (.loads true) (tx .input [1, 2, 3, 4] (tx .main [5] State.reset))
    (fun t => decide (t.result = .capacityError ∧ counts t = (660, 1990) ∧ t.row .main 0 = 5 ∧
      t.row .input 0 = 0xDEAD0000 ∧ t.chip.selected = some 1 ∧ t.chip.treg.main = 0x17F)) = true := by
  decide +kernel

/-- V-UL1, from a state that holds its rows. -/
theorem test_unloads : nextIs (.unloads (.exactly 2) .all .none)
    { State.reset with chip := { State.reset.chip with
      mem := ((Memory.writeRow [] .main 0 0x11).writeRow .main 1 0x22).writeRow .input 0 0x33 } }
    (fun t => decide (counts t = (664, 2198) ∧ t.rxWords .main = [0x11, 0x22] ∧
      t.rxWords .input = [0x33, 0xDEAD0001, 0xDEAD0002, 0xDEAD0003] ∧ t.rxlen.output = 0 ∧
      t.chip.selected = some 1 ∧ t.chip.treg.main = 0x400000002F ∧ t.chip.treg.input = 0xC00000002F)) = true := by
  decide +kernel

/-- V-UL2. -/
theorem test_unloads_none : nextIs (.unloads .none .none .none) State.reset (fun t => decide (
    t.result = .ok ∧ t.trace = [.w .clksel clkExt, .w .crst true])) = true := by decide +kernel

/-- V-RN1. -/
theorem test_run_done : nextIs (.run 5) (doneAnswers [false, false, true] State.reset) (fun t => decide (
    t.result = .ok ∧ t.elapsed = 3 ∧ t.trace = [.w .clksel clkInt, .w .crst false, .r .done false, .r .done false,
      .r .done true])) = true := by decide +kernel

/-- V-RN2. -/
theorem test_run_timeout : nextIs (.run 3) (doneAnswers [false, false, false] State.reset) (fun t => decide (
    t.result = .timedOut ∧ t.elapsed = 3 ∧ t.status.fault = false ∧ counts t = (0, 5))) = true := by decide +kernel

/-- R66 under a `CHIP_EXEC` that keeps row 1 of the main bank: the effect's other rows are taken. -/
theorem test_run_keepsRows : nextIs (.run 0)
    { State.reset with
      cfg := { Config.tvcfg with chipExec := .keeps [⟨.main, 1, 1⟩] }
      chip := { State.reset.chip with mem := Memory.writeRow [] .main 1 0x11 }
      env := { State.reset.env with
        effects := [⟨(Memory.writeRow [] .main 1 0x22).writeRow .input 1 0x33, 0, ⟨1, 2, 3⟩, some 4, 5, 6⟩] } }
    (fun t => decide (t.result = .timedOut ∧ t.row .main 1 = 0x11 ∧ t.row .input 1 = 0x33 ∧
      t.chip.selected = some 4 ∧ tregs t = [1, 2, 3])) = true := by decide +kernel

/-- V-CK3 under `SCAN_ORDER`. -/
theorem test_ckcfg_scanOrder : nextIs (.ckcfg 7 2) State.reset (fun t => decide (
    wireString t = [false, false, false, false, false, false, false, true, false, false, false, false, false, false,
      false, false, true, false] ∧ counts t = (18, 56) ∧ t.lines.cgec = true ∧ t.lines.cgge = false ∧
      t.lines.sdo = false)) = true := by decide +kernel

/-- V-CK1 under `TAIL_FIRST`. -/
theorem test_ckcfg_tailFirst : nextIs (.ckcfg 1 1)
    { State.reset with cfg := { Config.tvcfg with ckcfgOrder := .tailFirst } } (fun t => decide (
    wireString t = [true, false, false, false, true, false, false, false, false, false, false, false, false, false,
      false, false, false, false])) = true := by decide +kernel

/-- V-WP1. -/
theorem test_payWrite : nextIs (.payWrite 2 3 15) (onTarget 1 State.reset) (fun t => decide (
    t.row .main 2 = 3 ∧ t.chip.treg.main = 0x80000000FF ∧ counts t = (56, 168) ∧ t.log.take 8 =
      [.w .sck false, .w .sck true, .w .load false, .w .sck false, .w .sck true, .w .load true, .w .sck false,
        .w .sck true])) = true := by decide +kernel

/-- V-WP2. -/
theorem test_paySetaddr : nextIs (.paySetaddr 2 0 15) (onTarget 1 State.reset) (fun t => decide (
    t.chip.mem = [] ∧ t.chip.treg.main = 0x800000002F ∧ wireString t = [true, true, true, true, false, true] ++
      List.replicate 32 false ++ [false, true] ++ List.replicate 16 false)) = true := by decide +kernel

/-- V-WP3. -/
theorem test_payDisable : nextIs (.payDisable 0 0 15) (onTarget 1 State.reset) (fun t => decide (
    t.chip.mem = [] ∧ t.chip.treg.main = 0xF)) = true := by decide +kernel

/-- 20_memory.md R63: enable 0 with write 1 is captured and changes no row. -/
theorem test_payReserved : nextIs (.payReserved 1 2 15) (onTarget 3 State.reset) (fun t => decide (
    t.chip.mem = [] ∧ t.chip.treg.input = 0x400000009F ∧ t.chip.treg.main = 0)) = true := by decide +kernel

/-- V-SEL3: the trace, whole. -/
theorem test_chainid8 : nextIs (.chainid8 5) (onTarget 1 State.reset) (fun t => decide (
    t.chip.selected = some 5 ∧ t.trace = [.w .cse true] ++
      sent [true, false, true, false, false, false, false, false] ++ [.w .cse false] ++ ticks 1)) = true := by
  decide +kernel

/-- V-SI3: the `SDI` string `1011` then zeros is `0x0000000D`. -/
theorem test_read32 : nextIs (.read32 0x0000000D) (onTarget 0 State.reset) (fun t => decide (
    t.work.dsr = 0x0000000D ∧ counts t = (32, 128) ∧ t.trace.take 5 =
      [.r .sdi true, .r .svld true, .w .sck true, .w .sck false, .r .sdi false])) = true := by decide +kernel

/-- V-SI6: `SVLD` false in cycle 5. -/
theorem test_read32_fault : nextIs (.read32 0xFFFFFFFF) (forceAt 5 (onTarget 0 State.reset)) (fun t => decide (
    t.result = .protocolFault ∧ t.status.fault = true ∧ counts t = (5, 22) ∧
      t.log.take 2 = [.r .svld false, .r .sdi true])) = true := by decide +kernel

/-- V-CK2's 18 positions as a frame. -/
theorem test_clkgen18 : nextIs (.clkgen18 0x2000 8) State.reset (fun t => decide (
    wireString t = [true, false, false, false, false, false, false, false, false, false, false, false, false, false,
      true, false, false, false] ∧ t.lines.sdo = false)) = true := by decide +kernel

/-- Does the step after `withFetchWord` run the row's word to a next state? -/
def fetched (nbits w : Nat) : Bool :=
  match step (State.reset.withFetchWord nbits w) with
  | .next _ => (decodeTableWord nbits w).isSome
  | .fault _ => false
  | .refused _ => false

/-- A word of each row, all operand bits 0 where the row allows it, runs as the first instruction after reset (log 12). -/
theorem test_fetched_commands : fetched 64 0x1000000000000000 = true ∧ fetched 64 0x1100000000000000 = true ∧
    fetched 64 0x1200000000000000 = true ∧ fetched 64 0x1300000000000000 = true ∧
    fetched 64 0x2000000000000000 = true ∧ fetched 64 0x2100000000000000 = true ∧
    fetched 64 0x2200000000000000 = true ∧ fetched 64 0x3000000000000011 = true := by decide +kernel

theorem test_fetched_frames : fetched 56 0x30 = true ∧ fetched 56 0x20 = true ∧ fetched 56 0x00 = true ∧
    fetched 56 0x10 = true ∧ fetched 8 0 = true ∧ fetched 32 0 = true ∧ fetched 24 0 = true := by decide +kernel

/-- V-ER2: the word is checked before any capacity. -/
theorem test_step_illegal : (match step (hostDoes [.write 0 0x1200000000000003] (tx .main [1] State.reset)) with
    | .next t => decide (t.result = .illegalCommand ∧ t.trace = [])
    | _ => false) = true := by decide +kernel

/-- S5 of 95 section 1: the byte packing of 20_memory.md R48. -/
theorem test_packBytes : packBytes 0x00 0x01 0x02 0x03 = 0x03020100 ∧ packBytes 0xEF 0xBE 0xAD 0xDE = 0xDEADBEEF := by
  decide

/-! ### Witnesses: states and operands that meet the hypotheses of each statement -/

/-- The invariant, as a check. -/
def invCheck (s : State) : Bool :=
  s.chip.mem.wf && Bank.all.all (fun b => (s.txbuf.get b).wf && (s.rxbuf.get b).wf &&
    decide ((s.txlen.get b).toNat ≤ 65536) && decide ((s.rxlen.get b).toNat ≤ 65536)) &&
    decide (s.status.busy = false ∧ s.phase = .idle ∧ (s.status.cfgerr = !Config.valid s.cfg) ∧
      s.lines.sck = false ∧ s.lines.srst = false ∧ s.lines.cse = false ∧ s.lines.load = false ∧
      s.chip.selPend = false ∧ s.env.sdiFrame = []) && s.host.all HostOp.wf

theorem inv_of {s : State} (h : invCheck s = true) : s.Inv := by
  simp only [invCheck, Bank.all, List.all_cons, List.all_nil, Bool.and_eq_true, Bool.and_true, decide_eq_true_eq,
    List.all_eq_true] at h
  obtain ⟨⟨⟨hm, h0, h1, h2⟩, hb, hp, hc, h3, h4, h5, h6, h7, h8⟩, hh⟩ := h
  exact {
    mem := hm
    txbuf := fun b => by cases b <;> simp_all
    rxbuf := fun b => by cases b <;> simp_all
    txlen := fun b => by cases b <;> simp_all
    rxlen := fun b => by cases b <;> simp_all
    busy := hb, phase := hp, cfgerr := hc, sck := h3, srst := h4, cse := h5, load := h6, selPend := h7
    sdiFrame := h8, host := hh }

/-- `Ready`, as a check. -/
def readyCheck (s : State) : Bool :=
  invCheck s && decide (s.status.cfgerr = false) && decide (s.cfg.loadTicks = ⟨0, 1, 1⟩)

theorem ready_of {s : State} (h : readyCheck s = true) : s.Ready := by
  simp only [readyCheck, Bool.and_eq_true, decide_eq_true_eq] at h
  exact ⟨inv_of h.1.1, h.1.2, fun _ => h.2⟩

/-- A machine whose configuration is invalid: `WR[MAIN] = RD[MAIN] + 2` (V-ER1). -/
def misconfigured : State :=
  { State.reset with
    cfg := { Config.tvcfg with wr := ⟨2, 3, 5⟩ }
    status := { busy := false, fault := false, cfgerr := true } }

/-- After a fault: `FAULT` set, test mode asserted, the main read target selected. -/
def faulted : State :=
  { onTarget 0 State.reset with status := { busy := false, fault := true, cfgerr := false } }

/-- `PayloadLayout`: bits that go on. -/
theorem witness_PayloadLayout :
    ∃ u, runActs (shiftOut (encodePayload 0x1234 0xDEADBEEF true true 15)) (inOracle State.reset) = .go u :=
  ⟨_, goes_oracle rfl (by simp [shiftOut])⟩

theorem witness_DecodeOfEncode : (Instr.unloads (.exactly 65536) .all (.exactly 1)).wf = true ∧
    (Instr.payReserved 0xFFFF 0xFFFFFFFF 15).wf = true := by decide

theorem witness_EncodeOfDecode : decode (.command 0x13000000000C0002) = .ok (.rdbank .output (.exactly 65536)) ∧
    decode (.frame (.clkgen18 0x3FFFF)) = .ok (.clkgen18 0x3FFF 15) := by decide

theorem witness_LegalWordsAreDecoded : wordLegal 0x300000000000004E = true ∧ wordLegal 0x300000000000001F = false ∧
    wordLegal 0x13000000000C0002 = true ∧ wordLegal 0x13000000000C0004 = false := by decide

theorem witness_CodecLaws : (List.replicate 54 true).length = 54 := by decide

theorem witness_ClockPositions : freqLegal 1 = true ∧ freqLegal 14 = true ∧ ringLegal 1 = true ∧
    ringLegal 4 = true := by decide

theorem witness_StepRunsTheDecodedInstruction :
    (hostDoes [.write 0 0x2200000000000000] State.reset).status.busy = false ∧
      decode (.command 0x2200000000000000) = .ok (.run 0) ∧ decode (.frame (.chainid8 0xFF)) = .ok (.chainid8 0xFF) ∧
      decodeTableWord 56 0x30 = some (.payWrite 0 0 0) ∧ decodeTableWord 64 0x1000000000000000 = some .brst := by
  decide

theorem witness_NothingRunsWithoutTheHost : State.reset.host = [] := rfl

theorem witness_IllegalWordsAreRefused :
    (hostDoes [.write 0 0x1200000000000003] State.reset).Inv ∧
      (hostDoes [.write 0 0x1200000000000003] State.reset).status.cfgerr = false ∧
      wordLegal 0x1200000000000003 = false :=
  ⟨inv_of (by decide), rfl, by decide⟩

/-- What a host read of register `n` leaves in `hostData`. -/
def readOf (n : Nat) (s : State) : Option (BitVec 64) :=
  match step (hostDoes [.read n] s) with
  | .next t => some t.hostData
  | .fault _ => none
  | .refused _ => none

/-- A state with a value to read in each kind of register. -/
def readable : State :=
  { State.reset with
    status := { busy := false, fault := true, cfgerr := false }, result := .protocolFault, elapsed := 7
    txlen := ⟨1, 2, 3⟩, rxlen := ⟨1, 0, 65536⟩
    txbuf := ⟨[(0, 0x11)], [], [(65535, 0x22)]⟩, rxbuf := ⟨[(0, 0x33)], [], [(65535, 0x44)]⟩ }

/-- `HostReads`, each clause at the ends of its numbers (10_state.md R34). -/
theorem witness_HostReads_fixed : readOf 0 readable = none ∧ readOf 1 readable = some 2 ∧
    readOf 2 readable = some 3 ∧ readOf 3 readable = some 7 ∧ readOf 4 readable = some 0 ∧
    readOf 28 readable = some 4 := by decide

theorem witness_HostReads_banks : readOf 8 readable = some 1 ∧ readOf 10 readable = some 3 ∧
    readOf 12 readable = some 1 ∧ readOf 14 readable = some 65536 ∧ readOf 16 readable = some 10 ∧
    readOf 18 readable = some 4 ∧ readOf 20 readable = some 0 ∧ readOf 22 readable = some 4 ∧
    readOf 24 readable = some 1 ∧ readOf 26 readable = some 5 := by decide

theorem witness_HostReads_buffers : readOf 0x10000 readable = some 0x11 ∧ readOf 0x3FFFF readable = some 0x22 ∧
    readOf 0x50000 readable = some 0x33 ∧ readOf 0x7FFFF readable = some 0x44 ∧
    (readOf 0x60000 readable).isSome = true := by decide

theorem witness_HostReads_reserved : readOf 5 readable = some 0 ∧ readOf 7 readable = some 0 ∧
    readOf 11 readable = some 0 ∧ readOf 15 readable = some 0 ∧ readOf 19 readable = some 0 ∧
    readOf 23 readable = some 0 ∧ readOf 27 readable = some 0 ∧ readOf 29 readable = some 0 ∧
    readOf 0xFFFF readable = some 0 ∧ readOf 0x40000 readable = some 0 ∧ readOf 0x4FFFF readable = some 0 ∧
    readOf 0x80000 readable = some 0 := by decide

/-- What a host write of `v` to register `n` makes `p` say; `none` where it is declined. -/
def wrote (n : Nat) (v : BitVec 64) (p : State → Bool) : Option Bool :=
  match step (hostDoes [.write n v] State.reset) with
  | .next t => some (p t)
  | .fault _ => none
  | .refused _ => none

/-- `HostWrites`, each clause at the ends of its numbers and values (10_state.md R31, R34). -/
theorem witness_HostWrites :
    (hostDoes [.write 8 65536] State.reset).Inv ∧
      wrote 8 65536 (fun t => decide (t.txlen = ⟨65536, 65536, 65536⟩)) = some true ∧
      wrote 10 0 (fun t => decide (t.txlen = ⟨65536, 65536, 0⟩)) = some true ∧ wrote 9 65537 (fun _ => true) = none ∧
      wrote 0x10000 0 (fun t => decide (t.txbuf.main.read 0 = 0)) = some true ∧
      wrote 0x3FFFF 0xFFFFFFFE (fun t => decide (t.txbuf.output.read 65535 = 0xFFFFFFFE)) = some true ∧
      wrote 0x10000 0x100000000 (fun _ => true) = none ∧
      wrote 1 5 (fun t => decide (t = State.reset)) = some true ∧
      wrote 7 5 (fun t => decide (t = State.reset)) = some true ∧
      wrote 11 5 (fun t => decide (t = State.reset)) = some true ∧
      wrote 0xFFFF 5 (fun t => decide (t = State.reset)) = some true ∧
      wrote 0x40000 5 (fun t => decide (t = State.reset)) = some true :=
  ⟨inv_of (by decide), by decide, by decide, by decide, by decide, by decide, by decide, by decide, by decide,
    by decide, by decide, by decide⟩

theorem witness_ConstructionLeaves :
    (hostDoes [.construct { Config.tvcfg with resetPulses := 1 } Launch.unwritten] faulted).host =
      .construct { Config.tvcfg with resetPulses := 1 } Launch.unwritten :: [] := rfl

theorem witness_StepKeepsTheInvariant :
    (hostDoes [.write 0 0x1000000000000000] faulted).Inv ∧
      (match step (hostDoes [.write 0 0x1000000000000000] faulted) with
        | .next t => decide (t.result = .ok)
        | _ => false) = true :=
  ⟨inv_of (by decide), by decide +kernel⟩

theorem witness_ValidConfigurations : Config.valid misconfigured.cfg = false ∧
    (hostDoes [.construct misconfigured.cfg Launch.unwritten] State.reset).host =
      .construct misconfigured.cfg Launch.unwritten :: [] := ⟨by decide, rfl⟩

theorem witness_ConfigurationErrorRefusesAll :
    (hostDoes [.write 0 0x1000000000000000] misconfigured).Inv ∧ misconfigured.status.cfgerr = true :=
  ⟨inv_of (by decide), rfl⟩

/-- `EveryCommandEndsWithItsOutcome`: the configuration error, the illegal operand, and each other outcome. -/
theorem witness_EveryCommandEndsWithItsOutcome :
    (∃ t, exec .brst misconfigured = .next t ∧ decide (t.result = .configurationError) = true) ∧
      (∃ t, exec (.ckcfg 0 1) State.reset = .next t ∧ decide (t.result = .illegalCommand) = true) ∧
      (∃ t, exec .brst State.reset = .next t ∧ decide (t.result = .ok) = true) ∧
      (∃ t, exec (.wrbank .main) State.reset = .next t ∧ decide (t.result = .capacityError) = true) ∧
      (∃ t, exec (.rdbank .main (.exactly 1)) (forceAt 0 State.reset) = .next t ∧
        decide (t.result = .protocolFault) = true) ∧
      ∃ t, exec (.run 0) State.reset = .next t ∧ decide (t.result = .timedOut) = true :=
  ⟨next_of (by decide), next_of (by decide), next_of (by decide), next_of (by decide),
    next_of (by decide +kernel), next_of (by decide)⟩

/-- `FaultFlag`: a command that faults, one that clears the flag and one that leaves it. -/
theorem witness_FaultFlag :
    (∃ t, exec (.unloads (.exactly 1) .none .none) (forceAt 0 State.reset) = .next t ∧
      decide (t.result = .protocolFault ∧ t.status.fault = true) = true) ∧
      (∃ t, exec (.rdbank .main .none) faulted = .next t ∧ decide (t.status.fault = true) = true) ∧
      (∃ t, exec (.run 0) faulted = .next t ∧ decide (t.status.fault = true) = true) ∧
      ∃ t, exec .brst faulted = .next t ∧ decide (t.status.fault = false) = true :=
  ⟨next_of (by decide +kernel), next_of (by decide), next_of (by decide), next_of (by decide)⟩

theorem witness_FaultLeavesTestModeAsserted :
    faulted.Inv ∧ (faulted.status.fault = true → faulted.lines.tm = true) ∧
      ∃ t, exec (.rdbank .main (.exactly 1)) (forceAt 0 faulted) = .next t ∧
        decide (t.result = .protocolFault ∧ t.lines.tm = true) = true :=
  ⟨inv_of (by decide), fun _ => rfl, next_of (by decide +kernel)⟩

theorem witness_NoInstructionWritesTheHostSide :
    ∃ t, exec (.read32 5) (onTarget 0 State.reset) = .next t ∧ decide (t.work.dsr = 5) = true :=
  next_of (by decide +kernel)

/-- `ElapsedIsWrittenByRunAlone`: a run that completes, and another instruction. -/
theorem witness_ElapsedIsWrittenByRunAlone :
    (∃ t, exec (.run 2) (doneAnswers [false, true] State.reset) = .next t ∧ decide (t.elapsed = 2) = true) ∧
      State.reset.status.cfgerr = false ∧
      ∃ t, exec (.ckcfg 7 2) State.reset = .next t ∧ decide (t.elapsed = 0) = true :=
  ⟨next_of (by decide), rfl, next_of (by decide +kernel)⟩

theorem witness_TheTraceSaysWhatTheLinesAre :
    ∃ t, exec .brst faulted = .next t ∧ decide (t.trace.length = 12) = true := next_of (by decide)

theorem witness_TheEngineDoesNotDependOnTheEnvironment :
    Instr.samples .brst = false ∧ (∃ t, exec .brst State.reset = .next t ∧ decide (t.result = .ok) = true) ∧
      ∃ t, exec .brst { State.reset with chip := faulted.chip, env := (inOracle State.reset).env, freeCount := 3 } =
        .next t ∧ decide (t.result = .ok) = true :=
  ⟨rfl, next_of (by decide), next_of (by decide)⟩

theorem witness_RowsAreSeparateWords : Memory.wf (Memory.writeRow [] .output 65535 7) = true ∧
    ((Bank.main, (0 : BitVec 16)) ≠ (Bank.output, 65535)) := by decide

theorem witness_BrstRuns : faulted.Ready ∧ (inOracle faulted).Ready ∧ faulted.cfg.resetPulses ≠ 0 :=
  ⟨ready_of (by decide), ready_of (by decide), by decide⟩

theorem witness_ClearRuns : faulted.Ready ∧ (inOracle faulted).Ready :=
  ⟨ready_of (by decide), ready_of (by decide)⟩

theorem witness_WrbankRuns : (tx .main [1, 2, 3] State.reset).Ready ∧
    ((tx .main [1, 2, 3] State.reset).txlen.get .main).toNat = 3 ∧ (State.reset.cfg.cap.get .main).toNat = 10 ∧
    (tx .output [] State.reset).Ready ∧ ((tx .output [] State.reset).txlen.get .output).toNat = 0 :=
  ⟨ready_of (by decide), by decide, by decide, ready_of (by decide), by decide⟩

theorem witness_WrbankAtCapacityIsRefused : (tx .input [7, 8, 9, 10] State.reset).Inv ∧
    (tx .input [7, 8, 9, 10] State.reset).status.cfgerr = false ∧
    ((tx .input [7, 8, 9, 10] State.reset).cfg.cap.get .input).toNat ≤
      ((tx .input [7, 8, 9, 10] State.reset).txlen.get .input).toNat :=
  ⟨inv_of (by decide), rfl, by decide⟩

theorem witness_RdbankNoneReadsNothing : faulted.Inv ∧ faulted.status.cfgerr = false := ⟨inv_of (by decide), rfl⟩

/-- `RdbankRuns`: inside the capacity, the whole bank, past the capacity (V-RD6), and in an oracle. -/
theorem witness_RdbankRuns : State.reset.env.kind = .rtm ∧ faulted.Ready ∧ (Length.exactly 6).wf = true ∧
    Length.exactly 6 ≠ .none ∧ readCount (faulted.cfg.cap.get .input) (.exactly 6) = 6 ∧
    readCount (faulted.cfg.cap.get .input) .all = 4 ∧ faulted.Answers (32 * 6) ∧ faulted.Answers (32 * 4) ∧
    (oracleAnswers (validCycles (List.replicate 32 false)) faulted).Ready ∧
    (oracleAnswers (validCycles (List.replicate 32 false)) faulted).Answers (32 * 1) :=
  ⟨rfl, ready_of (by decide), by decide, by decide, by decide, by decide, answers_of (by decide), answers_of (by decide),
    ready_of (by decide), answers_of (by decide)⟩

/-- `RdbankFaults`, at the first and the last cycle of the last row read, and at both of the only row in an oracle. -/
theorem witness_RdbankFaults : (forceAt 32 (tx .main [] State.reset)).Ready ∧
    1 < readCount (State.reset.cfg.cap.get .main) (.exactly 2) ∧
    (forceAt 32 (tx .main [] State.reset)).FaultsAt (32 * 1 + 0) ∧ (forceAt 63 faulted).Ready ∧
    (forceAt 63 faulted).FaultsAt (32 * 1 + 31) ∧
    (oracleAnswers [true, false] faulted).Ready ∧ (oracleAnswers [true, false] faulted).FaultsAt (32 * 0 + 0) ∧
    (oracleAnswers (validCycles (List.replicate 31 true) ++ [true, false]) faulted).FaultsAt (32 * 0 + 31) :=
  ⟨ready_of (by decide), by decide, faultsAt_of (by decide), ready_of (by decide), faultsAt_of (by decide),
    ready_of (by decide), faultsAt_of (by decide), faultsAt_of (by decide)⟩

theorem witness_LoadsRuns : (tx .input [0x33] (tx .main [0x11, 0x22] State.reset)).Ready ∧
    ((tx .input [0x33] (tx .main [0x11, 0x22] State.reset)).txlen.get .main).toNat = 2 ∧
    ((tx .input [0x33] (tx .main [0x11, 0x22] State.reset)).txlen.get .input).toNat = 1 ∧
    (State.reset.cfg.cap.get .input).toNat = 4 :=
  ⟨ready_of (by decide), by decide, by decide, by decide⟩

theorem witness_LoadsMainOverCapacity : (tx .main [0, 1, 2, 3, 4, 5, 6, 7, 8, 9] State.reset).Ready ∧
    ((tx .main [0, 1, 2, 3, 4, 5, 6, 7, 8, 9] State.reset).txlen.get .main).toNat = 10 ∧
    (State.reset.cfg.cap.get .main).toNat = 10 :=
  ⟨ready_of (by decide), by decide, by decide⟩

theorem witness_LoadsInputOverCapacity : (tx .input [1, 2, 3, 4] (tx .main [5] State.reset)).Ready ∧
    ((tx .input [1, 2, 3, 4] (tx .main [5] State.reset)).txlen.get .main).toNat < 10 ∧
    (State.reset.cfg.cap.get .input).toNat ≤
      ((tx .input [1, 2, 3, 4] (tx .main [5] State.reset)).txlen.get .input).toNat :=
  ⟨ready_of (by decide), by decide, by decide⟩

/-- `UnloadsRuns`, with lengths present, with all three absent, and in an oracle with a row of two banks. -/
theorem witness_UnloadsRuns : faulted.Ready ∧ (Length.exactly 2).wf = true ∧ Length.all.wf = true ∧
    readCount faulted.cfg.cap.main (.exactly 2) + readCount faulted.cfg.cap.input .all +
      readCount faulted.cfg.cap.output .none = 6 ∧
    faulted.Answers (32 * 6) ∧ faulted.Answers (32 * 0) ∧
    (oracleAnswers (validCycles (List.replicate 64 true)) faulted).Ready ∧
    (oracleAnswers (validCycles (List.replicate 64 true)) faulted).Answers
      (32 * (readCount faulted.cfg.cap.main (.exactly 1) + readCount faulted.cfg.cap.input .none +
        readCount faulted.cfg.cap.output (.exactly 1))) :=
  ⟨ready_of (by decide), by decide, by decide, by decide, answers_of (by decide), answers_of (by decide),
    ready_of (by decide), answers_of (by decide)⟩

theorem witness_UnloadsFaultsInMain : (forceAt 31 faulted).Ready ∧
    0 < readCount (forceAt 31 faulted).cfg.cap.main (.exactly 1) ∧ (forceAt 31 faulted).FaultsAt (32 * 0 + 31) ∧
    (oracleAnswers [true, false] faulted).Ready ∧ (oracleAnswers [true, false] faulted).FaultsAt (32 * 0 + 0) :=
  ⟨ready_of (by decide), by decide, faultsAt_of (by decide), ready_of (by decide), faultsAt_of (by decide)⟩

/-- `UnloadsFaultsInInput`: in the last cycle of a row after one of the main bank, with the main bank not read, and in an
oracle. -/
theorem witness_UnloadsFaultsInInput : (forceAt 63 faulted).Ready ∧
    0 < readCount faulted.cfg.cap.input (.exactly 1) ∧
    (forceAt 63 faulted).FaultsAt (32 * (readCount faulted.cfg.cap.main (.exactly 1) + 0) + 31) ∧
    (forceAt 0 faulted).Ready ∧ (forceAt 0 faulted).FaultsAt (32 * (readCount faulted.cfg.cap.main .none + 0) + 0) ∧
    (oracleAnswers (validCycles (List.replicate 32 true) ++ [true, false]) faulted).Ready ∧
    (oracleAnswers (validCycles (List.replicate 32 true) ++ [true, false]) faulted).FaultsAt
      (32 * (readCount faulted.cfg.cap.main (.exactly 1) + 0) + 0) :=
  ⟨ready_of (by decide), by decide, faultsAt_of (by decide), ready_of (by decide), faultsAt_of (by decide),
    ready_of (by decide), faultsAt_of (by decide)⟩

/-- `UnloadsFaultsInOutput`: after a row of each other bank, with neither read, and in an oracle. -/
theorem witness_UnloadsFaultsInOutput : (forceAt 95 faulted).Ready ∧
    0 < readCount faulted.cfg.cap.output (.exactly 1) ∧
    (forceAt 95 faulted).FaultsAt (32 * (readCount faulted.cfg.cap.main (.exactly 1) +
      readCount faulted.cfg.cap.input (.exactly 1) + 0) + 31) ∧
    (forceAt 0 faulted).Ready ∧ (forceAt 0 faulted).FaultsAt
      (32 * (readCount faulted.cfg.cap.main .none + readCount faulted.cfg.cap.input .none + 0) + 0) ∧
    (oracleAnswers (validCycles (List.replicate 32 true) ++ [true, false]) faulted).Ready ∧
    (oracleAnswers (validCycles (List.replicate 32 true) ++ [true, false]) faulted).FaultsAt
      (32 * (readCount faulted.cfg.cap.main .none + readCount faulted.cfg.cap.input (.exactly 1) + 0) + 0) :=
  ⟨ready_of (by decide), by decide, faultsAt_of (by decide), ready_of (by decide), faultsAt_of (by decide),
    ready_of (by decide), faultsAt_of (by decide)⟩

/-- A run effect the environment has queued. -/
def oneEffect : RunEffect := ⟨[(0, 1)], 7, ⟨1, 2, 3⟩, some 2, 0, 0⟩

/-- `s` with `CHIP_EXEC` and one effect queued. -/
def withChipExec (c : ChipExec) (s : State) : State :=
  { s with cfg := { s.cfg with chipExec := c }, env := { s.env with effects := [oneEffect] } }

/-- `RunCompletes`: at the last poll of the budget, at the first, in an oracle, and with an effect queued under each kind
of `CHIP_EXEC`. -/
theorem witness_RunCompletes : (doneAnswers [false, false, true] faulted).Ready ∧
    (∀ j, j < 3 - 1 → drawnBit (doneAnswers [false, false, true] faulted) j = false) ∧
    drawnBit (doneAnswers [false, false, true] faulted) (3 - 1) = true ∧
    drawnBit (doneAnswers [true] faulted) (1 - 1) = true ∧ (oracleAnswers [true] faulted).Ready ∧
    (withChipExec .any (doneAnswers [true] faulted)).Ready ∧
    (withChipExec .unchanged (doneAnswers [true] faulted)).Ready ∧
    (withChipExec (.relation 3) (doneAnswers [true] faulted)).Ready ∧
    drawnBit (withChipExec .any (doneAnswers [true] faulted)) (1 - 1) = true :=
  ⟨ready_of (by decide), by decide, by decide, by decide, ready_of (by decide), ready_of (by decide),
    ready_of (by decide), ready_of (by decide), by decide⟩

/-- `RunTimesOut`, with a budget, with none, and with an effect queued under each kind of `CHIP_EXEC`. -/
theorem witness_RunTimesOut : (doneAnswers [false, false, false] faulted).Ready ∧
    (∀ j, j < (3 : BitVec 32).toNat → drawnBit (doneAnswers [false, false, false] faulted) j = false) ∧
    (∀ j, j < (0 : BitVec 32).toNat → drawnBit faulted j = false) ∧ (oracleAnswers [false] faulted).Ready ∧
    (withChipExec .any faulted).Ready ∧ (withChipExec .unchanged faulted).Ready ∧
    (withChipExec (.relation 3) faulted).Ready :=
  ⟨ready_of (by decide), by decide, by decide, ready_of (by decide), ready_of (by decide), ready_of (by decide),
    ready_of (by decide)⟩

/-- `RunsLeaveWhatChipExecAllows`: a run that ends, and contents that rows kept, rows changed and a relation allow. -/
theorem witness_RunsLeaveWhatChipExecAllows :
    (withChipExec (.keeps [⟨.main, 0, 9⟩]) faulted).Ready ∧
    (withChipExec (.keeps [⟨.main, 0, 9⟩]) faulted).env.kind = .rtm ∧
    (∃ t, exec (.run 0) (withChipExec (.keeps [⟨.main, 0, 9⟩]) faulted) = .next t ∧
      decide (t.result = .timedOut) = true) ∧
    (Memory.writeRow [] .input 0 5).wf = true ∧
    chipExecAllows (.keeps [⟨.main, 0, 9⟩]) [] (Memory.writeRow [] .input 0 5) ∧
    chipExecAllows (.changesOnly [⟨.input, 0, 0⟩]) [] (Memory.writeRow [] .input 0 5) ∧
    chipExecAllows (.relation 3) [] (Memory.ofCells (Config.chipExecResult 3 [] 7)) := by
  refine ⟨ready_of (by decide), rfl, next_of (by decide +kernel), by decide, fun b a hr => ?_, fun b a hr => ?_, 7, rfl⟩
  · refine Memory.readRow_writeRow_other fun h => ?_
    cases h
    exact Bool.false_ne_true hr
  · refine Memory.readRow_writeRow_other fun h => ?_
    cases h
    exact Bool.false_ne_true hr.symm

theorem witness_CkcfgRuns : faulted.Ready ∧ freqLegal 14 = true ∧ ringLegal 4 = true ∧
    ({ faulted with cfg := { faulted.cfg with ckcfgOrder := .tailFirst } } : State).Ready ∧
    (tx .main [] State.reset).Ready ∧ (tx .main [] State.reset).lines.tm = false :=
  ⟨ready_of (by decide), by decide, by decide, ready_of (by decide), ready_of (by decide), rfl⟩

theorem witness_PayWriteWritesItsRow : (onTarget 1 State.reset).OnTarget ((Config.tvcfg.wr.get .main).setWidth 8) ∧
    (9 : BitVec 16).toNat < (Config.tvcfg.cap.get .main).toNat :=
  ⟨⟨ready_of (by decide), rfl, rfl, by decide⟩, by decide⟩

theorem witness_PayWritePartialMask : (7 : BitVec 4) ≠ 15 ∧
    ({ onTarget 5 State.reset with env := { State.reset.env with words := [9] } } : State).OnTarget
      ((Config.tvcfg.wr.get .output).setWidth 8) ∧
    (3 : BitVec 16).toNat < (Config.tvcfg.cap.get .output).toNat :=
  ⟨by decide, ⟨ready_of (by decide), rfl, rfl, by decide⟩, by decide⟩

theorem witness_OtherPayloadsChangeNoRow : (false && true) = false ∧ (true && false) = false ∧
    (onTarget 3 State.reset).OnTarget ((Config.tvcfg.wr.get .input).setWidth 8) :=
  ⟨rfl, rfl, ⟨ready_of (by decide), rfl, rfl, by decide⟩⟩

/-- `PayloadsElsewhereChangeNoRow`: a read target, a reserved id, an id above 8, and an oracle. -/
theorem witness_PayloadsElsewhereChangeNoRow :
    (onTarget 0 State.reset).OnTarget 0 ∧ (∀ b, (0 : BitVec 8) ≠ (Config.tvcfg.wr.get b).setWidth 8) ∧
      (onTarget 8 State.reset).OnTarget 8 ∧ (∀ b, (8 : BitVec 8) ≠ (Config.tvcfg.wr.get b).setWidth 8) ∧
      (onTarget 255 State.reset).OnTarget 255 ∧ (∀ b, (255 : BitVec 8) ≠ (Config.tvcfg.wr.get b).setWidth 8) ∧
      (inOracle faulted).Ready ∧ (inOracle faulted).env.kind = .oracle :=
  ⟨⟨ready_of (by decide), rfl, rfl, rfl⟩, fun b => by cases b <;> decide,
    ⟨ready_of (by decide), rfl, rfl, rfl⟩, fun b => by cases b <;> decide,
    ⟨ready_of (by decide), rfl, rfl, rfl⟩, fun b => by cases b <;> decide, ready_of (by decide), rfl⟩

/-- `FramesWithoutMeaningFault`: outside test mode, nothing selected, and at the capacity. -/
theorem witness_FramesWithoutMeaningFault :
    (tx .main [] State.reset).Ready ∧ (tx .main [] State.reset).lines.tm = false ∧
      ({ tx .main [] State.reset with lines := { State.reset.lines with tm := true } } : State).Ready ∧
      State.reset.chip.selected = none ∧ (onTarget 1 State.reset).Ready ∧
      (onTarget 1 State.reset).chip.selected = some ((Config.tvcfg.wr.get .main).setWidth 8) ∧
      (Config.tvcfg.cap.get .main).toNat ≤ (10 : BitVec 16).toNat :=
  ⟨ready_of (by decide), rfl, ready_of (by decide), rfl, ready_of (by decide), by decide, by decide⟩

theorem witness_Chainid8Selects : (onTarget 1 State.reset).Ready ∧ (onTarget 1 State.reset).env.kind = .rtm ∧
    (onTarget 1 State.reset).lines.tm = true ∧
    (((onTarget 1 State.reset).chip.treg.get .main).extractLsb' 38 16).toNat < (Config.tvcfg.cap.get .main).toNat ∧
    (inOracle faulted).Ready ∧ (inOracle faulted).env.kind = .oracle :=
  ⟨ready_of (by decide), rfl, rfl, by decide, ready_of (by decide), rfl⟩

theorem witness_Read32IsDeserialized : (onTarget 4 State.reset).OnTarget ((Config.tvcfg.rd.get .output).setWidth 8) ∧
    (onTarget 4 State.reset).Answers 32 ∧ (oracleAnswers (List.replicate 32 true) faulted).Ready ∧
    ∀ j, j < 32 → drawnBit (oracleAnswers (List.replicate 32 true) faulted) j = true :=
  ⟨⟨ready_of (by decide), rfl, rfl, by decide⟩, answers_of (by decide), ready_of (by decide), by decide⟩

/-- `Read32Faults`: an override in the first and in the last cycle, the answer of an oracle in the last, test mode off,
and no read target selected. -/
theorem witness_Read32Faults : (forceAt 0 (onTarget 0 State.reset)).FaultsAt 0 ∧
    (forceAt 31 (onTarget 0 State.reset)).OnTarget ((Config.tvcfg.rd.get .main).setWidth 8) ∧
    (forceAt 31 (onTarget 0 State.reset)).FaultsAt 31 ∧
    (∀ j, j < 31 → drawnBit (oracleAnswers (List.replicate 31 true ++ [false]) faulted) j = true) ∧
    drawnBit (oracleAnswers (List.replicate 31 true ++ [false]) faulted) 31 = false ∧
    (oracleAnswers (List.replicate 31 true ++ [false]) faulted).Ready ∧ (tx .main [] State.reset).Ready ∧
    (tx .main [] State.reset).lines.tm = false ∧
    ∀ b, (onTarget 1 State.reset).chip.selected ≠ some ((Config.tvcfg.rd.get b).setWidth 8) :=
  ⟨faultsAt_of (by decide), ⟨ready_of (by decide), rfl, rfl, by decide⟩, faultsAt_of (by decide), by decide, by decide,
    ready_of (by decide), ready_of (by decide), rfl, fun b => by cases b <;> decide⟩

theorem witness_Clkgen18Drives : faulted.Ready ∧ (inOracle faulted).Ready :=
  ⟨ready_of (by decide), ready_of (by decide)⟩

theorem witness_NoCommandIsStuck : (Instr.unloads .all .all .all).isCommand = true ∧
    (Instr.unloads .all .all .all).wf = true ∧ faulted.Ready := ⟨rfl, by decide, ready_of (by decide)⟩

/-- `PulseAndEventCounts`: commands that end and a read that faults. -/
theorem witness_PulseAndEventCounts : faulted.Ready ∧ faulted.cfg.loadTicks = ⟨0, 1, 1⟩ ∧
    (∃ t, exec (.wrbank .main) (tx .main [9] faulted) = .next t ∧
      decide (t.result = .ok ∧ counts t = (70, 210)) = true) ∧
    (forceAt 5 faulted).FaultsAt (32 * 0 + 5) ∧
    (oracleAnswers (validCycles [true] ++ [true, false]) faulted).FaultsAt (32 * 0 + 1) ∧
    ∃ t, exec (.rdbank .main (.exactly 1)) (forceAt 5 faulted) = .next t ∧
      decide (counts t = (4 + 1 + 74 + 5, 13 + 224 + 4 * 5 + 2)) = true :=
  ⟨ready_of (by decide), rfl, next_of (by decide +kernel), faultsAt_of (by decide), faultsAt_of (by decide),
    next_of (by decide +kernel)⟩

theorem witness_WriteThenReadReturnsTheWords : (tx .main [1, 2, 3] State.reset).Ready ∧
    (tx .main [1, 2, 3] State.reset).env.kind = .rtm ∧
    1 ≤ ((tx .main [1, 2, 3] State.reset).txlen.get .main).toNat ∧
    ((tx .main [1, 2, 3] State.reset).txlen.get .main).toNat < (Config.tvcfg.cap.get .main).toNat ∧
    (tx .main [1, 2, 3] State.reset).Answers (32 * 3) :=
  ⟨ready_of (by decide), rfl, by decide, by decide, answers_of (by decide)⟩

theorem witness_RepeatedReadsAgree : faulted.Ready ∧ faulted.env.kind = .rtm ∧
    faulted.Answers (64 * (faulted.cfg.cap.get .main).toNat) :=
  ⟨ready_of (by decide), rfl, answers_of (by decide +kernel)⟩

theorem witness_OnlyWritesAndRunsChangeBanks : Instr.clear.isCommand = true ∧ Instr.clear.wf = true ∧
    faulted.Ready ∧ (∃ t, exec .clear faulted = .next t ∧ decide (t.result = .ok) = true) ∧
    (∀ b, Instr.clear ≠ .wrbank b) ∧ (∀ h, Instr.clear ≠ .loads h) ∧ ∀ n, Instr.clear ≠ .run n :=
  ⟨rfl, rfl, ready_of (by decide), next_of (by decide +kernel), nofun, nofun, nofun⟩

/-- `TheLastRowIsNeverWritten`: a write that just fits, one that just does not, and a read of the whole bank. -/
theorem witness_TheLastRowIsNeverWritten :
    (∃ t, exec (.wrbank .input) (tx .input [7, 8, 9] State.reset) = .next t ∧
      decide (t.result = .ok ∧ t.row .input 3 = 0xDEAD0003) = true) ∧
      (∃ t, exec (.wrbank .input) (tx .input [7, 8, 9, 10] State.reset) = .next t ∧
        decide (t.result = .capacityError) = true) ∧
      (tx .input [7, 8, 9] State.reset).Ready ∧ 0 < (faulted.cfg.cap.get .input).toNat ∧
      faulted.Answers (32 * (faulted.cfg.cap.get .input).toNat) :=
  ⟨next_of (by decide +kernel), next_of (by decide +kernel), ready_of (by decide), by decide,
    answers_of (by decide)⟩

end Sys2Proof.Tests
end

section
/-! ### When a configuration is valid (00_scope.md R7) -/

namespace Sys2Proof.Machine

open Sys2Proof

theorem Bank_all_all_iff (p : Bank → Bool) : Bank.all.all p = true ↔ ∀ b, p b = true := by
  rw [List.all_eq_true]
  exact ⟨fun h b => h b (by cases b <;> simp [Bank.all]), fun h b _ => h b⟩

/-- The ids are distinct as bit vectors exactly when their numbers are. -/
theorem Config_namedIds_nodup_iff (c : Config) :
    (Config.namedIds c).Nodup ↔ List.Pairwise (fun x y : BitVec 4 => x.toNat ≠ y.toNat)
      [c.rd.main, c.wr.main, c.rd.input, c.wr.input, c.rd.output, c.wr.output, c.ckgenId] :=
  List.Pairwise.iff fun _ _ => BitVec.toNat_inj.not.symm

theorem Config_namedIds_bounded_iff (c : Config) :
    (Config.namedIds c).all (fun i => decide (i.toNat < Config.nchain)) = true ↔
      (∀ b, (c.rd.get b).toNat ≤ 8 ∧ (c.wr.get b).toNat ≤ 8) ∧ c.ckgenId.toNat ≤ 8 := by
  have hlt (n : Nat) : n < Config.nchain ↔ n ≤ 8 := Nat.lt_succ_iff
  simp only [List.all_eq_true, decide_eq_true_eq, hlt]
  constructor
  · intro h
    refine ⟨fun b => ⟨h _ ?_, h _ ?_⟩, h _ ?_⟩
    · cases b <;> simp [Config.namedIds, PerBank.get]
    · cases b <;> simp [Config.namedIds, PerBank.get]
    · simp [Config.namedIds]
  · rintro ⟨hb, hk⟩
    simp only [Config.namedIds, List.forall_mem_cons]
    exact ⟨(hb .main).1, (hb .main).2, (hb .input).1, (hb .input).2, (hb .output).1, (hb .output).2, hk, nofun⟩

/-- The five conjuncts of the check, each as the rule words it. -/
theorem Config_valid_iff (c : Config) :
    Config.valid c = true ↔
      (∀ b, (c.wr.get b).toNat = (c.rd.get b).toNat + 1) ∧ 8 ∣ Config.wordWidth ∧
        List.Pairwise (fun x y : BitVec 4 => x.toNat ≠ y.toNat)
          [c.rd.main, c.wr.main, c.rd.input, c.wr.input, c.rd.output, c.wr.output, c.ckgenId] ∧
        (∀ b, (c.rd.get b).toNat ≤ 8 ∧ (c.wr.get b).toNat ≤ 8) ∧ c.ckgenId.toNat ≤ 8 ∧
        ∀ b, (c.cap.get b).toNat ≤ 65536 := by
  simp only [Config.valid, Bool.and_eq_true, Bank_all_all_iff, Config_namedIds_bounded_iff, Config.targetsPaired,
    decide_eq_true_eq, Config_namedIds_nodup_iff, Nat.dvd_iff_mod_eq_zero, and_assoc]

/-- Construction takes `CFGERR` from the configuration check (10_state.md R37). -/
@[simp] theorem reconstruct_cfgerr (c : Config) (l : Launch) (s : State) :
    (reconstruct c l s).status.cfgerr = !Config.valid c := rfl

/-- Settles O17: the check is taken apart conjunct by conjunct, and construction raises `CFGERR` by it. -/
theorem validConfigurations : Obligations.ValidConfigurations := by
  refine ⟨Config_valid_iff, fun s c l rest hhost hinvalid => ⟨_, step_construct hhost, ?_⟩⟩
  rw [reconstruct_cfgerr, hinvalid, Bool.not_false]

end Sys2Proof.Machine
end

section
/-! ### A payload's bits, in `V` and in `P` (30_encoding.md R81) -/

namespace Sys2Proof.Machine

open Sys2Proof

theorem getElem?_bin {W : Nat} (v : BitVec W) {i : Nat} (h : i < W) : (bin v)[i]? = some (v.getLsbD (W - 1 - i)) := by
  simp [bin, h]

/-- Tail first, a sequence goes from bit 0 up (20_memory.md R45). -/
theorem reverse_bin {W : Nat} (v : BitVec W) : (bin v).reverse = (List.range W).map v.getLsbD := by
  refine List.ext_getElem (by simp) fun i h _ => ?_
  have hi : W - 1 - (W - 1 - i) = i := by simp at h; omega
  simp [getElem_bin, hi]

/-- `P[i] = V[53 - i]`. -/
theorem getElem?_encodePayload (a : BitVec 16) (d : Word) (e w : Bool) (m : BitVec 4) {i : Nat} (h : i < 54) :
    (encodePayload a d e w m)[i]? = some ((payloadValue a d e w m).getLsbD (53 - i)) := by
  rw [← bin_payloadValue, getElem?_bin _ h]

theorem getLsbD_of_extractLsb' {n W : Nat} {v : BitVec n} {f : BitVec W} {start : Nat}
    (h : v.extractLsb' start W = f) {k : Nat} (hk : k < W) : v.getLsbD (start + k) = f.getLsbD k := by
  rw [← h, BitVec.getLsbD_extractLsb', decide_eq_true hk, Bool.true_and]

theorem payloadValue_addrBit (a : BitVec 16) (d : Word) (e w : Bool) (m : BitVec 4) {k : Nat} (hk : k < 16) :
    (payloadValue a d e w m).getLsbD (38 + k) = a.getLsbD k :=
  getLsbD_of_extractLsb' (payloadValue_fields a d e w m).1 hk

theorem payloadValue_dataBit (a : BitVec 16) (d : Word) (e w : Bool) (m : BitVec 4) {k : Nat} (hk : k < 32) :
    (payloadValue a d e w m).getLsbD (6 + k) = d.getLsbD k :=
  getLsbD_of_extractLsb' (payloadValue_fields a d e w m).2.1 hk

theorem payloadValue_maskBit (a : BitVec 16) (d : Word) (e w : Bool) (m : BitVec 4) {k : Nat} (hk : k < 4) :
    (payloadValue a d e w m).getLsbD k = m.getLsbD k := by
  simpa using getLsbD_of_extractLsb' (payloadValue_fields a d e w m).2.2.1 hk

/-- A field of `W` bits that lies in `V` from bit `start` lies in `P` from position `54 - W - start`, its most
significant bit first. -/
theorem getElem?_encodePayload_field {a : BitVec 16} {d : Word} {e w : Bool} {m : BitVec 4} {W start : Nat}
    {f : BitVec W} (hf : ∀ {j}, j < W → (payloadValue a d e w m).getLsbD (start + j) = f.getLsbD j)
    (hW : start + W ≤ 54) {k : Nat} (hk : k < W) :
    (encodePayload a d e w m)[54 - W - start + k]? = some (f.getLsbD (W - 1 - k)) := by
  have hpos : 53 - (54 - W - start + k) = start + (W - 1 - k) := by omega
  rw [getElem?_encodePayload a d e w m (by omega), hpos, hf (by omega)]

theorem ubig_encodePayload (a : BitVec 16) (d : Word) (e w : Bool) (m : BitVec 4) :
    ubig (encodePayload a d e w m) = (payloadValue a d e w m).toNat := by
  rw [← bin_payloadValue, ubig_bin]

/-! ### What `shift_out` drives (40_primitives.md R111) -/

theorem shiftOut_trace {q : BitSeq} {s u : State} (h : Goes (shiftOut q) s u) :
    u.trace = s.trace ++ bitEvents q.reverse := by
  rw [trace_iff, h.log (driveSeq_pure _ _), shiftOut_events, progEvents_driveBits]

/-- The bits of `bin_W(v)` on the wire: pulse `t` carries bit `t` of `v`. -/
theorem bitEvents_reverse_bin {W : Nat} (v : BitVec W) :
    bitEvents (bin v).reverse =
      (List.range W).flatMap fun t => [.w .sdo (v.getLsbD t), .w .sck true, .w .sck false] := by
  rw [reverse_bin, bitEvents, List.flatMap_map]

/-- Settles O6: every position of `P` is a bit of `V`, and the bits of `V` are the fields'; the wire order is
`shift_out`'s, tail first. -/
theorem payloadLayout : Obligations.PayloadLayout := by
  intro a d e w m
  obtain ⟨-, -, -, henable, hwrite⟩ := payloadValue_fields a d e w m
  refine ⟨payloadValue_toNat a d e w m, ubig_encodePayload a d e w m,
    fun k hk => ⟨?addr, payloadValue_addrBit a d e w m hk⟩, fun k hk => ⟨?data, payloadValue_dataBit a d e w m hk⟩,
    ?enable, henable, ?write, hwrite, fun k hk => ⟨?mask, payloadValue_maskBit a d e w m hk⟩, fun s u h => ?wire⟩
  case addr => simpa using getElem?_encodePayload_field (payloadValue_addrBit a d e w m) (by decide) hk
  case data => exact getElem?_encodePayload_field (payloadValue_dataBit a d e w m) (by decide) hk
  case enable => rw [getElem?_encodePayload a d e w m (by decide), henable]
  case write => rw [getElem?_encodePayload a d e w m (by decide), hwrite]
  case mask =>
    exact getElem?_encodePayload_field (start := 0)
      (fun hj => by rw [Nat.zero_add, payloadValue_maskBit a d e w m hj]) (by decide) hk
  case wire => rw [shiftOut_trace h, ← bin_payloadValue, bitEvents_reverse_bin]

end Sys2Proof.Machine
end

section
/-! ### An illegal command word is refused (30_encoding.md R95, 60_exceptions.md R175) -/

namespace Sys2Proof.Machine

open Sys2Proof

/-! What the decoder accepts is legal, operand field by operand field. -/

theorem lengthFieldLegal_encodeLen {l : Length} (h : l.wf = true) : lengthFieldLegal (encodeLen l) = true := by
  cases l with
  | none => decide
  | all => decide
  | exactly n =>
    simp only [Length.wf, Bool.and_eq_true, decide_eq_true_eq] at h
    exact decide_eq_true (Or.inr (by simp only [encodeLen]; omega))

theorem lengthFieldLegal_of_decodeLen {v : BitVec 18} {l : Length} (h : decodeLen v = .ok l) :
    lengthFieldLegal v.toNat = true := by
  obtain ⟨hwf, hv⟩ := decodeLen_ok h
  rw [← hv]
  exact lengthFieldLegal_encodeLen hwf

theorem bankField_lt_of_decodeBank {v : BitVec 2} {b : Bank} (h : decodeBank v = .ok b) : v.toNat < 3 := by
  rw [decodeBank_ok h]
  exact Bank.num_lt b

theorem decodeOperands_wrbank_ok {w : BitVec 64} {i : Instr} (h : decodeOperands .wrbank w = .ok i) :
    (w.extractLsb' 0 2).toNat < 3 := by
  simp only [decodeOperands] at h
  split at h
  next hb => exact bankField_lt_of_decodeBank hb
  next => cases h

theorem decodeOperands_rdbank_ok {w : BitVec 64} {i : Instr} (h : decodeOperands .rdbank w = .ok i) :
    (w.extractLsb' 0 2).toNat < 3 ∧ lengthFieldLegal (w.extractLsb' 2 18).toNat = true := by
  simp only [decodeOperands] at h
  split at h
  next hb hl => exact ⟨bankField_lt_of_decodeBank hb, lengthFieldLegal_of_decodeLen hl⟩
  all_goals cases h

theorem decodeOperands_unloads_ok {w : BitVec 64} {i : Instr} (h : decodeOperands .unloads w = .ok i) :
    lengthFieldLegal (w.extractLsb' 0 18).toNat = true ∧ lengthFieldLegal (w.extractLsb' 18 18).toNat = true ∧
      lengthFieldLegal (w.extractLsb' 36 18).toNat = true := by
  simp only [decodeOperands] at h
  split at h
  next hm hi ho =>
    exact ⟨lengthFieldLegal_of_decodeLen hm, lengthFieldLegal_of_decodeLen hi, lengthFieldLegal_of_decodeLen ho⟩
  all_goals cases h

theorem decodeOperands_ckcfg_ok {w : BitVec 64} {i : Instr} (h : decodeOperands .ckcfg w = .ok i) :
    (1 ≤ (w.extractLsb' 0 4).toNat ∧ (w.extractLsb' 0 4).toNat ≤ 14) ∧
      1 ≤ (w.extractLsb' 4 3).toNat ∧ (w.extractLsb' 4 3).toNat ≤ 4 := by
  simp only [decodeOperands] at h
  split at h
  next hselects => simpa only [freqLegal, ringLegal, Bool.and_eq_true, decide_eq_true_eq] using hselects
  next => cases h

/-- An operand field, in the number that bits 55:0 of the word spell. -/
theorem toNat_operandField (w : BitVec 64) {start len : Nat} (h : start + len ≤ 56) :
    (w.extractLsb' start len).toNat = w.toNat % 2 ^ 56 / 2 ^ start % 2 ^ len := by
  rw [BitVec.extractLsb'_toNat, Nat.shiftRight_eq_div_pow, ← Nat.mod_mul_right_div_self,
    ← Nat.mod_mul_right_div_self (w.toNat % 2 ^ 56), ← pow_add, Nat.mod_mod_of_dvd _ (pow_dvd_pow 2 h)]

/-- The opcode and the operands of a word built of them. -/
theorem word_parts {o : Opcode} {x : Nat} {w : BitVec 64} (hx : x < 2 ^ o.operandBits)
    (hw : w = BitVec.ofNat 64 (o.code.toNat * 2 ^ 56 + x)) :
    w.toNat / 2 ^ 56 = o.code.toNat ∧ w.toNat % 2 ^ 56 = x := by
  have hx56 : x < 2 ^ 56 := lt_of_lt_of_le hx (Nat.pow_le_pow_right (by decide) (by have := o.operandBits_le; omega))
  have hcode := o.code.isLt
  rw [hw, BitVec.toNat_ofNat]
  omega

/-- 30_encoding.md R95, one direction: a word the decoder accepts is none of the illegal ones. -/
theorem wordLegal_of_decodeCommand {w : BitVec 64} {i : Instr} (h : decodeCommand w = .ok i) : wordLegal w = true := by
  obtain ⟨o, x, hx, hw, hoperands⟩ := decodeCommand_ok h
  obtain ⟨hop, hlow⟩ := word_parts hx hw
  have hfield {start len : Nat} (hfit : start + len ≤ 56) :
      (w.extractLsb' start len).toNat = x / 2 ^ start % 2 ^ len := hlow ▸ toNat_operandField w hfit
  unfold wordLegal
  simp only [hop, hlow]
  cases o with
  | brst => exact decide_eq_true (Nat.lt_one_iff.1 hx)
  | clear => exact decide_eq_true (Nat.lt_one_iff.1 hx)
  | wrbank =>
    have hbits : x < 2 ^ 2 := hx
    have hbank := decodeOperands_wrbank_ok hoperands
    rw [hfield (by decide)] at hbank
    exact decide_eq_true (by omega)
  | rdbank =>
    have hbits : x < 2 ^ 20 := hx
    obtain ⟨hbank, hlen⟩ := decodeOperands_rdbank_ok hoperands
    rw [hfield (by decide)] at hbank hlen
    rw [Nat.mod_eq_of_lt (by omega)] at hlen
    change (decide (x < 2 ^ 20) && decide (x % 4 < 3) && lengthFieldLegal (x / 4)) = true
    rw [decide_eq_true hbits, decide_eq_true (by omega)]
    exact hlen
  | loads => exact decide_eq_true hx
  | unloads =>
    have hbits : x < 2 ^ 54 := hx
    obtain ⟨hmain, hinput, houtput⟩ := decodeOperands_unloads_ok hoperands
    rw [hfield (by decide)] at hmain hinput houtput
    rw [pow_zero, Nat.div_one] at hmain
    rw [Nat.mod_eq_of_lt (by omega)] at houtput
    change (decide (x < 2 ^ 54) && lengthFieldLegal (x % 2 ^ 18) && lengthFieldLegal (x / 2 ^ 18 % 2 ^ 18)
      && lengthFieldLegal (x / 2 ^ 36)) = true
    rw [decide_eq_true hbits, hmain, hinput, houtput]
    rfl
  | run => exact decide_eq_true hx
  | ckcfg =>
    have hbits : x < 2 ^ 7 := hx
    obtain ⟨hfreq, hring⟩ := decodeOperands_ckcfg_ok hoperands
    rw [hfield (by decide)] at hfreq hring
    change (decide (x < 2 ^ 7) && decide (1 ≤ x % 16 ∧ x % 16 ≤ 14) && decide (1 ≤ x / 16 ∧ x / 16 ≤ 4)) = true
    rw [decide_eq_true hbits, decide_eq_true (by omega), decide_eq_true (by omega)]
    rfl

theorem decode_error_of_illegal {w : BitVec 64} (h : wordLegal w = false) : ∃ r, decode (.command w) = .error r := by
  cases hd : decodeCommand w with
  | ok i => rw [wordLegal_of_decodeCommand hd] at h; cases h
  | error r => exact ⟨r, hd⟩

/-! The refusal -/

theorem step_command {s : State} {w : BitVec 64} {rest : List HostOp} (h : s.host = .write 0 w :: rest) :
    step s = issue (.command w) { s with host := rest } := by
  unfold step; rw [h]; rfl

/-- Between commands the entry and the end of a refused command undo each other: only `RESULT` is left. -/
theorem raiseError_accepted {s : State} {e : Result} (he : e ≠ .protocolFault) (hb : s.status.busy = false)
    (hp : s.phase = .idle) : raiseError e s.accepted = { s with result := e } := by
  have hstatus : s.status.accept.endBusy = s.status := by
    cases h : s.status
    simp_all [Status.accept, Status.endBusy]
  rw [raiseError_eq, if_neg he, endCommand, accepted_status, hstatus, ← hp]
  rfl

theorem illegalCommand_eq {s : State} (hb : s.status.busy = false) (hp : s.phase = .idle)
    (hc : s.status.cfgerr = false) : illegalCommand s = .next { s with result := .illegalCommand } := by
  rw [illegalCommand, command_illegal _ hc, raiseError_accepted (by decide) hb hp]

theorem issue_rejected {s : State} {c : Code} {r : Reject} (hb : s.status.busy = false) (hd : decode c = .error r) :
    issue c s = illegalCommand (latch c s) := by
  simp only [issue, hb, hd, Bool.false_eq_true, if_false]

/-- Settles O10: the decoder rejects the word, and the refusal of a command between commands leaves only `RESULT`. -/
theorem illegalWordsAreRefused : Obligations.IllegalWordsAreRefused := by
  intro s w rest hinv hcfgerr hhost hillegal
  obtain ⟨r, hr⟩ := decode_error_of_illegal hillegal
  rw [step_command hhost, issue_rejected (s := { s with host := rest }) hinv.busy hr]
  exact illegalCommand_eq hinv.busy hinv.phase hcfgerr

end Sys2Proof.Machine
end

section
/-! ### The codec laws (40_primitives.md R115) -/

namespace Sys2Proof.Machine

open Sys2Proof

theorem decodePayload_encodePayload (a : BitVec 16) (d : Word) (e w : Bool) (m : BitVec 4) :
    decodePayload (encodePayload a d e w m) = ⟨a, d, e, w, m⟩ := by
  rw [← bin_payloadValue, decodePayload_payloadValue]

theorem take_concat_getD (s : BitSeq) {i : Nat} (h : i < s.length) : s.take i ++ [s.getD i false] = s.take (i + 1) := by
  rw [List.getD_eq_getElem s false h, List.take_append_getElem h]

/-- The unpacker's five pieces, at offsets 0, 16, 48, 49 and 50, are adjacent and end with the sequence. -/
theorem payload_pieces {s : BitSeq} (h : s.length = 54) :
    s.take 16 ++ (s.drop 16).take 32 ++ [s.getD 48 false] ++ [s.getD 49 false] ++ (s.drop 50).take 4 = s := by
  rw [← List.take_add, take_concat_getD s (by omega), take_concat_getD s (by omega), ← List.take_add]
  exact List.take_of_length_le h.le

/-- Each field is packed as the piece of the sequence it was read from. -/
theorem encodePayload_decodePayload {s : BitSeq} (h : s.length = 54) :
    encodePayload (decodePayload s).addr (decodePayload s).data (decodePayload s).enable (decodePayload s).write
      (decodePayload s).mask = s := by
  have haddr : bin (decodePayload s).addr = s.take 16 := bin_ubig _ (by simp [h])
  have hdata : bin (decodePayload s).data = (s.drop 16).take 32 := bin_ubig _ (by simp [h])
  have hmask : bin (decodePayload s).mask = (s.drop 50).take 4 := bin_ubig _ (by simp [h])
  rw [encodePayload, haddr, hdata, hmask]
  exact payload_pieces h

/-- Settles O5: the packed fields spell `V`, and the unpacker and the packer undo each other piece by piece. -/
theorem codecLaws : Obligations.CodecLaws :=
  ⟨fun a d e w m => ⟨decodePayload_encodePayload a d e w m, length_encodePayload a d e w m,
    (ubig_encodePayload a d e w m).trans (payloadValue_toNat a d e w m)⟩, fun _ => encodePayload_decodePayload⟩

end Sys2Proof.Machine
end

section
/-! ### The clock-generator sequence (43_clockgen.md R161) -/

namespace Sys2Proof.Machine

open Sys2Proof

theorem freqLegal_iff (f : BitVec 4) : freqLegal f = true ↔ 1 ≤ f.toNat ∧ f.toNat ≤ 14 := by
  simp only [freqLegal, Bool.and_eq_true, decide_eq_true_eq]

theorem ringLegal_iff (r : BitVec 3) : ringLegal r = true ↔ 1 ≤ r.toNat ∧ r.toNat ≤ 4 := by
  simp only [ringLegal, Bool.and_eq_true, decide_eq_true_eq]

@[simp] theorem length_clkgenSeq (f : BitVec 4) (r : BitVec 3) : (clkgenSeq f r).length = 18 := by
  rw [clkgenSeq, List.length_map, List.length_range]

theorem getElem?_clkgenSeq (f : BitVec 4) (r : BitVec 3) {i : Nat} (hi : i < 18) :
    (clkgenSeq f r)[i]? = some (decide (i + 1 = 15 - f.toNat ∨ i + 1 = 19 - r.toNat)) := by
  rw [clkgenSeq, List.getElem?_map, List.getElem?_range hi, Option.map_some, Bool.decide_or]

/-- Two different numbers below `n` are two of the numbers below `n`. -/
theorem count_eq_or_eq {n a b : Nat} (ha : a < n) (hb : b < n) (hab : a ≠ b) :
    Nat.count (fun i => i = a ∨ i = b) n = 2 := by
  have hpair : (Finset.range n).filter (fun i => i = a ∨ i = b) = {a, b} := by
    ext i
    simp only [Finset.mem_filter, Finset.mem_range, Finset.mem_insert, Finset.mem_singleton]
    omega
  rw [Nat.count_eq_card_filter_range, hpair, Finset.card_pair hab]

/-- The two high positions are different, for the first is in 1 to 14 and the second in 15 to 18. -/
theorem countP_clkgenSeq {f : BitVec 4} {r : BitVec 3} (hf : freqLegal f = true) (hr : ringLegal r = true) :
    (clkgenSeq f r).countP id = 2 := by
  obtain ⟨hf1, hf14⟩ := (freqLegal_iff f).mp hf
  obtain ⟨hr1, hr4⟩ := (ringLegal_iff r).mp hr
  have hpositions : ∀ i, (decide (i + 1 = 15 - f.toNat) || decide (i + 1 = 19 - r.toNat)) =
      decide (i = 14 - f.toNat ∨ i = 18 - r.toNat) := by
    intro i
    rw [← Bool.decide_or, decide_eq_decide]
    omega
  calc (clkgenSeq f r).countP id
      = Nat.count (fun i => i = 14 - f.toNat ∨ i = 18 - r.toNat) 18 := by
        simp only [clkgenSeq, List.countP_map, Function.comp_def, id, hpositions, Nat.count]
    _ = 2 := count_eq_or_eq (by omega) (by omega) (by omega)

/-- Settles O7: position `p` is the bit at index `p - 1`, and legal selects put one high position in each group. -/
theorem clockPositions : Obligations.ClockPositions := by
  intro f r hf hr
  obtain ⟨hf1, hf14⟩ := (freqLegal_iff f).mp hf
  obtain ⟨hr1, hr4⟩ := (ringLegal_iff r).mp hr
  have hring : 14 + (5 - r.toNat) = 19 - r.toNat := by omega
  refine ⟨length_clkgenSeq f r, countP_clkgenSeq hf hr, by omega, by omega, by omega, by omega, ?_⟩
  intro p hp1 hp18
  rw [getElem?_clkgenSeq f r (by omega), Nat.sub_add_cancel hp1, hring]

end Sys2Proof.Machine
end

section
/-! ### An invalid configuration refuses every command (60_exceptions.md R171) -/

namespace Sys2Proof.Machine

open Sys2Proof

/-! Every command word is refused. -/

theorem isCommand_of_decodeOperands {o : Opcode} {w : BitVec 64} {i : Instr} (h : decodeOperands o w = .ok i) :
    i.isCommand = true := by
  cases o <;> simp only [decodeOperands] at h
  case brst | clear | loads | run => cases h; rfl
  case wrbank | rdbank | unloads | ckcfg => split at h <;> cases h; rfl

/-- A word of the register port decodes to a command, never to a frame. -/
theorem isCommand_of_decode {w : BitVec 64} {i : Instr} (h : decode (.command w) = .ok i) : i.isCommand = true := by
  obtain ⟨_, _, _, _, hoperands⟩ := decodeCommand_ok h
  exact isCommand_of_decodeOperands hoperands

/-- Between commands the configuration error comes first, whatever the operands and the program, and leaves only
`RESULT`. -/
theorem command_misconfigured {s : State} (l : Bool) (p : List Act) (hb : s.status.busy = false) (hp : s.phase = .idle)
    (hc : s.status.cfgerr = true) : command l p s = .next { s with result := .configurationError } := by
  rw [command_cfgerr l p hc, raiseError_accepted (by decide) hb hp]

theorem issue_command_misconfigured {s : State} (w : BitVec 64) (hb : s.status.busy = false) (hp : s.phase = .idle)
    (hc : s.status.cfgerr = true) :
    issue (.command w) s = .next { s with cmd := w, result := .configurationError } := by
  have hrefused (l : Bool) (p : List Act) : command l p (latch (.command w) s) =
      .next { s with cmd := w, result := .configurationError } := command_misconfigured l p hb hp hc
  cases hd : decode (.command w) with
  | ok i =>
    simp only [issue, hb, hd, Bool.false_eq_true, if_false]
    rw [exec_command (isCommand_of_decode hd), hrefused]
  | error r => rw [issue_rejected hb hd, illegalCommand, hrefused]

/-! No instruction writes the flag. -/

theorem runActs_go_cfgerr {p : List Act} {s t : State} (h : runActs p s = .go t) :
    t.status.cfgerr = s.status.cfgerr := by
  rw [runActs_go_status h, apply_ite Status.cfgerr, Status.clearFault, ite_self]

theorem runActs_stop_cfgerr {p : List Act} {s t : State} {e : Result} (h : runActs p s = .stop t e) :
    t.status.cfgerr = s.status.cfgerr := by
  obtain hsame | hcleared := runActs_stop_status h
  · rw [hsame]
  · rw [hcleared, Status.clearFault]

theorem Ends.cfgerr {p : List Act} {s t : State} (h : Ends p s t) : t.status.cfgerr = s.status.cfgerr := by
  cases h with
  | goes u hu ht => rw [ht, endCommand_status, Status.endBusy, runActs_go_cfgerr hu]
  | stops u r hu ht => rw [ht, finish_cfgerr, runActs_stop_cfgerr hu]

theorem command_keeps_cfgerr {l : Bool} {p : List Act} {s t : State} (h : command l p s = .next t) :
    t.status.cfgerr = s.status.cfgerr := by
  obtain ⟨_, rfl⟩ | ⟨_, _, rfl⟩ | ⟨_, _, hends⟩ := command_next h
  · exact raiseError_cfgerr _ _
  · exact raiseError_cfgerr _ _
  · exact hends.cfgerr

theorem frame_keeps_cfgerr {p : List Act} {s t : State} (h : frame p s = .next t) :
    t.status.cfgerr = s.status.cfgerr := by
  obtain ⟨_, rfl⟩ | ⟨_, ⟨u, hu, rfl⟩ | ⟨u, r, hu, rfl⟩⟩ := frame_next h
  · exact raiseError_cfgerr _ _
  · exact (runActs_go_cfgerr hu :)
  · rw [finish_cfgerr, runActs_stop_cfgerr hu]

/-- `READ32` run alone is its frame, with the presented word set before and taken away after. -/
theorem exec_read32_next {w : Word} {s t : State} (h : exec (.read32 w) s = .next t) :
    ∃ u, frame (shiftIn Config.wordWidth) (presentFrame w s) = .next u ∧ t = endFrame u := by
  rw [exec_read32] at h
  split at h
  next u hu => cases h; exact ⟨u, hu, rfl⟩
  all_goals cases h

theorem exec_keeps_cfgerr {i : Instr} {s t : State} (h : exec i s = .next t) :
    t.status.cfgerr = s.status.cfgerr := by
  by_cases hcommand : i.isCommand = true
  · rw [exec_command hcommand] at h
    exact command_keeps_cfgerr h
  · by_cases hread : ∃ w, i = .read32 w
    · obtain ⟨w, rfl⟩ := hread
      obtain ⟨u, hu, rfl⟩ := exec_read32_next h
      rw [endFrame_status, frame_keeps_cfgerr hu, presentFrame_status]
    · rw [exec_frame (Bool.not_eq_true _ ▸ hcommand) (not_exists.mp hread)] at h
      exact frame_keeps_cfgerr h

/-- Settles O18: construction takes the flag from the configuration check; a refused command's entry and end undo each
other; and the end of a program, however reached, has the flag of its start. -/
theorem configurationErrorRefusesAll : Obligations.ConfigurationErrorRefusesAll := by
  refine ⟨fun s c l rest hhost => ⟨_, step_construct hhost, reconstruct_cfgerr c l _⟩, ?_,
    fun _ _ _ => exec_keeps_cfgerr⟩
  intro s w rest hinv hcfgerr hhost
  rw [step_command hhost]
  exact issue_command_misconfigured w hinv.busy hinv.phase hcfgerr

end Sys2Proof.Machine
end

section
/-! ### How a well-formed command of a valid configuration ends (41_transactions.md R130) -/

namespace Sys2Proof.Machine

open Sys2Proof

theorem exec_next_ends {i : Instr} {s t : State} (hcommand : i.isCommand = true) (hwf : i.wf = true)
    (hcfg : s.status.cfgerr = false) (h : exec i s = .next t) : Ends (programOf i s) s.accepted t := by
  rw [exec_command hcommand, hwf] at h
  obtain ⟨hbad, -⟩ | ⟨-, hillegal, -⟩ | ⟨-, -, hends⟩ := command_next h
  · rw [hcfg] at hbad; cases hbad
  · cases hillegal
  · exact hends

theorem Ends.goes_of_pure {p : List Act} {s t : State} (h : Ends p s t) (hp : p.all Act.isPure = true) :
    ∃ u, Goes p s u ∧ t = endCommand .ok u := by
  cases h with
  | goes u hu ht => exact ⟨u, hu, ht⟩
  | stops u r hu _ => exact absurd hu (runActs_pure_never_stops hp _ _ _)

/-- A program that can stop only with an error has run to its end where the outcome is `Ok`. -/
theorem Ends.goes_of_ok {p : List Act} {s t : State} {e : Result} (h : Ends p s t) (hp : StopsOnly e p)
    (he : e ≠ .ok) (hok : t.result = .ok) : ∃ u, Goes p s u ∧ t = endCommand .ok u := by
  cases h with
  | goes u hu ht => exact ⟨u, hu, ht⟩
  | stops u r hu ht =>
    rw [ht, finish_result, hp.stop hu] at hok
    exact absurd hok he

theorem Ends.of_stop {p : List Act} {s t u : State} {e : Result} (h : Ends p s t) (hu : runActs p s = .stop u e) :
    t = finish e u := by
  cases h with
  | goes v hv _ => rw [hu] at hv; cases hv
  | stops v r hv ht => rw [hu] at hv; cases hv; exact ht

theorem Goes.unique {p : List Act} {s t u : State} (h : Goes p s t) (k : Goes p s u) : t = u :=
  Flow.go.inj (h.symm.trans k)

/-- A program that runs on has met no `raise`. -/
theorem Goes.no_raise {p : List Act} {s t : State} (h : Goes p s t) (e : Result) : Act.raise e ∉ p := by
  induction p generalizing s with
  | nil => exact List.not_mem_nil
  | cons a p ih =>
    obtain ⟨u, ha, hu⟩ := Flow.bind_eq_go.1 h
    refine List.not_mem_cons_of_ne_of_not_mem ?_ (ih hu)
    rintro rfl
    cases ha

end Sys2Proof.Machine
end

section
/-! ### Pulse and event counts of the commands (70_reset_and_hazards.md R214) -/

namespace Sys2Proof.Machine

open Sys2Proof

/-- A command whose program ran to its end has added the program's pulses and events. -/
theorem Goes.command_added {p : List Act} {s u : State} {r : Result} (h : Goes p s.accepted u) :
    Added s (endCommand r u) (programPulses p) (programEvents p) := by
  obtain ⟨es, hlog, hpulses, hevents⟩ := runActs_go_log h
  rw [← hpulses, ← hevents]
  exact Added.of_log hlog

theorem exec_pure_added {i : Instr} {s t : State} (hcommand : i.isCommand = true) (hwf : i.wf = true)
    (hcfg : s.status.cfgerr = false) (hpure : (programOf i s).all Act.isPure = true) (h : exec i s = .next t) :
    Added s t (programPulses (programOf i s)) (programEvents (programOf i s)) := by
  obtain ⟨u, hu, rfl⟩ := (exec_next_ends hcommand hwf hcfg h).goes_of_pure hpure
  exact hu.command_added

/-- A command that ends `Ok`, where stopping is an error, has added its whole program's counts and met no `raise`. -/
theorem exec_ok_added {i : Instr} {s t : State} {e : Result} (hcommand : i.isCommand = true) (hwf : i.wf = true)
    (hcfg : s.status.cfgerr = false) (hstops : StopsOnly e (programOf i s)) (he : e ≠ .ok) (h : exec i s = .next t)
    (hok : t.result = .ok) :
    Added s t (programPulses (programOf i s)) (programEvents (programOf i s)) ∧
      ∀ r, Act.raise r ∉ programOf i s := by
  obtain ⟨u, hu, rfl⟩ := (exec_next_ends hcommand hwf hcfg h).goes_of_ok hstops he hok
  exact ⟨hu.command_added, hu.no_raise⟩

/-- A bank write that is not turned away counts as its transaction. -/
theorem writeBank_counts {s : State} {b : Bank} (ht : s.cfg.loadTicks = ⟨0, 1, 1⟩)
    (h : Act.raise .capacityError ∉ writeBank s b) :
    programPulses (writeBank s b) = s.cfg.resetPulses.toNat + 10 + 56 * (s.txlen.get b).toNat ∧
      programEvents (writeBank s b) = 2 * s.cfg.resetPulses.toNat + 34 + 168 * (s.txlen.get b).toNat := by
  by_cases hfits : (s.txlen.get b).toNat < (s.cfg.cap.get b).toNat
  · rw [writeBank_fits hfits]
    exact writeBody_counts b _ ht
  · rw [writeBank_exceeds (Nat.not_lt.1 hfits)] at h
    exact absurd List.mem_cons_self h

theorem readBank_counts {c : Config} (b : Bank) (len : Length) (ht : c.loadTicks = ⟨0, 1, 1⟩) :
    programPulses (readBank c b len) =
        (if len = .none then 0 else c.resetPulses.toNat + 10 + 106 * readCount (c.cap.get b) len) ∧
      programEvents (readBank c b len) =
        if len = .none then 0 else 2 * c.resetPulses.toNat + 34 + 352 * readCount (c.cap.get b) len := by
  by_cases hnone : len = .none
  · subst hnone
    exact ⟨rfl, rfl⟩
  · rw [if_neg hnone, if_neg hnone, readBank_eq hnone]
    exact readBody_counts b _ ht

@[simp] theorem length_clkgenWire (o : CkcfgOrder) (q : BitSeq) : (clkgenWire o q).length = q.length := by
  cases o with
  | scanOrder => rfl
  | tailFirst => exact List.length_reverse

theorem configure_counts (c : Config) (f : BitVec 4) (r : BitVec 3) :
    programPulses (configure c f r) = 18 ∧ programEvents (configure c f r) = 56 := by
  simp [configure, driveClkgen]

/-- The counts of a load session whose bank writes are not turned away (42_sessions.md R150). -/
theorem loadSession_counts {s : State} {x : Bool} (ht : s.cfg.loadTicks = ⟨0, 1, 1⟩)
    (h : Act.raise .capacityError ∉ loadSession s x) :
    programPulses (loadSession s x) =
        s.cfg.resetPulses.toNat + 586 + (s.cfg.resetPulses.toNat + 10 + 56 * (s.txlen.get .main).toNat) +
          (if x = true then s.cfg.resetPulses.toNat + 10 + 56 * (s.txlen.get .input).toNat else 0) ∧
      programEvents (loadSession s x) =
        2 + (2 * s.cfg.resetPulses.toNat + 1770) +
          (2 * s.cfg.resetPulses.toNat + 34 + 168 * (s.txlen.get .main).toNat) +
          if x = true then 2 * s.cfg.resetPulses.toNat + 34 + 168 * (s.txlen.get .input).toNat else 0 := by
  unfold loadSession at h ⊢
  simp only [List.mem_append, not_or] at h
  obtain ⟨⟨-, hmain⟩, hinput⟩ := h
  obtain ⟨hclearPulses, hclearEvents⟩ := fullChainClear_counts ht
  obtain ⟨hmainPulses, hmainEvents⟩ := writeBank_counts ht hmain
  cases x with
  | false =>
    simp [holdChip, hclearPulses, hclearEvents, hmainPulses, hmainEvents]
    omega
  | true =>
    obtain ⟨hinputPulses, hinputEvents⟩ := writeBank_counts ht hinput
    simp [holdChip, hclearPulses, hclearEvents, hmainPulses, hmainEvents, hinputPulses, hinputEvents]
    omega

/-- The counts of an unload session: its two line writes and its reads (42_sessions.md R151). -/
theorem unloadSession_counts (c : Config) (lm li lo : Length) :
    programPulses (unloadSession c lm li lo) =
        programPulses (readBank c .main lm) + programPulses (readBank c .input li) +
          programPulses (readBank c .output lo) ∧
      programEvents (unloadSession c lm li lo) =
        2 + programEvents (readBank c .main lm) + programEvents (readBank c .input li) +
          programEvents (readBank c .output lo) := by
  simp [unloadSession, holdChip]
  omega

/-- A read that faults in cycle `k` of row `a` has made the pulses and events up to that sample (41_transactions.md
R137). -/
theorem rdbank_faulted_added {s t : State} {b : Bank} {len : Length} {a k : Nat} (hs : s.Ready)
    (ht : s.cfg.loadTicks = ⟨0, 1, 1⟩) (hlen : len.wf = true) (ha : a < readCount (s.cfg.cap.get b) len)
    (hk : k < 32) (hfault : s.FaultsAt (32 * a + k)) (h : exec (.rdbank b len) s = .next t) :
    Added s t (s.cfg.resetPulses.toNat + 1 + 106 * a + 74 + k)
      (2 * s.cfg.resetPulses.toNat + 5 + 352 * a + 224 + 4 * k + 2) := by
  obtain ⟨ws, u, rfl, hstop, hread⟩ := stops_readBank (s := s.accepted) b len a k hs.rest.accepted hs.valid_cfg
    (fun _ => ht) hlen hs.inv.sdiFrame ha hk ⟨hfault.before, hfault.at_⟩
  have hends : Ends (readBank s.cfg b len) s.accepted t := exec_next_ends (i := .rdbank b len) rfl hlen hs.valid h
  obtain ⟨w, -, hlog⟩ := hread.log
  obtain ⟨hpulses, hevents⟩ := faultedReadEvents_counts b ws w k ht
  rw [hends.of_stop hstop, ← hpulses, ← hevents]
  exact Added.of_log hlog

/-- Samples move no clock. -/
theorem pulseCount_samples {es : List Event} (h : ∀ x ∈ es, x = .r .done true ∨ x = .r .done false) :
    pulseCount es = 0 := by
  rw [pulseCount, List.countP_eq_zero]
  intro x hx
  obtain rfl | rfl := h x hx <;> decide

/-- A `RUN` writes its two lines and samples `DONE` once a poll (42_sessions.md R152). -/
theorem run_added {s t : State} {n : BitVec 32} (hcfg : s.status.cfgerr = false) (h : exec (.run n) s = .next t) :
    Added s t 0 (2 + t.elapsed.toNat) := by
  have hends : Ends (runProgram n.toNat) s.accepted t := exec_next_ends (i := .run n) rfl rfl hcfg h
  obtain ⟨u, e, es, hstop, hlog, helapsed, -, hes⟩ :=
    polls_end n.toNat (s := s.polling) (by change 0 + n.toNat < 2 ^ 32; omega)
  rw [← runActs_runProgram] at hstop
  have hnew : u.log = ([Event.w .clksel clkInt, .w .crst false] ++ es.reverse).reverse ++ s.log := by
    rw [hlog]
    simp [State.polling, recordWrite]
  have hpulses : pulseCount ([Event.w .clksel clkInt, .w .crst false] ++ es.reverse) = 0 := by
    rw [pulseCount_append, pulseCount_reverse, pulseCount_samples hes]
    rfl
  have hevents : ([Event.w .clksel clkInt, .w .crst false] ++ es.reverse).length = 2 + u.elapsed.toNat := by
    rw [List.length_append, List.length_reverse, helapsed]
    exact congrArg (2 + ·) (Nat.zero_add _).symm
  rw [hends.of_stop hstop, finish_elapsed, ← hpulses, ← hevents]
  exact Added.of_log (by rw [finish_log, hnew])

theorem busReset_added {s t : State} (hcfg : s.status.cfgerr = false)
    (h : runActs (busReset s.cfg) s = .go t ∨ exec .brst s = .next t) :
    Added s t (s.cfg.resetPulses.toNat + 1) (2 * s.cfg.resetPulses.toNat + 4) := by
  rw [← programPulses_busReset, ← programEvents_busReset]
  obtain h | h := h
  · exact runActs_go_added h
  · exact exec_pure_added (i := .brst) rfl rfl hcfg (busReset_pure s.cfg) h

theorem tm_added {s t : State} (h : runActs tmEnter s = .go t ∨ runActs tmExit s = .go t) : Added s t 0 1 := by
  obtain h | h := h
  · exact (runActs_go_added h :)
  · exact (runActs_go_added h :)

theorem clear_added {s t : State} (hcfg : s.status.cfgerr = false) (ht : s.cfg.loadTicks = ⟨0, 1, 1⟩)
    (h : exec .clear s = .next t) :
    Added s t (s.cfg.resetPulses.toNat + 586) (2 * s.cfg.resetPulses.toNat + 1770) := by
  obtain ⟨hpulses, hevents⟩ := fullChainClear_counts ht
  rw [← hpulses, ← hevents]
  exact exec_pure_added (i := .clear) rfl rfl hcfg (fullChainClear_pure s.cfg) h

theorem wrbank_added {s t : State} {b : Bank} (hcfg : s.status.cfgerr = false) (ht : s.cfg.loadTicks = ⟨0, 1, 1⟩)
    (h : exec (.wrbank b) s = .next t) (hok : t.result = .ok) :
    Added s t (s.cfg.resetPulses.toNat + 10 + 56 * (s.txlen.get b).toNat)
      (2 * s.cfg.resetPulses.toNat + 34 + 168 * (s.txlen.get b).toNat) := by
  obtain ⟨hadded, hraise⟩ :=
    exec_ok_added (i := .wrbank b) rfl rfl hcfg (stopsOnly_writeBank s b) (by decide) h hok
  obtain ⟨hpulses, hevents⟩ := writeBank_counts ht (hraise _)
  rw [← hpulses, ← hevents]
  exact hadded

theorem rdbank_added {s t : State} {b : Bank} {len : Length} (hcfg : s.status.cfgerr = false)
    (ht : s.cfg.loadTicks = ⟨0, 1, 1⟩) (hlen : len.wf = true) (hnone : len ≠ .none)
    (h : exec (.rdbank b len) s = .next t) (hok : t.result = .ok) :
    Added s t (s.cfg.resetPulses.toNat + 10 + 106 * readCount (s.cfg.cap.get b) len)
      (2 * s.cfg.resetPulses.toNat + 34 + 352 * readCount (s.cfg.cap.get b) len) := by
  obtain ⟨hadded, -⟩ :=
    exec_ok_added (i := .rdbank b len) rfl hlen hcfg (stopsOnly_readBank s.cfg b len) (by decide) h hok
  obtain ⟨hpulses, hevents⟩ := readBank_counts (c := s.cfg) b len ht
  rw [if_neg hnone] at hpulses hevents
  rw [← hpulses, ← hevents]
  exact hadded

theorem loads_added {s t : State} {x : Bool} (hcfg : s.status.cfgerr = false) (ht : s.cfg.loadTicks = ⟨0, 1, 1⟩)
    (h : exec (.loads x) s = .next t) (hok : t.result = .ok) :
    Added s t
      (s.cfg.resetPulses.toNat + 586 + (s.cfg.resetPulses.toNat + 10 + 56 * (s.txlen.get .main).toNat) +
        if x = true then s.cfg.resetPulses.toNat + 10 + 56 * (s.txlen.get .input).toNat else 0)
      (2 + (2 * s.cfg.resetPulses.toNat + 1770) +
        (2 * s.cfg.resetPulses.toNat + 34 + 168 * (s.txlen.get .main).toNat) +
        if x = true then 2 * s.cfg.resetPulses.toNat + 34 + 168 * (s.txlen.get .input).toNat else 0) := by
  obtain ⟨hadded, hraise⟩ :=
    exec_ok_added (i := .loads x) rfl rfl hcfg (stopsOnly_loadSession s x) (by decide) h hok
  obtain ⟨hpulses, hevents⟩ := loadSession_counts ht (hraise _)
  rw [← hpulses, ← hevents]
  exact hadded

theorem unloads_added {s t : State} {lm li lo : Length} (hwf : (Instr.unloads lm li lo).wf = true)
    (hcfg : s.status.cfgerr = false) (h : exec (.unloads lm li lo) s = .next t) (hok : t.result = .ok) :
    Added s t
      (programPulses (readBank s.cfg .main lm) + programPulses (readBank s.cfg .input li) +
        programPulses (readBank s.cfg .output lo))
      (2 + programEvents (readBank s.cfg .main lm) + programEvents (readBank s.cfg .input li) +
        programEvents (readBank s.cfg .output lo)) := by
  obtain ⟨hadded, -⟩ := exec_ok_added rfl hwf hcfg (stopsOnly_unloadSession s.cfg lm li lo) (by decide) h hok
  obtain ⟨hpulses, hevents⟩ := unloadSession_counts s.cfg lm li lo
  rw [← hpulses, ← hevents]
  exact hadded

theorem ckcfg_added {s t : State} {f : BitVec 4} {r : BitVec 3} (hwf : (Instr.ckcfg f r).wf = true)
    (hcfg : s.status.cfgerr = false) (h : exec (.ckcfg f r) s = .next t) : Added s t 18 56 := by
  obtain ⟨hpulses, hevents⟩ := configure_counts s.cfg f r
  rw [← hpulses, ← hevents]
  exact exec_pure_added rfl hwf hcfg (driveClkgen_pure _ _) h

/-- Settles O55: a program that runs to its end adds its steps' counts, summed once for each micro-operation and
transaction; the two ends that are stops, a faulted read and a `RUN`, add the events the rules name. -/
theorem pulseAndEventCounts : Obligations.PulseAndEventCounts := by
  intro s t hs ht
  have hcfg := hs.valid
  have hunloads (lm li lo : Length) (hwf : (Instr.unloads lm li lo).wf = true)
      (h : exec (.unloads lm li lo) s = .next t) (hok : t.result = .ok) := unloads_added hwf hcfg h hok
  simp only [readBank_counts (c := s.cfg) _ _ ht] at hunloads
  exact ⟨fun c h => by simpa using runActs_go_added h,
    fun q h => by simpa [shiftOut] using runActs_go_added h,
    fun h => by simpa using runActs_go_added h,
    fun id h => by simpa using runActs_go_added h,
    fun a d e w m h => by simpa [ht] using runActs_go_added h,
    tm_added,
    busReset_added hcfg,
    clear_added hcfg ht,
    fun b => wrbank_added hcfg ht,
    fun b => exec_pure_added (i := .rdbank b .none) rfl rfl hcfg rfl,
    fun b len hlen hnone => rdbank_added hcfg ht hlen hnone,
    fun b len a k hlen ha hk hfault => rdbank_faulted_added hs ht hlen ha hk hfault,
    fun x => loads_added hcfg ht,
    fun lm li lo hlm hli hlo => hunloads lm li lo (by simp [Instr.wf, hlm, hli, hlo]),
    fun n => run_added hcfg,
    fun f r hf hr => ckcfg_added (by simp [Instr.wf, hf, hr]) hcfg⟩

end Sys2Proof.Machine
end

section
/-! ### What the transactions of a command leave of the banks (20_memory.md R49, R68) -/

namespace Sys2Proof.Machine

open Sys2Proof

/-- Between two transactions of a command of `s`: the scan lines at rest, the banks' memory with the property `K`. -/
structure Between (K : Memory → Prop) (s t : State) : Prop where
  reach : Reach s.accepted t
  rest : Rest t
  mem : K t.chip.mem

/-- Started between transactions, the program goes on to there, and where it stops instead the memory has `K` too. -/
abbrev KeepsMem (K : Memory → Prop) (s : State) (p : List Act) : Prop :=
  Leads (Between K s) p (Between K s) fun t => K t.chip.mem

theorem Between.start {K : Memory → Prop} {s : State} (hs : s.Ready) (h : K s.chip.mem) : Between K s s.accepted :=
  ⟨Reach.refl _, hs.rest.accepted, h⟩

section
variable {K : Memory → Prop} {s u : State} (h : Between K s u) (hs : s.Ready)
include h

theorem Between.cfg : u.cfg = s.cfg := h.reach.cfg

include hs

theorem Between.valid : Config.valid u.cfg = true := by rw [h.cfg]; exact hs.valid_cfg

theorem Between.ticks (hk : u.env.kind = .rtm) : u.cfg.loadTicks = ⟨0, 1, 1⟩ := by
  rw [h.cfg]
  exact hs.ticks (h.reach.kind.symm.trans hk)

theorem Between.sdiFrame : u.env.sdiFrame = [] := h.reach.sdiFrame hs.inv.sdiFrame

theorem Between.wf : u.chip.mem.wf = true := h.reach.mem hs.inv.mem

end

/-- In an oracle a pure program leaves the whole chip, so what it does to the memory is for the RTM to say. -/
theorem KeepsMem.pure {K : Memory → Prop} {s : State} {p : List Act} (hp : p.all Act.isPure = true)
    (hrest : Leads (Held false false false false) p (Held false false false false)
      (Held false false false false))
    (hmem : ∀ u, Between K s u → u.env.kind = .rtm → ∃ t, Goes p u t ∧ K t.chip.mem) : KeepsMem K s p := by
  refine Leads.pure hp fun u t hu hgo => ⟨hu.reach.trans (runActs_reach hgo), ?_, ?_⟩
  · have hheld := hrest u (held_rest.2 hu.rest)
    rw [hgo] at hheld
    exact held_rest.1 hheld
  · cases hk : u.env.kind with
    | oracle =>
      rw [(runActs_reach hgo).oracle hk]
      exact hu.mem
    | rtm =>
      obtain ⟨t', hgo', hK⟩ := hmem u hu hk
      rwa [Goes.unique hgo hgo']

section
variable {K : Memory → Prop} {s : State}

theorem keepsMem_holdChip : KeepsMem K s holdChip :=
  KeepsMem.pure rfl leads_holdChip fun u hu _ => ⟨_, goes_holdChip u, hu.mem⟩

theorem keepsMem_busReset : KeepsMem K s (busReset s.cfg) := by
  refine KeepsMem.pure (busReset_pure _) (leads_busReset _) fun u hu hk => ?_
  obtain ⟨t, hgo, -, -, -, -, hmem, -⟩ := goes_busReset hu.rest hk
  rw [hu.cfg] at hgo
  exact ⟨t, hgo, by rw [hmem]; exact hu.mem⟩

theorem keepsMem_driveClkgen (o : CkcfgOrder) (q : BitSeq) : KeepsMem K s (driveClkgen o q) := by
  refine KeepsMem.pure (driveClkgen_pure _ _) (leads_driveClkgen _ _) fun u hu hk => ?_
  obtain ⟨t, hgo, hmem, -⟩ := goes_driveClkgen o q hu.rest hk
  exact ⟨t, hgo, by rw [hmem]; exact hu.mem⟩

theorem keepsMem_fullChainClear (hs : s.Ready) : KeepsMem K s (fullChainClear s.cfg) := by
  refine KeepsMem.pure (fullChainClear_pure _) (leads_fullChainClear _) fun u hu hk => ?_
  obtain ⟨t, hgo, -, -, -, hmem, -⟩ := goes_fullChainClear hu.rest hk (hu.valid hs) (hu.ticks hs hk)
  rw [hu.cfg] at hgo
  exact ⟨t, hgo, by rw [hmem]; exact hu.mem⟩

/-- A bank read writes no row, also where it faults (41_transactions.md R136, R137). -/
theorem keepsMem_readBank (hs : s.Ready) (b : Bank) {len : Length} (hlen : len.wf = true) :
    KeepsMem K s (readBank s.cfg b len) := by
  intro u hu
  have hends := readBank_ends b len hu.rest (hu.valid hs) (hu.ticks hs) hlen (hu.sdiFrame hs)
  rw [hu.cfg] at hends
  obtain ⟨ws, t, hgo, hdone⟩ | ⟨ws, t, k, hstop, hfault⟩ := hends
  · rw [hgo]
    exact ⟨hu.reach.trans hdone.reach, hdone.rest, by rw [hdone.mem]; exact hu.mem⟩
  · rw [hstop]
    exact (congrArg K hfault.mem).mpr hu.mem

end

/-- A property that a command's program keeps holds after the command, however it ends. -/
theorem KeepsMem.exec {K : Memory → Prop} {i : Instr} {s t : State} (hcommand : i.isCommand = true)
    (hwf : i.wf = true) (hs : s.Ready) (hkeeps : KeepsMem K s (programOf i s)) (hK : K s.chip.mem)
    (h : exec i s = .next t) : K t.chip.mem := by
  have hend := hkeeps s.accepted (Between.start hs hK)
  cases exec_next_ends hcommand hwf hs.valid h with
  | goes u hu ht =>
    rw [hu] at hend
    rw [ht]
    exact hend.mem
  | stops u r hu ht =>
    rw [hu] at hend
    rw [ht, finish_chip]
    exact hend

end Sys2Proof.Machine
end

section
/-! ### The last row of a bank (70_reset_and_hazards.md R211) -/

namespace Sys2Proof.Machine

open Sys2Proof

/-- `WRBANK b` ends `Ok` exactly when its words leave the bank's last row free (41_transactions.md R134). -/
theorem wrbank_result_ok_iff {s t : State} {b : Bank} (hcfg : s.status.cfgerr = false)
    (h : exec (.wrbank b) s = .next t) :
    t.result = .ok ↔ (s.txlen.get b).toNat + 1 ≤ (s.cfg.cap.get b).toNat := by
  have hends : Ends (writeBank s b) s.accepted t := exec_next_ends rfl rfl hcfg h
  by_cases hfits : (s.txlen.get b).toNat < (s.cfg.cap.get b).toNat
  · rw [writeBank_fits hfits] at hends
    obtain ⟨u, -, rfl⟩ := hends.goes_of_pure (writeBody_pure _ _ _)
    exact iff_of_true rfl hfits
  · rw [writeBank_exceeds (Nat.not_lt.1 hfits)] at hends
    rw [hends.of_stop rfl, finish_result]
    exact iff_of_false (by decide) hfits

/-- Every bank's last row is as it was in `s`. -/
def LastRowsOf (s : State) (m : Memory) : Prop :=
  ∀ b, 0 < (s.cfg.cap.get b).toNat →
    m.readRow b (BitVec.ofNat 16 ((s.cfg.cap.get b).toNat - 1)) = s.row b ((s.cfg.cap.get b).toNat - 1)

/-- A row below the last is another row than any bank's last. -/
theorem lastRow_ne {c : Config} (hc : Config.valid c = true) {b d : Bank} {a : Nat} (ha : a + 1 < (c.cap.get b).toNat) :
    (d, BitVec.ofNat 16 ((c.cap.get d).toNat - 1)) ≠ (b, BitVec.ofNat 16 a) := by
  intro h
  obtain ⟨rfl, hrow⟩ := Prod.mk.inj h
  have hcap := (Config_valid_ids hc).2.2.2 d
  have hnum := congrArg BitVec.toNat hrow
  rw [BitVec.toNat_ofNat, BitVec.toNat_ofNat, Nat.mod_eq_of_lt (by omega), Nat.mod_eq_of_lt (by omega)] at hnum
  omega

/-- The capacity check leaves the last row out of every bank write (41_transactions.md R134). -/
theorem keepsMem_writeBank {s : State} (hs : s.Ready) (b : Bank) : KeepsMem (LastRowsOf s) s (writeBank s b) := by
  by_cases hfits : (s.txlen.get b).toNat < (s.cfg.cap.get b).toNat
  · have hrest := leads_writeBank s b
    rw [writeBank_fits hfits] at hrest ⊢
    refine KeepsMem.pure (writeBody_pure _ _ _) hrest fun u hu hk => ?_
    have hroom : (s.txlen.get b).toNat ≤ (u.cfg.cap.get b).toNat := by
      rw [hu.cfg]
      exact hfits.le
    obtain ⟨t, hgo, -, -, -, -, -, hmem, -⟩ := goes_writeBody (src := s) hu.rest hk (hu.valid hs) (hu.ticks hs hk)
      hu.cfg.symm hroom
    obtain ⟨-, -, hother⟩ := hmem (hu.wf hs)
    refine ⟨t, hgo, fun d hd => ?_⟩
    rw [← hu.mem d hd]
    refine Memory.readRow_congr fun i hi => hother _ fun a ha => ?_
    have hbelow : a + 1 < (s.cfg.cap.get b).toNat := by omega
    have hdisjoint := rowAddr_disjoint (lastRow_ne hs.valid_cfg (d := d) hbelow)
    omega
  · rw [writeBank_exceeds (Nat.not_lt.1 hfits)]
    exact fun u hu => hu.mem

theorem keepsMem_programOf {i : Instr} {s : State} (hcommand : i.isCommand = true) (hwf : i.wf = true)
    (hrun : ∀ n, i ≠ .run n) (hs : s.Ready) : KeepsMem (LastRowsOf s) s (programOf i s) := by
  cases i with
  | brst => exact keepsMem_busReset
  | clear => exact keepsMem_fullChainClear hs
  | wrbank b => exact keepsMem_writeBank hs b
  | rdbank b len => exact keepsMem_readBank hs b hwf
  | loads x =>
    refine ((keepsMem_holdChip.append (keepsMem_fullChainClear hs)).append (keepsMem_writeBank hs .main)).append ?_
    cases x with
    | false => exact Leads.nil
    | true => exact keepsMem_writeBank hs .input
  | unloads lm li lo =>
    simp only [Instr.wf, Bool.and_eq_true] at hwf
    obtain ⟨⟨hlm, hli⟩, hlo⟩ := hwf
    exact ((keepsMem_holdChip.append (keepsMem_readBank hs .main hlm)).append
      (keepsMem_readBank hs .input hli)).append (keepsMem_readBank hs .output hlo)
  | run n => exact absurd rfl (hrun n)
  | ckcfg f r => exact keepsMem_driveClkgen _ _
  | payWrite | paySetaddr | payDisable | payReserved | chainid8 | read32 | clkgen18 => cases hcommand

/-- In the RTM a read of the whole bank ends with the last row as its last word (41_transactions.md R136). -/
theorem rdbank_all_reads_lastRow {s : State} {b : Bank} (hs : s.Ready) (hk : s.env.kind = .rtm)
    (hcap : 0 < (s.cfg.cap.get b).toNat) (ha : s.Answers (32 * (s.cfg.cap.get b).toNat)) :
    ∃ t, exec (.rdbank b .all) s = .next t ∧
      (t.rxWords b)[(s.cfg.cap.get b).toNat - 1]? = some (s.row b ((s.cfg.cap.get b).toNat - 1)) := by
  obtain ⟨ws, u, hlen, hgo, hdone⟩ := goes_readBank (s := s.accepted) b .all hs.rest.accepted hs.valid_cfg
    hs.ticks rfl hs.inv.sdiFrame ha
  have hcount : ws.length = (s.cfg.cap.get b).toNat := hlen
  refine ⟨endCommand .ok u, command_go hs.valid hgo, ?_⟩
  have hwords : (endCommand .ok u).rxWords b = ws := (hdone.received (hs.inv.rxbuf b)).words
  have hlast : (s.cfg.cap.get b).toNat - 1 < ws.length := by omega
  rw [hwords, List.getElem?_eq_getElem hlast]
  have hrow := hdone.words _ _ (List.getElem?_eq_getElem hlast)
  simp only [RowAnswered, accepted_env, hk] at hrow
  exact congrArg some (hrow (Nat.sub_one_lt (by omega)))

/-- Settles O59: the capacity check stops every bank write short of the last row, no other transaction writes a row, and
a read of the whole bank reaches the last. -/
theorem theLastRowIsNeverWritten : Obligations.TheLastRowIsNeverWritten :=
  ⟨fun _ _ _ hs h => wrbank_result_ok_iff hs.valid h,
    fun _ _ _ b hcommand hwf hrun hs h hcap =>
      (keepsMem_programOf hcommand hwf hrun hs).exec hcommand hwf hs (fun _ _ => rfl) h b hcap,
    fun _ _ hs hk hcap ha => rdbank_all_reads_lastRow hs hk hcap ha⟩

end Sys2Proof.Machine
end

section
/-! ### The encoder and the decoder undo each other (30_encoding.md R81 to R95) -/

namespace Sys2Proof.Machine

open Sys2Proof

/-! From the instruction to its word and back. -/

/-- A word's operands are read from its fields, each a piece of the number that the operands make. -/
theorem decode_commandWord {o : Opcode} {x : Nat} {i : Instr} (hx : x < 2 ^ o.operandBits)
    (h : ∀ w : BitVec 64,
      (∀ {start len : Nat}, start + len ≤ 56 → w.extractLsb' start len = BitVec.ofNat len (x / 2 ^ start)) →
        decodeOperands o w = .ok i) : decode (commandWord o x) = .ok i := by
  obtain ⟨w, hw⟩ : ∃ w, w = BitVec.ofNat 64 (o.code.toNat * 2 ^ 56 + x) := ⟨_, rfl⟩
  have hfields {start len : Nat} (hfit : start + len ≤ 56) :
      w.extractLsb' start len = BitVec.ofNat len (x / 2 ^ start) := by
    apply BitVec.eq_of_toNat_eq
    rw [toNat_operandField w hfit, (word_parts hx hw).2, BitVec.toNat_ofNat]
  rw [commandWord, ← hw]
  exact (decodeCommand_word hx hw).trans (h w hfields)

/-- A field reads the number `y` it was given when the number of all operands holds `y` there. -/
theorem ofNat_field {len x y : Nat} (h : x % 2 ^ len = y % 2 ^ len) : BitVec.ofNat len x = BitVec.ofNat len y := by
  apply BitVec.eq_of_toNat_eq
  rw [BitVec.toNat_ofNat, BitVec.toNat_ofNat, h]

theorem decode_encode_rdbank {b : Bank} {l : Length} (h : l.wf = true) :
    decode (encode (.rdbank b l)) = .ok (.rdbank b l) := by
  have hlen := encodeLen_lt h
  have hbank := Bank.num_lt b
  refine decode_commandWord (show _ < 2 ^ 20 by omega) fun w hw => ?_
  have hb : BitVec.ofNat 2 ((encodeLen l * 4 + b.num) / 2 ^ 0) = BitVec.ofNat 2 b.num := ofNat_field (by omega)
  have hl : BitVec.ofNat 18 ((encodeLen l * 4 + b.num) / 2 ^ 2) = BitVec.ofNat 18 (encodeLen l) :=
    ofNat_field (by omega)
  simp only [decodeOperands, hw (show 0 + 2 ≤ 56 by decide), hw (show 2 + 18 ≤ 56 by decide), hb, hl, decodeBank_num,
    decodeLen_encodeLen h]

theorem decode_encode_unloads {lm li lo : Length} (hm : lm.wf = true) (hi : li.wf = true) (ho : lo.wf = true) :
    decode (encode (.unloads lm li lo)) = .ok (.unloads lm li lo) := by
  have hmlt := encodeLen_lt hm
  have hilt := encodeLen_lt hi
  have holt := encodeLen_lt ho
  refine decode_commandWord (show _ < 2 ^ 54 by omega) fun w hw => ?_
  obtain ⟨x, hx⟩ : ∃ x, x = encodeLen lm + encodeLen li * 2 ^ 18 + encodeLen lo * 2 ^ 36 := ⟨_, rfl⟩
  rw [← hx] at hw
  have hfm : BitVec.ofNat 18 (x / 2 ^ 0) = BitVec.ofNat 18 (encodeLen lm) := ofNat_field (by omega)
  have hfi : BitVec.ofNat 18 (x / 2 ^ 18) = BitVec.ofNat 18 (encodeLen li) := ofNat_field (by omega)
  have hfo : BitVec.ofNat 18 (x / 2 ^ 36) = BitVec.ofNat 18 (encodeLen lo) := ofNat_field (by omega)
  simp only [decodeOperands, hw (show 0 + 18 ≤ 56 by decide), hw (show 18 + 18 ≤ 56 by decide),
    hw (show 36 + 18 ≤ 56 by decide), hfm, hfi, hfo, decodeLen_encodeLen hm, decodeLen_encodeLen hi,
    decodeLen_encodeLen ho]

theorem decode_encode_ckcfg {f : BitVec 4} {r : BitVec 3} (h : (freqLegal f && ringLegal r) = true) :
    decode (encode (.ckcfg f r)) = .ok (.ckcfg f r) := by
  have hflt := f.isLt
  have hrlt := r.isLt
  refine decode_commandWord (show _ < 2 ^ 7 by omega) fun w hw => ?_
  have hf : w.extractLsb' 0 4 = f := by
    rw [hw (by decide), ofNat_field (y := f.toNat) (by omega), BitVec.ofNat_toNat, BitVec.setWidth_eq]
  have hr : w.extractLsb' 4 3 = r := by
    rw [hw (by decide), ofNat_field (y := r.toNat) (by omega), BitVec.ofNat_toNat, BitVec.setWidth_eq]
  simp only [decodeOperands, hf, hr, h, if_true]

theorem decodeFrame_payloadValue (a : BitVec 16) (d : Word) (e w : Bool) (m : BitVec 4) :
    decodeFrame (.payload54 (payloadValue a d e w m)) = payloadInstr e w a d m := by
  obtain ⟨haddr, hdata, hmask, henable, hwrite⟩ := payloadValue_fields a d e w m
  simp only [decodeFrame, haddr, hdata, hmask, henable, hwrite]
  cases e <;> cases w <;> rfl

theorem decodeFrame_clkgen (f : BitVec 14) (r : BitVec 4) :
    decodeFrame (.clkgen18 (BitVec.ofNat 18 (f.toNat * 16 + r.toNat))) = .clkgen18 f r := by
  have hflt := f.isLt
  have hrlt := r.isLt
  have hnum : (BitVec.ofNat 18 (f.toNat * 16 + r.toNat)).toNat = f.toNat * 16 + r.toNat := by
    rw [BitVec.toNat_ofNat]; omega
  rw [decodeFrame, Instr.clkgen18.injEq]
  constructor <;> apply BitVec.eq_of_toNat_eq <;>
    rw [BitVec.extractLsb'_toNat, hnum, Nat.shiftRight_eq_div_pow] <;> omega

theorem decode_encode {i : Instr} (hwf : i.wf = true) : decode (encode i) = .ok i := by
  cases i with
  | brst => exact decode_commandWord (by decide) fun _ _ => rfl
  | clear => exact decode_commandWord (by decide) fun _ _ => rfl
  | wrbank b =>
    have hbank := Bank.num_lt b
    refine decode_commandWord (show _ < 2 ^ 2 by omega) fun w hw => ?_
    simp only [decodeOperands, hw (show 0 + 2 ≤ 56 by decide), pow_zero, Nat.div_one, decodeBank_num]
  | rdbank b l => exact decode_encode_rdbank hwf
  | loads h =>
    refine decode_commandWord (show _ < 2 ^ 1 by cases h <;> decide) fun w hw => ?_
    have hbit : w.getLsbD 0 = h := by
      have hfield := congrArg (fun v : BitVec 1 => v.getLsbD 0) (hw (show 0 + 1 ≤ 56 by decide))
      cases h <;> simpa using hfield
    rw [decodeOperands, hbit]
  | unloads lm li lo =>
    simp only [Instr.wf, Bool.and_eq_true] at hwf
    obtain ⟨⟨hm, hi⟩, ho⟩ := hwf
    exact decode_encode_unloads hm hi ho
  | run t =>
    refine decode_commandWord t.isLt fun w hw => ?_
    rw [decodeOperands, hw (by decide), pow_zero, Nat.div_one, BitVec.ofNat_toNat, BitVec.setWidth_eq]
  | ckcfg f r => exact decode_encode_ckcfg hwf
  | payWrite a d m => exact congrArg Except.ok (decodeFrame_payloadValue a d true true m)
  | paySetaddr a d m => exact congrArg Except.ok (decodeFrame_payloadValue a d true false m)
  | payDisable a d m => exact congrArg Except.ok (decodeFrame_payloadValue a d false false m)
  | payReserved a d m => exact congrArg Except.ok (decodeFrame_payloadValue a d false true m)
  | chainid8 id => rfl
  | read32 w => rfl
  | clkgen18 f r => exact congrArg Except.ok (decodeFrame_clkgen f r)

/-- Settles O1: each operand field of the encoder's word reads back what was put there. -/
theorem decodeOfEncode : Obligations.DecodeOfEncode := fun _ => decode_encode

/-! From the word to the instruction and back. -/

theorem encode_of_decodeOperands {o : Opcode} {x : Nat} {w : BitVec 64} {i : Instr} (hx : x < 2 ^ o.operandBits)
    (hfield : ∀ {start len : Nat}, start + len ≤ 56 → (w.extractLsb' start len).toNat = x / 2 ^ start % 2 ^ len)
    (h : decodeOperands o w = .ok i) : i.wf = true ∧ encode i = commandWord o x := by
  cases o with
  | brst => cases h; exact ⟨rfl, congrArg (commandWord .brst) (Nat.lt_one_iff.1 hx).symm⟩
  | clear => cases h; exact ⟨rfl, congrArg (commandWord .clear) (Nat.lt_one_iff.1 hx).symm⟩
  | wrbank =>
    have hbits : x < 2 ^ 2 := hx
    simp only [decodeOperands] at h
    split at h
    next b hb =>
      cases h
      have hnum := (decodeBank_ok hb).symm.trans (hfield (by decide))
      exact ⟨rfl, congrArg (commandWord .wrbank) (by omega)⟩
    next => cases h
  | rdbank =>
    have hbits : x < 2 ^ 20 := hx
    simp only [decodeOperands] at h
    split at h
    next b l hb hl =>
      cases h
      have hnum := (decodeBank_ok hb).symm.trans (hfield (by decide))
      have hlen := (decodeLen_ok hl).2.trans (hfield (by decide))
      exact ⟨(decodeLen_ok hl).1, congrArg (commandWord .rdbank) (by omega)⟩
    all_goals cases h
  | loads =>
    have hbits : x < 2 := hx
    cases h
    refine ⟨rfl, congrArg (commandWord .loads) ?_⟩
    have hbit := hfield (start := 0) (len := 1) (by decide)
    rw [BitVec.extractLsb'_toNat, Nat.shiftRight_zero] at hbit
    rw [← BitVec.testBit_toNat, Nat.toNat_testBit]
    omega
  | unloads =>
    have hbits : x < 2 ^ 54 := hx
    simp only [decodeOperands] at h
    split at h
    next lm li lo hm hi ho =>
      cases h
      obtain ⟨hmwf, hmlen⟩ := decodeLen_ok hm
      obtain ⟨hiwf, hilen⟩ := decodeLen_ok hi
      obtain ⟨howf, holen⟩ := decodeLen_ok ho
      rw [hfield (by decide)] at hmlen hilen holen
      exact ⟨by simp only [Instr.wf, hmwf, hiwf, howf, Bool.and_true],
        congrArg (commandWord .unloads) (by omega)⟩
    all_goals cases h
  | run =>
    have hbits : x < 2 ^ 32 := hx
    cases h
    have hnum := hfield (start := 0) (len := 32) (by decide)
    exact ⟨rfl, congrArg (commandWord .run) (by omega)⟩
  | ckcfg =>
    have hbits : x < 2 ^ 7 := hx
    simp only [decodeOperands] at h
    split at h
    next hselects =>
      cases h
      have hfreq := hfield (start := 0) (len := 4) (by decide)
      have hring := hfield (start := 4) (len := 3) (by decide)
      exact ⟨hselects, congrArg (commandWord .ckcfg) (by omega)⟩
    next => cases h

/-- A payload's number is made of its five fields. -/
theorem payloadValue_of_fields (v : BitVec 54) :
    payloadValue (v.extractLsb' 38 16) (v.extractLsb' 6 32) (v.getLsbD 5) (v.getLsbD 4) (v.extractLsb' 0 4) = v := by
  have hv := v.isLt
  apply BitVec.eq_of_toNat_eq
  rw [payloadValue_toNat, ← BitVec.testBit_toNat, ← BitVec.testBit_toNat, Nat.toNat_testBit, Nat.toNat_testBit]
  simp only [BitVec.extractLsb'_toNat, Nat.shiftRight_eq_div_pow]
  omega

theorem wf_payloadInstr (e w : Bool) (a : BitVec 16) (d : Word) (m : BitVec 4) :
    (payloadInstr e w a d m).wf = true := by
  cases e <;> cases w <;> rfl

theorem encode_payloadInstr (e w : Bool) (a : BitVec 16) (d : Word) (m : BitVec 4) :
    encode (payloadInstr e w a d m) = .frame (.payload54 (payloadValue a d e w m)) := by
  cases e <;> cases w <;> rfl

theorem encode_decodeFrame (f : Frame) : (decodeFrame f).wf = true ∧ encode (decodeFrame f) = .frame f := by
  cases f with
  | payload54 v =>
    have hfields := payloadValue_of_fields v
    have hinstr := decodeFrame_payloadValue (v.extractLsb' 38 16) (v.extractLsb' 6 32) (v.getLsbD 5) (v.getLsbD 4)
      (v.extractLsb' 0 4)
    rw [hfields] at hinstr
    rw [hinstr, encode_payloadInstr, hfields]
    exact ⟨wf_payloadInstr _ _ _ _ _, rfl⟩
  | chainid8 v => exact ⟨rfl, rfl⟩
  | read32 v => exact ⟨rfl, rfl⟩
  | clkgen18 v =>
    refine ⟨rfl, congrArg (fun x => Code.frame (.clkgen18 x)) (BitVec.eq_of_toNat_eq ?_)⟩
    have hv := v.isLt
    simp only [BitVec.toNat_ofNat, BitVec.extractLsb'_toNat, Nat.shiftRight_eq_div_pow]
    omega

theorem encode_decode {c : Code} {i : Instr} (h : decode c = .ok i) : i.wf = true ∧ encode i = c := by
  cases c with
  | command w =>
    obtain ⟨o, x, hx, hw, hoperands⟩ := decodeCommand_ok h
    have hlow := (word_parts hx hw).2
    have hcode := encode_of_decodeOperands hx (fun hfit => hlow ▸ toNat_operandField w hfit) hoperands
    rwa [commandWord, ← hw] at hcode
  | frame f => cases h; exact encode_decodeFrame f

/-- Settles O2: an accepted word is its opcode above operands that spell the fields the decoder read. -/
theorem encodeOfDecode : Obligations.EncodeOfDecode := fun _ _ => encode_decode

/-! Every legal word is the word of an instruction. -/

theorem exists_bank_num {n : Nat} (h : n < 3) : ∃ b : Bank, b.num = n := by
  obtain rfl | rfl | rfl : n = 0 ∨ n = 1 ∨ n = 2 := by omega
  · exact ⟨.main, rfl⟩
  · exact ⟨.input, rfl⟩
  · exact ⟨.output, rfl⟩

theorem exists_encodeLen {n : Nat} (h : lengthFieldLegal n = true) : ∃ l : Length, l.wf = true ∧ encodeLen l = n := by
  obtain rfl | ⟨hlow, hhigh⟩ := of_decide_eq_true h
  · exact ⟨.none, rfl, rfl⟩
  · obtain rfl | hne := Nat.eq_or_lt_of_le hlow
    · exact ⟨.all, rfl, rfl⟩
    · have hnum : (BitVec.ofNat 17 (n - 0x20000)).toNat = n - 0x20000 := by rw [BitVec.toNat_ofNat]; omega
      refine ⟨.exactly (BitVec.ofNat 17 (n - 0x20000)), ?_, ?_⟩
      · rw [Length.wf, hnum, decide_eq_true (by omega), decide_eq_true (by omega)]; rfl
      · rw [encodeLen, hnum]; omega

theorem command_eq_commandWord {o : Opcode} {w : BitVec 64} (h : w.toNat / 2 ^ 56 = o.code.toNat) :
    commandWord o (w.toNat % 2 ^ 56) = .command w := by
  rw [commandWord, ← h, Nat.div_add_mod', BitVec.ofNat_toNat, BitVec.setWidth_eq]

theorem exists_encode_of_wordLegal {w : BitVec 64} (h : wordLegal w = true) :
    ∃ i : Instr, i.wf = true ∧ encode i = .command w := by
  have hword {o : Opcode} (hop : w.toNat / 2 ^ 56 = o.code.toNat) := command_eq_commandWord hop
  unfold wordLegal at h
  generalize w.toNat % 2 ^ 56 = x at h hword
  dsimp only at h
  split at h
  next hop => exact ⟨.brst, rfl, by rw [← hword (o := .brst) hop, of_decide_eq_true h]; rfl⟩
  next =>
  split at h
  next hop => exact ⟨.clear, rfl, by rw [← hword (o := .clear) hop, of_decide_eq_true h]; rfl⟩
  next =>
  split at h
  next hop =>
    obtain ⟨b, hb⟩ := exists_bank_num (of_decide_eq_true h)
    exact ⟨.wrbank b, rfl, by rw [← hword (o := .wrbank) hop, ← hb]; rfl⟩
  next =>
  split at h
  next hop =>
    simp only [Bool.and_eq_true, decide_eq_true_eq] at h
    obtain ⟨⟨-, hbank⟩, hlen⟩ := h
    obtain ⟨b, hb⟩ := exists_bank_num hbank
    obtain ⟨l, hl, hn⟩ := exists_encodeLen hlen
    refine ⟨.rdbank b l, hl, ?_⟩
    rw [← hword (o := .rdbank) hop]
    exact congrArg (commandWord .rdbank) (by omega)
  next =>
  split at h
  next hop =>
    have hx := of_decide_eq_true h
    refine ⟨.loads (decide (x = 1)), rfl, ?_⟩
    rw [← hword (o := .loads) hop]
    obtain rfl | rfl : x = 0 ∨ x = 1 := by omega
    · rfl
    · rfl
  next =>
  split at h
  next hop =>
    simp only [Bool.and_eq_true, decide_eq_true_eq] at h
    obtain ⟨⟨⟨hx, hm⟩, hi⟩, ho⟩ := h
    obtain ⟨lm, hlm, hnm⟩ := exists_encodeLen hm
    obtain ⟨li, hli, hni⟩ := exists_encodeLen hi
    obtain ⟨lo, hlo, hno⟩ := exists_encodeLen ho
    refine ⟨.unloads lm li lo, by simp only [Instr.wf, hlm, hli, hlo, Bool.and_true], ?_⟩
    rw [← hword (o := .unloads) hop]
    exact congrArg (commandWord .unloads) (by omega)
  next =>
  split at h
  next hop =>
    have hx := of_decide_eq_true h
    refine ⟨.run (BitVec.ofNat 32 x), rfl, ?_⟩
    rw [← hword (o := .run) hop]
    exact congrArg (commandWord .run) (by rw [BitVec.toNat_ofNat, Nat.mod_eq_of_lt hx])
  next =>
  split at h
  next hop =>
    simp only [Bool.and_eq_true, decide_eq_true_eq] at h
    obtain ⟨⟨hx, hfreq⟩, hring⟩ := h
    have hf : (BitVec.ofNat 4 (x % 16)).toNat = x % 16 := by rw [BitVec.toNat_ofNat]; omega
    have hr : (BitVec.ofNat 3 (x / 16)).toNat = x / 16 := by rw [BitVec.toNat_ofNat]; omega
    refine ⟨.ckcfg (BitVec.ofNat 4 (x % 16)) (BitVec.ofNat 3 (x / 16)), ?_, ?_⟩
    · rw [Instr.wf, (freqLegal_iff _).2 (by rw [hf]; exact hfreq), (ringLegal_iff _).2 (by rw [hr]; exact hring)]
      rfl
    · rw [← hword (o := .ckcfg) hop]
      exact congrArg (commandWord .ckcfg) (by omega)
  next => cases h

/-- Settles O3: an accepted word is legal field by field, and a legal word is some instruction's, which decodes. -/
theorem legalWordsAreDecoded : Obligations.LegalWordsAreDecoded := by
  refine fun w => ⟨fun ⟨i, h⟩ => wordLegal_of_decodeCommand h, fun h => ?_⟩
  obtain ⟨i, hwf, hcode⟩ := exists_encode_of_wordLegal h
  exact ⟨i, hcode ▸ decode_encode hwf⟩

/-- Settles O4: each command word is the encoder's word of its instruction; the frames' fields are read off. -/
theorem sampleWordsDecode : Obligations.SampleWordsDecode := by
  refine ⟨?_, ?_, ?_, ?_, ?_, ?_, ?_, ?_, ?_, ?_, ?_, ?_, ?_, ?_, ?_⟩ <;> decide

end Sys2Proof.Machine
end

section
/-! ### What a step does (10_state.md R34, 41_transactions.md R130, 70_reset_and_hazards.md R200) -/

namespace Sys2Proof.Machine

open Sys2Proof

/-! A step with an instruction -/

theorem issue_accepted {s : State} {c : Code} {i : Instr} (hb : s.status.busy = false) (hd : decode c = .ok i) :
    issue c s = exec i (latch c s) := by
  simp only [issue, hb, hd, Bool.false_eq_true, if_false]

theorem step_frame {s : State} {f : Frame} {rest : List HostOp} (h : s.host = .wire f :: rest) :
    step s = issue (.frame f) { s with host := rest } := by
  unfold step; rw [h]; rfl

theorem step_idle {s : State} (h : s.host = []) : step s = .next s := by
  unfold step; rw [h]

theorem decodeTableWord_some {nbits w : Nat} {i : Instr} (h : decodeTableWord nbits w = some i) :
    ∃ c, Code.ofTableWord nbits w = some c ∧ decode c = .ok i := by
  unfold decodeTableWord at h
  split at h
  next => cases h
  next c hc =>
    split at h
    next hd => cases h; exact ⟨c, hc, hd⟩
    next => cases h

theorem withFetchWord_some {s : State} {nbits w : Nat} {c : Code} (h : Code.ofTableWord nbits w = some c) :
    s.withFetchWord nbits w = s.withCode c := by
  rw [State.withFetchWord, h]

theorem frameContext_status (f : Frame) (s : State) : (frameContext f s).status = s.status := by
  cases f <;> rfl

theorem frameContext_host (f : Frame) (s : State) : (frameContext f s).host = s.host := by
  cases f <;> rfl

theorem step_withCode_command {s : State} {v : BitVec 64} {i : Instr} (hb : s.status.busy = false)
    (hd : decode (.command v) = .ok i) : step (s.withCode (.command v)) = exec i { s with cmd := v } := by
  rw [step_command (s := s.withCode (.command v)) rfl]
  exact issue_accepted hb hd

theorem step_withCode_frame {s : State} {f : Frame} {i : Instr} (hb : s.status.busy = false)
    (hd : decode (.frame f) = .ok i) : step (s.withCode (.frame f)) = exec i (frameContext f s) := by
  have hpopped : ({ s.withCode (.frame f) with host := s.host } : State) = frameContext f s := by
    rw [← frameContext_host f s]; rfl
  rw [step_frame (s := s.withCode (.frame f)) rfl, hpopped]
  exact issue_accepted (by rw [frameContext_status, hb]) hd

/-- Settles O8: a step takes the code off the host's queue, and an idle engine runs what it decodes to. -/
theorem stepRunsTheDecodedInstruction : Obligations.StepRunsTheDecodedInstruction := by
  refine fun s rest hb => ⟨fun w i hhost hd => ?_, fun f i hhost hd => ?_, fun nbits w i h => ?_⟩
  · rw [step_command hhost]
    exact issue_accepted (s := { s with host := rest }) hb hd
  · rw [step_frame hhost]
    exact issue_accepted (s := { s with host := rest }) hb hd
  · obtain ⟨c, hc, hd⟩ := decodeTableWord_some h
    rw [withFetchWord_some hc]
    cases c with
    | command v => exact .inl ⟨v, hc, step_withCode_command hb hd⟩
    | frame f => exact .inr ⟨f, hc, step_withCode_frame hb hd⟩

/-- Settles O9: an empty queue makes the step a no-op. -/
theorem nothingRunsWithoutTheHost : Obligations.NothingRunsWithoutTheHost := fun _ => step_idle

/-! Reset and re-construction -/

/-- Settles O13: the step is `reconstruct`, whose fields are these. -/
theorem constructionLeaves : Obligations.ConstructionLeaves := by
  refine fun s c l rest hhost => ⟨_, step_construct hhost, ?_⟩
  refine ⟨rfl, rfl, rfl, rfl, rfl, rfl, rfl, rfl, rfl, rfl, rfl, rfl, rfl, rfl, rfl, ?rxlen, rfl, rfl, rfl, rfl, rfl,
    rfl, rfl, rfl, rfl, rfl, rfl⟩
  case rxlen => exact fun b => by cases b <;> rfl

/-- Settles O14: each value is the constructor's own. -/
theorem resetLeaves : Obligations.ResetLeaves := by
  refine ⟨rfl, rfl, rfl, rfl, rfl, rfl, rfl, rfl, rfl, rfl, rfl, rfl, ?rxlen, rfl, rfl, rfl⟩
  case rxlen => exact fun b => by cases b <;> rfl

/-! What the host reads -/

/-- The next step of `s` reads the value `v` and changes nothing else. -/
theorem step_reads {s : State} {n : Nat} {r : Reg} {v v' : BitVec 64} {rest : List HostOp}
    (h : s.host = .read n :: rest) (hr : Reg.ofNumber n = some r)
    (hv : readReg r { s with host := rest } = .next (v', { s with host := rest })) (hvalue : v' = v) :
    step s = .next { s with host := rest, hostData := v } := by
  rw [← hvalue]
  exact step_read_reg h hr hv

theorem step_reads_reserved {s : State} {n : Nat} {rest : List HostOp} (h : s.host = .read n :: rest)
    (hr : Reg.ofNumber n = none) : step s = .next { s with host := rest, hostData := 0 } := by
  rw [step_read h, hostRead, hr]

theorem setWidth_status_toWord (x : Status) :
    x.toWord.setWidth 64 = BitVec.ofNat 64 (x.busy.toNat + 2 * x.fault.toNat + 4 * x.cfgerr.toNat) := by
  obtain ⟨busy, fault, cfgerr⟩ := x
  cases busy <;> cases fault <;> cases cfgerr <;> rfl

theorem readReg_rxbuf_held {s : State} {b : Bank} {k : BitVec 16} (hk : k.toNat < (s.rxlen.get b).toNat) :
    readReg (.rxbuf b k) s = .next (((s.rxbuf.get b).read k).setWidth 64, s) := by
  rw [readReg, if_pos hk]

/-- An entry past the received words reads as a free word; only the environment's draws move (log 17). -/
theorem step_reads_rxbuf_free {s : State} {b : Bank} {k : BitVec 16} {rest : List HostOp}
    (h : s.host = .read (0x10000 * (b.num + 5) + k.toNat) :: rest) (hk : (s.rxlen.get b).toNat ≤ k.toNat) :
    ∃ (v : Word) (e : Env) (c : Nat),
      step s = .next { s with host := rest, hostData := BitVec.ofNat 64 v.toNat, env := e, freeCount := c } := by
  refine ⟨(drawWord { s with host := rest }).1, (drawWord { s with host := rest }).2.env,
    (drawWord { s with host := rest }).2.freeCount, ?_⟩
  rw [step_read h, hostRead, Reg.ofNumber_rxbuf]
  simp only [readReg]
  rw [if_neg (Nat.not_lt.2 hk)]
  dsimp only
  rw [drawWord_state, setWidth64_eq]

/-- Settles O11: one register number after another, each read by its own value widened with zeros. -/
theorem hostReads : Obligations.HostReads := by
  intro s n rest hhost reads
  refine ⟨?cmd, ?status, ?result, ?elapsed, ?phase, ?resetPulses,
    fun b => ⟨?txlen, ?rxlen, ?cap, ?rd, ?wr, fun k => ⟨?txbuf, ?rxbuf⟩⟩, ?reserved⟩
  case cmd => rintro rfl; exact step_read hhost
  case status => rintro rfl; exact step_reads hhost (r := .status) rfl rfl (setWidth_status_toWord s.status)
  case result => rintro rfl; exact step_reads hhost (r := .result) rfl rfl (by cases s.result <;> rfl)
  case elapsed => rintro rfl; exact step_reads hhost (r := .elapsed) rfl rfl (setWidth64_eq _)
  case phase => rintro rfl; exact step_reads hhost (r := .phase) rfl rfl (by cases s.phase <;> rfl)
  case resetPulses => rintro rfl; exact step_reads hhost (r := .resetPulses) rfl rfl (setWidth64_eq _)
  case txlen => rintro rfl; exact step_reads hhost (Reg.ofNumber_txlen b) rfl (setWidth64_eq _)
  case rxlen => rintro rfl; exact step_reads hhost (Reg.ofNumber_rxlen b) rfl (setWidth64_eq _)
  case cap => rintro rfl; exact step_reads hhost (Reg.ofNumber_cap b) rfl (setWidth64_eq _)
  case rd => rintro rfl; exact step_reads hhost (Reg.ofNumber_rd b) rfl (setWidth64_eq _)
  case wr => rintro rfl; exact step_reads hhost (Reg.ofNumber_wr b) rfl (setWidth64_eq _)
  case txbuf => rintro rfl; exact step_reads hhost (Reg.ofNumber_txbuf b k) rfl (setWidth64_eq _)
  case rxbuf =>
    rintro rfl
    exact ⟨fun hk => step_reads hhost (Reg.ofNumber_rxbuf b k) (readReg_rxbuf_held hk) (setWidth64_eq _),
      step_reads_rxbuf_free hhost⟩
  case reserved => exact fun hn => step_reads_reserved hhost (Reg.ofNumber_reserved hn)

/-! What the host writes -/

theorem writeReg_txlen {s : State} {b : Bank} {v : BitVec 64} (hv : v.toNat ≤ 65536) :
    writeReg (some (.txlen b)) v s = .next { s with txlen := s.txlen.set b (v.setWidth 17) } := if_pos hv

theorem writeReg_txbuf {s : State} {b : Bank} {k : BitVec 16} {v : BitVec 64} (hv : v.toNat < 2 ^ 32) :
    writeReg (some (.txbuf b k)) v s =
      .next { s with txbuf := s.txbuf.set b ((s.txbuf.get b).write k (v.setWidth 32)) } := if_pos hv

theorem toNat_setWidth_of_lt {w m : Nat} {v : BitVec w} (h : v.toNat < 2 ^ m) : (v.setWidth m).toNat = v.toNat := by
  rw [BitVec.toNat_setWidth, Nat.mod_eq_of_lt h]

/-- Settles O12: the write is the register's own, and a value too wide for it is declined. -/
theorem hostWrites : Obligations.HostWrites := by
  intro s n v rest hinv hhost
  refine ⟨fun b => ⟨?txlen, ?txlenWide, fun k hn => ?txbuf⟩, ?ignored⟩
  case txlen =>
    rintro rfl hv
    rw [step_write hhost (by omega) hinv.busy, Reg.ofNumber_txlen, writeReg_txlen hv]
    refine ⟨_, rfl, rfl, ?_, fun c hc => PerBank_get_set_other _ _ hc⟩
    rw [PerBank_get_set_same]
    exact toNat_setWidth_of_lt (by omega)
  case txlenWide =>
    rintro rfl hv
    rw [step_write hhost (by omega) hinv.busy, Reg.ofNumber_txlen]
    exact if_neg (Nat.not_le.2 hv)
  case txbuf =>
    rw [step_write hhost (by omega) hinv.busy, hn, Reg.ofNumber_txbuf]
    refine ⟨fun hv => ?_, fun hv => if_neg (Nat.not_lt.2 hv)⟩
    rw [writeReg_txbuf hv]
    refine ⟨_, rfl, rfl, ?_, fun j hj => ?_, fun c hc => PerBank_get_set_other _ _ hc⟩
    · rw [PerBank_get_set_same, Buffer.read_write_same (hinv.txbuf b)]
      exact toNat_setWidth_of_lt hv
    · rw [PerBank_get_set_same, Buffer.read_write_other hj]
  case ignored =>
    intro hn
    rw [step_write hhost (by omega) hinv.busy]
    exact writeReg_ignored hn v _

end Sys2Proof.Machine
end

section
/-! ### The invariant, step by step (10_state.md, 40_primitives.md R119, 41_transactions.md R130) -/

namespace Sys2Proof.Machine

open Sys2Proof

/-! An instruction is a command, a frame, or a frame with its word presented around it -/

/-- What holds of every end of a command and of a frame, and is not lost where a `READ32` presents its word before and
takes it away after, holds of every instruction that gives a next state. -/
theorem exec_induction {i : Instr} {P : State → State → Prop}
    (hcommand : ∀ {s t}, i.isCommand = true → command i.wf (programOf i s) s = .next t → P s t)
    (hframe : ∀ {s t}, i.isCommand = false → frame (programOf i s) s = .next t → P s t)
    (hread : ∀ {w s u}, P (presentFrame w s) u → P s (endFrame u)) {s t : State} (h : exec i s = .next t) : P s t := by
  by_cases hlayer : i.isCommand = true
  · rw [exec_command hlayer] at h
    exact hcommand hlayer h
  · rw [Bool.not_eq_true] at hlayer
    by_cases hw : ∃ w, i = .read32 w
    · obtain ⟨w, rfl⟩ := hw
      obtain ⟨u, hu, rfl⟩ := exec_read32_next h
      exact hread (hframe rfl hu)
    · rw [exec_frame hlayer (not_exists.mp hw)] at h
      exact hframe hlayer h

theorem wf_of_frame {i : Instr} (h : i.isCommand = false) : i.wf = true := by
  cases i with
  | brst | clear | wrbank | rdbank | loads | unloads | run | ckcfg => cases h
  | payWrite | paySetaddr | payDisable | payReserved | chainid8 | read32 | clkgen18 => rfl

/-! The invariant but for `BUSY`, `PHASE` and a presented word, which move inside an instruction -/

/-- What holds of a state also in the middle of an instruction, between its micro-operations. -/
structure State.Sound (s : State) : Prop where
  mem : s.chip.mem.wf = true
  txbuf : ∀ b, (s.txbuf.get b).wf = true
  rxbuf : ∀ b, (s.rxbuf.get b).wf = true
  txlen : ∀ b, (s.txlen.get b).toNat ≤ 65536
  rxlen : ∀ b, (s.rxlen.get b).toNat ≤ 65536
  cfgerr : s.status.cfgerr = !Config.valid s.cfg
  rest : Rest s
  host : ∀ op ∈ s.host, HostOp.wf op = true

theorem State.Inv.sound {s : State} (h : s.Inv) : s.Sound :=
  ⟨h.mem, h.txbuf, h.rxbuf, h.txlen, h.rxlen, h.cfgerr, ⟨h.sck, h.srst, h.cse, h.load, h.selPend⟩, h.host⟩

theorem State.Sound.inv {s : State} (h : s.Sound) (hbusy : s.status.busy = false) (hphase : s.phase = .idle)
    (hframe : s.env.sdiFrame = []) : s.Inv :=
  { mem := h.mem, txbuf := h.txbuf, rxbuf := h.rxbuf, txlen := h.txlen, rxlen := h.rxlen, busy := hbusy, phase := hphase
    cfgerr := h.cfgerr, sck := h.rest.sck, srst := h.rest.srst, cse := h.rest.cse, load := h.rest.load
    selPend := h.rest.pend, sdiFrame := hframe, host := h.host }

theorem State.Sound.of_same {s t : State} (h : s.Sound) (hchip : t.chip = s.chip) (hlines : t.lines = s.lines)
    (hcfg : t.cfg = s.cfg) (hcfgerr : t.status.cfgerr = s.status.cfgerr) (htxlen : t.txlen = s.txlen)
    (htxbuf : t.txbuf = s.txbuf) (hrxlen : t.rxlen = s.rxlen) (hrxbuf : t.rxbuf = s.rxbuf) (hhost : t.host = s.host) :
    t.Sound where
  mem := by rw [hchip]; exact h.mem
  txbuf := by rw [htxbuf]; exact h.txbuf
  rxbuf := by rw [hrxbuf]; exact h.rxbuf
  txlen := by rw [htxlen]; exact h.txlen
  rxlen := by rw [hrxlen]; exact h.rxlen
  cfgerr := by rw [hcfgerr, hcfg]; exact h.cfgerr
  rest := by
    obtain ⟨hsck, hsrst, hcse, hload, hpend⟩ := h.rest
    constructor <;> simpa only [hlines, hchip]
  host := by rw [hhost]; exact h.host

theorem State.Sound.accepted {s : State} (h : s.Sound) : s.accepted.Sound :=
  h.of_same rfl rfl rfl rfl rfl rfl rfl rfl rfl

theorem State.Sound.finish {s : State} (h : s.Sound) (e : Result) : (Machine.finish e s).Sound :=
  h.of_same (finish_chip e s) (finish_lines e s) (finish_cfg e s) (finish_cfgerr e s) (finish_txlen e s)
    (finish_txbuf e s) (finish_rxlen e s) (finish_rxbuf e s) (finish_host e s)

theorem State.Sound.raiseError {s : State} (h : s.Sound) (e : Result) : (Machine.raiseError e s).Sound :=
  h.of_same (raiseError_chip e s) (raiseError_lines e s) (raiseError_cfg e s) (raiseError_cfgerr e s)
    (raiseError_txlen e s) (raiseError_txbuf e s) (raiseError_rxlen e s) (raiseError_rxbuf e s) (raiseError_host e s)

theorem State.Sound.of_reach {s t : State} (h : s.Sound) (hr : Reach s t) (hrest : Rest t)
    (hrxlen : ∀ b, (t.rxlen.get b).toNat ≤ 65536) : t.Sound where
  mem := hr.mem h.mem
  txbuf := by rw [hr.txbuf]; exact h.txbuf
  rxbuf := hr.rxbuf h.rxbuf
  txlen := by rw [hr.txlen]; exact h.txlen
  rxlen := hrxlen
  cfgerr := by rw [hr.cfgerr, hr.cfg]; exact h.cfgerr
  rest := hrest
  host := by rw [hr.host]; exact h.host

section
variable {i : Instr} {s u t : State} (hs : u.Sound) (hcfg : Config.valid s.cfg = true) (hwf : i.wf = true)
include hs hcfg hwf

/-- Whatever the environment answers, an instruction's program ends with the scan lines at rest and no more words
received than a buffer holds. -/
theorem State.Sound.go (h : runActs (programOf i s) u = .go t) : t.Sound := by
  have hheld := leads_programOf i s u (held_rest.2 hs.rest)
  rw [h] at hheld
  exact hs.of_reach (runActs_reach h) (held_rest.1 hheld)
    (runActs_go_rxlen_le h (programOf_rowFits hcfg hwf) hs.rxlen)

theorem State.Sound.stop {e : Result} (h : runActs (programOf i s) u = .stop t e) : t.Sound := by
  have hheld := leads_programOf i s u (held_rest.2 hs.rest)
  rw [h] at hheld
  exact hs.of_reach (runActs_reach_stop h) (held_rest.1 hheld)
    (runActs_stop_rxlen_le h (programOf_rowFits hcfg hwf) hs.rxlen)

end

theorem State.Sound.valid {s : State} (h : s.Sound) (hc : s.status.cfgerr = false) : Config.valid s.cfg = true := by
  have hcfgerr := h.cfgerr
  rw [hc] at hcfgerr
  simpa using hcfgerr

theorem command_sound {i : Instr} {s t : State} (hs : s.Sound) (h : command i.wf (programOf i s) s = .next t) :
    t.Sound := by
  obtain ⟨-, rfl⟩ | ⟨-, -, rfl⟩ | ⟨hc, hwf, hends⟩ := command_next h
  · exact hs.accepted.raiseError _
  · exact hs.accepted.raiseError _
  · cases hends with
    | goes u hu ht =>
      rw [ht]
      exact (hs.accepted.go (hs.valid hc) hwf hu).of_same rfl rfl rfl rfl rfl rfl rfl rfl rfl
    | stops u r hu ht => rw [ht]; exact (hs.accepted.stop (hs.valid hc) hwf hu).finish r

theorem frame_sound {i : Instr} {s t : State} (hs : s.Sound) (hwf : i.wf = true)
    (h : frame (programOf i s) s = .next t) : t.Sound := by
  obtain ⟨-, rfl⟩ | ⟨hc, ⟨u, hu, rfl⟩ | ⟨u, r, hu, rfl⟩⟩ := frame_next h
  · exact hs.raiseError _
  · exact (hs.go (hs.valid hc) hwf hu).of_same rfl rfl rfl rfl rfl rfl rfl rfl rfl
  · exact (hs.stop (hs.valid hc) hwf hu).finish r

theorem exec_sound {i : Instr} {s t : State} (hs : s.Sound) (h : exec i s = .next t) : t.Sound :=
  exec_induction (P := fun s t => s.Sound → t.Sound) (fun _ h hs => command_sound hs h)
    (fun hlayer h hs => frame_sound hs (wf_of_frame hlayer) h)
    (fun ih hs => (ih (hs.of_same rfl rfl rfl rfl rfl rfl rfl rfl rfl)).of_same rfl rfl rfl rfl rfl rfl rfl rfl rfl)
    h hs

/-! Where an instruction ends: `PHASE` Idle, no command in progress, no word presented -/

theorem Ends.idle {p : List Act} {s t : State} (h : Ends p s t) : t.phase = .idle ∧ t.status.busy = false := by
  cases h with
  | goes u _ ht => rw [ht]; exact ⟨rfl, rfl⟩
  | stops u r _ ht => rw [ht]; exact ⟨finish_phase r u, finish_busy r u⟩

theorem command_idle {l : Bool} {p : List Act} {s t : State} (h : command l p s = .next t) :
    t.phase = .idle ∧ t.status.busy = false := by
  obtain ⟨-, rfl⟩ | ⟨-, -, rfl⟩ | ⟨-, -, hends⟩ := command_next h
  · exact ⟨raiseError_phase _ _, raiseError_busy _ _⟩
  · exact ⟨raiseError_phase _ _, raiseError_busy _ _⟩
  · exact hends.idle

theorem frame_idle {p : List Act} {s t : State} (h : frame p s = .next t) (hb : s.status.busy = false) :
    t.phase = .idle ∧ t.status.busy = false := by
  obtain ⟨-, rfl⟩ | ⟨-, ⟨u, hu, rfl⟩ | ⟨u, r, hu, rfl⟩⟩ := frame_next h
  · exact ⟨raiseError_phase _ _, raiseError_busy _ _⟩
  · exact ⟨rfl, (runActs_reach hu).busy.trans hb⟩
  · exact ⟨finish_phase r u, finish_busy r u⟩

theorem exec_idle {i : Instr} {s t : State} (h : exec i s = .next t) (hb : s.status.busy = false) :
    t.phase = .idle ∧ t.status.busy = false :=
  exec_induction (P := fun s t => s.status.busy = false → t.phase = .idle ∧ t.status.busy = false)
    (fun _ h _ => command_idle h) (fun _ h hb => frame_idle h hb) (fun ih hb => ih hb) h hb

theorem command_sdiFrame {l : Bool} {p : List Act} {s t : State} (h : command l p s = .next t)
    (hf : s.env.sdiFrame = []) : t.env.sdiFrame = [] := by
  obtain ⟨-, rfl⟩ | ⟨-, -, rfl⟩ | ⟨-, -, hends⟩ := command_next h
  · rw [raiseError_env]; exact hf
  · rw [raiseError_env]; exact hf
  · cases hends with
    | goes u hu ht => rw [ht]; exact (runActs_reach hu).sdiFrame hf
    | stops u r hu ht => rw [ht, finish_env]; exact (runActs_reach_stop hu).sdiFrame hf

theorem frame_sdiFrame {p : List Act} {s t : State} (h : frame p s = .next t)
    (hf : s.env.sdiFrame = []) : t.env.sdiFrame = [] := by
  obtain ⟨-, rfl⟩ | ⟨-, ⟨u, hu, rfl⟩ | ⟨u, r, hu, rfl⟩⟩ := frame_next h
  · rw [raiseError_env]; exact hf
  · exact (runActs_reach hu).sdiFrame hf
  · rw [finish_env]; exact (runActs_reach_stop hu).sdiFrame hf

theorem exec_sdiFrame {i : Instr} {s t : State} (h : exec i s = .next t) (hf : s.env.sdiFrame = []) :
    t.env.sdiFrame = [] :=
  exec_induction (P := fun s t => s.env.sdiFrame = [] → t.env.sdiFrame = []) (fun _ h hf => command_sdiFrame h hf)
    (fun _ h hf => frame_sdiFrame h hf) (fun _ _ => rfl) h hf

theorem exec_keeps_inv {i : Instr} {s t : State} (hs : s.Inv) (h : exec i s = .next t) : t.Inv := by
  obtain ⟨hphase, hbusy⟩ := exec_idle h hs.busy
  exact (exec_sound hs.sound h).inv hbusy hphase (exec_sdiFrame h hs.sdiFrame)

theorem illegalCommand_keeps_inv {s t : State} (hs : s.Inv) (h : illegalCommand s = .next t) : t.Inv := by
  obtain ⟨hphase, hbusy⟩ := command_idle h
  refine State.Sound.inv ?_ hbusy hphase (command_sdiFrame h hs.sdiFrame)
  obtain ⟨-, rfl⟩ | ⟨-, -, rfl⟩ | ⟨-, hlegal, -⟩ := command_next h
  · exact hs.sound.accepted.raiseError _
  · exact hs.sound.accepted.raiseError _
  · cases hlegal

/-! The host's operations -/

theorem PerBank_forall_set {α : Type} {P : α → Prop} {p : PerBank α} {b : Bank} {v : α} (h : ∀ c, P (p.get c))
    (hv : P v) (c : Bank) : P ((p.set b v).get c) := by
  by_cases hc : c = b
  · rw [hc, PerBank_get_set_same]; exact hv
  · rw [PerBank_get_set_other _ _ hc]; exact h c

theorem State.Inv.latch {s : State} (h : s.Inv) (c : Code) : (Machine.latch c s).Inv := by
  cases c with
  | command w =>
    have hsound : (Machine.latch (.command w) s).Sound := h.sound.of_same rfl rfl rfl rfl rfl rfl rfl rfl rfl
    exact hsound.inv h.busy h.phase h.sdiFrame
  | frame f => exact h

theorem issue_keeps_inv {c : Code} {s t : State} (hs : s.Inv) (h : issue c s = .next t) : t.Inv := by
  cases hd : decode c with
  | ok i => rw [issue_accepted hs.busy hd] at h; exact exec_keeps_inv (hs.latch c) h
  | error r => rw [issue_rejected hs.busy hd] at h; exact illegalCommand_keeps_inv (hs.latch c) h

/-- A host write changes nothing, a length within range, or an entry of a transmit buffer. -/
theorem writeReg_next {r : Option Reg} {v : BitVec 64} {s t : State} (h : writeReg r v s = .next t) :
    t = s ∨ (∃ b, v.toNat ≤ 65536 ∧ t = { s with txlen := s.txlen.set b (v.setWidth 17) }) ∨
      ∃ b k, t = { s with txbuf := s.txbuf.set b ((s.txbuf.get b).write k (v.setWidth 32)) } := by
  unfold writeReg at h
  split at h
  next b =>
    split at h
    next hv => cases h; exact .inr (.inl ⟨b, hv, rfl⟩)
    next => cases h
  next b k =>
    split at h
    next => cases h; exact .inr (.inr ⟨b, k, rfl⟩)
    next => cases h
  next => cases h; exact .inl rfl

theorem writeReg_keeps_inv {r : Option Reg} {v : BitVec 64} {s t : State} (hs : s.Inv)
    (h : writeReg r v s = .next t) : t.Inv := by
  obtain rfl | ⟨b, hv, rfl⟩ | ⟨b, k, rfl⟩ := writeReg_next h
  · exact hs
  · refine { hs with txlen := ?_ }
    refine PerBank_forall_set (P := fun x : BitVec 17 => x.toNat ≤ 65536) hs.txlen ?_
    rw [toNat_setWidth_of_lt (by omega)]
    exact hv
  · refine { hs with txbuf := ?_ }
    exact PerBank_forall_set (P := fun x : Buffer => x.wf = true) hs.txbuf (Buffer.wf_write (hs.txbuf b))

/-- A host read moves the host's own register, and the environment only by a draw. -/
theorem hostRead_next {n : Nat} {s t : State} (h : hostRead n s = .next t) :
    ∃ v e c, t = { s with hostData := v, env := e, freeCount := c } ∧ e.sdiFrame = s.env.sdiFrame := by
  unfold hostRead at h
  split at h
  next => cases h; exact ⟨_, _, _, rfl, rfl⟩
  next r _ =>
    cases r with
    | cmd => cases h
    | rxbuf b k =>
      simp only [readReg] at h
      split at h
      next v s1 hread =>
        cases h
        split at hread
        next => cases hread; exact ⟨_, _, _, rfl, rfl⟩
        next =>
          cases hread
          rw [drawWord_state]
          exact ⟨_, _, _, rfl, (drawWord_same s).2⟩
      all_goals cases h
    | status | result | elapsed | phase | resetPulses | txlen | rxlen | cap | rd | wr | txbuf =>
      cases h; exact ⟨_, _, _, rfl, rfl⟩

theorem hostRead_keeps_inv {n : Nat} {s t : State} (hs : s.Inv) (h : hostRead n s = .next t) : t.Inv := by
  obtain ⟨v, e, c, rfl, he⟩ := hostRead_next h
  have hsound : ({ s with hostData := v, env := e, freeCount := c } : State).Sound :=
    hs.sound.of_same rfl rfl rfl rfl rfl rfl rfl rfl rfl
  exact hsound.inv hs.busy hs.phase (he.trans hs.sdiFrame)

theorem Launch.wf_iff (l : Launch) : l.wf = true ↔
    ∀ b, (l.txbuf.get b).wf = true ∧ (l.rxbuf.get b).wf = true ∧ (l.txlen.get b).toNat ≤ 65536 := by
  simp only [Launch.wf, Bank_all_all_iff, Bool.and_eq_true, decide_eq_true_eq, and_assoc]

/-- Construction with well-formed launch values meets the invariant, `CFGERR` telling whether the configuration is
valid (70_reset_and_hazards.md R200). -/
theorem construct_inv (c : Config) {l : Launch} {chip : Chip} {env : Env} (hl : l.wf = true) (hmem : chip.mem.wf = true)
    (hpend : chip.selPend = false) (henv : env.sdiFrame = []) : (State.construct c l chip env).Inv where
  mem := hmem
  txbuf b := ((Launch.wf_iff l).1 hl b).1
  rxbuf b := ((Launch.wf_iff l).1 hl b).2.1
  txlen b := ((Launch.wf_iff l).1 hl b).2.2
  rxlen b := by cases b <;> exact show (0 : BitVec 17).toNat ≤ 65536 by decide
  busy := rfl
  phase := rfl
  cfgerr := rfl
  sck := rfl
  srst := rfl
  cse := rfl
  load := rfl
  selPend := hpend
  sdiFrame := henv
  host op hop := absurd hop List.not_mem_nil

/-- Settles O15: construction meets the invariant, and the launch values of the reset state are well formed. -/
theorem resetMeetsTheInvariant : Obligations.ResetMeetsTheInvariant :=
  construct_inv Config.tvcfg (by decide) rfl rfl rfl

theorem reconstruct_inv (c : Config) {l : Launch} {s : State} (hs : s.Inv) (hl : l.wf = true) :
    (reconstruct c l s).Inv := by
  have hnew := construct_inv c hl hs.mem hs.selPend hs.sdiFrame
  exact { hnew with host := hs.host }

theorem State.Inv.pop {s : State} {op : HostOp} {rest : List HostOp} (h : s.Inv) (hhost : s.host = op :: rest) :
    ({ s with host := rest } : State).Inv :=
  { h with host := fun x hx => h.host x (hhost ▸ List.mem_cons_of_mem op hx) }

/-- Settles O16: the next host operation is an instruction, whose program ends at rest in any environment, or a host
access or re-construction, each of which keeps the invariant. -/
theorem stepKeepsTheInvariant : Obligations.StepKeepsTheInvariant := by
  intro s t hs h
  cases hhost : s.host with
  | nil => rw [step_idle hhost] at h; cases h; exact hs
  | cons op rest =>
    have hpop := hs.pop hhost
    cases op with
    | write n v =>
      by_cases hn : n = 0
      · subst hn
        rw [step_command hhost] at h
        exact issue_keeps_inv hpop h
      · rw [step_write hhost hn hs.busy] at h
        exact writeReg_keeps_inv hpop h
    | read n => rw [step_read hhost] at h; exact hostRead_keeps_inv hpop h
    | wire f => rw [step_frame hhost] at h; exact issue_keeps_inv hpop h
    | construct c l =>
      rw [step_construct hhost] at h
      cases h
      have hl : HostOp.wf (.construct c l) = true := hs.host _ (hhost ▸ List.mem_cons_self)
      exact reconstruct_inv c hpop hl

end Sys2Proof.Machine
end

section
/-! ### Outcomes and flags (41_transactions.md R130, 60_exceptions.md R170 to R178) -/

namespace Sys2Proof.Machine

open Sys2Proof

/-! The outcome a command ends with -/

theorem Ends.result_of_pure {p : List Act} {s t : State} (h : Ends p s t) (hp : p.all Act.isPure = true) :
    t.result = .ok := by
  obtain ⟨u, -, rfl⟩ := h.goes_of_pure hp
  rfl

theorem Ends.result_of_stopsOnly {p : List Act} {s t : State} {e : Result} (h : Ends p s t) (hp : StopsOnly e p) :
    t.result = .ok ∨ t.result = e := by
  cases h with
  | goes u _ ht => rw [ht]; exact .inl rfl
  | stops u r hu ht => rw [ht, finish_result]; exact .inr (hp.stop hu)

theorem Ends.result_of_run {n : Nat} {s t : State} (h : Ends (runProgram n) s t) :
    t.result = .ok ∨ t.result = .timedOut := by
  cases h with
  | goes u hu _ => exact absurd hu (runProgram_ends n s u).1
  | stops u r hu ht => rw [ht, finish_result]; exact (runProgram_ends n s u).2 r hu

/-- Settles O19: the refusals come before the program, and the program of each command can stop only with its own
outcomes. -/
theorem everyCommandEndsWithItsOutcome : Obligations.EveryCommandEndsWithItsOutcome := by
  intro i s t hcommand h
  rw [exec_command hcommand] at h
  obtain ⟨hphase, hbusy⟩ := command_idle h
  refine ⟨hphase, hbusy, ?_⟩
  obtain ⟨hc, rfl⟩ | ⟨hc, hwf, rfl⟩ | ⟨hc, hwf, hends⟩ := command_next h
  · rw [if_pos hc]; exact raiseError_result _ _
  · rw [if_neg (by simp [hc]), if_pos hwf]; exact raiseError_result _ _
  · rw [if_neg (by simp [hc]), if_neg (by simp [hwf])]
    cases i with
    | brst => exact hends.result_of_pure (busReset_pure _)
    | clear => exact hends.result_of_pure (fullChainClear_pure _)
    | wrbank b => exact hends.result_of_stopsOnly (stopsOnly_writeBank s b)
    | rdbank b len => exact hends.result_of_stopsOnly (stopsOnly_readBank _ _ _)
    | loads x => exact hends.result_of_stopsOnly (stopsOnly_loadSession s x)
    | unloads lm li lo => exact hends.result_of_stopsOnly (stopsOnly_unloadSession _ _ _ _)
    | run n => exact hends.result_of_run
    | ckcfg f r => exact hends.result_of_pure (driveClkgen_pure _ _)
    | payWrite | paySetaddr | payDisable | payReserved | chainid8 | read32 | clkgen18 => cases hcommand

/-! `STATUS.FAULT` at the end of a command -/

/-- A stop that is no `ProtocolFault` finds the bus reset, where the program resets it at all, already done. -/
theorem stop_status {i : Instr} {s u v : State} {r : Result} (hcommand : i.isCommand = true)
    (hr : r ≠ .protocolFault) (hu : runActs (programOf i s) u = .stop v r) :
    v.status = if .clearFault ∈ programOf i s then u.status.clearFault else u.status := by
  by_cases hclear : Act.clearFault ∈ programOf i s
  · rw [if_pos hclear]
    cases i with
    | brst => exact absurd hu (runActs_pure_never_stops (busReset_pure _) _ _ _)
    | clear => exact absurd hu (runActs_pure_never_stops (fullChainClear_pure _) _ _ _)
    | wrbank b =>
      simp only [programOf, writeBank] at hclear hu
      split at hclear
      next hover => simp at hclear
      next hover => rw [if_neg hover] at hu; exact absurd hu (runActs_pure_never_stops (writeBody_pure _ _ _) _ _ _)
    | rdbank b len => exact absurd ((stopsOnly_readBank _ _ _).stop hu) hr
    | loads x =>
      simp only [programOf, loadSession, List.append_assoc] at hu
      rw [← List.append_assoc] at hu
      refine runActs_stop_cleared hu ?_ (List.mem_append_right _ (clearFault_mem_fullChainClear _))
      rw [List.all_append, fullChainClear_pure]
      rfl
    | unloads lm li lo => exact absurd ((stopsOnly_unloadSession _ _ _ _).stop hu) hr
    | run n => simp [programOf, runProgram] at hclear
    | ckcfg f r => exact absurd hu (runActs_pure_never_stops (driveClkgen_pure _ _) _ _ _)
    | payWrite | paySetaddr | payDisable | payReserved | chainid8 | read32 | clkgen18 => cases hcommand
  · rw [if_neg hclear]
    exact runActs_stop_status_same hu hclear

/-- A command that does not end in `ProtocolFault` clears `FAULT` exactly where its program resets the bus. -/
theorem Ends.fault {i : Instr} {s t : State} (hcommand : i.isCommand = true) (h : Ends (programOf i s) s.accepted t)
    (hr : t.result ≠ .protocolFault) :
    t.status.fault = if .clearFault ∈ programOf i s then false else s.status.fault := by
  have hstatus : t.status.fault =
      (if .clearFault ∈ programOf i s then s.accepted.status.clearFault else s.accepted.status).fault := by
    cases h with
    | goes u hu ht => rw [ht, ← runActs_go_status hu]; rfl
    | stops u r hu ht =>
      rw [ht, finish_result] at hr
      rw [ht, finish_fault, decide_eq_false hr, stop_status hcommand hr hu, Bool.false_or]
  rw [hstatus, apply_ite Status.fault]
  rfl

theorem Ends.protocolFault {p : List Act} {s t : State} (h : Ends p s t) (hr : t.result = .protocolFault) :
    t.status.fault = true := by
  cases h with
  | goes u _ ht => rw [ht] at hr; cases hr
  | stops u r _ ht =>
    rw [ht, finish_result] at hr
    rw [ht, finish_fault, decide_eq_true hr, Bool.true_or]

theorem clearFault_mem_writeBank (s : State) (b : Bank) :
    Act.clearFault ∈ writeBank s b ↔ (s.txlen.get b).toNat < (s.cfg.cap.get b).toNat := by
  by_cases hfits : (s.txlen.get b).toNat < (s.cfg.cap.get b).toNat
  · rw [writeBank_fits hfits]
    exact iff_of_true (clearFault_mem_writeBody _ _ _) hfits
  · rw [writeBank_exceeds (Nat.not_lt.1 hfits)]
    exact iff_of_false (by simp) hfits

theorem clearFault_not_mem_runProgram (n : Nat) : Act.clearFault ∉ runProgram n := by simp [runProgram]

theorem clearFault_not_mem_driveClkgen (o : CkcfgOrder) (q : BitSeq) : Act.clearFault ∉ driveClkgen o q :=
  noClear_of_scan (driveClkgen_isScan o q)

theorem clearFault_mem_loadSession (s : State) (x : Bool) : Act.clearFault ∈ loadSession s x :=
  List.mem_append_left _ (List.mem_append_left _ (List.mem_append_right _ (clearFault_mem_fullChainClear _)))

theorem clearFault_mem_unloadSession (c : Config) (lm li lo : Length) :
    Act.clearFault ∈ unloadSession c lm li lo ↔ ¬ (lm = .none ∧ li = .none ∧ lo = .none) := by
  simp only [unloadSession, List.mem_append, clearFault_mem_readBank, holdChip]
  simp
  tauto

/-- Settles O20: a `ProtocolFault` sets the flag at the end, and the programs that reset the bus are these. -/
theorem faultFlag : Obligations.FaultFlag := by
  intro i s t hcommand hwf hc h
  have hends := exec_next_ends hcommand hwf hc h
  refine ⟨hends.protocolFault, fun hr => ?_⟩
  rw [hends.fault hcommand hr]
  cases i with
  | brst => exact if_pos (clearFault_mem_busReset _)
  | clear => exact if_pos (clearFault_mem_fullChainClear _)
  | wrbank b => simp only [programOf, clearFault_mem_writeBank, wrbank_result_ok_iff hc h, Nat.lt_iff_add_one_le]
  | rdbank b len => simp only [programOf, clearFault_mem_readBank, ne_eq, ite_not]
  | loads x => exact if_pos (clearFault_mem_loadSession s x)
  | unloads lm li lo => simp only [programOf, clearFault_mem_unloadSession, ite_not]
  | run n => exact if_neg (clearFault_not_mem_runProgram _)
  | ckcfg f r => exact if_neg (clearFault_not_mem_driveClkgen _ _)
  | payWrite | paySetaddr | payDisable | payReserved | chainid8 | read32 | clkgen18 => cases hcommand

/-! Test mode where `FAULT` is set -/

/-- A command that does not reset the bus does not touch test mode. -/
theorem keepsTm_of_noClear {i : Instr} {s : State} (hcommand : i.isCommand = true)
    (h : Act.clearFault ∉ programOf i s) : (programOf i s).all Act.keepsTm = true := by
  cases i with
  | brst => exact absurd (clearFault_mem_busReset _) h
  | clear => exact absurd (clearFault_mem_fullChainClear _) h
  | wrbank b =>
    simp only [programOf, clearFault_mem_writeBank, Nat.not_lt] at h
    rw [programOf, writeBank_exceeds h]
    rfl
  | rdbank b len =>
    simp only [programOf, clearFault_mem_readBank, ne_eq, not_not] at h
    subst h
    rfl
  | loads x => exact absurd (clearFault_mem_loadSession s x) h
  | unloads lm li lo =>
    simp only [programOf, clearFault_mem_unloadSession, not_not] at h
    obtain ⟨rfl, rfl, rfl⟩ := h
    rfl
  | run n => simp [programOf, runProgram, Act.keepsTm]
  | ckcfg f r =>
    simp only [programOf, configure, driveClkgen, driveSeq, List.all_append, List.all_cons, driveBits_keepsTm]
    rfl
  | payWrite | paySetaddr | payDisable | payReserved | chainid8 | read32 | clkgen18 => cases hcommand

theorem Ends.tm_of_keepsTm {p : List Act} {s t : State} (h : Ends p s t) (hp : p.all Act.keepsTm = true) :
    t.lines.tm = s.lines.tm := by
  cases h with
  | goes u hu ht => rw [ht, endCommand_lines]; exact runActs_go_tm hu hp
  | stops u r hu ht => rw [ht, finish_lines]; exact runActs_stop_tm hu hp

/-- Only a sample of a bank read faults, and every sample is made in test mode. -/
theorem Ends.tm_of_protocolFault {i : Instr} {s t : State} (hcommand : i.isCommand = true)
    (h : Ends (programOf i s) s.accepted t) (hr : t.result = .protocolFault) : t.lines.tm = true := by
  cases h with
  | goes u _ ht => rw [ht] at hr; cases hr
  | stops u r hu ht =>
    rw [ht, finish_result] at hr
    rw [ht, finish_lines]
    subst hr
    have hread (hlead : Leads (fun _ => True) (programOf i s) (fun _ => True) InTestMode) : u.lines.tm = true := by
      have htm := hlead s.accepted trivial
      rwa [hu] at htm
    cases i with
    | brst => exact absurd hu (runActs_pure_never_stops (busReset_pure _) _ _ _)
    | clear => exact absurd hu (runActs_pure_never_stops (fullChainClear_pure _) _ _ _)
    | wrbank b => cases (stopsOnly_writeBank s b).stop hu
    | rdbank b len => exact hread (leads_readBank_tm _ _ _)
    | loads x => cases (stopsOnly_loadSession s x).stop hu
    | unloads lm li lo => exact hread (leads_unloadSession_tm _ _ _ _)
    | run n => obtain hok | hout := (runProgram_ends n.toNat s.accepted u).2 _ hu <;> contradiction
    | ckcfg f r => exact absurd hu (runActs_pure_never_stops (driveClkgen_pure _ _) _ _ _)
    | payWrite | paySetaddr | payDisable | payReserved | chainid8 | read32 | clkgen18 => cases hcommand

/-- `FAULT` survives a command only where the command leaves test mode as it was. -/
theorem Ends.tm_of_fault {i : Instr} {s t : State} (hcommand : i.isCommand = true)
    (h : Ends (programOf i s) s.accepted t) (hs : s.status.fault = true → s.lines.tm = true)
    (hfault : t.status.fault = true) : t.lines.tm = true := by
  by_cases hr : t.result = .protocolFault
  · exact h.tm_of_protocolFault hcommand hr
  · rw [h.fault hcommand hr] at hfault
    split at hfault
    next => cases hfault
    next hclear => rw [h.tm_of_keepsTm (keepsTm_of_noClear hcommand hclear)]; exact hs hfault

/-- A refused command changes neither `FAULT` nor a line. -/
theorem refused_tm {e : Result} {s : State} (he : e ≠ .protocolFault)
    (hs : s.status.fault = true → s.lines.tm = true) :
    ((raiseError e s.accepted).status.fault = true → (raiseError e s.accepted).lines.tm = true) ∧
      ((raiseError e s.accepted).result = .protocolFault → (raiseError e s.accepted).lines.tm = true) := by
  rw [raiseError_fault, decide_eq_false he, Bool.false_or, raiseError_lines, raiseError_result]
  exact ⟨hs, fun h => absurd h he⟩

/-- Settles O21: the scan lines are the invariant's; `FAULT` is set only by a sample in test mode, and kept only by a
command that leaves test mode. -/
theorem faultLeavesTestModeAsserted : Obligations.FaultLeavesTestModeAsserted := by
  intro i s t hcommand hinv hs h
  have hrest := exec_keeps_inv hinv h
  have htm : (t.status.fault = true → t.lines.tm = true) ∧ (t.result = .protocolFault → t.lines.tm = true) := by
    rw [exec_command hcommand] at h
    obtain ⟨-, rfl⟩ | ⟨-, -, rfl⟩ | ⟨-, -, hends⟩ := command_next h
    · exact refused_tm (by decide) hs
    · exact refused_tm (by decide) hs
    · exact ⟨hends.tm_of_fault hcommand hs, hends.tm_of_protocolFault hcommand⟩
  exact ⟨htm.1, htm.2, hrest.sck, hrest.srst, hrest.cse, hrest.load⟩

end Sys2Proof.Machine
end

section
/-! ### What no instruction writes, the trace, `ELAPSED` (10_state.md R28 to R31, 00_scope.md R8) -/

namespace Sys2Proof.Machine

open Sys2Proof

/-- What any instruction does: it leaves the host's side, and its new events say what it did to the lines. -/
structure Moves (s t : State) : Prop where
  hostSide : HostSideSame s t
  log : ∃ es, t.log = es ++ s.log ∧ t.lines = es.reverse.foldl lineEvent s.lines

theorem Reach.moves {s t : State} (h : Reach s t) : Moves s t := ⟨h.hostSide, h.log⟩

theorem Moves.trans {s t u : State} (h : Moves s t) (k : Moves t u) : Moves s u where
  hostSide :=
    { cfg := k.hostSide.cfg.trans h.hostSide.cfg, cmd := k.hostSide.cmd.trans h.hostSide.cmd
      txlen := k.hostSide.txlen.trans h.hostSide.txlen, txbuf := k.hostSide.txbuf.trans h.hostSide.txbuf
      host := k.hostSide.host.trans h.hostSide.host, hostData := k.hostSide.hostData.trans h.hostSide.hostData }
  log := by
    obtain ⟨es, hlog, hlines⟩ := h.log
    obtain ⟨fs, klog, klines⟩ := k.log
    exact ⟨fs ++ es, by rw [klog, hlog, List.append_assoc],
      by rw [klines, hlines, List.reverse_append, List.foldl_append]⟩

theorem Moves.of_same {s t : State} (hostSide : HostSideSame s t) (hlog : t.log = s.log) (hlines : t.lines = s.lines) :
    Moves s t := ⟨hostSide, [], hlog, hlines⟩

theorem moves_accepted (s : State) : Moves s s.accepted := .of_same ⟨rfl, rfl, rfl, rfl, rfl, rfl⟩ rfl rfl

theorem moves_finish (e : Result) (s : State) : Moves s (finish e s) :=
  .of_same ⟨finish_cfg e s, finish_cmd e s, finish_txlen e s, finish_txbuf e s, finish_host e s, finish_hostData e s⟩
    (finish_log e s) (finish_lines e s)

theorem moves_raiseError (e : Result) (s : State) : Moves s (raiseError e s) :=
  .of_same ⟨raiseError_cfg e s, raiseError_cmd e s, raiseError_txlen e s, raiseError_txbuf e s, raiseError_host e s,
    raiseError_hostData e s⟩ (raiseError_log e s) (raiseError_lines e s)

theorem moves_presentFrame (w : Word) (s : State) : Moves s (presentFrame w s) :=
  .of_same ⟨rfl, rfl, rfl, rfl, rfl, rfl⟩ rfl rfl

theorem moves_endFrame (s : State) : Moves s (endFrame s) := .of_same ⟨rfl, rfl, rfl, rfl, rfl, rfl⟩ rfl rfl

theorem Ends.moves {p : List Act} {s t : State} (h : Ends p s t) : Moves s t := by
  cases h with
  | goes u hu ht => rw [ht]; exact (runActs_reach hu).moves.trans (.of_same ⟨rfl, rfl, rfl, rfl, rfl, rfl⟩ rfl rfl)
  | stops u r hu ht => rw [ht]; exact (runActs_reach_stop hu).moves.trans (moves_finish r u)

theorem command_moves {l : Bool} {p : List Act} {s t : State} (h : command l p s = .next t) : Moves s t := by
  obtain ⟨-, rfl⟩ | ⟨-, -, rfl⟩ | ⟨-, -, hends⟩ := command_next h
  · exact (moves_accepted s).trans (moves_raiseError _ _)
  · exact (moves_accepted s).trans (moves_raiseError _ _)
  · exact (moves_accepted s).trans hends.moves

theorem frame_moves {p : List Act} {s t : State} (h : frame p s = .next t) : Moves s t := by
  obtain ⟨-, rfl⟩ | ⟨-, ⟨u, hu, rfl⟩ | ⟨u, r, hu, rfl⟩⟩ := frame_next h
  · exact moves_raiseError _ _
  · exact (runActs_reach hu).moves.trans (.of_same ⟨rfl, rfl, rfl, rfl, rfl, rfl⟩ rfl rfl)
  · exact (runActs_reach_stop hu).moves.trans (moves_finish r u)

theorem exec_moves {i : Instr} {s t : State} (h : exec i s = .next t) : Moves s t :=
  exec_induction (P := Moves) (fun _ => command_moves) (fun _ => frame_moves)
    (fun {w s u} ih => ((moves_presentFrame w s).trans ih).trans (moves_endFrame u)) h

/-- Settles O22: neither a micro-step nor the start or end of a command or frame writes there. -/
theorem noInstructionWritesTheHostSide : Obligations.NoInstructionWritesTheHostSide := fun _ _ _ h =>
  (exec_moves h).hostSide

/-- Settles O24: the log only grows, and each new event did to the lines what it says. -/
theorem theTraceSaysWhatTheLinesAre : Obligations.TheTraceSaysWhatTheLinesAre := by
  intro i s t h
  obtain ⟨es, hlog, hlines⟩ := (exec_moves h).log
  have htrace : t.trace = s.trace ++ es.reverse := trace_iff.2 (by rw [hlog, List.reverse_reverse])
  rw [newEvents_of_trace htrace]
  exact ⟨htrace, hlines⟩

/-! `ELAPSED` -/

theorem Ends.elapsed {p : List Act} {s t : State} (h : Ends p s t) (hp : p.all Act.keepsElapsed = true) :
    t.elapsed = s.elapsed := by
  cases h with
  | goes u hu ht => rw [ht, endCommand_elapsed]; exact (runActs_elapsed hp).1 hu
  | stops u r hu ht => rw [ht, finish_elapsed]; exact (runActs_elapsed hp).2 r hu

theorem command_elapsed {l : Bool} {p : List Act} {s t : State} (hp : p.all Act.keepsElapsed = true)
    (h : command l p s = .next t) : t.elapsed = s.elapsed := by
  obtain ⟨-, rfl⟩ | ⟨-, -, rfl⟩ | ⟨-, -, hends⟩ := command_next h
  · exact raiseError_elapsed _ _
  · exact raiseError_elapsed _ _
  · exact hends.elapsed hp

theorem frame_elapsed {p : List Act} {s t : State} (hp : p.all Act.keepsElapsed = true)
    (h : frame p s = .next t) : t.elapsed = s.elapsed := by
  obtain ⟨-, rfl⟩ | ⟨-, ⟨u, hu, rfl⟩ | ⟨u, r, hu, rfl⟩⟩ := frame_next h
  · exact raiseError_elapsed _ _
  · exact ((runActs_elapsed hp).1 hu :)
  · rw [finish_elapsed]; exact (runActs_elapsed hp).2 r hu

theorem exec_elapsed {i : Instr} {s t : State} (hi : ∀ n, i ≠ .run n) (h : exec i s = .next t) :
    t.elapsed = s.elapsed :=
  exec_induction (P := fun s t => t.elapsed = s.elapsed) (fun _ => command_elapsed (programOf_keepsElapsed _ hi))
    (fun _ => frame_elapsed (programOf_keepsElapsed _ hi)) (fun ih => ih) h

/-- The events of a `RUN`: its two line writes, then one sample of `DONE` a poll (42_sessions.md R152). -/
theorem run_events {s t : State} {n : BitVec 32} (hc : s.status.cfgerr = false) (h : exec (.run n) s = .next t) :
    ∃ es, newEvents s t = [Event.w .clksel clkInt, .w .crst false] ++ es ∧ es.length = t.elapsed.toNat ∧
      es.length ≤ n.toNat ∧ ∀ x ∈ es, x = .r .done true ∨ x = .r .done false := by
  have hends : Ends (runProgram n.toNat) s.accepted t := exec_next_ends (i := .run n) rfl rfl hc h
  obtain ⟨u, e, es, hstop, hlog, helapsed, hle, hes⟩ :=
    polls_end n.toNat (s := s.polling) (by change 0 + n.toNat < 2 ^ 32; omega)
  rw [← runActs_runProgram] at hstop
  have hcount : u.elapsed.toNat = es.length := helapsed.trans (Nat.zero_add _)
  rw [hends.of_stop hstop]
  refine ⟨es.reverse, newEvents_of_trace (trace_iff.2 ?_), ?_, by rwa [List.length_reverse], fun x hx =>
    hes x (List.mem_reverse.1 hx)⟩
  · rw [finish_log, hlog]
    simp [State.polling, recordWrite]
  · rw [finish_elapsed, List.length_reverse, hcount]

/-- Settles O23: a `RUN` counts its polls, each a sample of `DONE`, and no other program has a step that writes
`ELAPSED`. -/
theorem elapsedIsWrittenByRunAlone : Obligations.ElapsedIsWrittenByRunAlone := by
  intro i s t h hc
  cases i with
  | run n =>
    obtain ⟨es, hnew, hcount, hle, hes⟩ := run_events hc h
    have hpolls : es.countP (fun e => decide (e = .r .done true ∨ e = .r .done false)) = es.length :=
      List.countP_eq_length.2 fun x hx => decide_eq_true (hes x hx)
    rw [hnew, List.countP_append, hpolls, ← hcount]
    exact ⟨Nat.zero_add _, hle⟩
  | brst | clear | wrbank | rdbank | loads | unloads | ckcfg | payWrite | paySetaddr | payDisable | payReserved
  | chainid8 | read32 | clkgen18 => exact exec_elapsed (fun _ => Instr.noConfusion) h

end Sys2Proof.Machine
end

section
/-! ### Two environments (20_memory.md R55) -/

namespace Sys2Proof.Machine

open Sys2Proof

theorem finish_withWorld (e : Result) (s : State) (w : World) :
    finish e (s.withWorld w) = (finish e s).withWorld w := by
  cases e <;> rfl

theorem raiseError_withWorld (e : Result) (s : State) (w : World) :
    raiseError e (s.withWorld w) = (raiseError e s).withWorld w := by
  cases e <;> rfl

/-- `t'` is `t` but for the chip, the environment and the free-value counter. -/
def SameEngine (t t' : State) : Prop := t' = t.withWorld t'.world

theorem SameEngine.of_withWorld {t t' : State} {w : World} (h : t' = t.withWorld w) : SameEngine t t' := by
  rw [SameEngine, h, world_withWorld]

theorem Ends.alike {p : List Act} {s t t' : State} {w : World} (hp : p.all Act.isBlind = true) (h : Ends p s t)
    (h' : Ends p (s.withWorld w) t') : SameEngine t t' := by
  have halike := runActs_blind hp s w
  cases h with
  | goes u hu ht =>
    cases h' with
    | goes u' hu' ht' =>
      rw [hu, hu'] at halike
      rw [ht, ht', halike]
      exact .of_withWorld rfl
    | stops u' r' hu' _ => rw [hu, hu'] at halike; exact halike.elim
  | stops u r hu ht =>
    cases h' with
    | goes u' hu' _ => rw [hu, hu'] at halike; exact halike.elim
    | stops u' r' hu' ht' =>
      rw [hu, hu'] at halike
      obtain ⟨rfl, hsame⟩ := halike
      rw [ht, ht', hsame]
      exact .of_withWorld (finish_withWorld _ _ _)

theorem command_alike {l : Bool} {p : List Act} {s t t' : State} {w : World} (hp : p.all Act.isBlind = true)
    (h : command l p s = .next t) (h' : command l p (s.withWorld w) = .next t') : SameEngine t t' := by
  obtain ⟨hc, rfl⟩ | ⟨hc, rfl, rfl⟩ | ⟨hc, rfl, hends⟩ := command_next h
  · rw [command_cfgerr (s := s.withWorld w) l p hc] at h'
    cases h'
    exact .of_withWorld (raiseError_withWorld _ s.accepted _)
  · rw [command_illegal (s := s.withWorld w) p hc] at h'
    cases h'
    exact .of_withWorld (raiseError_withWorld _ s.accepted _)
  · obtain ⟨hbad, -⟩ | ⟨-, hillegal, -⟩ | ⟨-, -, hends'⟩ := command_next h'
    · rw [withWorld_status, hc] at hbad; cases hbad
    · cases hillegal
    · exact hends.alike hp hends'

theorem frame_next_pure {p : List Act} {s t : State} (hp : p.all Act.isPure = true) (h : frame p s = .next t) :
    (s.status.cfgerr = true ∧ t = raiseError .configurationError s) ∨
      (s.status.cfgerr = false ∧ ∃ u, Goes p s u ∧ t = { u with phase := .idle }) := by
  obtain hrefused | ⟨hc, hgoes | ⟨u, r, hu, -⟩⟩ := frame_next h
  · exact .inl hrefused
  · exact .inr ⟨hc, hgoes⟩
  · exact absurd hu (runActs_pure_never_stops hp _ _ _)

theorem frame_alike {p : List Act} {s t t' : State} {w : World} (hp : p.all Act.isPure = true)
    (h : frame p s = .next t) (h' : frame p (s.withWorld w) = .next t') : SameEngine t t' := by
  obtain ⟨hc, rfl⟩ | ⟨hc, u, hu, rfl⟩ := frame_next_pure hp h <;>
    obtain ⟨hc', rfl⟩ | ⟨hc', u', hu', rfl⟩ := frame_next_pure hp h'
  · exact .of_withWorld (raiseError_withWorld _ s _)
  · rw [withWorld_status, hc] at hc'; cases hc'
  · rw [withWorld_status, hc] at hc'; cases hc'
  · have halike := runActs_blind (isBlind_of_pure hp) s w
    rw [hu, hu'] at halike
    rw [halike]
    exact .of_withWorld rfl

/-- The capacity check of a bank write asks nothing of the environment. -/
theorem writeBank_blind (s : State) (b : Bank) : (writeBank s b).all Act.isBlind = true := by
  unfold writeBank
  split
  next => rfl
  next => exact isBlind_of_pure (writeBody_pure _ _ _)

theorem loadSession_blind (s : State) (x : Bool) : (loadSession s x).all Act.isBlind = true := by
  simp only [loadSession, List.all_append, writeBank_blind, isBlind_of_pure (fullChainClear_pure _),
    isBlind_of_pure (show holdChip.all Act.isPure = true from rfl), Bool.true_and]
  cases x with
  | false => rfl
  | true => exact writeBank_blind s .input

theorem programOf_blind {i : Instr} (s : State) (hi : Instr.samples i = false) :
    (programOf i s).all Act.isBlind = true := by
  cases i with
  | brst => exact isBlind_of_pure (busReset_pure _)
  | clear => exact isBlind_of_pure (fullChainClear_pure _)
  | wrbank b => exact writeBank_blind s b
  | rdbank b len =>
    simp only [Instr.samples, ne_eq, decide_not, Bool.not_eq_false', decide_eq_true_eq] at hi
    subst hi
    rfl
  | loads x => exact loadSession_blind s x
  | unloads lm li lo =>
    simp only [Instr.samples, ne_eq, decide_not, Bool.or_eq_false_iff, Bool.not_eq_false', decide_eq_true_eq] at hi
    obtain ⟨⟨rfl, rfl⟩, rfl⟩ := hi
    rfl
  | run n => cases hi
  | ckcfg f r => exact isBlind_of_pure (driveClkgen_pure _ _)
  | payWrite | paySetaddr | payDisable | payReserved => exact isBlind_of_pure (writePayload_pure _ _ _ _ _ _)
  | chainid8 id => exact isBlind_of_pure (select_pure id)
  | read32 w => cases hi
  | clkgen18 f r => exact isBlind_of_pure (driveClkgen_pure _ _)

theorem programOf_pure_of_frame {i : Instr} (s : State) (hlayer : i.isCommand = false) (hi : Instr.samples i = false) :
    (programOf i s).all Act.isPure = true := by
  cases i with
  | brst | clear | wrbank | rdbank | loads | unloads | run | ckcfg => cases hlayer
  | payWrite | paySetaddr | payDisable | payReserved => exact writePayload_pure _ _ _ _ _ _
  | chainid8 id => exact select_pure id
  | read32 w => cases hi
  | clkgen18 f r => exact driveClkgen_pure _ _

/-- A program is chosen by the engine's own registers. -/
theorem programOf_withWorld (i : Instr) (s : State) (w : World) : programOf i (s.withWorld w) = programOf i s := by
  cases i <;> rfl

/-- Settles O25: the program is the same, and none of its steps asks the environment anything. -/
theorem theEngineDoesNotDependOnTheEnvironment : Obligations.TheEngineDoesNotDependOnTheEnvironment := by
  intro i s t t' c e n hi h h'
  change exec i (s.withWorld ⟨c, e, n⟩) = .next t' at h'
  change SameEngine t t'
  by_cases hlayer : i.isCommand = true
  · rw [exec_command hlayer] at h h'
    rw [programOf_withWorld] at h'
    exact command_alike (programOf_blind s hi) h h'
  · rw [Bool.not_eq_true] at hlayer
    have hread (w : Word) : i ≠ .read32 w := by rintro rfl; cases hi
    rw [exec_frame hlayer hread] at h h'
    rw [programOf_withWorld] at h'
    exact frame_alike (programOf_pure_of_frame s hlayer hi) h h'

/-- Settles O26: a row is four bytes of its own, and canonical memories that read alike are the same list. -/
theorem rowsAreSeparateWords : Obligations.RowsAreSeparateWords := by
  intro m b a w hm
  refine ⟨Memory.wf_writeRow hm, Memory.readRow_writeRow_same hm, fun c e hne => Memory.readRow_writeRow_other hne,
    fun m' hm' hread => ?_⟩
  exact Cells.ext_of_wf ((Memory.wf_iff m').1 hm').1 ((Memory.wf_iff m).1 hm).1 hread

end Sys2Proof.Machine
end

section
/-! ### The transactions that only write (41_transactions.md R132 to R134) -/

namespace Sys2Proof.Machine

open Sys2Proof

/-! Both environments at once -/

/-- A pure program runs to its end in an oracle; in the RTM, where what is to be shown of its end says so. -/
theorem goes_of_pure {p : List Act} {s : State} {F : State → Prop} (hp : p.all Act.isPure = true)
    (h : s.env.kind = .rtm → ∃ t, Goes p s t ∧ F t) : ∃ t, Goes p s t ∧ (s.env.kind = .rtm → F t) := by
  cases hk : s.env.kind with
  | rtm =>
    obtain ⟨t, hgo, hF⟩ := h hk
    exact ⟨t, hgo, fun _ => hF⟩
  | oracle => exact ⟨_, goes_oracle hk hp, nofun⟩

/-- What the RTM leaves of the chip, an oracle leaves too, for it leaves the whole chip. -/
theorem Reach.chip_field {α : Type} {s t : State} (h : Reach s t) (f : Chip → α)
    (hrtm : s.env.kind = .rtm → f t.chip = f s.chip) : f t.chip = f s.chip := by
  cases hk : s.env.kind with
  | rtm => exact hrtm hk
  | oracle => rw [h.oracle hk]

theorem MemSame.of_mem {s t : State} (h : t.chip.mem = s.chip.mem) : MemSame s t := fun addr => by rw [h]

theorem PureCommand.oracle {r : Result} {p : List Act} {s u t : State} (h : PureCommand r p s u t)
    (hu : Goes p s.accepted u) (hk : s.env.kind = .oracle) : t.chip = s.chip :=
  h.chip.trans ((runActs_reach hu).oracle hk)

/-! BRST -/

theorem Lines.set_srst_of_low {l : Lines} (h : l.srst = false) : { l with srst := false } = l := by
  rw [← h]

/-- Settles O27: `bus_reset` runs to its end in both environments, and in the RTM it clears the selection at its first
pulse. -/
theorem brstRuns : Obligations.BrstRuns := by
  intro s hs
  obtain ⟨u, hgo, hrtm⟩ := goes_of_pure (s := s.accepted) (F := fun u => u.chip.mem = s.chip.mem ∧
      u.chip.treg = s.chip.treg ∧ (s.cfg.resetPulses.toNat ≠ 0 → u.chip.selected = none))
    (busReset_pure s.cfg) fun hk => by
      obtain ⟨u, hgo, -, -, -, -, hmem, htreg, -, hsel⟩ := goes_busReset hs.rest.accepted hk
      exact ⟨u, hgo, hmem, htreg, hsel⟩
  obtain ⟨t, hexec, ht⟩ :=
    exec_pure_command (i := .brst) (p := busReset s.cfg) rfl rfl hs.valid rfl (busReset_pure s.cfg) hgo
  have hreach := runActs_reach hgo
  have hran := ht.ran
  rw [if_pos (clearFault_mem_busReset _), progEvents_busReset] at hran
  have hlines : t.lines = s.lines := by
    rw [ht.lines, progEvents_busReset, foldl_busResetEvents _ hs.inv.sck, Lines.set_srst_of_low hs.inv.srst]
  have hmem : u.chip.mem = s.chip.mem := hreach.chip_field Chip.mem fun hk => (hrtm hk).1
  have htreg : u.chip.treg = s.chip.treg := hreach.chip_field Chip.treg fun hk => (hrtm hk).2.1
  refine ⟨t, hexec, hran, ht.rx (busReset_noRx _), ht.elapsed, hlines, ht.work.trans (engineRun_busReset_work _ _),
    MemSame.of_mem (by rw [ht.chip, hmem]), by rw [ht.chip, htreg], ht.oracle hgo, fun hk hpulses => ?_⟩
  rw [ht.chip]
  exact (hrtm hk).2.2 fun h0 => hpulses (BitVec.eq_of_toNat_eq h0)

/-! CLEAR -/

theorem disableValue_eq : disableValue = 0x0000000000000F := by decide

theorem foldl_clearEvents_atRest (c : Config) {l : Lines} (h : l.sck = false) :
    (clearEvents c).foldl lineEvent l = l.atRest false := by
  rw [foldl_clearEvents c h, Lines.atRest, ← h]

/-- Settles O28: the chain clear runs to its end in both environments, and in the RTM sends `PAY.DISABLE` to every
target, id 8 last. -/
theorem clearRuns : Obligations.ClearRuns := by
  intro s hs
  obtain ⟨u, hgo, hrtm⟩ := goes_of_pure (s := s.accepted) (F := fun u => u.chip.mem = s.chip.mem ∧
      u.chip.selected = some 8 ∧ ∀ b, u.chip.treg.get b = disableValue)
    (fullChainClear_pure s.cfg) fun hk => by
      obtain ⟨u, hgo, -, -, -, hmem, hsel, htreg, -⟩ :=
        goes_fullChainClear hs.rest.accepted hk hs.valid_cfg (hs.ticks hk)
      exact ⟨u, hgo, hmem, hsel, htreg⟩
  obtain ⟨t, hexec, ht⟩ :=
    exec_pure_command (i := .clear) (p := fullChainClear s.cfg) rfl rfl hs.valid rfl (fullChainClear_pure s.cfg) hgo
  have hran := ht.ran
  rw [if_pos (clearFault_mem_fullChainClear _), progEvents_fullChainClear] at hran
  have hlines : t.lines = s.lines.atRest false := by
    rw [ht.lines, progEvents_fullChainClear, foldl_clearEvents_atRest _ hs.inv.sck]
  obtain ⟨hdsr, haddrc⟩ := fullChainClear_keeps s.cfg
  have hmem : u.chip.mem = s.chip.mem := (runActs_reach hgo).chip_field Chip.mem fun hk => (hrtm hk).1
  refine ⟨t, hexec, hran, ht.rx (fullChainClear_noRx _), ht.elapsed, hlines,
    by rw [ht.work, engineRun_dsr s hdsr], by rw [ht.work, engineRun_addrc s haddrc],
    MemSame.of_mem (by rw [ht.chip, hmem]), ht.oracle hgo, fun hk => ?_⟩
  obtain ⟨-, hsel, htreg⟩ := hrtm hk
  rw [ht.chip]
  exact ⟨hsel, fun b => (htreg b).trans disableValue_eq⟩

/-! WRBANK -/

/-- What a bank write of `src`'s words leaves in the RTM (41_transactions.md R134, 20_memory.md R63). -/
structure Written (src : State) (b : Bank) (s t : State) : Prop where
  rest : Rest t
  cfg : t.cfg = s.cfg
  env : EnvSame s.world t.world
  wf : t.chip.mem.wf = true
  rows : ∀ a, a < (src.txlen.get b).toNat → t.row b a = (src.txbuf.get b).read (BitVec.ofNat 16 a)
  outside : MemSameOutside s t fun c => if c = b then (src.txlen.get b).toNat else 0
  selected : t.chip.selected = some ((s.cfg.wr.get b).setWidth 8)
  treg : t.chip.treg.get b = src.lastWrite b (s.chip.treg.get b)
  tregOther : ∀ c, c ≠ b → t.chip.treg.get c = s.chip.treg.get c

/-- In the RTM a bank write below the capacity runs to its end. -/
theorem goes_written {src s : State} {b : Bank} (h : Rest s) (hk : s.env.kind = .rtm) (hv : Config.valid s.cfg = true)
    (ht : s.cfg.loadTicks = ⟨0, 1, 1⟩) (hsrc : src.cfg = s.cfg) (hwf : s.chip.mem.wf = true)
    (hfits : (src.txlen.get b).toNat < (s.cfg.cap.get b).toNat) :
    ∃ t, Goes (writeBody src b (src.txlen.get b).toNat) s t ∧ Written src b s t := by
  obtain ⟨t, hgo, hrest, hcfg, henv, hsel, -, hmem, htregOther, htreg⟩ :=
    goes_writeBody (b := b) h hk hv ht hsrc hfits.le
  obtain ⟨hwf', hrows, hother⟩ := hmem hwf
  refine ⟨t, hgo, hrest, hcfg, henv, hwf', hrows, fun addr haddr => hother addr fun a ha => ?_, hsel, htreg, htregOther⟩
  exact not_inRows (haddr b) a (ha.trans_eq (if_pos rfl).symm)

theorem not_inRows_zero (b : Bank) (addr : Nat) : ¬ inRows b 0 addr := fun ⟨a, ha, _⟩ => absurd ha (Nat.not_lt_zero a)

theorem Written.readByte {src s t : State} {b : Bank} (h : Written src b s t) {addr : Nat}
    (haddr : ¬ inRows b (src.txlen.get b).toNat addr) : t.chip.mem.readByte addr = s.chip.mem.readByte addr :=
  h.outside addr fun c => by
    dsimp only
    by_cases hc : c = b
    · rwa [if_pos hc, hc]
    · rw [if_neg hc]; exact not_inRows_zero c addr

/-- A bank write changes no row of another bank. -/
theorem Written.row_other {src s t : State} {b c : Bank} (h : Written src b s t) (hc : c ≠ b) (a : Nat) :
    t.row c a = s.row c a := by
  refine Memory.readRow_congr fun i hi => h.readByte ?_
  rintro ⟨e, he, hlow, hhigh⟩
  have hdisjoint := rowAddr_disjoint (b := c) (c := b) (a := BitVec.ofNat 16 a) (e := BitVec.ofNat 16 e)
    fun heq => hc (Prod.mk.inj heq).1
  omega

theorem length_txWords (s : State) (b : Bank) : (s.txWords b).length = (s.txlen.get b).toNat := by
  rw [State.txWords, List.length_map, List.length_range]

theorem foldl_writeEvents_atRest {s : State} (hs : s.Inv) (c : Config) (b : Bank) {l : Lines} (h : l.sck = false)
    (hl : l.load = false) : (writeEvents c b (s.txWords b)).foldl lineEvent l =
      l.atRest (lastWriteBit (s.txlen.get b).toNat) := by
  have hlen := hs.txlen b
  rw [foldl_writeEvents c b _ h hl (by rw [length_txWords]; exact hlen), length_txWords, Lines.atRest, ← h]

/-- Settles O29: below the capacity the transaction runs to its end in both environments. -/
theorem wrbankRuns : Obligations.WrbankRuns := by
  intro s b hs hfits
  have hpure := writeBody_pure s b (s.txlen.get b).toNat
  obtain ⟨u, hgo, hrtm⟩ := goes_of_pure (s := s.accepted) hpure fun hk =>
    goes_written (src := s) hs.rest.accepted hk hs.valid_cfg (hs.ticks hk) rfl hs.inv.mem hfits
  obtain ⟨t, hexec, ht⟩ := exec_pure_command (i := .wrbank b) rfl rfl hs.valid (writeBank_fits hfits) hpure hgo
  have hran := ht.ran
  rw [if_pos (clearFault_mem_writeBody _ _ _), progEvents_writeBody] at hran
  have hlines : t.lines = s.lines.atRest (lastWriteBit (s.txlen.get b).toNat) := by
    rw [ht.lines, progEvents_writeBody, foldl_writeEvents_atRest hs.inv _ _ hs.inv.sck hs.inv.load]
  obtain ⟨hdsr, hidc⟩ := writeBody_keeps s b (s.txlen.get b).toNat
  refine ⟨t, hexec, hran, ht.rx (writeBody_noRx _ _ _), ht.elapsed, hlines,
    by rw [ht.work, engineRun_dsr s hdsr], by rw [ht.work, engineRun_idc s hidc], ht.oracle hgo, fun hk => ?_⟩
  have hw := hrtm hk
  simp only [State.row, MemSameOutside, ht.chip]
  exact ⟨hw.rows, hw.outside, hw.selected, hw.treg, hw.tregOther⟩

/-- Settles O30: the check stops the command before its first step, and its entry and end undo each other. -/
theorem wrbankAtCapacityIsRefused : Obligations.WrbankAtCapacityIsRefused := by
  intro s b hs hc hover
  have hstop : runActs (writeBank s b) s.accepted = .stop s.accepted .capacityError := by
    rw [writeBank_exceeds hover]; rfl
  have hend := raiseError_accepted (e := .capacityError) (by decide) hs.busy hs.phase
  exact (command_stop hc hstop).trans (congrArg _ hend)

/-- Between commands the entry and the end of a command that only writes `RXLEN` undo each other. -/
theorem rxClear_accepted {s : State} (b : Bank) (hb : s.status.busy = false) (hp : s.phase = .idle) :
    endCommand .ok { s.accepted with rxlen := s.rxlen.set b 0 } =
      { s with result := .ok, rxlen := s.rxlen.set b 0 } := by
  rw [endCommand, ← hp]
  dsimp only
  rw [accepted_status, accept_endBusy hb]
  rfl

/-- Settles O31: the program of a read of length none is the one step that empties the result. -/
theorem rdbankNoneReadsNothing : Obligations.RdbankNoneReadsNothing := fun _ b hs hc =>
  (command_go (p := [.rxClear b]) hc rfl).trans (congrArg _ (rxClear_accepted b hs.busy hs.phase))

end Sys2Proof.Machine
end

section
/-! ### LOADS (42_sessions.md R150, R153) -/

namespace Sys2Proof.Machine

open Sys2Proof

theorem progEvents_holdChip : progEvents holdChip = holdEvents := rfl

theorem holdChip_pure : holdChip.all Act.isPure = true := rfl

/-- The lines as a session opens: external clock, chip reset asserted. -/
abbrev Lines.held (l : Lines) : Lines := { l with clksel := clkExt, crst := true }

theorem foldl_holdEvents (l : Lines) : holdEvents.foldl lineEvent l = l.held := rfl

/-- The opening of a load session: the two line writes and the chain clear. -/
def loadOpen (c : Config) : List Act := holdChip ++ fullChainClear c

theorem loadOpen_pure (c : Config) : (loadOpen c).all Act.isPure = true := by
  rw [loadOpen, List.all_append, holdChip_pure, fullChainClear_pure, Bool.and_self]

theorem progEvents_loadOpen (c : Config) : progEvents (loadOpen c) = holdEvents ++ clearEvents c := by
  rw [loadOpen, progEvents_append, progEvents_holdChip, progEvents_fullChainClear]

theorem loadOpen_noRx (c : Config) : (loadOpen c).all (fun a => !a.writesRx) = true := by
  rw [loadOpen, List.all_append, fullChainClear_noRx]; rfl

theorem loadOpen_keeps (c : Config) :
    (loadOpen c).all Act.keepsDsr = true ∧ (loadOpen c).all Act.keepsAddrc = true := by
  obtain ⟨hdsr, haddrc⟩ := fullChainClear_keeps c
  rw [loadOpen, List.all_append, List.all_append, hdsr, haddrc]
  exact ⟨rfl, rfl⟩

theorem clearFault_mem_loadOpen (c : Config) : Act.clearFault ∈ loadOpen c :=
  List.mem_append_right _ (clearFault_mem_fullChainClear c)

theorem foldl_loadOpen (c : Config) {l : Lines} (h : l.sck = false) :
    (progEvents (loadOpen c)).foldl lineEvent l = l.held.atRest false := by
  rw [progEvents_loadOpen, List.foldl_append, foldl_holdEvents, foldl_clearEvents_atRest c (l := l.held) h]

/-- What the opening leaves in the RTM. -/
structure Opened (s t : State) : Prop where
  rest : Rest t
  cfg : t.cfg = s.cfg
  kind : t.env.kind = .rtm
  mem : t.chip.mem = s.chip.mem
  selected : t.chip.selected = some 8
  treg : ∀ b, t.chip.treg.get b = 0x0000000000000F

theorem goes_loadOpen {s : State} (hs : s.Ready) (hk : s.env.kind = .rtm) :
    ∃ t, Goes (loadOpen s.cfg) s.accepted t ∧ Opened s t := by
  have hrest : Rest (recordWrite .crst true (recordWrite .clksel clkExt s.accepted)) := by
    obtain ⟨hsck, hsrst, hcse, hload, hpend⟩ := hs.rest
    exact ⟨hsck, hsrst, hcse, hload, hpend⟩
  obtain ⟨t, hgo, hrest', hcfg, henv, hmem, hsel, htreg, -⟩ :=
    goes_fullChainClear hrest hk hs.valid_cfg (hs.ticks hk)
  exact ⟨t, (goes_holdChip s.accepted).append hgo, hrest', hcfg, henv.kind.trans hk, hmem, hsel,
    fun b => (htreg b).trans disableValue_eq⟩

/-- The opening and the main write. -/
def loadMain (s : State) : List Act := loadOpen s.cfg ++ writeBody s .main (s.txlen.get .main).toNat

theorem loadMain_pure (s : State) : (loadMain s).all Act.isPure = true := by
  rw [loadMain, List.all_append, loadOpen_pure, writeBody_pure, Bool.and_self]

theorem progEvents_loadMain (s : State) :
    progEvents (loadMain s) = holdEvents ++ clearEvents s.cfg ++ writeEvents s.cfg .main (s.txWords .main) := by
  rw [loadMain, progEvents_append, progEvents_loadOpen, progEvents_writeBody]

theorem loadMain_noRx (s : State) : (loadMain s).all (fun a => !a.writesRx) = true := by
  rw [loadMain, List.all_append, loadOpen_noRx, writeBody_noRx, Bool.and_self]

theorem loadMain_keepsDsr (s : State) : (loadMain s).all Act.keepsDsr = true := by
  rw [loadMain, List.all_append, (loadOpen_keeps _).1, (writeBody_keeps _ _ _).1, Bool.and_self]

theorem clearFault_mem_loadMain (s : State) : Act.clearFault ∈ loadMain s :=
  List.mem_append_left _ (clearFault_mem_loadOpen s.cfg)

theorem foldl_loadMain {s : State} (hs : s.Inv) : (progEvents (loadMain s)).foldl lineEvent s.lines =
    s.lines.held.atRest (lastWriteBit (s.txlen.get .main).toNat) := by
  rw [loadMain, progEvents_append, List.foldl_append, foldl_loadOpen _ hs.sck, progEvents_writeBody,
    foldl_writeEvents_atRest hs _ _ rfl rfl]
  rfl

/-- The main write of a load session leaves the other write-data registers as the chain clear left them. -/
theorem goes_loadMain {s : State} (hs : s.Ready) (hk : s.env.kind = .rtm)
    (hfits : (s.txlen.get .main).toNat < (s.cfg.cap.get .main).toNat) :
    ∃ u t, Opened s u ∧ Goes (loadMain s) s.accepted t ∧ Written s .main u t := by
  obtain ⟨u, hopen, hu⟩ := goes_loadOpen hs hk
  obtain ⟨t, hgo, ht⟩ := goes_written (src := s) (s := u) (b := .main) hu.rest hu.kind (hu.cfg ▸ hs.valid_cfg)
    (hu.cfg ▸ hs.ticks hk) hu.cfg.symm (hu.mem ▸ hs.inv.mem) (hu.cfg ▸ hfits)
  exact ⟨u, t, hu, hopen.append hgo, ht⟩

/-- Both bank writes of a load session. -/
def loadBoth (s : State) : List Act := loadMain s ++ writeBody s .input (s.txlen.get .input).toNat

theorem loadBoth_pure (s : State) : (loadBoth s).all Act.isPure = true := by
  rw [loadBoth, List.all_append, loadMain_pure, writeBody_pure, Bool.and_self]

theorem progEvents_loadBoth (s : State) : progEvents (loadBoth s) =
    holdEvents ++ clearEvents s.cfg ++ writeEvents s.cfg .main (s.txWords .main) ++
      writeEvents s.cfg .input (s.txWords .input) := by
  rw [loadBoth, progEvents_append, progEvents_loadMain, progEvents_writeBody]

theorem loadBoth_noRx (s : State) : (loadBoth s).all (fun a => !a.writesRx) = true := by
  rw [loadBoth, List.all_append, loadMain_noRx, writeBody_noRx, Bool.and_self]

theorem loadBoth_keepsDsr (s : State) : (loadBoth s).all Act.keepsDsr = true := by
  rw [loadBoth, List.all_append, loadMain_keepsDsr, (writeBody_keeps _ _ _).1, Bool.and_self]

theorem clearFault_mem_loadBoth (s : State) : Act.clearFault ∈ loadBoth s :=
  List.mem_append_left _ (clearFault_mem_loadMain s)

theorem foldl_loadBoth {s : State} (hs : s.Inv) : (progEvents (loadBoth s)).foldl lineEvent s.lines =
    s.lines.held.atRest (lastWriteBit (s.txlen.get .input).toNat) := by
  rw [loadBoth, progEvents_append, List.foldl_append, foldl_loadMain hs, progEvents_writeBody,
    foldl_writeEvents_atRest hs _ _ rfl rfl]
  rfl

theorem goes_loadBoth {s : State} (hs : s.Ready) (hk : s.env.kind = .rtm)
    (hmain : (s.txlen.get .main).toNat < (s.cfg.cap.get .main).toNat)
    (hinput : (s.txlen.get .input).toNat < (s.cfg.cap.get .input).toNat) :
    ∃ u v t, Opened s u ∧ Written s .main u v ∧ Goes (loadBoth s) s.accepted t ∧ Written s .input v t := by
  obtain ⟨u, v, hu, hgoMain, hv⟩ := goes_loadMain hs hk hmain
  have hcfg : v.cfg = s.cfg := hv.cfg.trans hu.cfg
  obtain ⟨t, hgo, ht⟩ := goes_written (src := s) (s := v) (b := .input) hv.rest (hv.env.kind.trans hu.kind)
    (hcfg ▸ hs.valid_cfg) (hcfg ▸ hs.ticks hk) hcfg.symm hv.wf (hcfg ▸ hinput)
  exact ⟨u, v, t, hu, hv, hgoMain.append hgo, ht⟩

/-! The program of LOADS, by which of its lengths fit -/

theorem loadSession_fits {s : State} (hmain : (s.txlen.get .main).toNat < (s.cfg.cap.get .main).toNat) :
    loadSession s false = loadMain s := by
  simp only [loadSession, loadMain, loadOpen, writeBank_fits hmain, Bool.false_eq_true, if_false, List.append_nil]

theorem loadSession_both_fit {s : State} (hmain : (s.txlen.get .main).toNat < (s.cfg.cap.get .main).toNat)
    (hinput : (s.txlen.get .input).toNat < (s.cfg.cap.get .input).toNat) : loadSession s true = loadBoth s := by
  simp only [loadSession, loadBoth, loadMain, loadOpen, writeBank_fits hmain, writeBank_fits hinput, if_true]

theorem loadSession_main_exceeds {s : State} (x : Bool)
    (hover : (s.cfg.cap.get .main).toNat ≤ (s.txlen.get .main).toNat) :
    ∃ q, loadSession s x = loadOpen s.cfg ++ .raise .capacityError :: q := by
  refine ⟨if x then writeBank s .input else [], ?_⟩
  simp only [loadSession, loadOpen, writeBank_exceeds hover, List.append_assoc, List.cons_append, List.nil_append]

theorem loadSession_input_exceeds {s : State} (hmain : (s.txlen.get .main).toNat < (s.cfg.cap.get .main).toNat)
    (hover : (s.cfg.cap.get .input).toNat ≤ (s.txlen.get .input).toNat) :
    loadSession s true = loadMain s ++ [.raise .capacityError] := by
  simp only [loadSession, loadMain, loadOpen, writeBank_fits hmain, writeBank_exceeds hover, if_true]

/-- The opening and the main write run to their end in both environments. -/
theorem goes_loadMain_any {s : State} (hs : s.Ready)
    (hfits : (s.txlen.get .main).toNat < (s.cfg.cap.get .main).toNat) :
    ∃ u, Goes (loadMain s) s.accepted u ∧ (s.env.kind = .rtm → ∃ v, Opened s v ∧ Written s .main v u) :=
  goes_of_pure (s := s.accepted) (loadMain_pure s) fun hk => by
    obtain ⟨v, u, hv, hgo, hu⟩ := goes_loadMain hs hk hfits
    exact ⟨u, hgo, v, hv, hu⟩

theorem goes_loadBoth_any {s : State} (hs : s.Ready)
    (hmain : (s.txlen.get .main).toNat < (s.cfg.cap.get .main).toNat)
    (hinput : (s.txlen.get .input).toNat < (s.cfg.cap.get .input).toNat) :
    ∃ u, Goes (loadBoth s) s.accepted u ∧
      (s.env.kind = .rtm → ∃ v w, Opened s v ∧ Written s .main v w ∧ Written s .input w u) :=
  goes_of_pure (s := s.accepted) (loadBoth_pure s) fun hk => by
    obtain ⟨v, w, u, hv, hw, hgo, hu⟩ := goes_loadBoth hs hk hmain hinput
    exact ⟨u, hgo, v, w, hv, hw, hu⟩

/-- Settles O34: the session is one pure program, with or without the input write, and in the RTM the banks are written
one after the other. -/
theorem loadsRuns : Obligations.LoadsRuns := by
  intro s x hs hmain hinput
  cases x with
  | false =>
    obtain ⟨u, hgo, hrtm⟩ := goes_loadMain_any hs hmain
    obtain ⟨t, hexec, ht⟩ := exec_pure_command (i := .loads false) rfl rfl hs.valid (loadSession_fits hmain)
      (loadMain_pure s) hgo
    have hran := ht.ran
    rw [if_pos (clearFault_mem_loadMain s), progEvents_loadMain] at hran
    refine ⟨t, hexec, by simpa using hran, ht.rx (loadMain_noRx s), ht.elapsed,
      ht.lines.trans (foldl_loadMain hs.inv), by rw [ht.work, engineRun_dsr s (loadMain_keepsDsr s)],
      ht.oracle hgo, fun hk => ?_⟩
    obtain ⟨v, hv, hu⟩ := hrtm hk
    simp only [State.row, MemSameOutside, ht.chip, ← hv.mem]
    refine ⟨hu.rows, nofun, fun addr haddr => hu.readByte (haddr .main), ?_, ?_, ?_, ?_⟩
    · rw [hu.selected, hv.cfg]; rfl
    · rw [hu.treg, hv.treg]
    · rw [hu.tregOther .input (by decide), hv.treg]; rfl
    · rw [hu.tregOther .output (by decide), hv.treg]
  | true =>
    have hfits := hinput rfl
    obtain ⟨u, hgo, hrtm⟩ := goes_loadBoth_any hs hmain hfits
    obtain ⟨t, hexec, ht⟩ := exec_pure_command (i := .loads true) rfl rfl hs.valid (loadSession_both_fit hmain hfits)
      (loadBoth_pure s) hgo
    have hran := ht.ran
    rw [if_pos (clearFault_mem_loadBoth s), progEvents_loadBoth] at hran
    refine ⟨t, hexec, hran, ht.rx (loadBoth_noRx s), ht.elapsed,
      ht.lines.trans (foldl_loadBoth hs.inv), by rw [ht.work, engineRun_dsr s (loadBoth_keepsDsr s)],
      ht.oracle hgo, fun hk => ?_⟩
    obtain ⟨v, w, hv, hw, hu⟩ := hrtm hk
    simp only [State.row, MemSameOutside, ht.chip, ← hv.mem]
    refine ⟨fun a ha => (hu.row_other (by decide) a).trans (hw.rows a ha), fun _ => hu.rows,
      fun addr haddr => (hu.readByte (haddr .input)).trans (hw.readByte (haddr .main)), ?_, ?_, ?_, ?_⟩
    · rw [hu.selected, hw.cfg, hv.cfg]; rfl
    · rw [hu.tregOther .main (by decide), hw.treg, hv.treg]
    · rw [hu.treg, hw.tregOther .input (by decide), hv.treg]; rfl
    · rw [hu.tregOther .output (by decide), hw.tregOther .output (by decide), hv.treg]

/-- Settles O35: the first bank write is turned away after the opening, which runs to its end in both environments. -/
theorem loadsMainOverCapacity : Obligations.LoadsMainOverCapacity := by
  intro s x hs hover
  obtain ⟨u, hgo, hrtm⟩ := goes_of_pure (s := s.accepted) (F := Opened s) (loadOpen_pure s.cfg) (goes_loadOpen hs)
  obtain ⟨q, hprog⟩ := loadSession_main_exceeds x hover
  obtain ⟨t, hexec, ht⟩ := exec_raising_command (i := .loads x) (e := .capacityError) rfl rfl hs.valid hprog
    (by decide) (loadOpen_pure s.cfg) hgo
  have hran := ht.ran
  rw [if_pos (clearFault_mem_loadOpen s.cfg), progEvents_loadOpen] at hran
  obtain ⟨hdsr, haddrc⟩ := loadOpen_keeps s.cfg
  have hmem : u.chip.mem = s.chip.mem := (runActs_reach hgo).chip_field Chip.mem fun hk => (hrtm hk).mem
  refine ⟨t, hexec, hran, ht.rx (loadOpen_noRx s.cfg), ht.elapsed,
    ht.lines.trans (foldl_loadOpen s.cfg hs.inv.sck), MemSame.of_mem (by rw [ht.chip, hmem]),
    by rw [ht.work, engineRun_dsr s hdsr], by rw [ht.work, engineRun_addrc s haddrc], ht.oracle hgo, fun hk => ?_⟩
  rw [ht.chip]
  exact ⟨(hrtm hk).selected, (hrtm hk).treg⟩

/-- Settles O36: the second bank write is turned away after the first, which runs to its end in both environments. -/
theorem loadsInputOverCapacity : Obligations.LoadsInputOverCapacity := by
  intro s hs hmain hover
  obtain ⟨u, hgo, hrtm⟩ := goes_loadMain_any hs hmain
  obtain ⟨t, hexec, ht⟩ := exec_raising_command (i := .loads true) (e := .capacityError) rfl rfl hs.valid
    (loadSession_input_exceeds hmain hover) (by decide) (loadMain_pure s) hgo
  have hran := ht.ran
  rw [if_pos (clearFault_mem_loadMain s), progEvents_loadMain] at hran
  refine ⟨t, hexec, hran, ht.rx (loadMain_noRx s), ht.elapsed, ht.lines.trans (foldl_loadMain hs.inv),
    by rw [ht.work, engineRun_dsr s (loadMain_keepsDsr s)], ht.oracle hgo, fun hk => ?_⟩
  obtain ⟨v, hv, hu⟩ := hrtm hk
  simp only [State.row, MemSameOutside, ht.chip, ← hv.mem]
  refine ⟨hu.rows, hu.outside, ?_, ?_, ?_, ?_⟩
  · rw [hu.selected, hv.cfg]
  · rw [hu.treg, hv.treg]
  · rw [hu.tregOther .input (by decide), hv.treg]
  · rw [hu.tregOther .output (by decide), hv.treg]

end Sys2Proof.Machine
end

section
/-! ### A bank read as a command (41_transactions.md R135 to R138) -/

namespace Sys2Proof.Machine

open Sys2Proof

/-! The end of a command, from the state its program leaves -/

theorem Ran.of_go {p : List Act} {s u : State} {es : List Event} {fault : Bool} (h : Goes p s.accepted u)
    (hlog : u.log = es.reverse ++ s.log) (hfault : u.status.fault = fault) : Ran s (endCommand .ok u) .ok fault es where
  ended := ⟨rfl, rfl, by
    rw [endCommand_status, Status.endBusy, hfault, runActs_go_cfgerr h, accepted_status, accept_cfgerr]⟩
  hostSide :=
    have hr := runActs_reach h
    ⟨hr.cfg, hr.cmd, hr.txlen, hr.txbuf, hr.host, hr.hostData⟩
  trace := trace_iff.2 hlog

theorem finish_status (e : Result) (s : State) : (finish e s).status =
    { busy := false, fault := decide (e = .protocolFault) || s.status.fault, cfgerr := s.status.cfgerr } := by
  rw [← finish_busy e s, ← finish_fault, ← finish_cfgerr e s]

theorem Ran.of_stop {p : List Act} {s u : State} {e : Result} {es : List Event} {fault : Bool}
    (h : runActs p s.accepted = .stop u e) (hlog : u.log = es.reverse ++ s.log)
    (hfault : (decide (e = .protocolFault) || u.status.fault) = fault) : Ran s (finish e u) e fault es where
  ended := ⟨finish_result e u, finish_phase e u, by
    rw [finish_status, hfault, runActs_stop_cfgerr h, accepted_status, accept_cfgerr]⟩
  hostSide := by
    have hr := runActs_reach_stop h
    exact ⟨by rw [finish_cfg]; exact hr.cfg, by rw [finish_cmd]; exact hr.cmd, by rw [finish_txlen]; exact hr.txlen,
      by rw [finish_txbuf]; exact hr.txbuf, by rw [finish_host]; exact hr.host,
      by rw [finish_hostData]; exact hr.hostData⟩
  trace := trace_iff.2 (by rw [finish_log, hlog])

theorem rdbank_runs {s : State} {b : Bank} {len : Length} (hs : s.Ready) (hlen : len.wf = true)
    (ha : s.Answers (32 * readCount (s.cfg.cap.get b) len)) :
    ∃ ws u, exec (.rdbank b len) s = .next (endCommand .ok u) ∧ ws.length = readCount (s.cfg.cap.get b) len ∧
      Goes (readBank s.cfg b len) s.accepted u ∧ ReadDone s.accepted u b len ws := by
  obtain ⟨ws, u, hcount, hgo, hdone⟩ := goes_readBank (s := s.accepted) b len hs.rest.accepted hs.valid_cfg hs.ticks
    hlen hs.inv.sdiFrame ha
  refine ⟨ws, u, ?_, hcount, hgo, hdone⟩
  rw [exec_command rfl, show (Instr.rdbank b len).wf = true from hlen]
  exact command_go hs.valid hgo

/-- Settles O32: with every sample valid the read runs to its end in both environments. -/
theorem rdbankRuns : Obligations.RdbankRuns := by
  intro s b len hs hlen hne ha
  obtain ⟨ws, u, hexec, hcount, hgo, hdone⟩ := rdbank_runs hs hlen ha
  have hlog := hdone.log
  have hstatus := hdone.status
  have hlines := hdone.lines
  have hsel := hdone.selected
  rw [readOpEvents, if_neg hne] at hlog
  rw [if_neg hne] at hstatus hlines hsel
  have hreceived := hdone.received (hs.inv.rxbuf b)
  exact ⟨_, ws, hexec, hcount, hdone.words, Ran.of_go hgo hlog (by rw [hstatus]; rfl),
    ⟨hreceived.words, hreceived.rxlen, hreceived.rest⟩,
    fun c hc => ⟨(hdone.rxOther c hc).rxlen, (hdone.rxOther c hc).rxbuf⟩, hdone.elapsed, hlines, hdone.idc,
    MemSame.of_mem hdone.mem, hdone.reach.oracle, fun hk => ⟨hsel hk, hdone.treg hk, hdone.tregOther⟩⟩

/-- Settles O33: the read stops at its first false sample in both environments. -/
theorem rdbankFaults : Obligations.RdbankFaults := by
  intro s b len a k hs hlen ha hk32 hx
  obtain ⟨ws, u, rfl, hstop, hfault⟩ := stops_readBank (s := s.accepted) b len a k hs.rest.accepted hs.valid_cfg
    hs.ticks hlen hs.inv.sdiFrame ha hk32 ⟨hx.before, hx.at_⟩
  obtain ⟨w, hrow, hlog⟩ := hfault.log
  have hexec : exec (.rdbank b len) s = .next (finish .protocolFault u) := by
    rw [exec_command rfl, show (Instr.rdbank b len).wf = true from hlen]
    exact command_stop hs.valid hstop
  have hreceived := hfault.received (hs.inv.rxbuf b)
  exact ⟨_, ws, w, hexec, rfl, hfault.words, hrow, Ran.of_stop hstop hlog rfl,
    ⟨hreceived.words, hreceived.rxlen, hreceived.rest⟩,
    fun c hc => ⟨(hfault.rxOther c hc).rxlen, (hfault.rxOther c hc).rxbuf⟩, hfault.elapsed, hfault.lines, hfault.idc,
    MemSame.of_mem hfault.mem, hfault.reach.oracle,
    fun hk => ⟨hfault.selected hk, hfault.treg hk, hfault.tregOther⟩⟩

/-! One command after another -/

theorem State.Ready.exec {i : Instr} {s t : State} (hs : s.Ready) (h : Machine.exec i s = .next t)
    (hk : t.env.kind = s.env.kind) : t.Ready where
  inv := exec_keeps_inv hs.inv h
  valid := (exec_keeps_cfgerr h).trans hs.valid
  ticks hrtm := by
    rw [(exec_moves h).hostSide.cfg]
    exact hs.ticks (hk.symm.trans hrtm)

/-- In the RTM a read of no more rows than the bank has answers the rows. -/
theorem Answered.rows {s : State} {b : Bank} {ws : List Word} (h : Answered s b 0 ws) (hk : s.env.kind = .rtm)
    (hlen : ws.length ≤ (s.cfg.cap.get b).toNat) : ws = (List.range ws.length).map (s.row b) := by
  refine List.ext_getElem (by simp) fun a ha _ => ?_
  have hrow := h a ws[a] (List.getElem?_eq_getElem ha)
  rw [RowAnswered, hk] at hrow
  rw [List.getElem_map, List.getElem_range]
  exact hrow (by omega)

/-- Settles O56: the write leaves the rows and the overrides that the read then finds. -/
theorem writeThenReadReturnsTheWords : Obligations.WriteThenReadReturnsTheWords := by
  intro s b hs hk h1 hfits ha
  obtain ⟨u, hgo, hu⟩ := goes_written (src := s) (s := s.accepted) hs.rest.accepted hk hs.valid_cfg (hs.ticks hk) rfl
    hs.inv.mem hfits
  have hwrite : exec (.wrbank b) s = .next (endCommand .ok u) := by
    rw [exec_command rfl]
    exact command_go hs.valid ((congrArg (runActs · s.accepted) (writeBank_fits hfits)).trans hgo)
  have ht := hs.exec hwrite hu.env.kind
  have htk : (endCommand .ok u).env.kind = .rtm := hu.env.kind.trans hk
  have hlen : Length.wf (.exactly (s.txlen.get b)) = true := by
    simp only [Length.wf, Bool.and_eq_true, decide_eq_true_eq]
    exact ⟨h1, hs.inv.txlen b⟩
  have hforce (j : Nat) : (endCommand .ok u).validAnswer j = s.validAnswer (0 + j) :=
    valid_later (s := s) (n := 0) hu.env.kind (fun _ => hu.env.force) (fun ho => by rw [hk] at ho; cases ho) j
  obtain ⟨ws, v, hread, hcount, -, hdone⟩ := rdbank_runs (b := b) ht hlen (ha.later hforce (Nat.zero_add _).le)
  refine ⟨_, _, hwrite, hread, rfl, ?_⟩
  have hn : ws.length = (s.txlen.get b).toNat := hcount
  have hcap : ws.length ≤ ((endCommand .ok u).cfg.cap.get b).toNat := by
    rw [hn, endCommand_cfg, hu.cfg]
    exact hfits.le
  have hrows := Answered.rows (s := endCommand .ok u) hdone.words htk hcap
  have hwords : (endCommand .ok v).rxWords b = ws := (hdone.received (ht.inv.rxbuf b)).words
  rw [hwords, hrows, hn, State.txWords]
  exact List.map_congr_left fun a hmem => hu.rows a (List.mem_range.1 hmem)

/-- Settles O57: the first read leaves the rows and the overrides still to come, so the second answers the same. -/
theorem repeatedReadsAgree : Obligations.RepeatedReadsAgree := by
  intro s b hs hk ha
  have hfit : 32 * readCount (s.cfg.cap.get b) .all ≤ 64 * (s.cfg.cap.get b).toNat := by
    simp only [readCount, resolveLength, Option.getD_some]
    omega
  obtain ⟨ws, u, hfirst, hcount, -, hdone⟩ :=
    rdbank_runs (b := b) (len := .all) hs rfl fun j hj => ha j (hj.trans_le hfit)
  have hn : ws.length = (s.cfg.cap.get b).toNat := hcount
  have ht := hs.exec hfirst hdone.reach.kind
  have hcfg : (endCommand .ok u).cfg = s.cfg := hdone.reach.cfg
  obtain ⟨vs, v, hsecond, hcount', -, hdone'⟩ := rdbank_runs (b := b) (len := .all) ht rfl <| by
    rw [hcfg]
    refine State.Answers.later ha (n := 32 * ws.length) hdone.valid ?_
    simp only [readCount, resolveLength, Option.getD_some]
    omega
  refine ⟨_, _, hfirst, hsecond, rfl, rfl, ?_⟩
  have hn' : vs.length = (s.cfg.cap.get b).toNat := by rw [hcount', hcfg]; rfl
  have hrow : (endCommand .ok u).row b = s.row b := by
    funext a
    exact congrArg (fun m : Memory => m.readRow b (BitVec.ofNat 16 a)) hdone.mem
  have hws : (endCommand .ok u).rxWords b = ws := (hdone.received (hs.inv.rxbuf b)).words
  have hvs : (endCommand .ok v).rxWords b = vs := (hdone'.received (ht.inv.rxbuf b)).words
  rw [hws, hvs, Answered.rows (s := s) hdone.words hk hn.le,
    Answered.rows (s := endCommand .ok u) hdone'.words (hdone.reach.kind.trans hk) (by rw [hcfg]; exact hn'.le), hn,
    hn', hrow]

end Sys2Proof.Machine
end

section
/-! ### UNLOADS (42_sessions.md R151, R153, R154) -/

namespace Sys2Proof.Machine

open Sys2Proof

/-- Bank `b`'s receive side and write-data register: as they were in `s`, or after a read of the words given. -/
def BankSide (s t : State) (b : Bank) : Option (List Word) → Prop
  | none => RxSameAt s t b ∧ t.chip.treg.get b = s.chip.treg.get b
  | some ws => Received s t b ws ∧
      (s.env.kind = .rtm → t.chip.treg.get b = lastAddress ws.length (s.chip.treg.get b))

theorem BankSide.kept {s t u : State} {b : Bank} {o : Option (List Word)} (h : BankSide s t b o)
    (hrx : RxSameAt t u b) (htreg : u.chip.treg.get b = t.chip.treg.get b) : BankSide s u b o := by
  cases o with
  | none => exact ⟨h.1.trans hrx, htreg.trans h.2⟩
  | some ws => exact ⟨h.1.kept hrx, fun hk => htreg.trans (h.2 hk)⟩

/-- In the middle of an unload session: `n` words read so far with the events `es`, `got` the words of the banks already
read, and `quiet` where every read so far was of length none. -/
structure Unloading (s t : State) (quiet : Prop) [Decidable quiet] (n : Nat) (es : List Event)
    (got : PerBank (Option (List Word))) : Prop where
  reach : Reach s.accepted t
  rest : Rest t
  mem : t.chip.mem = s.chip.mem
  selected : s.env.kind = .rtm → t.chip.selected =
    if quiet then s.chip.selected else some ((s.cfg.wr.get .main).setWidth 8)
  valid : ∀ j, t.validAnswer j = s.validAnswer (32 * n + j)
  drawn : s.env.kind = .oracle → ∀ j, drawnBit t j = drawnBit s (64 * n + j)
  log : t.log = es.reverse ++ s.log
  lines : t.lines = if quiet then s.lines.held else s.lines.held.atRest false
  fault : t.status.fault = if quiet then s.status.fault else false
  elapsed : t.elapsed = s.elapsed
  idc : t.work.idc = s.work.idc
  banks : ∀ b, BankSide s t b (got.get b)

/-- The two line writes that open the session. -/
theorem goes_unloadOpen {s : State} (hs : s.Ready) :
    ∃ t, Goes holdChip s.accepted t ∧ Unloading s t True 0 holdEvents ⟨none, none, none⟩ := by
  refine ⟨_, goes_holdChip s.accepted, runActs_reach (goes_holdChip s.accepted), ?_, rfl, fun _ => rfl, fun j => ?_,
    fun _ j => ?_, rfl, rfl, rfl, rfl, rfl, fun b => ?_⟩
  · obtain ⟨hsck, hsrst, hcse, hload, hpend⟩ := hs.rest
    exact ⟨hsck, hsrst, hcse, hload, hpend⟩
  · rw [Nat.mul_zero, Nat.zero_add]; rfl
  · rw [Nat.mul_zero, Nat.zero_add]; rfl
  · cases b <;> exact ⟨⟨rfl, rfl⟩, rfl⟩

section
variable {s t : State} {quiet : Prop} [Decidable quiet] {n : Nat} {es : List Event}
  {got : PerBank (Option (List Word))} (h : Unloading s t quiet n es got) (hs : s.Ready) (b : Bank) {len : Length}
  (hlen : len.wf = true) (hnew : got.get b = none)
include h

theorem Unloading.cfg : t.cfg = s.cfg := h.reach.cfg

theorem Unloading.kind : t.env.kind = s.env.kind := h.reach.kind

theorem Unloading.answered {ws : List Word} {b : Bank} (hws : Answered t b 0 ws) : Answered s b n ws :=
  Answered.later (first' := n) hws h.kind h.cfg h.mem h.drawn

include hs hlen

/-- The session's next read, every sample valid. -/
theorem Unloading.goes_read {quiet' : Prop} [Decidable quiet'] (hquiet : quiet' ↔ quiet ∧ len = .none)
    (hnew : got.get b = none) (ha : s.Answers (32 * (n + readCount (s.cfg.cap.get b) len))) :
    ∃ ws u, ws.length = readCount (s.cfg.cap.get b) len ∧ Goes (readBank s.cfg b len) t u ∧ Answered s b n ws ∧
      Unloading s u quiet' (n + ws.length) (es ++ readOpEvents s.cfg b len ws) (got.set b (some ws)) := by
  have hcfg := h.cfg
  have ha' : t.Answers (32 * readCount (t.cfg.cap.get b) len) := by
    rw [hcfg]
    exact ha.later h.valid (by omega)
  obtain ⟨ws, u, hcount, hgo, hdone⟩ := goes_readBank b len h.rest (hcfg ▸ hs.valid_cfg)
    (fun hk => hcfg ▸ hs.ticks (h.kind.symm.trans hk)) hlen (h.reach.sdiFrame hs.inv.sdiFrame) ha'
  have hsel := hdone.selected
  have hlog := hdone.log
  rw [hcfg] at hcount hgo hsel hlog
  refine ⟨ws, u, hcount, hgo, h.answered hdone.words, h.reach.trans hdone.reach, hdone.rest, hdone.mem.trans h.mem,
    fun hk => ?selected, fun j => ?valid, fun hk j => ?drawn, ?log, ?lines, ?fault, hdone.elapsed.trans h.elapsed,
    hdone.idc.trans h.idc, fun c => ?banks⟩
  case selected =>
    rw [hsel (h.kind.trans hk), h.selected hk]
    by_cases hq : quiet <;> by_cases hl : len = .none <;> simp [hquiet, hq, hl]
  case valid => rw [hdone.valid, h.valid, Nat.mul_add, Nat.add_assoc]
  case drawn => rw [hdone.drawn (h.kind.trans hk), h.drawn hk, Nat.mul_add, Nat.add_assoc]
  case log => rw [hlog, h.log, List.reverse_append, List.append_assoc]
  case lines =>
    rw [hdone.lines, h.lines]
    by_cases hq : quiet <;> by_cases hl : len = .none <;> simp [hquiet, hq, hl, Lines.atRest]
  case fault =>
    rw [hdone.status, apply_ite Status.fault, h.fault]
    by_cases hq : quiet <;> by_cases hl : len = .none <;> simp [hquiet, hq, hl, Status.clearFault]
  case banks =>
    have hside := h.banks c
    by_cases hc : c = b
    · subst hc
      rw [hnew] at hside
      rw [PerBank_get_set_same]
      exact ⟨(hdone.received (h.reach.rxbuf hs.inv.rxbuf c)).after hside.1,
        fun hk => (hdone.treg (h.kind.trans hk)).trans (by rw [hside.2])⟩
    · rw [PerBank_get_set_other _ _ hc]
      exact hside.kept (hdone.rxOther c hc) (hdone.tregOther c hc)

/-- Where an unload session ends that faulted in bank `b`. -/
structure UnloadFault (s t : State) (b : Bank) (ws : List Word) (es : List Event)
    (got : PerBank (Option (List Word))) : Prop where
  reach : Reach s.accepted t
  mem : t.chip.mem = s.chip.mem
  selected : s.env.kind = .rtm → t.chip.selected = some ((s.cfg.rd.get b).setWidth 8)
  treg : s.env.kind = .rtm → t.chip.treg.get b = addrValue ws.length
  received : Received s t b ws
  others : ∀ c, c ≠ b → BankSide s t c (got.get c)
  log : t.log = es.reverse ++ s.log
  lines : t.lines = { s.lines.held.atRest false with tm := true }
  elapsed : t.elapsed = s.elapsed
  idc : t.work.idc = s.work.idc

/-- The session's next read, its `SVLD` first false in cycle `k` of row `a`. -/
theorem Unloading.stops_read {a k : Nat} (hnew : got.get b = none) (ha : a < readCount (s.cfg.cap.get b) len)
    (hk32 : k < 32) (hx : s.FaultsAt (32 * (n + a) + k)) :
    ∃ ws u w, ws.length = a ∧ runActs (readBank s.cfg b len) t = .stop u .protocolFault ∧ Answered s b n ws ∧
      RowAnswered s b n a w (k + 1) ∧ UnloadFault s u b ws (es ++ faultedReadEvents s.cfg b ws w k) got := by
  have hcfg := h.cfg
  have hx' : t.FaultsAt (32 * a + k) :=
    State.FaultsAt.later (n := 32 * n) (by rwa [← Nat.add_assoc, ← Nat.mul_add]) h.valid
  obtain ⟨ws, u, rfl, hstop, hfault⟩ := stops_readBank b len a k h.rest (hcfg ▸ hs.valid_cfg)
    (fun hk => hcfg ▸ hs.ticks (h.kind.symm.trans hk)) hlen (h.reach.sdiFrame hs.inv.sdiFrame) (hcfg ▸ ha) hk32 hx'
  obtain ⟨w, hrow, hlog⟩ := hfault.log
  have hsel := hfault.selected
  rw [hcfg] at hstop hsel hlog
  have hside := h.banks b
  rw [hnew] at hside
  refine ⟨ws, u, w, rfl, hstop, h.answered hfault.words,
    RowAnswered.later (first' := n) hrow h.kind hcfg h.mem h.drawn, h.reach.trans hfault.reach,
    hfault.mem.trans h.mem, fun hk => hsel (h.kind.trans hk), fun hk => hfault.treg (h.kind.trans hk),
    (hfault.received (h.reach.rxbuf hs.inv.rxbuf b)).after hside.1,
    fun c hc => (h.banks c).kept (hfault.rxOther c hc) (hfault.tregOther c hc), ?log, ?lines,
    hfault.elapsed.trans h.elapsed, hfault.idc.trans h.idc⟩
  case log => rw [hlog, h.log, List.reverse_append, List.append_assoc]
  case lines =>
    rw [hfault.lines, h.lines]
    split <;> rfl

end

theorem runActs_append_stop {p : List Act} {s t : State} {e : Result} (h : runActs p s = .stop t e) (q : List Act) :
    runActs (p ++ q) s = .stop t e := by
  rw [runActs_append, h]; rfl

theorem Goes.append_stop {p q : List Act} {s t u : State} {e : Result} (h : Goes p s t) (k : runActs q t = .stop u e) :
    runActs (p ++ q) s = .stop u e := (runActs_append_go h).trans k

theorem unloads_stops {s u : State} {lm li lo : Length} (hs : s.Ready) (hlm : lm.wf = true) (hli : li.wf = true)
    (hlo : lo.wf = true) (h : runActs (unloadSession s.cfg lm li lo) s.accepted = .stop u .protocolFault) :
    exec (.unloads lm li lo) s = .next (finish .protocolFault u) := by
  rw [exec_command rfl, show (Instr.unloads lm li lo).wf = true by simp [Instr.wf, hlm, hli, hlo]]
  exact command_stop hs.valid h

/-- Settles O37: each read is the session's next, whatever the lengths before it. -/
theorem unloadsRuns : Obligations.UnloadsRuns := by
  intro s lm li lo hs hlm hli hlo ha
  obtain ⟨t0, hgo0, h0⟩ := goes_unloadOpen hs
  obtain ⟨wm, t1, hm, hgo1, hansm, h1⟩ := h0.goes_read hs .main hlm (quiet' := lm = .none) (by simp) rfl
    fun j hj => ha j (by simp only [PerBank.get] at hj; omega)
  obtain ⟨wi, t2, hi, hgo2, hansi, h2⟩ := h1.goes_read hs .input hli (quiet' := lm = .none ∧ li = .none) Iff.rfl rfl
    fun j hj => ha j (by simp only [PerBank.get] at hj hm; omega)
  obtain ⟨wo, t, ho, hgo3, hanso, ht⟩ := h2.goes_read hs .output hlo
    (quiet' := lm = .none ∧ li = .none ∧ lo = .none) (by rw [and_assoc]) rfl
    fun j hj => ha j (by simp only [PerBank.get] at hj hm hi; omega)
  have hgo : Goes (unloadSession s.cfg lm li lo) s.accepted t := ((hgo0.append hgo1).append hgo2).append hgo3
  have hexec : exec (.unloads lm li lo) s = .next (endCommand .ok t) := by
    rw [exec_command rfl, show (Instr.unloads lm li lo).wf = true by simp [Instr.wf, hlm, hli, hlo]]
    exact command_go hs.valid hgo
  rw [Nat.zero_add] at hansi hanso
  have hmain := ht.banks .main
  have hinput := ht.banks .input
  have houtput := ht.banks .output
  exact ⟨_, wm, wi, wo, hexec, hm, hi, ho, hansm, hansi, hanso, Ran.of_go hgo ht.log ht.fault,
    ⟨hmain.1.words, hmain.1.rxlen, hmain.1.rest⟩, ⟨hinput.1.words, hinput.1.rxlen, hinput.1.rest⟩,
    ⟨houtput.1.words, houtput.1.rxlen, houtput.1.rest⟩, ht.elapsed, ht.lines, ht.idc, MemSame.of_mem ht.mem,
    ht.reach.oracle, fun hk => ⟨ht.selected hk, hmain.2 hk, hinput.2 hk, houtput.2 hk⟩⟩

/-- Settles O38: the first read stops, and no other bank is read. -/
theorem unloadsFaultsInMain : Obligations.UnloadsFaultsInMain := by
  intro s lm li lo a k hs hlm hli hlo ha hk32 hx
  obtain ⟨t0, hgo0, h0⟩ := goes_unloadOpen hs
  obtain ⟨ws, u, w, rfl, hstop, hans, hrow, hu⟩ := h0.stops_read hs .main hlm rfl ha hk32 (by rwa [Nat.zero_add])
  have hall : runActs (unloadSession s.cfg lm li lo) s.accepted = .stop u .protocolFault :=
    runActs_append_stop (runActs_append_stop (hgo0.append_stop hstop) _) _
  have hinput := hu.others .input (by decide)
  have houtput := hu.others .output (by decide)
  exact ⟨_, ws, w, unloads_stops hs hlm hli hlo hall, rfl, hans, hrow, Ran.of_stop hall hu.log rfl,
    ⟨hu.received.words, hu.received.rxlen, hu.received.rest⟩, ⟨hinput.1.rxlen, hinput.1.rxbuf⟩,
    ⟨houtput.1.rxlen, houtput.1.rxbuf⟩, hu.elapsed, hu.lines, hu.idc, MemSame.of_mem hu.mem, hu.reach.oracle,
    fun hk => ⟨hu.selected hk, hu.treg hk, hinput.2, houtput.2⟩⟩

/-- Settles O39: the main read is complete and the second stops. -/
theorem unloadsFaultsInInput : Obligations.UnloadsFaultsInInput := by
  intro s lm li lo a k hs hlm hli hlo ha hk32 hx
  obtain ⟨t0, hgo0, h0⟩ := goes_unloadOpen hs
  obtain ⟨wm, t1, hm, hgo1, hansm, h1⟩ := h0.goes_read hs .main hlm (quiet' := lm = .none) (by simp) rfl
    fun j hj => hx.before j (by simp only [PerBank.get] at hj; omega)
  rw [Nat.zero_add] at h1
  obtain ⟨ws, u, w, rfl, hstop, hans, hrow, hu⟩ := h1.stops_read hs .input hli rfl ha hk32 (hm ▸ hx)
  have hall : runActs (unloadSession s.cfg lm li lo) s.accepted = .stop u .protocolFault :=
    runActs_append_stop ((hgo0.append hgo1).append_stop hstop) _
  have hmain := hu.others .main (by decide)
  have houtput := hu.others .output (by decide)
  exact ⟨_, wm, ws, w, unloads_stops hs hlm hli hlo hall, hm, rfl, hansm, hans, hrow, Ran.of_stop hall hu.log rfl,
    ⟨hmain.1.words, hmain.1.rxlen, hmain.1.rest⟩, ⟨hu.received.words, hu.received.rxlen, hu.received.rest⟩,
    ⟨houtput.1.rxlen, houtput.1.rxbuf⟩, hu.elapsed, hu.lines, hu.idc, MemSame.of_mem hu.mem, hu.reach.oracle,
    fun hk => ⟨hu.selected hk, hmain.2 hk, hu.treg hk, houtput.2⟩⟩

/-- Settles O40: the two other reads are complete and the third stops. -/
theorem unloadsFaultsInOutput : Obligations.UnloadsFaultsInOutput := by
  intro s lm li lo a k hs hlm hli hlo ha hk32 hx
  obtain ⟨t0, hgo0, h0⟩ := goes_unloadOpen hs
  obtain ⟨wm, t1, hm, hgo1, hansm, h1⟩ := h0.goes_read hs .main hlm (quiet' := lm = .none) (by simp) rfl
    fun j hj => hx.before j (by simp only [PerBank.get] at hj; omega)
  rw [Nat.zero_add] at h1
  obtain ⟨wi, t2, hi, hgo2, hansi, h2⟩ := h1.goes_read hs .input hli (quiet' := lm = .none ∧ li = .none) Iff.rfl rfl
    fun j hj => hx.before j (by simp only [PerBank.get] at hj hm; omega)
  obtain ⟨ws, u, w, rfl, hstop, hans, hrow, hu⟩ := h2.stops_read hs .output hlo rfl ha hk32 (hi ▸ hm ▸ hx)
  have hall : runActs (unloadSession s.cfg lm li lo) s.accepted = .stop u .protocolFault :=
    ((hgo0.append hgo1).append hgo2).append_stop hstop
  have hmain := hu.others .main (by decide)
  have hinput := hu.others .input (by decide)
  exact ⟨_, wm, wi, ws, w, unloads_stops hs hlm hli hlo hall, hm, hi, rfl, hansm, hansi, hans, hrow,
    Ran.of_stop hall hu.log rfl, ⟨hmain.1.words, hmain.1.rxlen, hmain.1.rest⟩,
    ⟨hinput.1.words, hinput.1.rxlen, hinput.1.rest⟩, ⟨hu.received.words, hu.received.rxlen, hu.received.rest⟩,
    hu.elapsed, hu.lines, hu.idc, MemSame.of_mem hu.mem, hu.reach.oracle,
    fun hk => ⟨hu.selected hk, hmain.2 hk, hinput.2 hk, hu.treg hk⟩⟩

end Sys2Proof.Machine
end

section
/-! ### No command is stuck, and which commands change a bank (20_memory.md R49, R66, R68, R69) -/

namespace Sys2Proof.Machine

open Sys2Proof

/-- Started between two transactions of a command of `s`, the program meets no case to which the RTM gives no
meaning. -/
def NeverStuck (s : State) (p : List Act) : Prop :=
  ∀ u, Between (LastRowsOf s) s u → ∀ f, runActs p u ≠ .stuck f

theorem NeverStuck.append {s : State} {p q : List Act} (hp : NeverStuck s p) (hkeeps : KeepsMem (LastRowsOf s) s p)
    (hq : NeverStuck s q) : NeverStuck s (p ++ q) := by
  intro u hu f hf
  rw [runActs_append] at hf
  have hend := hkeeps u hu
  cases hrun : runActs p u with
  | go t => rw [hrun] at hf hend; exact hq t hend f hf
  | stop t e => rw [hrun] at hf; cases hf
  | stuck g => exact hp u hu g hrun

theorem NeverStuck.nil (s : State) : NeverStuck s [] := fun _ _ _ => nofun

/-- An oracle is never stuck, so whether a pure program is stuck is for the RTM to say. -/
theorem NeverStuck.of_goes {s : State} {p : List Act} (hp : p.all Act.isPure = true)
    (h : ∀ u, Between (LastRowsOf s) s u → u.env.kind = .rtm → ∃ t, Goes p u t) : NeverStuck s p := by
  intro u hu f hf
  obtain ⟨t, hgo, -⟩ := goes_of_pure (F := fun _ => True) hp fun hk =>
    (h u hu hk).imp fun _ hgo => ⟨hgo, trivial⟩
  rw [hgo] at hf
  cases hf

section
variable {s : State} (hs : s.Ready)

theorem neverStuck_holdChip : NeverStuck s holdChip :=
  .of_goes holdChip_pure fun u _ _ => ⟨_, goes_holdChip u⟩

theorem neverStuck_busReset : NeverStuck s (busReset s.cfg) :=
  .of_goes (busReset_pure _) fun u hu hk => by
    obtain ⟨t, hgo, -⟩ := goes_busReset hu.rest hk
    exact ⟨t, hu.cfg ▸ hgo⟩

theorem neverStuck_driveClkgen (o : CkcfgOrder) (q : BitSeq) : NeverStuck s (driveClkgen o q) :=
  .of_goes (driveClkgen_pure _ _) fun u hu hk => by
    obtain ⟨t, hgo, -⟩ := goes_driveClkgen o q hu.rest hk
    exact ⟨t, hgo⟩

theorem neverStuck_runProgram (n : Nat) : ∀ f, runActs (runProgram n) s.accepted ≠ .stuck f := by
  obtain ⟨v, r, hstop, -⟩ := runProgram_leaves n s
  rw [hstop]
  exact fun _ => nofun

include hs

theorem neverStuck_fullChainClear : NeverStuck s (fullChainClear s.cfg) :=
  .of_goes (fullChainClear_pure _) fun u hu hk => by
    obtain ⟨t, hgo, -⟩ := goes_fullChainClear hu.rest hk (hu.valid hs) (hu.ticks hs hk)
    exact ⟨t, hu.cfg ▸ hgo⟩

theorem neverStuck_writeBank (b : Bank) : NeverStuck s (writeBank s b) := by
  by_cases hfits : (s.txlen.get b).toNat < (s.cfg.cap.get b).toNat
  · rw [writeBank_fits hfits]
    refine .of_goes (writeBody_pure _ _ _) fun u hu hk => ?_
    obtain ⟨t, hgo, -⟩ := goes_writeBody (src := s) (b := b) hu.rest hk (hu.valid hs) (hu.ticks hs hk) hu.cfg.symm
      (hu.cfg ▸ hfits.le)
    exact ⟨t, hgo⟩
  · rw [writeBank_exceeds (Nat.not_lt.1 hfits)]
    exact fun _ _ _ => nofun

theorem neverStuck_readBank (b : Bank) {len : Length} (hlen : len.wf = true) :
    NeverStuck s (readBank s.cfg b len) := by
  intro u hu f hf
  have hends := readBank_ends b len hu.rest (hu.valid hs) (hu.ticks hs) hlen (hu.sdiFrame hs)
  rw [hu.cfg] at hends
  obtain ⟨-, t, hgo, -⟩ | ⟨-, t, -, hstop, -⟩ := hends
  · rw [hgo] at hf; cases hf
  · rw [hstop] at hf; cases hf

theorem neverStuck_programOf {i : Instr} (hcommand : i.isCommand = true) (hwf : i.wf = true) :
    ∀ f, runActs (programOf i s) s.accepted ≠ .stuck f := by
  have hstart : Between (LastRowsOf s) s s.accepted := Between.start hs fun _ _ => rfl
  cases i with
  | brst => exact neverStuck_busReset _ hstart
  | clear => exact neverStuck_fullChainClear hs _ hstart
  | wrbank b => exact neverStuck_writeBank hs b _ hstart
  | rdbank b len => exact neverStuck_readBank hs b hwf _ hstart
  | loads x =>
    refine (((neverStuck_holdChip.append keepsMem_holdChip (neverStuck_fullChainClear hs)).append
      (keepsMem_holdChip.append (keepsMem_fullChainClear hs)) (neverStuck_writeBank hs .main)).append
      ((keepsMem_holdChip.append (keepsMem_fullChainClear hs)).append (keepsMem_writeBank hs .main)) ?_) _ hstart
    cases x with
    | false => exact NeverStuck.nil s
    | true => exact neverStuck_writeBank hs .input
  | unloads lm li lo =>
    simp only [Instr.wf, Bool.and_eq_true] at hwf
    obtain ⟨⟨hlm, hli⟩, hlo⟩ := hwf
    have hkeeps := keepsMem_holdChip.append (keepsMem_readBank (K := LastRowsOf s) hs .main hlm)
    exact (((neverStuck_holdChip.append keepsMem_holdChip (neverStuck_readBank hs .main hlm)).append hkeeps
      (neverStuck_readBank hs .input hli)).append (hkeeps.append (keepsMem_readBank hs .input hli))
      (neverStuck_readBank hs .output hlo)) _ hstart
  | run n => exact neverStuck_runProgram n.toNat
  | ckcfg f r => exact neverStuck_driveClkgen _ _ _ hstart
  | payWrite | paySetaddr | payDisable | payReserved | chainid8 | read32 | clkgen18 => cases hcommand

end

/-- Settles O54: every command's program is made of transactions that are not stuck, each started where the one before
it left the lines at rest. -/
theorem noCommandIsStuck : Obligations.NoCommandIsStuck := by
  intro i s hcommand hwf hs
  rw [exec_command hcommand, hwf]
  cases hrun : runActs (programOf i s) s.accepted with
  | go t => exact ⟨_, command_go hs.valid hrun⟩
  | stop t e => exact ⟨_, command_stop hs.valid hrun⟩
  | stuck f => exact absurd hrun (neverStuck_programOf hs hcommand hwf f)

/-- Every byte of every bank reads as in `s`. -/
def BytesOf (s : State) (m : Memory) : Prop := ∀ addr, m.readByte addr = s.chip.mem.readByte addr

/-- Settles O58: the programs of the other commands are made of transactions that write no row. -/
theorem onlyWritesAndRunsChangeBanks : Obligations.OnlyWritesAndRunsChangeBanks := by
  intro i s t hcommand hwf hs h hwrbank hloads hrun
  have hkeeps : KeepsMem (BytesOf s) s (programOf i s) := by
    cases i with
    | brst => exact keepsMem_busReset
    | clear => exact keepsMem_fullChainClear hs
    | wrbank b => exact absurd rfl (hwrbank b)
    | rdbank b len => exact keepsMem_readBank hs b hwf
    | loads x => exact absurd rfl (hloads x)
    | unloads lm li lo =>
      simp only [Instr.wf, Bool.and_eq_true] at hwf
      obtain ⟨⟨hlm, hli⟩, hlo⟩ := hwf
      exact ((keepsMem_holdChip.append (keepsMem_readBank hs .main hlm)).append
        (keepsMem_readBank hs .input hli)).append (keepsMem_readBank hs .output hlo)
    | run n => exact absurd rfl (hrun n)
    | ckcfg f r => exact keepsMem_driveClkgen _ _
    | payWrite | paySetaddr | payDisable | payReserved | chainid8 | read32 | clkgen18 => cases hcommand
  exact hkeeps.exec hcommand hwf hs (fun _ => rfl) h

end Sys2Proof.Machine
end


section
/-! ### RUN (42_sessions.md R152; 20_memory.md R66) -/

namespace Sys2Proof.Machine

open Sys2Proof

/-- The two line writes that begin a `RUN`. -/
def runStartEvents : List Event := [.w .clksel clkInt, .w .crst false]

/-- What a `RUN` of `s` leaves after `n` polls that added the events `es`, before the chip's contents change. -/
structure RunLeft (s v : State) (n : BitVec 32) (es : List Event) : Prop where
  cfg : v.cfg = s.cfg
  chip : v.chip = s.chip
  kind : v.env.kind = s.env.kind
  effects : v.env.effects = s.env.effects
  rx : RxSame s v
  fault : v.status.fault = s.status.fault
  lines : v.lines = { s.lines with clksel := clkInt, crst := false }
  work : v.work = { s.work with cnt := n }
  elapsed : v.elapsed = n
  log : v.log = (runStartEvents ++ es).reverse ++ s.log

/-- What a queued effect makes of the chip at the end of a `RUN` in the RTM. -/
def EffectTaken (s t : State) (e : RunEffect) : Prop :=
  (s.cfg.chipExec = .any → t.chip.mem = Memory.ofCells e.mem) ∧
  (∀ r, s.cfg.chipExec = .relation r →
    t.chip.mem = Memory.ofCells (Config.chipExecResult r s.chip.mem e.choice)) ∧
  t.chip.treg = e.treg ∧ t.chip.selected = e.selected ∧ t.chip.paySr = e.paySr ∧ t.chip.rdSr = e.rdSr ∧
  t.chip.selSr = s.chip.selSr ∧ t.chip.selPend = s.chip.selPend

section
variable {s v : State} {n : BitVec 32} {es : List Event} (h : RunLeft s v n es)
include h

theorem RunLeft.effect (hk : s.env.kind = .rtm) {e : RunEffect} {rest : List RunEffect}
    (he : s.env.effects = e :: rest) : EffectTaken s (chipAfterRun v) e := by
  rw [EffectTaken, chipAfterRun_chip (h.kind.trans hk), nextEffect_queued (h.effects.trans he), h.cfg, h.chip]
  refine ⟨fun hany => ?_, fun r hr => ?_, rfl, rfl, rfl, rfl, rfl, rfl⟩
  · rw [hany]; rfl
  · rw [hr]; rfl

theorem RunLeft.oracle (hk : s.env.kind = .oracle) : (chipAfterRun v).chip = s.chip := by
  rw [chipAfterRun_oracle (h.kind.trans hk), h.chip]

theorem RunLeft.unchanged (hu : s.cfg.chipExec = .unchanged) : MemSame s (chipAfterRun v) := by
  refine MemSame.of_mem ?_
  cases hk : s.env.kind with
  | rtm => rw [chipAfterRun_chip (h.kind.trans hk), h.cfg, h.chip, hu]; rfl
  | oracle => rw [h.oracle hk]

/-- The end of a `RUN`, by its last poll or by its budget. -/
theorem run_ends {timeout : BitVec 32} {r : Result} (hs : s.Ready) (hr : r ≠ .protocolFault)
    (hstop : runActs (runProgram timeout.toNat) s.accepted = .stop (chipAfterRun v) r) :
    ∃ t, exec (.run timeout) s = .next t ∧
      Ran s t r s.status.fault (runStartEvents ++ es) ∧
      RxSame s t ∧ t.elapsed = n ∧ t.lines = { s.lines with clksel := clkInt, crst := false } ∧
      t.work = { s.work with cnt := n } ∧ (s.env.kind = .oracle → t.chip = s.chip) ∧
      (s.cfg.chipExec = .unchanged → MemSame s t) ∧
      (s.env.kind = .rtm → ∀ e rest, s.env.effects = e :: rest → EffectTaken s t e) := by
  have hw := chipAfterRun_world v
  have hlog : (chipAfterRun v).log = (runStartEvents ++ es).reverse ++ s.log := by
    rw [hw]; exact h.log
  have hfault : (decide (r = .protocolFault) || (chipAfterRun v).status.fault) = s.status.fault := by
    rw [decide_eq_false hr, Bool.false_or, hw]; exact h.fault
  have hchip : (finish r (chipAfterRun v)).chip = (chipAfterRun v).chip := finish_chip _ _
  refine ⟨finish r (chipAfterRun v), ?_, Ran.of_stop hstop hlog hfault, ⟨?_, ?_⟩, ?_, ?_, ?_, fun hk => ?_,
    fun hu => ?_, fun hk e rest he => ?_⟩
  · rw [exec_command rfl]
    exact command_stop hs.valid hstop
  · rw [finish_rxlen, hw]; exact h.rx.rxlen
  · rw [finish_rxbuf, hw]; exact h.rx.rxbuf
  · rw [finish_elapsed, hw]; exact h.elapsed
  · rw [finish_lines, hw]; exact h.lines
  · rw [finish_work, hw]; exact h.work
  · rw [hchip]; exact h.oracle hk
  · rw [MemSame, hchip]; exact h.unchanged hu
  · rw [EffectTaken, hchip]; exact h.effect hk he

end

/-- `n` polls from the acceptance on that all answer 0, `ELAPSED` then set to their number. -/
theorem Polled.left {s t : State} {n : Nat} (h : Polled s.polling t n) :
    RunLeft s { t with elapsed := t.work.cnt } (BitVec.ofNat 32 n) (List.replicate n (.r .done false)) := by
  have hcnt : t.work.cnt = BitVec.ofNat 32 n := h.cnt.trans (BitVec.zero_add _)
  have hlog : t.log = List.replicate n (.r .done false) ++ s.polling.log := h.log
  have hsame := h.same
  rw [hcnt] at hsame ⊢
  constructor
  case log => rw [hlog, List.reverse_append, List.reverse_replicate, List.append_assoc]; rfl
  case rx => rw [hsame]; exact ⟨rfl, rfl⟩
  case elapsed => rfl
  all_goals rw [hsame]; rfl

theorem RunLeft.last_poll {s t : State} {n : BitVec 32} {es : List Event}
    (h : RunLeft s { t with elapsed := t.work.cnt } n es) : RunLeft s { t with
      env := { t.env with bits := t.env.bits.drop 1 }, freeCount := t.freeCount + (1 - t.env.bits.length),
      log := .r .done true :: t.log, work := { t.work with cnt := t.work.cnt + 1 },
      elapsed := t.work.cnt + 1 } (n + 1) (es ++ [.r .done true]) := by
  obtain ⟨hcfg, hchip, hkind, heffects, hrx, hfault, hlines, hwork, helapsed, hlog⟩ := h
  have hcnt : t.work.cnt = n := helapsed
  refine ⟨hcfg, hchip, hkind, heffects, ⟨hrx.rxlen, hrx.rxbuf⟩, hfault, hlines, ?_, by rw [hcnt], ?_⟩
  · have hw : t.work = { s.work with cnt := n } := hwork
    rw [hw]
  · have hl : t.log = (runStartEvents ++ es).reverse ++ s.log := hlog
    rw [hl, ← List.append_assoc, List.reverse_append (bs := [_])]
    rfl

/-- Settles O41: the polls before the `p`-th answer 0, and the `p`-th ends the run. -/
theorem runCompletes : Obligations.RunCompletes := by
  intro s timeout p hs hpos hp hbefore hat
  obtain ⟨t, hgo, hpolled⟩ := goes_polls (s := s.polling) (p - 1) hbefore
  have hlast : drawnBit t 0 = true := (drawnBit_after hpolled 0).trans hat
  have hsplit : List.replicate timeout.toNat Act.poll =
      List.replicate (p - 1) .poll ++ .poll :: List.replicate (timeout.toNat - p) .poll := by
    rw [← List.replicate_succ, List.replicate_append_replicate]
    congr 1
    omega
  have hleft := hpolled.left.last_poll
  have hcount : BitVec.ofNat 32 (p - 1) + 1 = BitVec.ofNat 32 p := by
    rw [show (1 : BitVec 32) = BitVec.ofNat 32 1 from rfl, ← BitVec.ofNat_add, Nat.sub_add_cancel hpos]
  rw [hcount] at hleft
  obtain ⟨u, hexec, hran, hrx, helapsed, hrest⟩ := run_ends (timeout := timeout) (r := .ok) hleft hs (by decide) (by
    rw [runActs_runProgram, hsplit, List.append_assoc]
    refine hgo.append_stop ?_
    rw [List.cons_append, runActs_cons, stops_poll hlast]
    rfl)
  refine ⟨u, hexec, by rwa [List.append_assoc], hrx, ?_, hrest⟩
  rw [helapsed, BitVec.toNat_ofNat]
  exact Nat.mod_eq_of_lt (by omega)

/-- Settles O42: every poll of the budget answers 0, and the budget's end stops the run. -/
theorem runTimesOut : Obligations.RunTimesOut := by
  intro s timeout hs hfalse
  obtain ⟨t, hgo, hpolled⟩ := goes_polls (s := s.polling) timeout.toNat hfalse
  have hleft := hpolled.left
  rw [BitVec.ofNat_toNat, BitVec.setWidth_eq] at hleft
  exact run_ends hleft hs (by decide) (by
    rw [runActs_runProgram]
    exact hgo.append_stop rfl)

/-- Settles O43: whichever way the run ends, the effect it takes makes its contents, and `CHIP_EXEC` allows exactly
those that some effect makes. -/
theorem runsLeaveWhatChipExecAllows : Obligations.RunsLeaveWhatChipExecAllows := by
  have hleaves (s : State) (timeout : BitVec 32) (hs : s.status.cfgerr = false) (hk : s.env.kind = .rtm) :
      ∃ v t : State, exec (.run timeout) s = .next t ∧ v.env.effects = s.env.effects ∧ t.chip = { s.chip with
        mem := contentsAfterRun s.cfg.chipExec s.chip.mem v.nextEffect, treg := v.nextEffect.treg,
        selected := v.nextEffect.selected, paySr := v.nextEffect.paySr, rdSr := v.nextEffect.rdSr } := by
    obtain ⟨v, r, hstop, hcfg, hchip, hkind, heffects⟩ := runProgram_leaves timeout.toNat s
    refine ⟨v, finish r (chipAfterRun v), ?_, heffects, ?_⟩
    · rw [exec_command rfl]
      exact command_stop hs hstop
    · rw [finish_chip, chipAfterRun_chip (hkind.trans hk), hcfg, hchip]
  constructor
  · intro s t timeout hs hk h
    obtain ⟨v, t', hexec, -, hchip⟩ := hleaves s timeout hs.valid hk
    obtain rfl : t' = t := Host.Outcome.next.inj (hexec.symm.trans h)
    rw [hchip]
    exact contentsAfterRun_allowed _ hs.inv.mem
  · intro s timeout m treg selected paySr rdSr hs hk hm hallows
    obtain ⟨mem, choice, hreach⟩ := contentsAfterRun_reaches hs.inv.mem hm hallows
    obtain ⟨v, t, hexec, heffects, hchip⟩ :=
      hleaves { s with env := { s.env with effects := [{ mem, choice, treg, selected, paySr, rdSr }] } } timeout
        hs.valid hk
    rw [nextEffect_queued heffects] at hchip
    refine ⟨_, t, hexec, ?_, ?_⟩
    · rw [hchip]
      exact hreach _ rfl rfl
    · rw [hchip]
      exact ⟨rfl, rfl, rfl, rfl⟩

end Sys2Proof.Machine
end

section
/-! ### The clock generator (43_clockgen.md R160 to R162; 30_encoding.md R85) -/

namespace Sys2Proof.Machine

open Sys2Proof

/-- `SDO` after a sequence sent in either order: the end of it that goes last. -/
theorem getLastD_clkgenWire (o : CkcfgOrder) {q : BitSeq} {first last x : Bool} (hfirst : q.head? = some first)
    (hlast : q.getLast? = some last) : (clkgenWire o q).getLastD x =
      match o with
      | .scanOrder => last
      | .tailFirst => first := by
  cases o with
  | scanOrder => rw [clkgenWire, List.getLastD_eq_getLast?, hlast]; rfl
  | tailFirst => exact getLastD_reverse_of_head? hfirst

theorem foldl_clkgenEvents (o : CkcfgOrder) (q : BitSeq) {l : Lines} (h : l.sck = false) :
    (clkgenEvents o q).foldl lineEvent l =
      { l with cgec := true, cgge := false, sdo := (clkgenWire o q).getLastD l.sdo } := by
  rw [clkgenEvents, List.foldl_append]
  exact foldl_bitEvents _ (l := { l with cgec := true, cgge := false }) h

/-- A clock-generator frame goes in both environments and leaves the banks and the write-data registers. -/
theorem goes_clkgen {s : State} (o : CkcfgOrder) (q : BitSeq) (h : Rest s) : ∃ u, Goes (driveClkgen o q) s u ∧
    u.chip.mem = s.chip.mem ∧ u.chip.treg = s.chip.treg ∧ u.chip.selected = s.chip.selected ∧
    (s.env.kind = .oracle ∨ s.lines.tm = false → u.chip = s.chip) := by
  obtain ⟨u, hgo, hrtm⟩ := goes_of_pure (F := fun u => u.chip.mem = s.chip.mem ∧ u.chip.treg = s.chip.treg ∧
    u.chip.selected = s.chip.selected ∧ (s.lines.tm = false → u.chip = s.chip)) (driveClkgen_pure o q)
    fun hk => goes_driveClkgen o q h hk
  have hreach := runActs_reach hgo
  refine ⟨u, hgo, hreach.chip_field Chip.mem fun hk => ?_, hreach.chip_field Chip.treg fun hk => ?_,
    hreach.chip_field Chip.selected fun hk => ?_, fun hout => hreach.chip_field id fun hk => ?_⟩ <;>
    obtain ⟨hmem, htreg, hsel, hchip⟩ := hrtm hk
  exacts [hmem, htreg, hsel, hchip (hout.resolve_left (by rw [hk]; exact EnvKind.noConfusion))]

theorem engineRun_driveClkgen_work (o : CkcfgOrder) (q : BitSeq) (s : State) :
    (engineRun (driveClkgen o q) s).work.dsr = s.work.dsr ∧ (engineRun (driveClkgen o q) s).work.addrc = s.work.addrc ∧
      (engineRun (driveClkgen o q) s).work.idc = s.work.idc := by
  obtain ⟨hdsr, haddrc, hidc⟩ := keeps_of_wire (driveClkgen_isWire o q)
  exact ⟨engineRun_dsr s hdsr, engineRun_addrc s haddrc, engineRun_idc s hidc⟩

theorem head?_clkgenSeq (f : BitVec 4) (r : BitVec 3) :
    (clkgenSeq f r).head? = some (decide (f = 14)) := by
  rw [List.head?_eq_getElem?, getElem?_clkgenSeq f r (by omega)]
  congr 1
  rw [decide_eq_decide, ← BitVec.toNat_inj]
  bv_omega

theorem getLast?_clkgenSeq (f : BitVec 4) (r : BitVec 3) : (clkgenSeq f r).getLast? = some (decide (r = 1)) := by
  have hlen : (clkgenSeq f r).length = 18 := by simp [clkgenSeq]
  rw [List.getLast?_eq_getElem?, hlen, getElem?_clkgenSeq f r (by omega)]
  congr 1
  rw [decide_eq_decide, ← BitVec.toNat_inj]
  bv_omega

/-- Settles O44: the two controls, then the 18 positions in their order. -/
theorem ckcfgRuns : Obligations.CkcfgRuns := by
  intro s f r hs hf hr
  obtain ⟨u, hgo, hmem, htreg, hsel, hchip⟩ :=
    goes_clkgen s.cfg.ckcfgOrder (clkgenSeq f r) hs.rest.accepted
  obtain ⟨t, hexec, ht⟩ := exec_pure_command (i := .ckcfg f r) (p := driveClkgen s.cfg.ckcfgOrder (clkgenSeq f r)) rfl
    (by simp [Instr.wf, hf, hr]) hs.valid rfl (driveClkgen_pure _ _) hgo
  have hran := ht.ran
  rw [if_neg (clearFault_not_mem_driveClkgen _ _), progEvents_driveClkgen] at hran
  have hlines := ht.lines
  rw [progEvents_driveClkgen, foldl_clkgenEvents _ _ hs.inv.sck,
    getLastD_clkgenWire _ (head?_clkgenSeq f r) (getLast?_clkgenSeq f r)] at hlines
  obtain ⟨hdsr, haddrc, hidc⟩ := engineRun_driveClkgen_work s.cfg.ckcfgOrder (clkgenSeq f r) s
  rw [← ht.work] at hdsr haddrc hidc
  rw [← ht.chip] at hmem htreg hsel hchip
  exact ⟨t, hexec, hran, ht.rx (noRx_of_scan (driveClkgen_isScan _ _)), ht.elapsed, hlines, hdsr, haddrc, hidc,
    MemSame.of_mem hmem, htreg, hsel, hchip⟩

theorem head?_clkgenFrameSeq (f : BitVec 14) (r : BitVec 4) : (clkgenFrameSeq f r).head? = some (f.getLsbD 13) := by
  rw [clkgenFrameSeq, List.head?_append, head?_bin f (by omega)]
  rfl

theorem getLast?_clkgenFrameSeq (f : BitVec 14) (r : BitVec 4) :
    (clkgenFrameSeq f r).getLast? = some (r.getLsbD 0) := by
  rw [clkgenFrameSeq, List.getLast?_append, List.getLast?_eq_getElem? (l := bin r), length_bin,
    getElem?_bin r (by omega)]
  rfl

/-- Settles O53: the frame of any pattern is the same two controls and its own positions. -/
theorem clkgen18Drives : Obligations.Clkgen18Drives := by
  intro s f r hs
  obtain ⟨u, hgo, hmem, htreg, hsel, hchip⟩ := goes_clkgen s.cfg.ckcfgOrder (clkgenFrameSeq f r) hs.rest
  obtain ⟨t, hexec, hframed, hlines, hwork, htchip⟩ := exec_pure_frame (i := .clkgen18 f r)
    (p := driveClkgen s.cfg.ckcfgOrder (clkgenFrameSeq f r)) rfl (fun _ => Instr.noConfusion) hs.valid rfl
    (driveClkgen_pure _ _) (driveClkgen_isScan _ _) hgo
  rw [progEvents_driveClkgen] at hframed hlines
  rw [foldl_clkgenEvents _ _ hs.inv.sck,
    getLastD_clkgenWire _ (head?_clkgenFrameSeq f r) (getLast?_clkgenFrameSeq f r)] at hlines
  obtain ⟨hdsr, haddrc, hidc⟩ := engineRun_driveClkgen_work s.cfg.ckcfgOrder (clkgenFrameSeq f r) s
  rw [← hwork] at hdsr haddrc hidc
  rw [← htchip] at hmem htreg hsel hchip
  exact ⟨t, hexec, hframed, hlines, hdsr, haddrc, hidc, MemSame.of_mem hmem, htreg, hsel, hchip⟩

end Sys2Proof.Machine
end


section
/-! ### Payload and chain-id frames run alone (30_encoding.md R81 to R83; 20_memory.md R60 to R64) -/

namespace Sys2Proof.Machine

open Sys2Proof

/-- A frame of the scan wires that completed: it adds the events `es`, leaves `SDO` at `sdo` and every other line as it
was, and the chip as `u` has it. -/
structure WireFrame (s u t : State) (es : List Event) (sdo : Bool) : Prop where
  framed : Framed s t es
  lines : t.lines = { s.lines with sdo := sdo }
  dsr : t.work.dsr = s.work.dsr
  addrc : t.work.addrc = s.work.addrc
  idc : t.work.idc = s.work.idc
  chip : t.chip = u.chip

theorem wire_frame {i : Instr} {s u : State} {p : List Act} {sdo : Bool} (hs : s.Ready) (hc : i.isCommand = false)
    (hr : ∀ w, i ≠ .read32 w) (hprog : programOf i s = p) (hpure : p.all Act.isPure = true)
    (hscan : p.all Act.isScan = true) (hwire : p.all Act.isWire = true)
    (hlines : (progEvents p).foldl lineEvent s.lines = { s.lines with sdo := sdo }) (hgo : Goes p s u) :
    ∃ t, exec i s = .next t ∧ WireFrame s u t (progEvents p) sdo := by
  obtain ⟨t, hexec, hframed, hl, hwork, hchip⟩ := exec_pure_frame hc hr hs.valid hprog hpure hscan hgo
  obtain ⟨hdsr, haddrc, hidc⟩ := keeps_of_wire hwire
  exact ⟨t, hexec, hframed, hl.trans hlines, by rw [hwork, engineRun_dsr s hdsr],
    by rw [hwork, engineRun_addrc s haddrc], by rw [hwork, engineRun_idc s hidc], hchip⟩

section
variable (e w : Bool) (a : BitVec 16) (d : Word) (m : BitVec 4) (s : State)

theorem isCommand_payloadInstr : (payloadInstr e w a d m).isCommand = false := by
  cases e <;> cases w <;> rfl

theorem payloadInstr_ne_read32 (x : Word) : payloadInstr e w a d m ≠ .read32 x := by
  cases e <;> cases w <;> exact Instr.noConfusion

theorem programOf_payloadInstr : programOf (payloadInstr e w a d m) s = writePayload s.cfg.loadTicks a d e w m := by
  cases e <;> cases w <;> rfl

theorem exec_payloadInstr : exec (payloadInstr e w a d m) s = frame (writePayload s.cfg.loadTicks a d e w m) s := by
  rw [exec_frame (isCommand_payloadInstr e w a d m) (payloadInstr_ne_read32 e w a d m), programOf_payloadInstr]

theorem foldl_payloadEvents_ready {s : State} (hs : s.Ready) :
    (payloadEvents s.cfg.loadTicks a d e w m).foldl lineEvent s.lines = { s.lines with sdo := a.getLsbD 15 } := by
  rw [foldl_payloadEvents _ _ _ _ _ _ hs.inv.sck, ← hs.inv.load]

theorem foldl_selectEvents_ready {s : State} (id : BitVec 8) (hs : s.Ready) :
    (selectEvents id).foldl lineEvent s.lines = { s.lines with sdo := id.getLsbD 7 } := by
  rw [foldl_selectEvents _ hs.inv.sck, ← hs.inv.cse]

theorem payload_frame {s u : State} (hs : s.Ready) (hgo : Goes (writePayload s.cfg.loadTicks a d e w m) s u) :
    ∃ t, exec (payloadInstr e w a d m) s = .next t ∧
      WireFrame s u t (payloadEvents s.cfg.loadTicks a d e w m) (a.getLsbD 15) := by
  rw [← progEvents_writePayload]
  refine wire_frame hs (isCommand_payloadInstr e w a d m) (payloadInstr_ne_read32 e w a d m)
    (programOf_payloadInstr e w a d m s) (writePayload_pure _ _ _ _ _ _) (writePayload_isScan _ _ _ _ _ _)
    (writePayload_isWire _ _ _ _ _ _) ?_ hgo
  rw [progEvents_writePayload, foldl_payloadEvents_ready _ _ _ _ _ hs]

end

theorem State.OnTarget.scanning {s : State} {id : BitVec 8} (h : s.OnTarget id) : Scanning s :=
  have hrest := h.ready.rest
  ⟨h.kind, hrest.sck, hrest.srst, h.tm, hrest.cse, hrest.load, hrest.pend⟩

/-- A payload into the selected target, where it does not write past the capacity. -/
theorem payload_onTarget {s : State} {id : BitVec 8} (h : s.OnTarget id) (e w : Bool) (a : BitVec 16) (d : Word)
    (m : BitVec 4) (hfit : captureFits s.cfg id ⟨a, d, e, w, m⟩) :
    ∃ u t, exec (payloadInstr e w a d m) s = .next t ∧
      WireFrame s u t (payloadEvents s.cfg.loadTicks a d e w m) (a.getLsbD 15) ∧ t.chip.selected = s.chip.selected ∧
      t.chip.treg = tregAfter s.cfg s.chip.treg id (payloadValue a d e w m) ∧
      t.chip.mem = (payloadWorld s.cfg s.world id a d e w m).chip.mem := by
  obtain ⟨u, hgo, hsel, htreg, hworld⟩ :=
    Goes'.payload_facts a d e w m h.scanning (h.ready.ticks h.kind) h.selected hfit
  obtain ⟨t, hexec, ht⟩ := payload_frame e w a d m h.ready hgo.goes
  exact ⟨u, t, hexec, ht, by rw [ht.chip, hsel, h.selected], by rw [ht.chip, htreg],
    by rw [ht.chip, chip_of_world hworld]⟩

theorem State.OnTarget.bankOfWrite {s : State} {b : Bank} (h : s.OnTarget ((s.cfg.wr.get b).setWidth 8)) :
    bankOfWrite s.cfg ((s.cfg.wr.get b).setWidth 8) = some b := bankOfWrite_wr h.ready.valid_cfg b

theorem captureFits_wr {s : State} {b : Bank} {p : Payload} (h : s.OnTarget ((s.cfg.wr.get b).setWidth 8))
    (ha : p.addr.toNat < (s.cfg.cap.get b).toNat) : captureFits s.cfg ((s.cfg.wr.get b).setWidth 8) p := by
  intro c hc _
  obtain rfl : b = c := Option.some.inj (h.bankOfWrite.symm.trans hc)
  exact ha

theorem PerBank_get_set {α : Type} (q : PerBank α) (b : Bank) (x : α) :
    (q.set b x).get b = x ∧ ∀ c, c ≠ b → (q.set b x).get c = q.get c :=
  ⟨PerBank_get_set_same _ _ _, fun _ hc => PerBank_get_set_other _ _ hc⟩

theorem Memory.readByte_outside_row {m : Memory} {b : Bank} {a : BitVec 16} {x : Word} (addr : Nat)
    (h : addr < rowAddr b a ∨ rowAddr b a + 4 ≤ addr) : (m.writeRow b a x).readByte addr = m.readByte addr :=
  Memory.readByte_writeRow_other (by omega)

theorem captureWorld_mem_partial {cfg : Config} {w : World} {id : BitVec 8} {b : Bank} {p : Payload}
    (hb : bankOfWrite cfg id = some b) (hwrites : (p.enable && p.write) = true) (hm : p.mask ≠ maskAll) :
    (captureWorld cfg w id p).chip.mem = w.chip.mem.writeRow b p.addr w.draw.1 := by
  rw [captureWorld, hb]
  dsimp only
  rw [if_pos hwrites, if_neg hm]

/-- A payload that writes with another mask leaves the drawn word in its row. -/
theorem payloadWorld_mem_partial {cfg : Config} {w : World} {id : BitVec 8} {b : Bank} (a : BitVec 16) (d : Word)
    {m : BitVec 4} (hm : m ≠ maskAll) (hb : bankOfWrite cfg id = some b) :
    (payloadWorld cfg w id a d true true m).chip.mem = w.chip.mem.writeRow b a w.draw.1 := by
  obtain ⟨-, -, -, hmem⟩ := loadedChip_same cfg w.chip a d true true m
  obtain ⟨-, -, -, -, hcapture⟩ := capturedWorld_facts cfg w (loadedChip cfg w.chip a d true true m) id
    ⟨a, d, true, true, m⟩ (a.getLsbD 15)
  rw [captureWorld_mem_partial (p := ⟨a, d, true, true, m⟩) hb rfl hm, World.draw_chip] at hcapture
  rw [payloadWorld_eq, ← hmem]
  exact hcapture

theorem World.draw_queued {w : World} {x : Word} {rest : List Word} (h : w.env.words = x :: rest) : w.draw.1 = x := by
  rw [World.draw, h]

/-- Settles O45: the capture of the full mask writes the row and the write-data register, no other. -/
theorem payWriteWritesItsRow : Obligations.PayWriteWritesItsRow := by
  intro s b a d h ha
  obtain ⟨u, t, hexec, ht, hsel, htreg, hmem⟩ := payload_onTarget h true true a d 15 (captureFits_wr h ha)
  rw [tregAfter_some h.bankOfWrite] at htreg
  obtain ⟨hsame, hother⟩ := PerBank_get_set s.chip.treg b (payloadValue a d true true 15)
  have hrow : t.chip.mem = s.chip.mem.writeRow b a d := hmem.trans (payloadWorld_mem_write a d h.bankOfWrite)
  rw [← htreg] at hsame hother
  refine ⟨t, hexec, ht.framed, ?_, fun addr haddr => ?_, hsame, hother, hsel, ht.lines, ht.dsr, ht.addrc, ht.idc⟩
  · rw [hrow]
    exact Memory.readRow_writeRow_same h.ready.inv.mem
  · rw [hrow]
    exact Memory.readByte_outside_row addr haddr

/-- Settles O46: the capture of another mask writes the row with a drawn word. -/
theorem payWritePartialMask : Obligations.PayWritePartialMask := by
  intro s b a d m hm h ha
  obtain ⟨u, t, hexec, ht, hsel, htreg, hmem⟩ := payload_onTarget h true true a d m (captureFits_wr h ha)
  rw [tregAfter_some h.bankOfWrite] at htreg
  obtain ⟨hsame, hother⟩ := PerBank_get_set s.chip.treg b (payloadValue a d true true m)
  have hrow : t.chip.mem = s.chip.mem.writeRow b a s.world.draw.1 :=
    hmem.trans (payloadWorld_mem_partial a d hm h.bankOfWrite)
  rw [← htreg] at hsame hother
  refine ⟨t, hexec, ht.framed, fun x rest hx => ?_, fun addr haddr => ?_, hsame, hother, hsel, ht.lines, ht.dsr,
    ht.addrc, ht.idc⟩
  · rw [hrow, World.draw_queued (w := s.world) hx]
    exact Memory.readRow_writeRow_same h.ready.inv.mem
  · rw [hrow]
    exact Memory.readByte_outside_row addr haddr

/-- Settles O47: a capture without both bits set changes the write-data register alone. -/
theorem otherPayloadsChangeNoRow : Obligations.OtherPayloadsChangeNoRow := by
  intro s b e w a d m hew h
  obtain ⟨u, t, hexec, ht, hsel, htreg, hmem⟩ := payload_onTarget h e w a d m (captureFits_of_noWrite hew)
  rw [tregAfter_some h.bankOfWrite] at htreg
  obtain ⟨hsame, hother⟩ := PerBank_get_set s.chip.treg b (payloadValue a d e w m)
  rw [← htreg] at hsame hother
  exact ⟨t, hexec, ht.framed, MemSame.of_mem (hmem.trans (payloadWorld_mem _ _ _ a d e w m (.inl hew))), hsame, hother,
    hsel, ht.lines, ht.dsr, ht.addrc, ht.idc⟩

/-- Settles O48: on a target that is no bank's write target the capture changes nothing, and an oracle has no chip to
change. -/
theorem payloadsElsewhereChangeNoRow : Obligations.PayloadsElsewhereChangeNoRow := by
  intro s e w a d m hcase
  obtain ⟨id, h, hid⟩ | ⟨hs, hk⟩ := hcase
  · have hnone : bankOfWrite s.cfg id = none :=
      Option.eq_none_iff_forall_ne_some.2 fun b hb => hid b (bankOfWrite_some hb).symm
    have hfit : captureFits s.cfg id ⟨a, d, e, w, m⟩ := fun b hb => by rw [hnone] at hb; cases hb
    obtain ⟨u, t, hexec, ht, hsel, htreg, hmem⟩ := payload_onTarget h e w a d m hfit
    rw [tregAfter_none hnone] at htreg
    exact ⟨t, hexec, ht.framed, MemSame.of_mem (hmem.trans (payloadWorld_mem _ _ _ a d e w m (.inr hnone))), htreg,
      hsel, fun hk => EnvKind.noConfusion (h.kind.symm.trans hk), ht.lines, ht.dsr, ht.addrc, ht.idc⟩
  · have hgo := goes_oracle hk (writePayload_pure s.cfg.loadTicks a d e w m)
    obtain ⟨t, hexec, ht⟩ := payload_frame e w a d m hs hgo
    have hchip : t.chip = s.chip := ht.chip.trans ((runActs_reach hgo).oracle hk)
    exact ⟨t, hexec, ht.framed, MemSame.of_mem (by rw [hchip]), by rw [hchip], by rw [hchip], fun _ => hchip, ht.lines,
      ht.dsr, ht.addrc, ht.idc⟩

/-- Settles O50: eight bits shift the id in, and the pulse after them latches it. -/
theorem chainid8Selects : Obligations.Chainid8Selects := by
  intro s id hs htm
  have hrest := hs.rest
  obtain ⟨u, hgo, hrtm⟩ := goes_of_pure (s := s) (p := select id) (F := fun u => u.chip.selected = some id ∧
      u.chip.treg = s.chip.treg ∧ u.chip.mem = s.chip.mem ∧ u.world = latchWorld s.cfg s.world id) (select_pure id)
    fun hk => by
      have hscan : Scanning s := ⟨hk, hrest.sck, hrest.srst, htm hk, hrest.cse, hrest.load, hrest.pend⟩
      obtain ⟨u, hgo, hfacts⟩ := Goes'.select_facts id hscan
      exact ⟨u, hgo.goes, hfacts⟩
  obtain ⟨t, hexec, ht⟩ := wire_frame (i := .chainid8 id) (p := select id) (sdo := id.getLsbD 7) hs rfl
    (fun _ => Instr.noConfusion) rfl (select_pure id) (select_isScan id) (select_isWire id)
    (by rw [progEvents_select, foldl_selectEvents_ready id hs]) hgo
  have hreach := runActs_reach hgo
  have hframed := ht.framed
  rw [progEvents_select] at hframed
  have hmem : t.chip.mem = s.chip.mem := by
    rw [ht.chip]
    refine hreach.chip_field Chip.mem fun hk => ?_
    obtain ⟨-, -, hmem, -⟩ := hrtm hk
    exact hmem
  have htreg : t.chip.treg = s.chip.treg := by
    rw [ht.chip]
    refine hreach.chip_field Chip.treg fun hk => ?_
    obtain ⟨-, htreg, -⟩ := hrtm hk
    exact htreg
  refine ⟨t, hexec, hframed, MemSame.of_mem hmem, htreg, ht.lines, ht.dsr, ht.addrc, ht.idc,
    fun hk => ht.chip.trans (hreach.oracle hk), fun hk => ?_⟩
  obtain ⟨hsel, -, -, hworld⟩ := hrtm hk
  rw [ht.chip]
  refine ⟨hsel, fun b hb hrow => ?_⟩
  subst hb
  rw [← regRow_eq] at hrow ⊢
  rw [chip_of_world hworld]
  exact latchWorld_rdSr (w := s.world) (bankOfRead_rd hs.valid_cfg b) hrow

/-! Where a frame is stuck -/

/-- The capture pulse of a payload whose bits ran on. -/
theorem atRise_capture {s u : State} {tm : Bool} {v : BitVec 54} {n : BitVec 6} {bs : BitSeq}
    (h : InCtx s false tm false false false) (hbits : runActs (driveBits bs) (s.shiftReady v n) = .go u)
    (hpend : u.chip.selPend = false) :
    u.lines.sck = false ∧ AtRise (recordWrite .sck true (recordWrite .load true u)) false tm false true false := by
  have hl : u.lines = s.lines.set .sdo (bs.getLastD s.lines.sdo) := by
    rw [runActs_go_lines hbits]
    exact foldl_driveBits_events bs s.lines h.sck
  have hlines : (recordWrite .sck true (recordWrite .load true u)).lines = (u.lines.set .load true).set .sck true := rfl
  refine ⟨by rw [hl]; exact h.sck, (runActs_reach hbits).kind.trans h.kind, ?_, ?_, ?_, rfl, hpend⟩ <;> rw [hlines, hl]
  exacts [h.srst, h.tm, h.cse]

section
variable {s : State} {e w : Bool} {a : BitVec 16} {d : Word} {m : BitVec 4}

theorem runActs_payload_outside (h : InCtx s false false false false false) :
    runActs (writePayload ⟨0, 1, 1⟩ a d e w m) s = .stuck .rtmOutsideTestMode := by
  rw [writePayload_eq]
  generalize (encodePayload a d e w m).reverse = bs
  generalize BitVec.ofNat 54 (ubig (encodePayload a d e w m)) = v
  generalize BitVec.ofNat 6 (encodePayload a d e w m).length = n
  have hbits := runActs_driveBits_idle bs (s := s.shiftReady v n) ⟨h.kind, h.sck, h.srst, h.tm, h.cse, h.load, h.pend⟩
  have hpend : (engineRun (driveBits bs) (s.shiftReady v n)).chip.selPend = false := by
    rw [engineRun_chip]; exact h.pend
  obtain ⟨hsck, hrise⟩ := atRise_capture h hbits hpend
  exact runActs_payload_stuck v n bs hbits hsck (envRise_outside hrise rfl)

/-- In test mode a payload is stuck where its capture is, all its bits in the payload register. -/
theorem runActs_payload_inside {f : Fault} (h : InCtx s false true false false false)
    (hcapture : ∀ u : State, u.cfg = s.cfg → u.chip = loadedChip s.cfg s.chip a d e w m → rtmCapture u = .stuck f) :
    runActs (writePayload ⟨0, 1, 1⟩ a d e w m) s = .stuck f := by
  have hloaded := foldl_shiftChip_payload s.cfg s.chip a d e w m
  rw [writePayload_eq]
  generalize (encodePayload a d e w m).reverse = bs at hloaded ⊢
  generalize BitVec.ofNat 54 (ubig (encodePayload a d e w m)) = v
  generalize BitVec.ofNat 6 (encodePayload a d e w m).length = n
  have hbits := runActs_driveBits_shift bs (s := s.shiftReady v n) ⟨h.kind, h.sck, h.srst, h.tm, h.cse, h.load, h.pend⟩
  generalize hu : (engineRun (driveBits bs) (s.shiftReady v n)).withWorld _ = u at hbits
  have hchip : u.chip = loadedChip s.cfg s.chip a d e w m := by rw [← hu]; exact hloaded
  have hpend : u.chip.selPend = false := by
    obtain ⟨-, hsame, -⟩ := loadedChip_same s.cfg s.chip a d e w m
    rw [hchip, hsame]
    exact h.pend
  obtain ⟨hsck, hrise⟩ := atRise_capture h hbits hpend
  refine runActs_payload_stuck v n bs hbits hsck ?_
  rw [envRise_capture hrise]
  exact hcapture _ (runActs_reach hbits).cfg hchip

end

theorem rtmCapture_beyond {u : State} {id : BitVec 8} {b : Bank} {p : Payload} (hsel : u.chip.selected = some id)
    (hb : bankOfWrite u.cfg id = some b) (hp : decodePayload (bin u.chip.paySr) = p)
    (hwrites : (p.enable && p.write) = true) (hcap : (u.cfg.cap.get b).toNat ≤ p.addr.toNat) :
    rtmCapture u = .stuck .rtmWriteBeyondCapacity := by
  rw [rtmCapture, hsel]
  dsimp only
  rw [hb]
  dsimp only
  rw [hp, if_pos hwrites, rtmWriteRow]
  exact if_pos hcap

/-- Settles O49: outside test mode the load line, or the chain select, meets a rising clock; inside it the capture finds
no target, or a row past the capacity. -/
theorem framesWithoutMeaningFault : Obligations.FramesWithoutMeaningFault := by
  intro s e w a d m hs hk
  have hrest := hs.rest
  have hctx (tm : Bool) (htm : s.lines.tm = tm) : InCtx s false tm false false false :=
    ⟨hk, hrest.sck, hrest.srst, htm, hrest.cse, hrest.load, hrest.pend⟩
  refine ⟨fun htm => ⟨?_, fun id => ?_⟩, fun htm hsel => ?_, fun b htm hsel hcap => ?_⟩
  · rw [exec_payloadInstr, hs.ticks hk]
    exact frame_stuck hs.valid (runActs_payload_outside (hctx false htm))
  · exact frame_stuck hs.valid (runActs_select_stuck id hrest hk htm)
  · rw [exec_payloadInstr, hs.ticks hk]
    refine frame_stuck hs.valid (runActs_payload_inside (hctx true htm) fun u _ hchip => ?_)
    have hnone : u.chip.selected = none := by rw [hchip, (loadedChip_same s.cfg s.chip a d e w m).1, hsel]
    rw [rtmCapture, hnone]
  · change exec (payloadInstr true true a d m) s = _
    rw [exec_payloadInstr, hs.ticks hk]
    refine frame_stuck hs.valid (runActs_payload_inside (hctx true htm) fun u hcfg hchip => ?_)
    have hselected : u.chip.selected = some ((s.cfg.wr.get b).setWidth 8) := by
      rw [hchip, (loadedChip_same s.cfg s.chip a d true true m).1, hsel]
    have hpayload : decodePayload (bin u.chip.paySr) = ⟨a, d, true, true, m⟩ := by
      rw [hchip, loadedChip_paySr, decodePayload_payloadValue]
    exact rtmCapture_beyond hselected (by rw [hcfg]; exact bankOfWrite_wr hs.valid_cfg b) hpayload rfl
      (by rw [hcfg]; exact hcap)

end Sys2Proof.Machine
end


section
/-! ### A read word deserialized alone (30_encoding.md R84; 40_primitives.md R112) -/

namespace Sys2Proof.Machine

open Sys2Proof

/-! The working registers that the deserializer leaves -/

/-- The steps of a `shift_in`. -/
def Act.deserializes : Act → Bool
  | .phase _ => true
  | .startRead _ => true
  | .cycle _ => true
  | .tick _ => true
  | _ => false

/-- The serializer and the row and chain-id counters are as they were. -/
structure CountersSame (s t : State) : Prop where
  shr : t.work.shr = s.work.shr
  addrc : t.work.addrc = s.work.addrc
  idc : t.work.idc = s.work.idc

theorem CountersSame.of_regs {s t u : State} (h : CountersSame s u) (hregs : SameRegs u t) : CountersSame s t :=
  ⟨hregs.shr.trans h.shr, hregs.addrc.trans h.addrc, hregs.idc.trans h.idc⟩

theorem engineRun_deserializes {p : List Act} (s : State) (h : p.all Act.deserializes = true) :
    CountersSame s (engineRun p s) := by
  have hact (a : Act) (ha : a ∈ p) (u : State) : CountersSame u (engineAct a u) := by
    have := List.all_eq_true.1 h a ha
    cases a with
    | phase | startRead | cycle | tick => exact ⟨rfl, rfl, rfl⟩
    | set | loadShift | out | row | ident | clearFault | rxClear | rxStore | startPolls | poll | timeout | raise =>
      cases this
  exact ⟨engineRun_field (fun s => s.work.shr) p s fun a ha u => (hact a ha u).shr,
    engineRun_field (fun s => s.work.addrc) p s fun a ha u => (hact a ha u).addrc,
    engineRun_field (fun s => s.work.idc) p s fun a ha u => (hact a ha u).idc⟩

theorem shiftIn_deserializes (n : Nat) : (shiftIn n).all Act.deserializes = true := by
  have hcycles (n : Nat) : (shiftInCycles n).all Act.deserializes = true := by
    induction n with
    | zero => rfl
    | succ n ih => simp only [shiftInCycles, List.all_cons, ih, Act.deserializes, Bool.and_true]
  simp only [shiftIn, List.all_cons, hcycles, Act.deserializes, Bool.and_true]

theorem CountersSame.of_go {p : List Act} {s t : State} (h : runActs p s = .go t) (hp : p.all Act.deserializes = true) :
    CountersSame s t :=
  (engineRun_deserializes s hp).of_regs (runActs_go_regs h)

theorem CountersSame.of_stop {p : List Act} {s t : State} {e : Result} (h : runActs p s = .stop t e)
    (hp : p.all Act.deserializes = true) : CountersSame s t := by
  obtain ⟨q, a, r, u, rfl, hq, ha⟩ := runActs_stop_split h
  simp only [List.all_append, Bool.and_eq_true] at hp
  exact (CountersSame.of_go hq hp.1).of_regs (act_stop_regs ha)

/-! The word presented -/

theorem sdiFrame_presentFrame (w : Word) (s : State) :
    (presentFrame w s).env.sdiFrame = (List.range 32).map w.getLsbD := reverse_bin w

theorem cycleBit_presentFrame (w : Word) (s : State) {j : Nat} (hj : j < 32) :
    cycleBit (presentFrame w s) j = w.getLsbD j := by
  rw [cycleBit, sdiFrame_presentFrame, List.getElem?_map, List.getElem?_range hj]
  rfl

theorem cycleEvents_presentFrame (w : Word) (s : State) {n : Nat} (hn : n ≤ 32) :
    cycleEvents (cycleBit (presentFrame w s)) n = sampleEvents w n :=
  List.flatMap_congr fun j hj => by
    rw [cycleBit_presentFrame w s (by have := List.mem_range.1 hj; omega)]

theorem world_presentFrame (w : Word) (s : State) {j : Nat} (hj : j < 32) :
    (presentFrame w s).world.sdi j = w.getLsbD j ∧ (presentFrame w s).world.svld j = drawnBit s j := by
  have hlen : j < (presentFrame w s).world.env.sdiFrame.length := by
    rw [world_env, sdiFrame_presentFrame, List.length_map, List.length_range]
    exact hj
  obtain ⟨hsdi, hsvld⟩ := World.answers_presented hlen
  refine ⟨hsdi.trans ?_, hsvld⟩
  simp only [world_env, sdiFrame_presentFrame, List.getElem_map, List.getElem_range]

theorem wordOf_presentFrame (w : Word) (s : State) : wordOf (presentFrame w s).world.sdi = w :=
  foldl_pushTop_word w 0 _ fun _ hj => (world_presentFrame w s hj).1

/-- What the deserializer leaves of a state, the events `es` added. -/
structure Deserialized (s u : State) (es : List Event) : Prop where
  lines : u.lines = s.lines
  status : u.status = s.status
  rx : RxSame s u
  elapsed : u.elapsed = s.elapsed
  mem : u.chip.mem = s.chip.mem
  treg : u.chip.treg = s.chip.treg
  selected : u.chip.selected = s.chip.selected
  log : u.log = es.reverse ++ s.log

theorem State.OnTarget.reading {s : State} {b : Bank} (h : s.OnTarget ((s.cfg.rd.get b).setWidth 8)) (w : Word) :
    Reading (presentFrame w s) where
  scanning := ⟨h.kind, h.scanning.sck, h.scanning.srst, h.tm, h.scanning.cse, h.scanning.load, h.scanning.pend⟩
  target := by
    change readSelected s.cfg s.chip = true
    rw [readSelected, h.selected]
    exact congrArg Option.isSome (bankOfRead_rd h.ready.valid_cfg b)

theorem goes_presented {s : State} (w : Word) (hs : s.Ready)
    (h : (∃ b, s.OnTarget ((s.cfg.rd.get b).setWidth 8)) ∧ s.Answers 32 ∨
      s.env.kind = .oracle ∧ ∀ j, j < 32 → drawnBit s j = true) :
    ∃ u, Goes (shiftIn Config.wordWidth) (presentFrame w s) u ∧ u.work.dsr = w ∧
      Deserialized s u (sampleEvents w 32) := by
  obtain ⟨⟨b, htarget⟩, hans⟩ | ⟨hk, hans⟩ := h
  · obtain ⟨u, hgo, -, -, hlines, hmem, htreg, hsel, -, -, hrxlen, hrxbuf, hstatus, helapsed, hlog, hdsr⟩ :=
      goes_shiftIn (htarget.reading w) (force_of_answers htarget.kind hans)
    rw [cycleEvents_presentFrame w s (Nat.le_refl 32)] at hlog
    exact ⟨u, hgo, hdsr w fun _ => cycleBit_presentFrame w s,
      ⟨hlines, hstatus, ⟨hrxlen, hrxbuf⟩, helapsed, hmem, htreg, hsel, hlog⟩⟩
  · obtain ⟨u, hgo, -, hdsr, hlog, hlines, hrxlen, hrxbuf, hstatus, helapsed, -⟩ :=
      goes_shiftIn_oracle (s := presentFrame w s) hk hs.inv.sck fun j hj =>
        (world_presentFrame w s hj).2.trans (hans j hj)
    rw [wordOf_presentFrame] at hdsr hlog
    have hchip : u.chip = s.chip := (runActs_reach hgo).oracle hk
    exact ⟨u, hgo, hdsr,
      ⟨hlines, hstatus, ⟨hrxlen, hrxbuf⟩, helapsed, by rw [hchip], by rw [hchip], by rw [hchip], hlog⟩⟩

theorem stops_presented {s : State} (w : Word) {k : Nat} (hk32 : k < 32) (hs : s.Ready)
    (h : (∃ b, s.OnTarget ((s.cfg.rd.get b).setWidth 8)) ∧ s.FaultsAt k ∨
      s.env.kind = .oracle ∧ (∀ j, j < k → drawnBit s j = true) ∧ drawnBit s k = false) :
    ∃ u, runActs (shiftIn Config.wordWidth) (presentFrame w s) = .stop u .protocolFault ∧
      Deserialized s u (sampleEvents w k ++ [.r .sdi (w.getLsbD k), .r .svld false]) := by
  obtain ⟨⟨b, htarget⟩, hx⟩ | ⟨hk, hbefore, hat⟩ := h
  · obtain ⟨u, hstop, -, -, hlines, hmem, htreg, hsel, hrxlen, hrxbuf, hstatus, helapsed, hlog⟩ :=
      stops_shiftIn k hk32 (htarget.reading w) (force_of_answers htarget.kind hx.before)
        (force_of_faultsAt (s := s) htarget.kind hx)
    rw [cycleEvents_presentFrame w s hk32.le, cycleBit_presentFrame w s hk32] at hlog
    exact ⟨u, hstop, ⟨hlines, hstatus, ⟨hrxlen, hrxbuf⟩, helapsed, hmem, htreg, hsel, hlog⟩⟩
  · obtain ⟨u, hstop, hlog, hlines, hrxlen, hrxbuf, hstatus, helapsed⟩ :=
      stops_shiftIn_oracle (s := presentFrame w s) hk32 hk hs.inv.sck
        (fun j hj => (world_presentFrame w s (hj.trans hk32)).2.trans (hbefore j hj))
        ((world_presentFrame w s hk32).2.trans hat)
    rw [wordOf_presentFrame] at hlog
    have hchip : u.chip = s.chip := (runActs_reach_stop hstop).oracle hk
    exact ⟨u, hstop,
      ⟨hlines, hstatus, ⟨hrxlen, hrxbuf⟩, helapsed, by rw [hchip], by rw [hchip], by rw [hchip], hlog⟩⟩

/-! The frame's two ends -/

/-- Settles O51: all 32 samples are valid, and their bits are the word's. -/
theorem read32IsDeserialized : Obligations.Read32IsDeserialized := by
  intro s w hs h
  obtain ⟨u, hgo, hdsr, hu⟩ := goes_presented w hs h
  have hreach := runActs_reach hgo
  have hexec : exec (.read32 w) s = .next (endFrame { u with phase := .idle }) := by
    rw [exec_read32, frame_go (s := presentFrame w s) hs.valid hgo]
  obtain ⟨hshr, haddrc, hidc⟩ := CountersSame.of_go hgo (shiftIn_deserializes _)
  have hhost : HostSideSame s (endFrame { u with phase := .idle }) :=
    ⟨hreach.cfg, hreach.cmd, hreach.txlen, hreach.txbuf, hreach.host, hreach.hostData⟩
  exact ⟨_, hexec, ⟨hreach.result, hu.status, rfl, hu.elapsed, hhost, ⟨hu.rx.rxlen, hu.rx.rxbuf⟩, trace_iff.2 hu.log⟩,
    hdsr, hu.lines, haddrc, hidc, hshr, MemSame.of_mem hu.mem, hu.treg, hu.selected, hreach.oracle⟩

theorem read32_stops {s u : State} {w : Word} {es : List Event} (hs : s.Ready)
    (hstop : runActs (shiftIn Config.wordWidth) (presentFrame w s) = .stop u .protocolFault)
    (hu : Deserialized s u es) :
    exec (.read32 w) s = .next (endFrame (finish .protocolFault u)) ∧
      Ran s (endFrame (finish .protocolFault u)) .protocolFault true es := by
  refine ⟨?_, ⟨rfl, rfl, ?_⟩, ?_, trace_iff.2 hu.log⟩
  · rw [exec_read32, frame_stop (s := presentFrame w s) hs.valid hstop]
  · rw [endFrame_status, finish_status, hu.status]
    rfl
  · have hreach := runActs_reach_stop hstop
    exact ⟨hreach.cfg, hreach.cmd, hreach.txlen, hreach.txbuf, hreach.host, hreach.hostData⟩

theorem rtmValid_presentFrame {s : State} (w : Word)
    (h : s.lines.tm = false ∨ ∀ b, s.chip.selected ≠ some ((s.cfg.rd.get b).setWidth 8)) :
    rtmValid (presentFrame w s) = false := by
  rw [rtmValid, presentFrame_lines, presentFrame_chip, presentFrame_cfg]
  obtain htm | hsel := h
  · rw [htm, Bool.false_and]
  · cases hid : s.chip.selected with
    | none => exact Bool.and_false _
    | some id =>
      have hnone : bankOfRead s.cfg id = none :=
        Option.eq_none_iff_forall_ne_some.2 fun b hb => hsel b (hid.trans (congrArg some (bankOfRead_some hb).symm))
      simp only [hnone, Option.isSome_none, Bool.and_false]

/-- Settles O52: the samples before the false one are valid; where no read target is selected in test mode, the first is
the false one. -/
theorem read32Faults : Obligations.Read32Faults := by
  intro s w hs
  refine ⟨fun k hk32 h => ?_, fun hk h => ?_⟩
  · obtain ⟨u, hstop, hu⟩ := stops_presented w hk32 hs h
    obtain ⟨hexec, hran⟩ := read32_stops hs hstop hu
    obtain ⟨hshr, haddrc, hidc⟩ := CountersSame.of_stop hstop (shiftIn_deserializes _)
    exact ⟨_, hexec, hran, ⟨hu.rx.rxlen, hu.rx.rxbuf⟩, hu.elapsed, hu.lines, MemSame.of_mem hu.mem, hu.treg,
      hu.selected, (runActs_reach_stop hstop).oracle, hshr, haddrc, hidc⟩
  · have hframe : (presentFrame w s).env.sdiFrame = w.getLsbD 0 :: (List.range 31).map fun j => w.getLsbD (j + 1) := by
      rw [sdiFrame_presentFrame, List.range_succ_eq_map, List.map_cons, List.map_map]
      rfl
    obtain ⟨work, env, hstop⟩ :=
      stops_shiftIn_invalid (s := presentFrame w s) hk (rtmValid_presentFrame w h) hframe
    obtain ⟨hexec, hran⟩ := read32_stops hs hstop
      (es := [.r .sdi (w.getLsbD 0), .r .svld false]) ⟨rfl, rfl, ⟨rfl, rfl⟩, rfl, rfl, rfl, rfl, rfl⟩
    obtain ⟨hshr, haddrc, hidc⟩ := CountersSame.of_stop hstop (shiftIn_deserializes _)
    exact ⟨_, hexec, hran, ⟨rfl, rfl⟩, rfl, rfl, rfl, hshr, haddrc, hidc⟩

end Sys2Proof.Machine
end
